-- ==== Sys2Proof/Word.lean ====
section
/-! DEFINITION. The word types of the block: command, response and code register words, stream bytes, one-bit values. -/

namespace Sys2Proof

/-- A 32-bit word: a command word (R70, R71), a response word (R76), the code register C (R22). -/
abbrev Word := BitVec 32

/-- A stream byte, read as an unsigned number 0..255 (R52). -/
abbrev Byte := BitVec 8

/-- One bit: a symbol `x`, a sense `s` of the MPS, the flags `g` and `z` (R71, R73, R28). -/
abbrev Bit := BitVec 1

end Sys2Proof
end

