-- ==== Sys2Proof/Syntax.lean ====
section
/-! DEFINITION. The eleven commands of MQCMD-1 (R74), one constructor per row of the opcode table. -/

namespace Sys2Proof

/-- A decoded command with its operands (R71 to R74). Operands have the width of their field, so none can be out of
the field's range; `c < N`, `sid < NSID` and `1 <= p <= 0x7FFF` are checked when the command executes (R73, R180). -/
inductive Instr where
  /-- `RESET`: zero all contexts (R170). -/
  | reset
  /-- `RSTENC`: start encoding a message (R171). -/
  | rstenc
  /-- `RSTDEC`: start decoding the installed stream (R172). -/
  | rstdec
  /-- `ENCCTX x, c`: encode symbol `x` with context `c` (R173). -/
  | encctx (x : Bit) (c : BitVec 16)
  /-- `DECCTX c`: decode a symbol with context `c` (R174). -/
  | decctx (c : BitVec 16)
  /-- `ENCPRB x, q`: encode `x` with LPS probability `p` and MPS sense `g` (R175). -/
  | encprb (x : Bit) (g : Bit) (p : BitVec 16)
  /-- `DECPRB q`: decode with LPS probability `p` and MPS sense `g` (R176). -/
  | decprb (g : Bit) (p : BitVec 16)
  /-- `TERME`: easy termination (R200). -/
  | terme
  /-- `TERMO`: optimal termination (R201). -/
  | termo
  /-- `REMB`: remaining-bytes estimate (R177). -/
  | remb
  /-- `CHSTR sid` (`z = 0`) or `CHSTR.Z sid` (`z = 1`): install a stream buffer (R178). -/
  | chstr (z : Bit) (sid : BitVec 16)
  deriving DecidableEq, Repr

end Sys2Proof
end

