-- ==== Sys2Proof/Decode.lean ====
section
/-! DEFINITION. The decoder of command words (R73, R74, R81), total on every 32-bit word, and the encoder (R71, R72, R79). -/

namespace Sys2Proof

/-- `op`, bits 31..28 (R71). -/
def fieldOp (w : Word) : BitVec 4 := w.extractLsb' 28 4
/-- `rsv1`, bits 27..25 (R71). -/
def fieldRsv1 (w : Word) : BitVec 3 := w.extractLsb' 25 3
/-- `x`, bit 24 (R71). -/
def fieldX (w : Word) : Bit := w.extractLsb' 24 1
/-- `rsv2`, bits 23..17 (R71). -/
def fieldRsv2 (w : Word) : BitVec 7 := w.extractLsb' 17 7
/-- `g` (for CHSTR `z`), bit 16 (R71). -/
def fieldG (w : Word) : Bit := w.extractLsb' 16 1
/-- `imm`, bits 15..0 (R71). -/
def fieldImm (w : Word) : BitVec 16 := w.extractLsb' 0 16

/-- The opcode is one of the eleven (R75: not `0x0`, `0xC` to `0xF`). -/
def opUsed (op : BitVec 4) : Bool := decide (0x1 ≤ op) && decide (op ≤ 0xB)
/-- The commands with the operand `x`: ENCCTX and ENCPRB (R71). -/
def opHasX (op : BitVec 4) : Bool := op == 0x4 || op == 0x6
/-- The commands with the operand `g`: ENCPRB, DECPRB and CHSTR (R71). -/
def opHasG (op : BitVec 4) : Bool := op == 0x6 || op == 0x7 || op == 0xB
/-- The commands with the operand `imm`: all but those of format F0 (R72). -/
def opHasImm (op : BitVec 4) : Bool := op == 0x4 || op == 0x5 || op == 0x6 || op == 0x7 || op == 0xB

/-- Why a word is no command (R75). Each is answered with the one status `IllegalCommand`; the reason itself is the
model's own naming and is not architecturally visible (log entry 20, safe). -/
inductive IllegalWord where
  /-- `op` is `0x0` or `0xC` to `0xF`. -/
  | unusedOpcode
  /-- `rsv1`, bits 27..25, is not zero. -/
  | reservedBits27to25
  /-- `rsv2`, bits 23..17, is not zero. -/
  | reservedBits23to17
  /-- `x = 1` on a command other than ENCCTX and ENCPRB. -/
  | strayX
  /-- `g = 1` on a command other than ENCPRB, DECPRB and CHSTR. -/
  | strayG
  /-- `imm` is not zero on a command of format F0. -/
  | strayImm
  deriving DecidableEq, Repr

/-- One row of the opcode map of R74: `w` is the command iff `w & mask = pattern`; `read` extracts the operands (R73). -/
structure OpcodeRow where
  mnemonic : String
  pattern : Word
  mask : Word
  read : Word → Instr

/-- The opcode map of R74, row by row. -/
def opcodeRows : List OpcodeRow :=
  [ ⟨"RESET", 0x10000000, 0xFFFFFFFF, fun _ => .reset⟩,
    ⟨"RSTENC", 0x20000000, 0xFFFFFFFF, fun _ => .rstenc⟩,
    ⟨"RSTDEC", 0x30000000, 0xFFFFFFFF, fun _ => .rstdec⟩,
    ⟨"ENCCTX", 0x40000000, 0xFEFF0000, fun w => .encctx (fieldX w) (fieldImm w)⟩,
    ⟨"DECCTX", 0x50000000, 0xFFFF0000, fun w => .decctx (fieldImm w)⟩,
    ⟨"ENCPRB", 0x60000000, 0xFEFE0000, fun w => .encprb (fieldX w) (fieldG w) (fieldImm w)⟩,
    ⟨"DECPRB", 0x70000000, 0xFFFE0000, fun w => .decprb (fieldG w) (fieldImm w)⟩,
    ⟨"TERME", 0x80000000, 0xFFFFFFFF, fun _ => .terme⟩,
    ⟨"TERMO", 0x90000000, 0xFFFFFFFF, fun _ => .termo⟩,
    ⟨"REMB", 0xA0000000, 0xFFFFFFFF, fun _ => .remb⟩,
    ⟨"CHSTR", 0xB0000000, 0xFFFE0000, fun w => .chstr (fieldG w) (fieldImm w)⟩ ]

/-- The word is the command of this row (R74). -/
def OpcodeRow.hits (r : OpcodeRow) (w : Word) : Bool := w &&& r.mask == r.pattern

/-- The first check of R75 that a word which is no command fails. -/
def whyIllegal (w : Word) : IllegalWord :=
  if opUsed (fieldOp w) = false then .unusedOpcode
  else if fieldRsv1 w ≠ 0 then .reservedBits27to25
  else if fieldRsv2 w ≠ 0 then .reservedBits23to17
  else if opHasX (fieldOp w) = false ∧ fieldX w ≠ 0 then .strayX
  else if opHasG (fieldOp w) = false ∧ fieldG w ≠ 0 then .strayG
  else .strayImm

/-- Decoding (R81): compare the word with the eleven pairs, extract the operands of the row that matches; a word no row
matches is illegal (R75). -/
def decode (w : Word) : Except IllegalWord Instr :=
  match opcodeRows.find? (·.hits w) with
  | some r => .ok (r.read w)
  | none => .error (whyIllegal w)

/-- The host's table names a command by the bits of its one word, bit 0 least significant (R71). -/
def decodeTableWord (nbits w : Nat) : Option Instr :=
  match decode (BitVec.ofNat 32 (w % 2 ^ nbits)) with
  | .ok i => some i
  | .error _ => none

/-- Bits 31..16 of a command word: `op`, `rsv1 = 000`, `x`, `rsv2 = 0000000`, `g` (R71, R72). -/
def headBits (op : BitVec 4) (x g : Bit) : BitVec 16 := op ++ 0#3 ++ x ++ 0#7 ++ g

/-- The command word of a command (R72, R79). -/
def encode : Instr → Word
  | .reset => headBits 0x1 0 0 ++ 0#16
  | .rstenc => headBits 0x2 0 0 ++ 0#16
  | .rstdec => headBits 0x3 0 0 ++ 0#16
  | .encctx x c => headBits 0x4 x 0 ++ c
  | .decctx c => headBits 0x5 0 0 ++ c
  | .encprb x g p => headBits 0x6 x g ++ p
  | .decprb g p => headBits 0x7 0 g ++ p
  | .terme => headBits 0x8 0 0 ++ 0#16
  | .termo => headBits 0x9 0 0 ++ 0#16
  | .remb => headBits 0xA 0 0 ++ 0#16
  | .chstr z sid => headBits 0xB 0 z ++ sid

end Sys2Proof
end

