-- ==== Sys2Proof/Config.lean ====
section
/-! DEFINITION. The construction-time parameters of R8, the values the reset state takes for them, and the host's evaluation
of the probability helpers (R232). -/

namespace Sys2Proof.Config

/-- The construction-time parameters (R8): fixed before power-on and never changed afterwards (R270).
They are arguments of the model (D1, D6, D12): `State.powerOn` takes any of them, and a statement about every state
is a statement about every value of them. -/
structure Params where
  /-- `N`, the number of contexts, possibly 0 (D12). -/
  contexts : Nat
  /-- `NSID`, the number of stream buffers (D6). -/
  buffers : Nat
  /-- `CAP`, the capacity of a buffer in bytes; `none` is "unbounded" (D6). -/
  capacity : Option Nat
  /-- `LW`, the width of the stream position L in bits (D1). -/
  positionWidth : Nat
  deriving DecidableEq, Repr

/-- The ranges R8 and the list of open parameters in 92_eei_decisions.md give. -/
def Params.legal (p : Params) : Bool :=
  decide (p.contexts ≤ 65536) && decide (1 ≤ p.buffers) && decide (p.buffers ≤ 65536) && decide (2 ≤ p.positionWidth)

/-- The parameters of `State.reset`. DESIGN CHOICE (log entry 1), unsafe only for a claim about `State.reset` itself:
`CAP` unbounded and `LW` 32 are the spec's defaults; N = 1 and NSID = 2 are what 95_test_vectors.md uses
"unless said otherwise". -/
def standard : Params := ⟨1, 2, none, 32⟩

/-- The host's evaluation of the two probability helpers (R232, D17, 93 U8): an argument of the model wherever a host
turns a probability into an operand or back. The spec leaves the rounding of an `f32` evaluation open within one unit of
magnitude; `exactEvaluation` is its default. -/
structure HostEvaluation where
  /-- `prob0_to_mq` as this host computes it. -/
  prob0ToMq : Rat → Int
  /-- `mq_to_prob0` as this host computes it. -/
  mqToProb0 : Int → Rat

end Sys2Proof.Config
end

