-- ==== Sys2Proof/Machine/State.lean ====
section
/-! DEFINITION. The state of one instance of the block (R20), the stream store (R50), the response port (R70) and the
host agent's moves still to come (R289); the state after power-on (R270); the reasons a step can stop. -/

namespace Sys2Proof.Machine

/-- `mode` (R29): IDLE, ENC or DEC. The value 3 is never written, so it has no name here (log entry 12). -/
inductive Mode where
  | idle
  | enc
  | dec
  deriving DecidableEq, Repr

/-- One context (R27, R28): `ctx_state[c]`, an index 0..46, and `ctx_mps[c]`, a bit. The 6-bit values 47..63 are never
written, so they have no name here (log entry 12). -/
structure Context where
  state : Fin 47
  mps : Bit
  deriving DecidableEq, Repr

/-- The contents of one stream buffer: `byte[0] .. byte[len-1]`, with `len` the length of the list (R50). Bytes at or
beyond `len` do not exist (R51), and a list holds none, so equal buffers are equal lists (log entry 15). -/
abbrev Buffer := List Byte

/-- The stream store `SM[0] .. SM[NSID-1]` (R50); an address is a pair (handle, offset). -/
abbrev Memory := List Buffer

/-- The form of a store (R50): 1 to 65536 buffers, none longer than `CAP`. -/
def Memory.wf (cap : Option Nat) (m : Memory) : Bool :=
  decide (1 ≤ m.length) && decide (m.length ≤ 65536) &&
  m.all fun b => match cap with
    | none => true
    | some k => decide (b.length ≤ k)

/-- The status of a response (R77). Codes 8..15 are never produced, so they have no name here (log entry 12). -/
inductive Status where
  | ok
  | invalidMarker
  | streamIO
  | badContext
  | badSequence
  | illegalCommand
  | badProbability
  | noStream
  deriving DecidableEq, Repr

/-- The two execution errors (R240, R241, R242): met part-way through a command. -/
inductive ExecError where
  | invalidMarker
  | streamIO
  deriving DecidableEq, Repr

/-- What the host may do to the contents of a buffer that is not installed (R289). -/
inductive BufferEdit where
  /-- Write byte `b` at an existing offset. -/
  | write (offset : Nat) (b : Byte)
  /-- Append bytes at the end. -/
  | append (bytes : List Byte)
  /-- Keep the first `n` bytes. -/
  | truncate (n : Nat)
  /-- Replace the whole contents. -/
  | replace (bytes : List Byte)
  deriving DecidableEq, Repr

/-- A move of the host (R289). -/
inductive HostMove where
  /-- Issue one command word. -/
  | issue (w : Word)
  /-- Issue the words of a pseudo-instruction in order, stopping at the first response that is not OK (R80). -/
  | sequence (ws : List Word)
  /-- Read buffer `sid` (bytes and length); no effect on the block. -/
  | read (sid : Nat)
  /-- Change the contents of buffer `sid`. -/
  | edit (sid : Nat) (e : BufferEdit)
  deriving DecidableEq, Repr

/-- Why the machine sticks. -/
inductive Fault where
  /-- Raised by the loops of R102 and R104 entered with `A = 0`: "with `p = 0` an LPS sets `A <- 0` and `renorm_enc` never
  ends" (R105). No run reaches it (R106). A stuck state, safe (log entry 9). -/
  | endlessRenormalization
  deriving DecidableEq, Repr

/-- Why the model gives no next state. Each but the first is a case to which the spec gives no meaning. -/
inductive Refusal where
  /-- An instruction whose meaning is not written yet; raised by no arm of this model. Safe. -/
  | notModelled (mnemonic : String)
  /-- Raised by `L <- L + 1` past `2^(LW-1) - 1` (R26; 93 U17: "refuse: outside the spec"). Safe (log entry 7). -/
  | positionOverflow
  /-- Raised by `fill_lsb` with `L` outside `0 .. StreamLen()` (R133 corner f: "the model gives that state no meaning").
  No run reaches it. Safe (log entry 8). -/
  | positionOutsideStream
  /-- Raised by a host move on the installed buffer (R277, R289: "never (no move)"). Safe (log entry 13). -/
  | hostMoveOnInstalledBuffer
  /-- Raised by a host move on a handle that names no buffer (R50). Safe (log entry 13). -/
  | hostMoveOutsideStore
  /-- Raised by a host edit that would leave a buffer longer than `CAP` (R50: `len <= CAP`), or that names an offset or a
  length beyond `len` (R51). Safe (log entry 13). -/
  | hostEditImpossible
  deriving DecidableEq, Repr

/-- The state. The first nine fields are R20's list, `ctx` holding both per-context arrays; then the memory (R50), the
construction parameters that no step changes (R8; log entry 1), the responses given (R70, R290) and the host's moves
still to come (R289; log entry 4). -/
structure State where
  /-- The interval width (R21). -/
  A : BitVec 16
  /-- The code register (R22 on encode, R23 on decode). -/
  C : Word
  /-- The transfer counter (R24). -/
  t : BitVec 4
  /-- The byte pending emission, or the last byte fetched (R25). -/
  Tr : Byte
  /-- The stream position, a signed number of `lw` bits (R26). -/
  L : Int
  /-- `ctx_state` and `ctx_mps` (R27, R28); `N` is the length. -/
  ctx : List Context
  /-- The sequencing mode (R29). -/
  mode : Mode
  /-- The installed stream: none, or a handle (R30). -/
  cur : Option (BitVec 16)
  /-- The stream store (R50); `NSID` is the length. -/
  sm : Memory
  /-- `CAP` (R8), `none` for unbounded. -/
  cap : Option Nat
  /-- `LW` (R8). -/
  lw : Nat
  /-- The response words given so far, oldest first (R70, R290). -/
  responses : List Word
  /-- The host's moves still to come, next first (R289). -/
  host : List HostMove
  deriving DecidableEq, Repr

/-- The state after power-on with the given construction parameters and the given contents of the store (R270, R38).
A, C, t, Tr and L are "unspecified" there: zero is a DESIGN CHOICE, unsafe (log entry 2). -/
def State.powerOn (p : Config.Params) (sm : Memory) : State :=
  { A := 0, C := 0, t := 0, Tr := 0, L := 0,
    ctx := List.replicate p.contexts ⟨0, 0⟩, mode := .idle, cur := none,
    sm := sm, cap := p.capacity, lw := p.positionWidth, responses := [], host := [] }

/-- The machine right after reset: power-on with the standard parameters (log entry 1), every buffer empty (log entry 3),
and a host with no move left (log entry 4). -/
def State.reset : State := State.powerOn Config.standard (List.replicate Config.standard.buffers [])

end Sys2Proof.Machine
end

