-- ==== Sys2Proof/Machine/Operands.lean ====
section
/-! DEFINITION. The operand forms of R73: a context index, a probability as sign and magnitude, a stream handle; and the
width extensions of R10. -/

namespace Sys2Proof.Machine

/-- A context index `c = zext(imm)` (R73). -/
def contextIndex (c : BitVec 16) : Nat := c.toNat

/-- A stream handle `sid = zext(imm)` (R73). -/
def handleIndex (sid : BitVec 16) : Nat := sid.toNat

/-- The probability `p` extended to the width of C, `zext_32(p)` (R10). -/
def probWide (p : BitVec 16) : Word := p.setWidth 32

/-- A stream byte extended to the width of C, `zext_32(Tr)` (R10). -/
def byteWide (b : Byte) : Word := b.setWidth 32

/-- The decoded symbol as a response value (R76). -/
def bitValue (x : Bit) : BitVec 3 := x.setWidth 3

/-- The legal explicit probabilities, `1 <= p <= 0x7FFF` (R175, R105). -/
def probLegal (p : BitVec 16) : Bool := decide (1 ≤ p) && decide (p ≤ 0x7FFF)

/-- The signed `prob0` that sign and magnitude stand for (R73): `p` when `g = 0`, `-p` when `g = 1`. -/
def prob0Of (g : Bit) (p : BitVec 16) : Int := if g = 1 then -(p.toNat : Int) else p.toNat

/-- The sign field of a signed `prob0`: `g = 1` iff `prob0 < 0` (R73). -/
def signOf (q : Int) : Bit := if q < 0 then 1 else 0

/-- The magnitude field of a signed `prob0`: `imm = |prob0|` (R73). -/
def magnitudeOf (q : Int) : BitVec 16 := BitVec.ofNat 16 q.natAbs

end Sys2Proof.Machine
end

