-- ==== Sys2Proof/Machine/Ops.lean ====
section
/-! DEFINITION. The shared operations: how a micro-operation ends, the response port (R76, R77), the one way a refusal
(R243) and the one way an execution error (R245) is taken, the register L (R26) and the stream port (R51). -/

namespace Sys2Proof.Machine

/-- How a micro-operation (R12) ends. -/
inductive Micro (α : Type) where
  /-- It ran to its last line, with this value and state. -/
  | done (a : α) (s : State)
  /-- It raised an execution error; the state is as left (R245). -/
  | raised (e : ExecError) (s : State)
  /-- The machine sticks. -/
  | stuck (f : Fault)
  /-- The spec gives the case no meaning. -/
  | refused (r : Refusal)
  deriving Repr

/-- One micro-operation after the other: statements execute in the order written, up to the first raise (R10). -/
def Micro.bind {α β : Type} (m : Micro α) (k : α → State → Micro β) : Micro β :=
  match m with
  | .done a s => k a s
  | .raised e s => .raised e s
  | .stuck f => .stuck f
  | .refused r => .refused r

/-- The number of a status (R77). -/
def statusCode : Status → BitVec 4
  | .ok => 0
  | .invalidMarker => 1
  | .streamIO => 2
  | .badContext => 3
  | .badSequence => 4
  | .illegalCommand => 5
  | .badProbability => 6
  | .noStream => 7

/-- The status an execution error is reported with (R240). -/
def errorStatus : ExecError → Status
  | .invalidMarker => .invalidMarker
  | .streamIO => .streamIO

/-- The response word: `status` in bits 31..28, zero in 27..3, `value` in 2..0 (R76). -/
def responseWord (st : Status) (v : BitVec 3) : Word := statusCode st ++ 0#25 ++ v

/-- Present one response word on the response port (R70). -/
def respond (st : Status) (v : BitVec 3) (s : State) : State :=
  { s with responses := s.responses ++ [responseWord st v] }

/-- `refuse S` (R180, R243): respond with `status = S`, `value = 0`; nothing else changes. -/
def refuseWith (st : Status) (s : State) : State := respond st 0 s

/-- `mode <- IDLE` (R178, R200, R201, R245). -/
def toIdle (s : State) : State := { s with mode := .idle }

/-- Taking an execution error (R245): the state as left, `mode <- IDLE`, response `status` = the error, `value = 0`.
This is the block's only "exception entry"; it saves nothing and jumps nowhere, and there is no return (R246). -/
def takeError (e : ExecError) (s : State) : State := respond (errorStatus e) 0 (toIdle s)

/-- How a command ends (R240): the value of its micro-operations is the response's value. -/
def conclude (m : Micro (BitVec 3)) : Host.Outcome State Fault Refusal :=
  match m with
  | .done v s => .next (respond .ok v s)
  | .raised e s => .next (takeError e s)
  | .stuck f => .fault f
  | .refused r => .refused r

/-- The greatest value of the signed `LW`-bit register L (R26). -/
def positionMax (lw : Nat) : Int := 2 ^ (lw - 1) - 1

/-- The state with L one greater. -/
def bumpPosition (s : State) : State := { s with L := s.L + 1 }

/-- `L <- L + 1` (R131, R133). A stream that would need a greater L than `LW` bits hold is outside the spec (93 U17;
log entry 7). -/
def advancePosition (s : State) : Micro Unit :=
  if s.L < positionMax s.lw then .done () (bumpPosition s) else .refused .positionOverflow

/-- `C <- C << t` (R172, R200). -/
def shiftByCount (s : State) : State := { s with C := s.C <<< s.t.toNat }

/-- The installed buffer `SM[cur]` (R30, R50). -/
def installed (s : State) : Option Buffer :=
  match s.cur with
  | none => none
  | some h => s.sm[h.toNat]?

/-- Put new contents into the installed buffer. -/
def setInstalled (b : Buffer) (s : State) : State :=
  match s.cur with
  | none => s
  | some h => { s with sm := s.sm.set h.toNat b }

/-- Every stream operation acts on `SM[cur]` and fails with `StreamIO` when there is none (R61, last row; log entry 10). -/
def withInstalled {α : Type} (s : State) (k : Buffer → Micro α) : Micro α :=
  match installed s with
  | none => .raised .streamIO s
  | some b => k b

/-- `StreamLen()` (R51). -/
def streamLen (s : State) : Micro Nat := withInstalled s fun b => .done b.length s

/-- `MemRead(i, 1)` (R51): the byte at offset `i`; `StreamIO` if `i >= len`. -/
def memRead (i : Nat) (s : State) : Micro Byte :=
  withInstalled s fun b =>
    match b[i]? with
    | some v => .done v s
    | none => .raised .streamIO s

/-- A buffer of this length is full: `len = CAP` (R61). A length above `CAP` cannot occur (R50). -/
def bufferFull (cap : Option Nat) (len : Nat) : Bool :=
  match cap with
  | none => false
  | some k => decide (k ≤ len)

/-- `MemWrite(StreamLen(), 1, v)` (R51): append a byte; `StreamIO` if the buffer is full (R61, R242). -/
def memAppend (v : Byte) (s : State) : Micro Unit :=
  withInstalled s fun b =>
    if bufferFull s.cap b.length then .raised .streamIO s else .done () (setInstalled (b ++ [v]) s)

/-- `StreamTrunc(n)` (R51): keep the first `n` bytes; `StreamIO` if `n > len` (R61) or if `n` is negative, which only
`StreamLen() - 1` on an empty stream could give (log entry 10). -/
def streamTrunc (n : Int) (s : State) : Micro Unit :=
  withInstalled s fun b =>
    if 0 ≤ n ∧ n ≤ b.length then .done () (setInstalled (b.take n.toNat) s) else .raised .streamIO s

end Sys2Proof.Machine
end

