-- ==== Sys2Proof/Machine/Admission.lean ====
section
/-! DEFINITION. The admission check of R180, steps 2 to 4, in the fixed order of R244. -/

namespace Sys2Proof.Machine

/-- Step 2: the mode a command needs, if any (R180). -/
def modeNeeded : Instr → Option Mode
  | .reset => none
  | .rstenc => none
  | .rstdec => none
  | .encctx _ _ => some .enc
  | .decctx _ => some .dec
  | .encprb _ _ _ => some .enc
  | .decprb _ _ => some .dec
  | .terme => some .enc
  | .termo => some .enc
  | .remb => some .enc
  | .chstr _ _ => none

/-- Step 2: the mode is the one the command needs (R180). -/
def modeAdmits (i : Instr) (s : State) : Bool :=
  match modeNeeded i with
  | none => true
  | some m => decide (s.mode = m)

/-- Step 3: RSTENC and RSTDEC need an installed stream, CHSTR a handle below `NSID` (R180). -/
def streamAdmits (i : Instr) (s : State) : Bool :=
  match i with
  | .reset => true
  | .rstenc => s.cur.isSome
  | .rstdec => s.cur.isSome
  | .encctx _ _ => true
  | .decctx _ => true
  | .encprb _ _ _ => true
  | .decprb _ _ => true
  | .terme => true
  | .termo => true
  | .remb => true
  | .chstr _ sid => decide (handleIndex sid < s.sm.length)

/-- Step 4: a context index below `N`, a legal probability; otherwise the status to refuse with (R180). -/
def operandRefusal (i : Instr) (s : State) : Option Status :=
  match i with
  | .reset => none
  | .rstenc => none
  | .rstdec => none
  | .encctx _ c => if contextIndex c < s.ctx.length then none else some .badContext
  | .decctx c => if contextIndex c < s.ctx.length then none else some .badContext
  | .encprb _ _ p => if probLegal p then none else some .badProbability
  | .decprb _ p => if probLegal p then none else some .badProbability
  | .terme => none
  | .termo => none
  | .remb => none
  | .chstr _ _ => none

/-- Steps 2 to 4 of the admission check in their order (R180, R244): `none` admits the command, `some S` refuses it. -/
def admission (i : Instr) (s : State) : Option Status :=
  if modeAdmits i s = false then some .badSequence
  else if streamAdmits i s = false then some .noStream
  else operandRefusal i s

/-- Execute a command's rule if it is admitted, else refuse it (R180). -/
def guarded (i : Instr) (s : State) (rule : Host.Outcome State Fault Refusal) : Host.Outcome State Fault Refusal :=
  match admission i s with
  | some st => .next (refuseWith st s)
  | none => rule

end Sys2Proof.Machine
end

