-- ==== Sys2Proof/Machine/Contexts.lean ====
section
/-! DEFINITION. Component C: the four constant tables of R150, the lookup of R151, and the two transitions R152, R153. -/

namespace Sys2Proof.Machine

/-- `STATE_PROB` (R150). -/
def stateProbTable : List (BitVec 16) :=
  [0x5601, 0x3401, 0x1801, 0x0AC1, 0x0521, 0x0221, 0x5601, 0x5401,
   0x4801, 0x3801, 0x3001, 0x2401, 0x1C01, 0x1601, 0x5601, 0x5401] ++
  [0x5101, 0x4801, 0x3801, 0x3401, 0x3001, 0x2801, 0x2401, 0x2201,
   0x1C01, 0x1801, 0x1601, 0x1401, 0x1201, 0x1101, 0x0AC1, 0x09C1] ++
  [0x08A1, 0x0521, 0x0441, 0x02A1, 0x0221, 0x0141, 0x0111, 0x0085,
   0x0049, 0x0025, 0x0015, 0x0009, 0x0005, 0x0001, 0x5601]

/-- `STATE_TRANS_MPS` (R150). -/
def stateTransMpsTable : List (Fin 47) :=
  [1, 2, 3, 4, 5, 38, 7, 8, 9, 10, 11, 12, 13, 29, 15, 16] ++
  [17, 18, 19, 20, 21, 22, 23, 24, 25, 26, 27, 28, 29, 30, 31, 32] ++
  [33, 34, 35, 36, 37, 38, 39, 40, 41, 42, 43, 44, 45, 45, 46]

/-- `STATE_TRANS_LPS` (R150). -/
def stateTransLpsTable : List (Fin 47) :=
  [1, 6, 9, 12, 29, 33, 6, 14, 14, 14, 17, 18, 20, 21, 14, 14] ++
  [15, 16, 17, 18, 19, 19, 20, 21, 22, 23, 24, 25, 26, 27, 28, 29] ++
  [30, 31, 32, 33, 34, 35, 36, 37, 38, 39, 40, 41, 42, 43, 46]

/-- `STATE_SWITCH` (R150). -/
def stateSwitchTable : List Bit :=
  [1, 0, 0, 0, 0, 0, 1, 0, 0, 0, 0, 0, 0, 0, 1, 0] ++
  [0, 0, 0, 0, 0, 0, 0, 0, 0, 0, 0, 0, 0, 0, 0, 0] ++
  [0, 0, 0, 0, 0, 0, 0, 0, 0, 0, 0, 0, 0, 0, 0]

/-- `STATE_PROB[i]`. The tables have 47 entries (Laws/Contexts.lean), so the default is never taken. -/
def stateProb (i : Fin 47) : BitVec 16 := stateProbTable.getD i.val 0
/-- `STATE_TRANS_MPS[i]`. -/
def stateTransMps (i : Fin 47) : Fin 47 := stateTransMpsTable.getD i.val 0
/-- `STATE_TRANS_LPS[i]`. -/
def stateTransLps (i : Fin 47) : Fin 47 := stateTransLpsTable.getD i.val 0
/-- `STATE_SWITCH[i]`. -/
def stateSwitch (i : Fin 47) : Bit := stateSwitchTable.getD i.val 0

/-- The entry after `mps_transition` (R152): the MPS is kept. -/
def Context.afterMps (e : Context) : Context := { e with state := stateTransMps e.state }

/-- The entry after `lps_transition` (R153): the switch test uses the state before the transition. -/
def Context.afterLps (e : Context) : Context :=
  { state := stateTransLps e.state, mps := if stateSwitch e.state = 1 then 1 - e.mps else e.mps }

/-- The entry of context `c`. It is read only after the admission check `c < N` (R180), so the default is never taken. -/
def contextAt (c : Nat) (s : State) : Context := s.ctx.getD c ⟨0, 0⟩

/-- `mps_transition(c)` (R152); no effect in explicit-probability mode, `cx = none` (R108). -/
def mpsTransition (cx : Option Nat) (s : State) : State :=
  match cx with
  | none => s
  | some c => { s with ctx := s.ctx.modify c Context.afterMps }

/-- `lps_transition(c)` (R153); no effect in explicit-probability mode, `cx = none` (R108). -/
def lpsTransition (cx : Option Nat) (s : State) : State :=
  match cx with
  | none => s
  | some c => { s with ctx := s.ctx.modify c Context.afterLps }

/-- All contexts in state 0 with MPS 0 (R157, R170). -/
def clearContexts (s : State) : State := { s with ctx := s.ctx.map fun _ => ⟨0, 0⟩ }

end Sys2Proof.Machine
end

