-- ==== Sys2Proof/Machine/Flags.lean ====
section
/-! DEFINITION. The masks of C (R130), the carry bit and the three predicates that are computed and consumed inside one
command (R35). The block has no condition-code register. -/

namespace Sys2Proof.Machine

/-- `C_CARRY`, bit 27 (R130). -/
def maskCarry : Word := 0x08000000
/-- `CLR_CARRY`, bits 31..27 (R130). -/
def maskClearCarry : Word := 0xF8000000
/-- `CLR_MSBS`, bits 31..20 (R130). -/
def maskClearMsbs : Word := 0xFFF00000
/-- `CLR_PART`, bits 31..19 (R130). -/
def maskClearPart : Word := 0xFFF80000

/-- The carry bit is set: `C >= C_CARRY`, tested as R131 tests it. -/
def carrySet (C : Word) : Bool := decide (maskCarry ≤ C)

/-- Renormalization is due: `A < 0x8000` (R35, R102, R104). -/
def renormDue (A : BitVec 16) : Bool := decide (A < 0x8000)

/-- Conditional exchange: `A < p`, with A after the subtraction (R35, R100, R103). -/
def exchangeDue (A p : BitVec 16) : Bool := decide (A < p)

/-- `Chigh`, the 16-bit code window `(C >> 8) & 0xFFFF` (R23, R103). -/
def codeWindow (C : Word) : BitVec 16 := C.extractLsb' 8 16

/-- The decode comparison `Chigh >= p` (R35, R103). -/
def windowReaches (C : Word) (p : BitVec 16) : Bool := decide (p ≤ codeWindow C)

end Sys2Proof.Machine
end

