-- ==== Sys2Proof/Machine/Transfer.lean ====
section
/-! DEFINITION. Component B: `transfer_byte` (R131) on encode and `fill_lsb` (R133) on decode. -/

namespace Sys2Proof.Machine

/-- The stuffed reload: `Tr <- (C >> 20) & 0xFF`, clear bits 31..20 of C, `t <- 7` (R131). -/
def reloadStuffed (s : State) : State :=
  { s with Tr := s.C.extractLsb' 20 8, C := s.C &&& ~~~maskClearMsbs, t := 7 }

/-- The normal reload: `Tr <- (C >> 19) & 0xFF`, clear bits 31..19 of C, `t <- 8` (R131). -/
def reloadNormal (s : State) : State :=
  { s with Tr := s.C.extractLsb' 19 8, C := s.C &&& ~~~maskClearPart, t := 8 }

/-- The carry step of the second branch: add the carry to Tr and clear it in C (R131). -/
def propagateCarry (s : State) : State :=
  if carrySet s.C then { s with Tr := s.Tr + 1, C := s.C &&& ~~~maskClearCarry } else s

/-- `if L >= 0: MemWrite(StreamLen(), 1, Tr)`: the very first Tr is not emitted (R131). -/
def emitUnlessFirst (s : State) : Micro Unit := if 0 ≤ s.L then memAppend s.Tr s else .done () s

/-- `transfer_byte()` (R131). -/
def transferByte (s : State) : Micro Unit :=
  if s.Tr = 0xFF then
    (memAppend s.Tr s).bind fun _ s1 =>
    (advancePosition s1).bind fun _ s2 =>
    .done () (reloadStuffed s2)
  else
    (emitUnlessFirst (propagateCarry s)).bind fun _ s1 =>
    (advancePosition s1).bind fun _ s2 =>
    .done () (if s2.Tr = 0xFF then reloadStuffed s2 else reloadNormal s2)

/-- The byte `fill_lsb` looks at: `stream[L]` if `L < n`, else 0 (R133). -/
def fillByte (n : Nat) (s : State) : Micro Byte := if s.L < n then memRead s.L.toNat s else .done 0 s

/-- `t <- 8` at the start of `fill_lsb` (R133). -/
def startFill (s : State) : State := { s with t := 8 }

/-- `C <- C + 0xFF`: padding with ones (R133). -/
def padOnes (s : State) : State := { s with C := s.C + 0xFF }

/-- `if Tr = 0xFF: t <- 7`, then `Tr <- BL` (R133). -/
def acceptByte (bl : Byte) (s : State) : State := { s with t := if s.Tr = 0xFF then 7 else s.t, Tr := bl }

/-- `C <- C + (Tr << (8 - t))` (R133). -/
def addByte (s : State) : State := { s with C := s.C + (byteWide s.Tr <<< (8 - s.t.toNat)) }

/-- The `else` branch of `fill_lsb` (R133). -/
def fillData (bl : Byte) (s : State) : Micro Unit :=
  (advancePosition (acceptByte bl s)).bind fun _ s1 => .done () (addByte s1)

/-- `fill_lsb()` (R133). The precondition `0 <= L <= StreamLen()` is checked: the model gives a state outside it no
meaning (corner f; log entry 8). -/
def fillLsb (s : State) : Micro Unit :=
  (streamLen (startFill s)).bind fun n s1 =>
  if s1.L < 0 ∨ (n : Int) < s1.L then .refused .positionOutsideStream else
  (fillByte n s1).bind fun bl s2 =>
  if s2.L = n ∨ (s2.Tr = 0xFF ∧ 0x8F < bl) then
    if s2.L = n then .done () (padOnes s2) else .raised .invalidMarker (padOnes s2)
  else fillData bl s2

end Sys2Proof.Machine
end

