-- ==== Sys2Proof/Machine/RegisterEngine.lean ====
section
/-! DEFINITION. Component A: the interval updates and the renormalization loops, `enc_step` (R100), `renorm_enc` (R102),
`dec_step` (R103), `renorm_dec` (R104), and the exchange helper of R101. -/

namespace Sys2Proof.Machine

/-- The renormalization shift of both loops: `A << 1`, `C << 1`, `t - 1` (R102, R104). -/
def shiftOnce (s : State) : State := { s with A := s.A <<< 1, C := s.C <<< 1, t := s.t - 1 }

/-- One more than the greatest number of iterations of a renormalization loop (R102, R104, R288: 15). -/
def renormFuel : Nat := 16

/-- `renorm_enc()` (R102). With `A >= 1` the loop ends within 15 iterations; with `A = 0` it never ends, and the machine
sticks (R105; log entry 9). -/
def renormEnc : Nat → State → Micro Unit
  | 0, _ => .stuck .endlessRenormalization
  | fuel + 1, s =>
    if renormDue s.A then
      (if (shiftOnce s).t = 0 then transferByte (shiftOnce s) else .done () (shiftOnce s)).bind fun _ s1 =>
      renormEnc fuel s1
    else .done () s

/-- `renorm_dec()` (R104): the fill comes before the shift. `A = 0` as for `renormEnc`. -/
def renormDec : Nat → State → Micro Unit
  | 0, _ => .stuck .endlessRenormalization
  | fuel + 1, s =>
    if renormDue s.A then
      (if s.t = 0 then fillLsb s else .done () s).bind fun _ s1 => renormDec fuel (shiftOnce s1)
    else .done () s

/-- `A <- A - p` (R100, R103). -/
def subtractProb (p : BitVec 16) (s : State) : State := { s with A := s.A - p }

/-- `C <- C - (p << 8)` (R103). -/
def subtractWindow (p : BitVec 16) (s : State) : State := { s with C := s.C - (probWide p <<< 8) }

/-- Take the upper sub-interval: A is already `A - p`; `C <- C + p` (R100). -/
def takeUpper (p : BitVec 16) (s : State) : State := { s with C := s.C + probWide p }

/-- Take the lower sub-interval: `A <- p`, C kept (R100). -/
def takeLower (p : BitVec 16) (s : State) : State := { s with A := p }

/-- `enc_step` up to its renormalization (R100 steps 1 to 3). `p` the LPS probability, `s` the sense of the MPS, `x` the
symbol, `cx` the context or none. -/
def encUpdate (p : BitVec 16) (s x : Bit) (cx : Option Nat) (st : State) : State :=
  let st1 := subtractProb p st
  if x = s then
    if renormDue st1.A then
      mpsTransition cx (if exchangeDue st1.A p then takeLower p st1 else takeUpper p st1)
    else takeUpper p st1
  else lpsTransition cx (if exchangeDue st1.A p then takeUpper p st1 else takeLower p st1)

/-- `enc_step(p, s, x, cx)` (R100). On the one path that does not renormalize, A is at least `0x8000` and the loop makes
no iteration (corner a), so the loop is entered on every path. -/
def encStep (p : BitVec 16) (s x : Bit) (cx : Option Nat) (st : State) : Micro Unit :=
  renormEnc renormFuel (encUpdate p s x cx st)

/-- `exchange(A0, C0, p, is_mps)` (R101): the new A and C and whether to renormalize. -/
def exchange (A0 : BitVec 16) (C0 : Word) (p : BitVec 16) (isMps : Bool) : BitVec 16 × Word × Bool :=
  if isMps && !renormDue (A0 - p) then (A0 - p, C0 + probWide p, false)
  else if (isMps && !exchangeDue (A0 - p) p) || (!isMps && exchangeDue (A0 - p) p) then
    (A0 - p, C0 + probWide p, true)
  else (p, C0, true)

/-- `dec_step` up to its renormalization (R103): the decoded symbol and the state. The window is read before anything is
written. -/
def decUpdate (p : BitVec 16) (s : Bit) (cx : Option Nat) (st : State) : Bit × State :=
  let st1 := subtractProb p st
  if windowReaches st.C p then
    let st2 := subtractWindow p st1
    if renormDue st2.A then
      if exchangeDue st2.A p then (1 - s, lpsTransition cx st2) else (s, mpsTransition cx st2)
    else (s, st2)
  else
    if exchangeDue st1.A p then (s, mpsTransition cx (takeLower p st1))
    else (1 - s, lpsTransition cx (takeLower p st1))

/-- `dec_step(p, s, cx)` (R103). As in `encStep`, the loop makes no iteration on the path that does not renormalize. -/
def decStep (p : BitVec 16) (s : Bit) (cx : Option Nat) (st : State) : Micro Bit :=
  (renormDec renormFuel (decUpdate p s cx st).2).bind fun _ st1 => .done (decUpdate p s cx st).1 st1

end Sys2Proof.Machine
end

