-- ==== Sys2Proof/Machine/Codec.lean ====
section
/-! DEFINITION. Component D without termination: RESET (R170), RSTENC (R171), RSTDEC (R172), ENCCTX (R173), DECCTX (R174),
ENCPRB (R175), DECPRB (R176), REMB (R177), CHSTR (R178). -/

namespace Sys2Proof.Machine

/-- RESET (R170): zero all contexts; everything else untouched. -/
def execReset (s : State) : Host.Outcome State Fault Refusal :=
  guarded .reset s (conclude (.done 0 (clearContexts s)))

/-- The registers at the start of a message (R171): `A <- 0x8000`, `C <- 0`, `t <- 12`, `Tr <- 0`, `L <- -1`,
`mode <- ENC`. -/
def startEncoding (s : State) : State := { s with A := 0x8000, C := 0, t := 12, Tr := 0, L := -1, mode := .enc }

/-- RSTENC (R171). -/
def execRstenc (s : State) : Host.Outcome State Fault Refusal :=
  guarded .rstenc s (conclude (.done 0 (startEncoding s)))

/-- `Tr <- 0 ; L <- 0 ; C <- 0` (R172). -/
def clearForDecoding (s : State) : State := { s with Tr := 0, L := 0, C := 0 }

/-- `C <- C << 7 ; t <- t - 7 ; A <- 0x8000 ; mode <- DEC` (R172). -/
def finishPreload (s : State) : State := { s with C := s.C <<< 7, t := s.t - 7, A := 0x8000, mode := .dec }

/-- RSTDEC's rule (R172): two fills pre-load C. -/
def startDecoding (s : State) : Micro Unit :=
  (fillLsb (clearForDecoding s)).bind fun _ s1 =>
  (fillLsb (shiftByCount s1)).bind fun _ s2 => .done () (finishPreload s2)

/-- RSTDEC (R172). -/
def execRstdec (s : State) : Host.Outcome State Fault Refusal :=
  guarded .rstdec s (conclude ((startDecoding s).bind fun _ s1 => .done 0 s1))

/-- ENCCTX (R173): `p` and `s` are those of the context before the step (R151). -/
def execEncctx (x : Bit) (c : BitVec 16) (s : State) : Host.Outcome State Fault Refusal :=
  guarded (.encctx x c) s (conclude
    ((encStep (stateProb (contextAt (contextIndex c) s).state) (contextAt (contextIndex c) s).mps x
      (some (contextIndex c)) s).bind fun _ s1 => .done 0 s1))

/-- DECCTX (R174). -/
def execDecctx (c : BitVec 16) (s : State) : Host.Outcome State Fault Refusal :=
  guarded (.decctx c) s (conclude
    ((decStep (stateProb (contextAt (contextIndex c) s).state) (contextAt (contextIndex c) s).mps
      (some (contextIndex c)) s).bind fun x s1 => .done (bitValue x) s1))

/-- ENCPRB (R175): `s = g`, no context. -/
def execEncprb (x g : Bit) (p : BitVec 16) (s : State) : Host.Outcome State Fault Refusal :=
  guarded (.encprb x g p) s (conclude ((encStep p g x none s).bind fun _ s1 => .done 0 s1))

/-- DECPRB (R176): `s = g`, no context. -/
def execDecprb (g : Bit) (p : BitVec 16) (s : State) : Host.Outcome State Fault Refusal :=
  guarded (.decprb g p) s (conclude ((decStep p g none s).bind fun x s1 => .done (bitValue x) s1))

/-- The remaining-bytes estimate: `4 if 27 - t <= 22 else 5` (R177). -/
def remainingBytes (t : BitVec 4) : BitVec 3 := if 27 - t.toNat ≤ 22 then 4 else 5

/-- REMB (R177): changes nothing. -/
def execRemb (s : State) : Host.Outcome State Fault Refusal :=
  guarded .remb s (conclude (.done (remainingBytes s.t) s))

/-- `cur <- sid` (R178). -/
def installHandle (sid : BitVec 16) (s : State) : State := { s with cur := some sid }

/-- CHSTR's rule (R178): `cur <- sid`; with `z = 1` empty the buffer just installed; `mode <- IDLE`. -/
def changeStream (z : Bit) (sid : BitVec 16) (s : State) : Micro Unit :=
  (if z = 1 then streamTrunc 0 (installHandle sid s) else .done () (installHandle sid s)).bind fun _ s1 =>
  .done () (toIdle s1)

/-- CHSTR (R178). -/
def execChstr (z : Bit) (sid : BitVec 16) (s : State) : Host.Outcome State Fault Refusal :=
  guarded (.chstr z sid) s (conclude ((changeStream z sid s).bind fun _ s1 => .done 0 s1))

end Sys2Proof.Machine
end

