-- ==== Sys2Proof/Machine/Termination.lean ====
section
/-! DEFINITION. Termination: `easy_flush` and TERME (R200), `min_flush` (R202), `post_trim` (R203), TERMO (R201). -/

namespace Sys2Proof.Machine

/-- The number of iterations of the flush loop that R200 and R288 allow. `n` is at most 12 and each iteration takes 7 or 8
from it, so two always suffice (Laws/Termination.lean). -/
def flushFuel : Nat := 2

/-- `while n > 0: transfer_byte(); n <- n - t; C <- C << t` (R200). -/
def flushLoop : Nat → Int → State → Micro Unit
  | 0, _, s => .done () s
  | fuel + 1, n, s =>
    if 0 < n then
      (transferByte s).bind fun _ s1 => flushLoop fuel (n - s1.t.toNat) (shiftByCount s1)
    else .done () s

/-- `if t = 7: StreamTrunc(StreamLen() - 1)`, COD's `remove_byte` (R200). -/
def dropStuffedTail (s : State) : Micro Unit :=
  if s.t = 7 then (streamLen s).bind fun n s1 => streamTrunc ((n : Int) - 1) s1 else .done () s

/-- `easy_flush()` (R200). -/
def easyFlush (s : State) : Micro Unit :=
  (flushLoop flushFuel (27 - 15 - (s.t.toNat : Int)) (shiftByCount s)).bind fun _ s1 =>
  (transferByte s1).bind fun _ s2 => dropStuffedTail s2

/-- TERME (R200). -/
def execTerme (s : State) : Host.Outcome State Fault Refusal :=
  guarded .terme s (conclude ((easyFlush s).bind fun _ s1 => .done 0 (toIdle s1)))

/-- The snapshot of TERMO, local to the command (R201): `Tr0, t0, C0, A0, Lm` and the length `L0` before the flush. -/
structure Snapshot where
  Tr0 : Byte
  t0 : BitVec 4
  C0 : Word
  A0 : BitVec 16
  Lm : Int
  L0 : Nat
  deriving DecidableEq, Repr

/-- Take the snapshot (R201). -/
def snapshot (L0 : Nat) (s : State) : Snapshot := ⟨s.Tr, s.t, s.C, s.A, s.L, L0⟩

/-- `Cr <- (Tr0 << 27) + (C0 << t0)` (R202), in exact arithmetic: below 2^48 for all values of the registers, so the
64-bit arithmetic of the rule never wraps (log entry 11). -/
def Snapshot.low (z : Snapshot) : Nat := z.Tr0.toNat * 2 ^ 27 + z.C0.toNat * 2 ^ z.t0.toNat

/-- `Ar <- A0 << t0` (R202). -/
def Snapshot.width (z : Snapshot) : Nat := z.A0.toNat * 2 ^ z.t0.toNat

/-- The first-byte adjustment applies: `L0 = 0`, bits 39..32 of `Cr` are zero, `Lm = -1` (R202). -/
def Snapshot.adjusts (z : Snapshot) : Bool :=
  decide (z.L0 = 0) && decide (z.low / 2 ^ 32 % 256 = 0) && decide (z.Lm = -1)

/-- `Cr` after the adjustment (R202). -/
def Snapshot.lowAdjusted (z : Snapshot) : Nat := if z.adjusts then z.low * 2 ^ 8 else z.low

/-- `Ar` after the adjustment (R202). -/
def Snapshot.widthAdjusted (z : Snapshot) : Nat := if z.adjusts then z.width * 2 ^ 8 else z.width

/-- `b << Sf`, taken as 0 for a negative `Sf` (R202, D15; log entry 11). -/
def shiftByte (b : Byte) (Sf : Int) : Nat := if 0 ≤ Sf then b.toNat * 2 ^ Sf.toNat else 0

/-- The kept prefix is still ambiguous: `R = Rf + 2^Sf - 1` lies outside `[Cr, Cr + Ar)` (R202). -/
def ambiguous (Cr Ar Rf : Nat) (Sf : Int) : Bool :=
  decide (Rf + 2 ^ Sf.toNat - 1 < Cr) || decide (Cr + Ar ≤ Rf + 2 ^ Sf.toNat - 1)

/-- The loop of `min_flush` (R202). `left` is the number of iterations `k = nb + 1 .. max` still to make, `nb` the number
of bytes found necessary so far. It writes nothing. -/
def minFlushLoop (Cr Ar L0 : Nat) (s : State) : (left nb Rf : Nat) → (Sf sh : Int) → Micro Nat
  | 0, nb, _, _, _ => .done nb s
  | left + 1, nb, Rf, Sf, sh =>
    if ambiguous Cr Ar Rf Sf then
      (memRead (L0 + nb) s).bind fun b _ =>
      minFlushLoop Cr Ar L0 s left (nb + 1) (Rf + shiftByte b (Sf - sh)) (Sf - sh) (if b = 0xFF then 7 else 8)
    else .done nb s

/-- `min_flush` (R202): the number of bytes of the flushed tail that must be kept. -/
def minFlush (z : Snapshot) (s : State) : Micro Nat :=
  (streamLen s).bind fun n s1 =>
  minFlushLoop z.lowAdjusted z.widthAdjusted z.L0 s1 (min 5 (n - z.L0)) 0 0 35 8

/-- The first step of `post_trim`: one trailing `0xFF` (R203). -/
def trimByte (l : Nat) (s : State) : Micro Nat :=
  if 1 ≤ l then (memRead (l - 1) s).bind fun b s1 => .done (if b = 0xFF then l - 1 else l) s1 else .done l s

/-- The repeated step of `post_trim`: trailing pairs `FF 7F` (R203). At most `l / 2` iterations (R288), so `l` is fuel
enough. -/
def trimPairs : Nat → Nat → State → Micro Nat
  | 0, l, s => .done l s
  | fuel + 1, l, s =>
    if 2 ≤ l then
      (memRead (l - 2) s).bind fun b0 _ =>
      (memRead (l - 1) s).bind fun b1 _ =>
      if b0 = 0xFF ∧ b1 = 0x7F then trimPairs fuel (l - 2) s else .done l s
    else .done l s

/-- `post_trim(Lopt)` (R203). -/
def postTrim (l : Nat) (s : State) : Micro Nat := (trimByte l s).bind fun l1 s1 => trimPairs l1 l1 s1

/-- TERMO's rule (R201): snapshot, easy flush, `min_flush`, `post_trim`, truncation. -/
def optimalFlush (s : State) : Micro Unit :=
  (streamLen s).bind fun L0 s0 =>
  (easyFlush s0).bind fun _ s1 =>
  (minFlush (snapshot L0 s0) s1).bind fun nb s2 =>
  (postTrim (L0 + nb) s2).bind fun l s3 =>
  streamTrunc l s3

/-- TERMO (R201). Its properties T1, T2 and T3 (R204) are `OptimalNotLonger`, `OptimalEndsTrimmed` and `TerminatedDecodes` of
Machine/TerminationProperties.lean. -/
def execTermo (s : State) : Host.Outcome State Fault Refusal :=
  guarded .termo s (conclude ((optimalFlush s).bind fun _ s1 => .done 0 (toIdle s1)))

end Sys2Proof.Machine
end

