-- ==== Sys2Proof/Machine/Dispatch.lean ====
section
/-! DEFINITION. One arm per constructor of Instr: which meaning it has. -/

namespace Sys2Proof.Machine

def exec (i : Instr) (s : State) : Host.Outcome State Fault Refusal :=
  match i with
  | .reset => Sys2Proof.Machine.execReset s
  | .rstenc => Sys2Proof.Machine.execRstenc s
  | .rstdec => Sys2Proof.Machine.execRstdec s
  | .encctx x c => Sys2Proof.Machine.execEncctx x c s
  | .decctx c => Sys2Proof.Machine.execDecctx c s
  | .encprb x g p => Sys2Proof.Machine.execEncprb x g p s
  | .decprb g p => Sys2Proof.Machine.execDecprb g p s
  | .terme => Sys2Proof.Machine.execTerme s
  | .termo => Sys2Proof.Machine.execTermo s
  | .remb => Sys2Proof.Machine.execRemb s
  | .chstr z sid => Sys2Proof.Machine.execChstr z sid s

end Sys2Proof.Machine
end

