-- ==== Sys2Proof/Machine/HostPort.lean ====
section
/-! DEFINITION. The command port (R70, R180 step 1) and the moves of the host (R289), the pseudo-instructions of R80, and
what the host observes of a run (R290). -/

namespace Sys2Proof.Machine

/-- The block takes one command word (R70, R180): a word that is no command is answered with `IllegalCommand` and changes
nothing (R75); a command is executed. -/
def takeCommand (w : Word) (s : State) : Host.Outcome State Fault Refusal :=
  match decode w with
  | .ok i => exec i s
  | .error _ => .next (refuseWith .illegalCommand s)

/-- The last response has status OK (R76, R77). -/
def lastResponseOk (s : State) : Bool :=
  match s.responses.getLast? with
  | some r => r.extractLsb' 28 4 == statusCode .ok
  | none => false

/-- Issue the first word of a sequence; the rest follows if the response is OK (R80). -/
def issueSequence (ws : List Word) (s : State) : Host.Outcome State Fault Refusal :=
  match ws with
  | [] => .next s
  | w :: rest =>
    match takeCommand w s with
    | .next s1 => .next (if lastResponseOk s1 then { s1 with host := .sequence rest :: s1.host } else s1)
    | .fault f => .fault f
    | .refused r => .refused r

/-- The buffer is the installed one (R277). -/
def isInstalled (sid : Nat) (s : State) : Bool :=
  match s.cur with
  | none => false
  | some h => h.toNat == sid

/-- The contents of a buffer after a host edit; none where the named offset or length does not exist (R51). -/
def editBuffer (e : BufferEdit) (b : Buffer) : Option Buffer :=
  match e with
  | .write offset v => if offset < b.length then some (b.set offset v) else none
  | .append bytes => some (b ++ bytes)
  | .truncate n => if n ≤ b.length then some (b.take n) else none
  | .replace bytes => some bytes

/-- A length within `CAP` (R50). -/
def withinCapacity (cap : Option Nat) (len : Nat) : Bool :=
  match cap with
  | none => true
  | some k => decide (len ≤ k)

/-- A host move on buffer `sid`: allowed only when it is not installed (R289; log entry 13). -/
def onFreeBuffer (sid : Nat) (s : State) (k : Buffer → Host.Outcome State Fault Refusal) :
    Host.Outcome State Fault Refusal :=
  if isInstalled sid s then .refused .hostMoveOnInstalledBuffer
  else
    match s.sm[sid]? with
    | none => .refused .hostMoveOutsideStore
    | some b => k b

/-- The host reads a buffer: no effect on the block (R289). -/
def hostRead (sid : Nat) (s : State) : Host.Outcome State Fault Refusal := onFreeBuffer sid s fun _ => .next s

/-- The host changes a buffer: no effect on the block until a CHSTR installs it (R289). -/
def hostEdit (sid : Nat) (e : BufferEdit) (s : State) : Host.Outcome State Fault Refusal :=
  onFreeBuffer sid s fun b =>
    match editBuffer e b with
    | none => .refused .hostEditImpossible
    | some b1 =>
      if withinCapacity s.cap b1.length then .next { s with sm := s.sm.set sid b1 }
      else .refused .hostEditImpossible

/-- One move of the host (R289). -/
def hostMove (m : HostMove) (s : State) : Host.Outcome State Fault Refusal :=
  match m with
  | .issue w => takeCommand w s
  | .sequence ws => issueSequence ws s
  | .read sid => hostRead sid s
  | .edit sid e => hostEdit sid e s

/-- The next move of the host, taken off its list. A host with no move left has stopped issuing commands (R289, R290):
nothing happens, since the block acts only on command (R247). -/
def nextMove (s : State) : Host.Outcome State Fault Refusal :=
  match s.host with
  | [] => .next s
  | m :: rest => hostMove m { s with host := rest }

/-- Put one command word at the head of the host's moves (log entry 4). -/
def placeCommand (w : Word) (s : State) : State := { s with host := .issue w :: s.host }

/-- The pseudo-instructions of R80. -/
inductive Pseudo where
  | term
  | openenc (sid : BitVec 16)
  | nextenc (sid : BitVec 16)
  | opendec (sid : BitVec 16)
  deriving DecidableEq, Repr

/-- The commands a pseudo-instruction expands to (R80). -/
def Pseudo.expansion : Pseudo → List Instr
  | .term => [.termo]
  | .openenc sid => [.chstr 1 sid, .rstenc, .reset]
  | .nextenc sid => [.termo, .chstr 1 sid, .rstenc, .reset]
  | .opendec sid => [.chstr 0 sid, .rstdec, .reset]

/-- A pseudo-instruction as a host move (R80). -/
def Pseudo.move (p : Pseudo) : HostMove := .sequence (p.expansion.map encode)

/-- A line of the assembler of R79, with the operands the source form has. -/
inductive SourceLine where
  | reset
  | rstenc
  | rstdec
  | encctx (x c : Nat)
  | decctx (c : Nat)
  | encprb (x : Nat) (q : Int)
  | decprb (q : Int)
  | terme
  | termo
  | remb
  | chstr (sid : Nat)
  | chstrZ (sid : Nat)
  deriving DecidableEq, Repr

/-- The operand ranges of R79. -/
def SourceLine.wellFormed : SourceLine → Bool
  | .reset => true
  | .rstenc => true
  | .rstdec => true
  | .encctx x c => decide (x ≤ 1) && decide (c ≤ 0xFFFF)
  | .decctx c => decide (c ≤ 0xFFFF)
  | .encprb x q => decide (x ≤ 1) && decide (q.natAbs ≤ 0xFFFF)
  | .decprb q => decide (q.natAbs ≤ 0xFFFF)
  | .terme => true
  | .termo => true
  | .remb => true
  | .chstr sid => decide (sid ≤ 0xFFFF)
  | .chstrZ sid => decide (sid ≤ 0xFFFF)

/-- The command of a source line (R79, R73): `g = 1` iff `q < 0`, `p = |q|`. -/
def SourceLine.command : SourceLine → Instr
  | .reset => .reset
  | .rstenc => .rstenc
  | .rstdec => .rstdec
  | .encctx x c => .encctx (BitVec.ofNat 1 x) (BitVec.ofNat 16 c)
  | .decctx c => .decctx (BitVec.ofNat 16 c)
  | .encprb x q => .encprb (BitVec.ofNat 1 x) (signOf q) (magnitudeOf q)
  | .decprb q => .decprb (signOf q) (magnitudeOf q)
  | .terme => .terme
  | .termo => .termo
  | .remb => .remb
  | .chstr sid => .chstr 0 (BitVec.ofNat 16 sid)
  | .chstrZ sid => .chstr 1 (BitVec.ofNat 16 sid)

/-- What the host can read of the store: the contents of every buffer that is not installed (R289, R290). -/
def freeBuffers (s : State) : List (Option Buffer) :=
  s.sm.mapIdx fun sid b => if isInstalled sid s then none else some b

/-- What a run has produced, and all that it has produced (R290): the response words and the buffers not installed. -/
def observation (s : State) : List Word × List (Option Buffer) := (s.responses, freeBuffers s)

/-- Power-on of an instance that is running: the parameters and the stream store stay, the rest is as after construction
(R270, R271). The host's own moves are not the block's state and stay. -/
def powerCycle (s : State) : State :=
  { State.powerOn ⟨s.ctx.length, s.sm.length, s.cap, s.lw⟩ s.sm with host := s.host }

end Sys2Proof.Machine
end

