-- ==== Sys2Proof/Machine/Step.lean ====
section
/-! DEFINITION. One step of the system of block and host: the host's next move (R289), a command being one indivisible
step (R58, R281). -/

namespace Sys2Proof.Machine

/-- One step: see `nextMove`. -/
def step (s : State) : Host.Outcome State Fault Refusal := nextMove s

/-- The state with the command word of the given bits at the head of the host's moves: the very next step issues it
(log entry 4). Every command is one 32-bit word; bits at or above `nbits` are zero. -/
def State.withFetchWord (s : State) (nbits w : Nat) : State := placeCommand (BitVec.ofNat 32 (w % 2 ^ nbits)) s

end Sys2Proof.Machine
end

