-- ==== Sys2Proof/Machine/HostHelpers.lean ====
section
/-! DEFINITION. The host-side probability helpers of 45_host_helpers.md: exact over the rationals (R230, R231), and as
the host at hand evaluates them (R232, D17; log entry 18). They are functions of the host, not commands of the block. -/

namespace Sys2Proof.Machine

/-- The scale `(4/3) * 0x8000` (R230). -/
def mqScale : Rat := (4 / 3) * 32768

/-- `prob0_to_mq(p)` (R230): `p` is the probability that the symbol is 0, any rational. The inputs that are no rational,
the infinities and NaN (93 U16), have their meaning in `prob0ToMqInput` (log entry 21). -/
def prob0ToMq (p : Rat) : Int :=
  if 1 / 2 ≤ p then ((1 - min p (9999 / 10000)) * mqScale).floor
  else -((max p (1 / 10000)) * mqScale).floor

/-- `mq_to_prob0(q)` (R231). -/
def mqToProb0 (q : Int) : Rat :=
  if 0 < q then 1 - 3 * (q : Rat) / (4 * 32768) else -(3 * (q : Rat) / (4 * 32768))

/-- The default: both helpers exact (R232, D17). -/
def exactEvaluation : Config.HostEvaluation := ⟨prob0ToMq, mqToProb0⟩

/-- The evaluations D17 allows: those "agreeing with the exact formula within 1 unit of magnitude" of `prob0`; in a
probability one unit is `3 / 131072` (R231). -/
structure LegalEvaluation (e : Config.HostEvaluation) : Prop where
  sign : ∀ p, signOf (e.prob0ToMq p) = signOf (prob0ToMq p)
  above : ∀ p, (e.prob0ToMq p).natAbs ≤ (prob0ToMq p).natAbs + 1
  below : ∀ p, (prob0ToMq p).natAbs ≤ (e.prob0ToMq p).natAbs + 1
  back : ∀ q, |e.mqToProb0 q - mqToProb0 q| ≤ 3 / 131072

/-- What a host can hand to `prob0_to_mq` (93 U16): a value, one of the two infinities, or a NaN. -/
inductive HostReal where
  | value (p : Rat)
  | plusInfinity
  | minusInfinity
  | notANumber
  deriving DecidableEq, Repr

/-- `prob0_to_mq` on every input 93 U16 names. DEDUCED (log entry 21): an infinity is a value above 1 or below 0, "clamped by
the formula like any other", so the formula gets the clamp value in its place. A NaN is refused: none (93 U16). -/
def prob0ToMqInput (e : Config.HostEvaluation) : HostReal → Option Int
  | .value p => some (e.prob0ToMq p)
  | .plusInfinity => some (e.prob0ToMq (9999 / 10000))
  | .minusInfinity => some (e.prob0ToMq (1 / 10000))
  | .notANumber => none

/-- The command with which a host encodes `x`, `p` being the probability that it is 0 (R230, R73, R175). -/
def encodeProb0 (e : Config.HostEvaluation) (x : Bit) (p : Rat) : Instr :=
  .encprb x (signOf (e.prob0ToMq p)) (magnitudeOf (e.prob0ToMq p))

/-- The command with which it decodes a symbol, `p` being the probability that it is 0 (R230, R73, R176). -/
def decodeProb0 (e : Config.HostEvaluation) (p : Rat) : Instr :=
  .decprb (signOf (e.prob0ToMq p)) (magnitudeOf (e.prob0ToMq p))

end Sys2Proof.Machine
end

