-- ==== Sys2Proof/Machine/TerminationProperties.lean ====
section
/-! DEFINITION. The termination properties T1, T2 and T3 of R204 as predicates on the machine, with what they speak of: the
stream a termination leaves, a message encoded into a stream (R109), and the symbols a decoder reads from it. -/

namespace Sys2Proof.Machine

/-- The installed stream after TERME or TERMO; none where the command does not answer OK (R200, R201). -/
def terminatedStream (i : Instr) (s : State) : Option Buffer :=
  match exec i s with
  | .next u => if u.responses = s.responses ++ [responseWord .ok 0] then installed u else none
  | .fault _ => none
  | .refused _ => none

/-- T1 (R204 a): the stream after optimal termination is no longer than after easy termination. -/
def OptimalNotLonger (s : State) : Prop :=
  ∀ d c : Buffer, terminatedStream .termo s = some d → terminatedStream .terme s = some c → d.length ≤ c.length

/-- T2 (R204 b): the stream after optimal termination ends neither with `0xFF` alone nor with the pair `FF 7F`. -/
def OptimalEndsTrimmed (s : State) : Prop :=
  ∀ d : Buffer, terminatedStream .termo s = some d → d.getLast? ≠ some 0xFF ∧ ¬ [0xFF, 0x7F] <:+ d

/-- One symbol of a message with what encoder and decoder are both told of it (R109): its context, or the sense and the
magnitude of its probability. -/
inductive Symbol where
  | context (x : Bit) (c : BitVec 16)
  | probability (x g : Bit) (p : BitVec 16)
  deriving DecidableEq, Repr

/-- The bit itself. -/
def Symbol.bit : Symbol → Bit
  | .context x _ => x
  | .probability x _ _ => x

/-- The command that encodes it (R173, R175). -/
def Symbol.encoding : Symbol → Instr
  | .context x c => .encctx x c
  | .probability x g p => .encprb x g p

/-- The command that decodes it (R174, R176). It does not depend on the bit. -/
def Symbol.decoding : Symbol → Instr
  | .context _ c => .decctx c
  | .probability _ g p => .decprb g p

/-- The commands executed one after the other; none where one of them has no next state. -/
def execAll : List Instr → State → Option State
  | [], s => some s
  | i :: rest, s =>
    match exec i s with
    | .next u => execAll rest u
    | .fault _ => none
    | .refused _ => none

/-- The stream after RSTENC, the encoding commands of a message and the termination `i`; none where one of them does not
answer OK (R109). -/
def encodeMessage (i : Instr) (msg : List Symbol) (s : State) : Option Buffer :=
  match execAll (.rstenc :: msg.map Symbol.encoding ++ [i]) s with
  | none => none
  | some u => if u.responses = s.responses ++ List.replicate (msg.length + 2) (responseWord .ok 0) then installed u else none

/-- The symbol a response word gives; none where it is not an OK response with a bit for value (R174, R176). -/
def symbolOf (r : Word) : Option Bit :=
  if r = responseWord .ok 0 then some 0 else if r = responseWord .ok 1 then some 1 else none

/-- The symbols read by RSTDEC and the decoding commands of a message; none where one of them does not answer OK (R109). -/
def decodeMessage (msg : List Symbol) (d : State) : Option (List Bit) :=
  match execAll (.rstdec :: msg.map Symbol.decoding) d with
  | none => none
  | some v =>
    match v.responses.drop d.responses.length with
    | [] => none
    | r :: rest => if r = responseWord .ok 0 then rest.mapM symbolOf else none

/-- T3 (R204 c, R109): a decoder that starts on the terminated stream with the contexts the encoder started with reads the
symbols of the message, in order. Its L can count to the length of the stream (U17, log entry 7). -/
def TerminatedDecodes (i : Instr) (msg : List Symbol) (s d : State) : Prop :=
  ∀ c : Buffer, encodeMessage i msg s = some c → installed d = some c → d.ctx = s.ctx → c.length ≤ positionMax d.lw →
    decodeMessage msg d = some (msg.map Symbol.bit)

end Sys2Proof.Machine
end

