-- ==== Sys2Proof/Safety.lean ====
section
/-! DEFINITION. What claims speak of: the reading of one byte of the store, room for a command's appends, the invariants
of R31 and R33 between commands, the absence of markers (R132), the position and width of the encoder's interval in fixed
coordinates (R53, R202), and the states that differ only in dead registers (R38, R282). -/

namespace Sys2Proof.Machine

/-- The read of one byte of the store: offset `off` of buffer `sid`; none where no such byte exists (R50, R51). -/
def readByte (s : State) (sid off : Nat) : Option Byte := s.sm[sid]?.bind fun b => b[off]?

/-- The installed buffer has room for `k` more bytes (R61). -/
def RoomFor (k : Nat) (s : State) : Prop := ∃ b, installed s = some b ∧ ∀ c, s.cap = some c → b.length + k ≤ c

/-- The register L can advance `k` times (R26; premise 4 of 93_implementation_defined.md, Part 3). -/
def PositionRoom (k : Nat) (s : State) : Prop := s.L + k ≤ positionMax s.lw

/-- `(C + A) * 2^t`: where the top of the interval will stand in C when `t` reaches 0 (R33). -/
def intervalTop (s : State) : Nat := (s.C.toNat + s.A.toNat) * 2 ^ s.t.toNat

/-- What holds between commands in mode ENC: I1 (R21, R106), the encode half of I2 (R24), the range of L (R26), the bound
of R33 (a), and the phantom first byte (R171, R131 corner a). -/
structure EncodeInv (s : State) : Prop where
  interval : 0x8000 ≤ s.A.toNat
  countLow : 1 ≤ s.t.toNat
  countHigh : s.t.toNat ≤ 12
  position : -1 ≤ s.L
  appended : ∀ b, installed s = some b → s.L ≤ b.length
  top : intervalTop s < 2 ^ 27 + 2 ^ 24
  first : s.L = -1 → s.Tr = 0 ∧ intervalTop s ≤ 2 ^ 27

/-- What holds between commands in mode DEC: I1 (R21, R106), `0 <= t <= 8` (R24), `0 <= L <= StreamLen()` (R26). -/
structure DecodeInv (s : State) : Prop where
  interval : 0x8000 ≤ s.A.toNat
  count : s.t.toNat ≤ 8
  positionLow : 0 ≤ s.L
  positionHigh : ∀ b, installed s = some b → s.L ≤ b.length

/-- What holds in every state between commands (R31, R33): the parameters in their ranges (R8), the store in its form
(R50), `cur` below `NSID` (R30), a stream installed outside IDLE (R180), L within `LW` bits (R26), no context in state 46
(R156 d), and the invariant of the mode. -/
structure BlockInv (s : State) : Prop where
  contexts : s.ctx.length ≤ 65536
  width : 2 ≤ s.lw
  store : Memory.wf s.cap s.sm = true
  handle : ∀ h, s.cur = some h → h.toNat < s.sm.length
  stream : s.mode ≠ .idle → s.cur ≠ none
  positionLow : -positionMax s.lw - 1 ≤ s.L
  positionHigh : s.L ≤ positionMax s.lw
  adapting : ∀ e, e ∈ s.ctx → e.state ≠ 46
  encode : s.mode = .enc → EncodeInv s
  decode : s.mode = .dec → DecodeInv s

/-- No byte above `0x8F` follows a `0xFF` (R56, R132: no marker). -/
def MarkerFree (b : Buffer) : Prop := ∀ (i : Nat) (v : Byte), b[i]? = some 0xFF → b[i + 1]? = some v → v ≤ 0x8F

/-- The bytes of the message in progress already in the installed buffer: the last `max(L, 0)` bytes (R26). -/
def messageBytes (s : State) : Buffer :=
  match installed s with
  | none => []
  | some b => b.drop (b.length - s.L.toNat)

/-- The encoder has written no marker and cannot be about to: the bytes of the message are marker free, and after a
`0xFF` the pending byte with all that can still be added to it stays below `0x90` (R132, R33). -/
structure NoMarker (s : State) : Prop where
  written : MarkerFree (messageBytes s)
  pending : (messageBytes s).getLast? = some 0xFF → s.Tr.toNat * 2 ^ 27 + intervalTop s ≤ 0x90 * 2 ^ 27

/-- The weight of bit 0 of the byte after `v`, where `v` has weight `w`: 8 places lower, or 7 after a `0xFF` (R53). -/
def nextWeight (w : Rat) (v : Byte) : Rat := if v = 0xFF then w / 2 ^ 7 else w / 2 ^ 8

/-- The weight of bit 0 of the byte that follows the bytes `b`, the first of which has weight `w`. -/
def weightAfter (w : Rat) (b : Buffer) : Rat := b.foldl nextWeight w

/-- The value of a byte string whose first byte has weight `w` (R53: a fraction, most significant part first, a byte
after `0xFF` overlapping it by one bit). -/
def codeValue (w : Rat) : Buffer → Rat
  | [] => 0
  | v :: rest => v.toNat * w + codeValue (nextWeight w v) rest

/-- The weight of bit 0 of the pending byte `Tr` in a message whose first byte has weight 1. The phantom byte before the
first (`L = -1`) has weight `2^8` (R202). -/
def pendingWeight (s : State) : Rat := if s.L < 0 then 2 ^ 8 else weightAfter 1 (messageBytes s)

/-- The lower end of the encoder's interval: the bytes written, the pending byte, and C as it will stand at the next
transfer, where bit 27 has the weight of bit 0 of `Tr` (R53, R202). -/
def intervalLow (s : State) : Rat :=
  codeValue 1 (messageBytes s) + pendingWeight s * (s.Tr.toNat + s.C.toNat * 2 ^ s.t.toNat / 2 ^ 27)

/-- What one unit of the register A is worth in the same coordinates (R202: `Ar = A << t`). -/
def intervalUnit (s : State) : Rat := pendingWeight s * 2 ^ s.t.toNat / 2 ^ 27

/-- The weight of bit 0 of the last byte of a message whose first byte has weight 1; of the phantom byte, `2^8`, where the
message has none (R202). -/
def lastWeight (b : Buffer) : Rat := if b = [] then 2 ^ 8 else weightAfter 1 b.dropLast

/-- The value of a message followed by one-bits in every lower place, as a decoder continues a finished stream (R133
corner a, R202): the least number above what it sees after any number of `0xFF` bytes of padding. -/
def paddedValue (b : Buffer) : Rat := codeValue 1 b + lastWeight b

/-- The message `b` followed by one-bits lies in the encoder's interval (R202, where `R = Rf + 2^Sf - 1` is tested against
`Cr <= R < Cr + Ar`): its lower end is below `paddedValue b`, so the padded message reaches it after enough ones, and the
padded message never reaches its upper end. -/
def InInterval (s : State) (b : Buffer) : Prop :=
  intervalLow s < paddedValue b ∧ paddedValue b ≤ intervalLow s + s.A.toNat * intervalUnit s

/-- What the decoder has not read yet, the one-bits after the end included, in units of bit 0 of the byte it read last
(R133: a byte after `0xFF` one place higher). -/
def valueAhead (s : State) : Rat :=
  match installed s with
  | none => 0
  | some b => paddedValue (s.Tr :: b.drop s.L.toNat) - s.Tr.toNat

/-- The code window with everything below it (R23, R103): `C >> 8` without the shift's rounding, and the part of the stream
not read yet, in units of bit 0 of A. `t` shifts are owed before the next byte goes to bit 0 of C. -/
def windowValue (s : State) : Rat := s.C.toNat / 2 ^ 8 + valueAhead s / 2 ^ s.t.toNat

/-- `Tr` is the byte read last, or 0 where none has been (R25, R172). -/
def TrIsLastRead (s : State) (b : Buffer) : Prop := s.Tr = (b.take s.L.toNat).getLastD 0

/-- What `dec_step` with probability p makes of the registers when its renormalization makes `j` shifts, whatever it reads
on the way (R103, R104, R133): A is the symbol's sub-interval and the window the distance from its lower end, both times
`2^j`, the window modulo the width of C (R33 b); and L, `Tr` and t are those of a reader that has taken from the stream
exactly the bits these shifts ask for, `f` bytes of ones beyond its end among them. -/
structure Decoded (p : BitVec 16) (b : Buffer) (j : Nat) (s u : State) : Prop where
  width : u.A.toNat = (if windowReaches s.C p = true then s.A.toNat - p.toNat else p.toNat) * 2 ^ j
  window : ∃ m : Int, windowValue u =
    (windowValue s - if windowReaches s.C p = true then (p.toNat : Rat) else 0) * 2 ^ j - m * 2 ^ 24
  bits : TrIsLastRead s b → TrIsLastRead u b ∧ ∃ f : Nat, (u.L < b.length → f = 0) ∧
    lastWeight (b.take u.L.toNat) * 2 ^ (u.t.toNat + j) = lastWeight (b.take s.L.toNat) * 2 ^ (s.t.toNat + 8 * f)

/-- The state after the carry step of `transfer_byte`, which a pending `0xFF` does not take (R131). -/
def afterCarry (s : State) : State :=
  if s.Tr ≠ 0xFF ∧ 0x08000000 ≤ s.C then { s with Tr := s.Tr + 1, C := s.C &&& 0x07FFFFFF } else s

/-- The symbol `x` takes the upper sub-interval `[C + p, C + A)`: it is the MPS and `A - p` is at least p, or it is the LPS
and the exchange gives it the upper part (R100 c, R101). -/
def takesUpper (A p : BitVec 16) (mps x : Bit) : Bool := decide (x = mps) == decide (p ≤ A - p)

/-- The symbol a decoder reads (R103): the one whose sub-interval the code window lies in. -/
def symbolRead (A p : BitVec 16) (mps : Bit) (C : Word) : Bit :=
  if takesUpper A p mps mps = windowReaches C p then mps else 1 - mps

/-- What coding `x` does to the entry of its context (R152, R153, R155): the MPS transition only when A falls below
`0x8000`, the LPS transition on every LPS. -/
def Context.adapted (e : Context) (A p : BitVec 16) (x : Bit) : Context :=
  if x = e.mps then (if renormDue (A - p) then e.afterMps else e) else e.afterLps

/-- The stretch of stream still to be read holds no marker (R133, R241): none within the buffer, and none formed by the
byte read last and the next one. -/
def CleanAhead (s : State) : Prop :=
  ∀ b, installed s = some b → MarkerFree b ∧ (s.Tr = 0xFF → ∀ v, b[s.L.toNat]? = some v → v ≤ 0x8F)

/-- The state with one more response given and nothing else changed (R243). -/
def answerOnly (r : Word) (s : State) : State := { s with responses := s.responses ++ [r] }

/-- Two states that agree in everything but the registers A, C, t, Tr and L, and in those too unless both are IDLE (R38,
R270, R282: "because of `mode`, no rule reads them"). -/
structure Alike (s u : State) : Prop where
  ctx : s.ctx = u.ctx
  mode : s.mode = u.mode
  cur : s.cur = u.cur
  sm : s.sm = u.sm
  cap : s.cap = u.cap
  lw : s.lw = u.lw
  responses : s.responses = u.responses
  host : s.host = u.host
  live : s.mode ≠ .idle → s = u

end Sys2Proof.Machine
end

