-- ==== Sys2Proof/WellFormed.lean ====
section
/-! DEFINITION. Which command words are commands, field by field as R75 lists what is illegal, and the operand ranges
of R79. The decoder (Decode.lean) is written from the other formulation, the match and mask pairs of R74. -/

namespace Sys2Proof

/-- A word is a command unless R75 makes it illegal. -/
def wordWellFormed (w : Word) : Bool :=
  opUsed (fieldOp w) && fieldRsv1 w == 0 && fieldRsv2 w == 0 &&
  (opHasX (fieldOp w) || fieldX w == 0) && (opHasG (fieldOp w) || fieldG w == 0) &&
  (opHasImm (fieldOp w) || fieldImm w == 0)

/-- The operand ranges of R79. Every `Instr` meets them, because each operand has the width of its field; the ill-formed
terms of this hardware are command WORDS, which `wordWellFormed` refuses. -/
def Instr.wellFormed : Instr → Bool
  | .reset => true
  | .rstenc => true
  | .rstdec => true
  | .encctx x c => decide (x.toNat ≤ 1) && decide (c.toNat ≤ 0xFFFF)
  | .decctx c => decide (c.toNat ≤ 0xFFFF)
  | .encprb x g p => decide (x.toNat ≤ 1) && decide (g.toNat ≤ 1) && decide (p.toNat ≤ 0xFFFF)
  | .decprb g p => decide (g.toNat ≤ 1) && decide (p.toNat ≤ 0xFFFF)
  | .terme => true
  | .termo => true
  | .remb => true
  | .chstr z sid => decide (z.toNat ≤ 1) && decide (sid.toNat ≤ 0xFFFF)

end Sys2Proof
end

