-- ==== Sys2Proof/Certificates/Slice0/Obligations.lean ====
section
/-! DEFINITION. The statements for the provers. `answerOnly r s` is `s` with the response word r given and nothing else
changed; a response word is written in hexadecimal as R76 and R77 lay it out: `0` is OK with value 0. -/

open Sys2Proof Sys2Proof.Machine

/-! ### Encoding -/

/-- R72, R79, R81: the decoder reads every command back from its word, with every operand. -/
def Obligations.DecodeInvertsEncode : Prop := ∀ i : Instr, i.wellFormed = true → decode (encode i) = .ok i

/-- R72, R81: a word that decodes to a command is that command's word, so no two words are one command. -/
def Obligations.EncodeInvertsDecode : Prop := ∀ (w : Word) (i : Instr), decode w = .ok i → encode i = w

/-- R75: which words are illegal, field by field; the block answers `IllegalCommand` and changes nothing. -/
def Obligations.IllegalWordsAreAnswered : Prop :=
  (∀ w : Word, (∃ e, decode w = .error e) ↔
    (fieldOp w = 0x0 ∨ fieldOp w = 0xC ∨ fieldOp w = 0xD ∨ fieldOp w = 0xE ∨ fieldOp w = 0xF) ∨
    fieldRsv1 w ≠ 0 ∨ fieldRsv2 w ≠ 0 ∨
    (fieldX w = 1 ∧ fieldOp w ≠ 0x4 ∧ fieldOp w ≠ 0x6) ∨
    (fieldG w = 1 ∧ fieldOp w ≠ 0x6 ∧ fieldOp w ≠ 0x7 ∧ fieldOp w ≠ 0xB) ∨
    (fieldImm w ≠ 0 ∧ (fieldOp w = 0x1 ∨ fieldOp w = 0x2 ∨ fieldOp w = 0x3 ∨ fieldOp w = 0x8 ∨ fieldOp w = 0x9 ∨
      fieldOp w = 0xA))) ∧
  (∀ (w : Word) (s : State), (∃ e, decode w = .error e) → takeCommand w s = .next (answerOnly 0x50000000 s)) ∧
  (∃ e, decode 0x00000000 = .error e) ∧ (∃ e, decode 0xFFFFFFFF = .error e)

/-- R81, R74: at most one row of the opcode map matches a word; where one does, decoding gives its command with the
operands extracted; where none does, the word is illegal. -/
def Obligations.OpcodeRowsDecideDecoding : Prop :=
  (∀ (w : Word) (r q : OpcodeRow), r ∈ opcodeRows → q ∈ opcodeRows → r.hits w = true → q.hits w = true →
    r.mnemonic = q.mnemonic) ∧
  (∀ (w : Word) (r : OpcodeRow), r ∈ opcodeRows → r.hits w = true → decode w = .ok (r.read w)) ∧
  (∀ w : Word, (∀ r, r ∈ opcodeRows → r.hits w = false) → ∃ e, decode w = .error e)

/-- R79, R73: words of each family, written out from R72's patterns, and the commands they stand for. -/
def Obligations.SampleWordsDecode : Prop :=
  decode 0b00010000000000000000000000000000 = .ok .reset ∧
  decode 0b01000001000000000000000000000000 = .ok (.encctx 1 0) ∧
  decode 0b01010000000000000000000000000011 = .ok (.decctx 3) ∧
  decode 0b01100000000000010010000000000000 = .ok (.encprb 0 1 8192) ∧
  decode 0b01110000000000000101010101010101 = .ok (.decprb 0 21845) ∧
  decode 0b10000000000000000000000000000000 = .ok .terme ∧
  decode 0b10110000000000010000000000000010 = .ok (.chstr 1 2)

/-- R79: the words of the source form, with every operand in its range. -/
def Obligations.SourceFormWords : Prop :=
  (∀ x c : Nat, x ≤ 1 → c ≤ 0xFFFF → (encode (SourceLine.encctx x c).command).toNat = 0x40000000 + x * 2 ^ 24 + c) ∧
  (∀ c : Nat, c ≤ 0xFFFF → (encode (SourceLine.decctx c).command).toNat = 0x50000000 + c) ∧
  (∀ (x : Nat) (q : Int), x ≤ 1 → q.natAbs ≤ 0xFFFF → (encode (SourceLine.encprb x q).command).toNat =
    0x60000000 + x * 2 ^ 24 + (if q < 0 then 2 ^ 16 else 0) + q.natAbs) ∧
  (∀ q : Int, q.natAbs ≤ 0xFFFF → (encode (SourceLine.decprb q).command).toNat =
    0x70000000 + (if q < 0 then 2 ^ 16 else 0) + q.natAbs) ∧
  (∀ sid : Nat, sid ≤ 0xFFFF → (encode (SourceLine.chstr sid).command).toNat = 0xB0000000 + sid) ∧
  (∀ sid : Nat, sid ≤ 0xFFFF → (encode (SourceLine.chstrZ sid).command).toNat = 0xB0010000 + sid)

/-- R73: sign and magnitude stand for the signed probability. -/
def Obligations.ProbabilitySignAndMagnitude : Prop :=
  (∀ q : Int, q.natAbs ≤ 0xFFFF → prob0Of (signOf q) (magnitudeOf q) = q ∧ (signOf q = 1 ↔ q < 0) ∧
    (magnitudeOf q).toNat = q.natAbs) ∧
  (∀ p : BitVec 16, prob0Of 0 p = p.toNat ∧ prob0Of 1 p = -(p.toNat : Int))

/-! ### The step and the host -/

/-- R70, R289: a step in which the host issues a word that decodes to a command is that command's execution, with the
move taken off the host's list (the list is the model's, log entry 4). -/
def Obligations.StepRunsDecodedCommand : Prop :=
  ∀ (s : State) (w : Word) (rest : List HostMove) (i : Instr), s.host = .issue w :: rest → decode w = .ok i →
    step s = exec i { s with host := rest }

/-- R80: a pseudo-instruction's words are issued in order, the rest only after the response OK; the four expansions.
A sequence as one host move is the model's form (log entry 19). -/
def Obligations.SequencesStopAtRefusal : Prop :=
  (∀ (s : State) (rest : List HostMove), s.host = .sequence [] :: rest → step s = .next { s with host := rest }) ∧
  (∀ (s u : State) (w : Word) (ws : List Word) (rest : List HostMove), s.host = .sequence (w :: ws) :: rest →
    takeCommand w { s with host := rest } = .next u →
    (∀ v : BitVec 3, u.responses = s.responses ++ [responseWord .ok v] →
      step s = .next { u with host := .sequence ws :: rest }) ∧
    (∀ (st : Status) (v : BitVec 3), st ≠ .ok → u.responses = s.responses ++ [responseWord st v] → step s = .next u)) ∧
  Pseudo.term.move = .sequence [0x90000000] ∧
  (∀ sid : BitVec 16, (Pseudo.openenc sid).move = .sequence [0xB001#16 ++ sid, 0x20000000, 0x10000000] ∧
    (Pseudo.nextenc sid).move = .sequence [0x90000000, 0xB001#16 ++ sid, 0x20000000, 0x10000000] ∧
    (Pseudo.opendec sid).move = .sequence [0xB000#16 ++ sid, 0x30000000, 0x10000000])

/-- R289, R277: the host reads and changes only buffers that are not installed, and such a move changes nothing else.
That any other move is refused is the model's way of giving it no meaning (log entry 13). -/
def Obligations.HostTouchesOnlyFreeBuffers : Prop :=
  (∀ (s : State) (rest : List HostMove) (sid : Nat) (e : BufferEdit) (b c : Buffer), s.host = .edit sid e :: rest →
    isInstalled sid s = false → s.sm[sid]? = some b → editBuffer e b = some c → withinCapacity s.cap c.length = true →
    step s = .next { s with host := rest, sm := s.sm.set sid c }) ∧
  (∀ (s : State) (rest : List HostMove) (sid : Nat) (b : Buffer), s.host = .read sid :: rest →
    isInstalled sid s = false → s.sm[sid]? = some b → step s = .next { s with host := rest }) ∧
  (∀ (s u : State) (rest : List HostMove) (sid : Nat) (e : BufferEdit), s.host = .edit sid e :: rest → step s = .next u →
    isInstalled sid s = false ∧ ∃ c, u = { s with host := rest, sm := s.sm.set sid c }) ∧
  (∀ (s : State) (rest : List HostMove) (sid : Nat), isInstalled sid s = true →
    (s.host = .read sid :: rest ∨ ∃ e, s.host = .edit sid e :: rest) → step s = .refused .hostMoveOnInstalledBuffer)

/-! ### Admission and responses -/

/-- R243: each refusal, its condition and its commands, tested in the order of R244; the command does nothing and says
so. -/
def Obligations.RefusalsChangeNothing : Prop :=
  ∀ s : State,
    (∀ w : Word, (∃ e, decode w = .error e) → takeCommand w s = .next (answerOnly 0x50000000 s)) ∧
    (s.mode ≠ .enc → (∀ x c, exec (.encctx x c) s = .next (answerOnly 0x40000000 s)) ∧
      (∀ x g p, exec (.encprb x g p) s = .next (answerOnly 0x40000000 s)) ∧
      exec .terme s = .next (answerOnly 0x40000000 s) ∧ exec .termo s = .next (answerOnly 0x40000000 s) ∧
      exec .remb s = .next (answerOnly 0x40000000 s)) ∧
    (s.mode ≠ .dec → (∀ c, exec (.decctx c) s = .next (answerOnly 0x40000000 s)) ∧
      (∀ g p, exec (.decprb g p) s = .next (answerOnly 0x40000000 s))) ∧
    (s.cur = none → exec .rstenc s = .next (answerOnly 0x70000000 s) ∧ exec .rstdec s = .next (answerOnly 0x70000000 s)) ∧
    (∀ z sid, s.sm.length ≤ sid.toNat → exec (.chstr z sid) s = .next (answerOnly 0x70000000 s)) ∧
    (∀ x c, s.mode = .enc → s.ctx.length ≤ c.toNat → exec (.encctx x c) s = .next (answerOnly 0x30000000 s)) ∧
    (∀ c, s.mode = .dec → s.ctx.length ≤ c.toNat → exec (.decctx c) s = .next (answerOnly 0x30000000 s)) ∧
    (∀ x g p, s.mode = .enc → (p.toNat = 0 ∨ 0x7FFF < p.toNat) →
      exec (.encprb x g p) s = .next (answerOnly 0x60000000 s)) ∧
    (∀ g p, s.mode = .dec → (p.toNat = 0 ∨ 0x7FFF < p.toNat) → exec (.decprb g p) s = .next (answerOnly 0x60000000 s))

/-- R76, R77: every command word is answered with one response word; its bits 27..3 are zero, its status is 0 to 7, its
value is the decoded bit (the one of R103), 4 or 5, or 0. -/
def Obligations.OneResponseWord : Prop :=
  ∀ (w : Word) (s u : State), takeCommand w s = .next u →
    ∃ r : Word, u.responses = s.responses ++ [r] ∧ r.extractLsb' 3 25 = 0 ∧ (r.extractLsb' 28 4).toNat ≤ 7 ∧
      (r.extractLsb' 28 4 ≠ 0 → r.extractLsb' 0 3 = 0) ∧
      (r.extractLsb' 28 4 = 0 → ∃ i, decode w = .ok i ∧
        match i with
        | .decctx c => (r.extractLsb' 0 3).toNat =
            (symbolRead s.A (stateProb (contextAt c.toNat s).state) (contextAt c.toNat s).mps s.C).toNat
        | .decprb g p => (r.extractLsb' 0 3).toNat = (symbolRead s.A p g s.C).toNat
        | .remb => r.extractLsb' 0 3 = 4 ∨ r.extractLsb' 0 3 = 5
        | .reset | .rstenc | .rstdec | .encctx _ _ | .encprb _ _ _ | .terme | .termo | .chstr _ _ =>
            r.extractLsb' 0 3 = 0)

/-- R181: the mode after a command, by its status; a refused command changes nothing. -/
def Obligations.ModeTransitions : Prop :=
  ∀ (i : Instr) (s u : State), exec i s = .next u →
    ∃ (st : Status) (v : BitVec 3), u.responses = s.responses ++ [responseWord st v] ∧
      (st = .ok → u.mode = match i with
        | .rstenc => .enc
        | .rstdec => .dec
        | .chstr _ _ | .terme | .termo => .idle
        | .reset | .encctx _ _ | .decctx _ | .encprb _ _ _ | .decprb _ _ | .remb => s.mode) ∧
      (st = .invalidMarker ∨ st = .streamIO → u.mode = .idle) ∧
      (st = .badContext ∨ st = .badSequence ∨ st = .illegalCommand ∨ st = .badProbability ∨ st = .noStream →
        u = answerOnly (responseWord st 0) s)

/-! ### The plain commands -/

/-- R170: RESET, in every mode. -/
def Obligations.ResetClearsContexts : Prop :=
  ∀ s : State, exec .reset s =
    .next { s with ctx := List.replicate s.ctx.length ⟨0, 0⟩, responses := s.responses ++ [0] }

/-- R171: RSTENC, in every mode, provided a stream is installed. -/
def Obligations.RstencStartsMessage : Prop :=
  ∀ s : State,
    (s.cur ≠ none → exec .rstenc s =
      .next { s with A := 0x8000, C := 0, t := 12, Tr := 0, L := -1, mode := .enc, responses := s.responses ++ [0] }) ∧
    (s.cur = none → exec .rstenc s = .next (answerOnly 0x70000000 s))

/-- R172: RSTDEC by the first two bytes of the installed stream, the five rows of its table. The premise on LW is that it
holds the position 2 (log entry 7). -/
def Obligations.RstdecByFirstBytes : Prop :=
  ∀ (s : State) (b : Buffer), installed s = some b → 2 ≤ positionMax s.lw →
    (b = [] → exec .rstdec s = .next { s with
      A := 0x8000, C := 0x007FFF80, t := 1, Tr := 0, L := 0, mode := .dec, responses := s.responses ++ [0] }) ∧
    (∀ b0 : Byte, b = [b0] → exec .rstdec s = .next { s with
      A := 0x8000, C := ((b0.setWidth 32 <<< 8) + 0xFF) <<< 7, t := 1, Tr := b0, L := 1, mode := .dec,
      responses := s.responses ++ [0] }) ∧
    (∀ (b0 b1 : Byte) (rest : Buffer), b = b0 :: b1 :: rest → b0 ≠ 0xFF → exec .rstdec s = .next { s with
      A := 0x8000, C := ((b0.setWidth 32 <<< 8) + b1.setWidth 32) <<< 7, t := 1, Tr := b1, L := 2, mode := .dec,
      responses := s.responses ++ [0] }) ∧
    (∀ (b1 : Byte) (rest : Buffer), b = 0xFF :: b1 :: rest → b1 ≤ 0x8F → exec .rstdec s = .next { s with
      A := 0x8000, C := (0xFF00 + (b1.setWidth 32 <<< 1)) <<< 7, t := 0, Tr := b1, L := 2, mode := .dec,
      responses := s.responses ++ [0] }) ∧
    (∀ (b1 : Byte) (rest : Buffer), b = 0xFF :: b1 :: rest → 0x8F < b1 → exec .rstdec s = .next { s with
      C := 0x0000FFFF, t := 8, Tr := 0xFF, L := 1, mode := .idle, responses := s.responses ++ [0x10000000] })

/-- R177: REMB answers 4 for t = 5 and above, 5 below, and changes nothing; it is admitted in mode ENC only. -/
def Obligations.RembAnswers : Prop :=
  ∀ s : State,
    (s.mode = .enc → exec .remb s = .next (answerOnly (if 27 - s.t.toNat ≤ 22 then 4 else 5) s) ∧
      (5 ≤ s.t.toNat → s.t.toNat ≤ 12 → exec .remb s = .next (answerOnly 4 s)) ∧
      (1 ≤ s.t.toNat → s.t.toNat ≤ 4 → exec .remb s = .next (answerOnly 5 s))) ∧
    (s.mode ≠ .enc → exec .remb s = .next (answerOnly 0x40000000 s))

/-- R178: CHSTR and CHSTR.Z, in every mode, with a handle in range and out of it. -/
def Obligations.ChstrInstalls : Prop :=
  ∀ (s : State) (sid : BitVec 16),
    (sid.toNat < s.sm.length →
      exec (.chstr 0 sid) s = .next { s with cur := some sid, mode := .idle, responses := s.responses ++ [0] } ∧
      exec (.chstr 1 sid) s = .next { s with
        cur := some sid, sm := s.sm.set sid.toNat [], mode := .idle, responses := s.responses ++ [0] }) ∧
    (s.sm.length ≤ sid.toNat → ∀ z, exec (.chstr z sid) s = .next (answerOnly 0x70000000 s))

/-! ### Encoding a symbol -/

/-- R100, R102, R152, R153: the registers after a symbol whose k renormalization shifts need no transfer (k = 0 is the
path that does not renormalize), for both commands. -/
def Obligations.EncodeWithoutTransfer : Prop :=
  ∀ (s : State) (x : Bit) (k : Nat), s.mode = .enc → 0x8000 ≤ s.A.toNat → k < s.t.toNat →
    (∀ (g : Bit) (p : BitVec 16), 1 ≤ p.toNat → p.toNat ≤ 0x7FFF →
      (takesUpper s.A p g x = true → 0x8000 ≤ (s.A - p).toNat * 2 ^ k → (s.A - p).toNat * 2 ^ k < 0x10000 →
        exec (.encprb x g p) s = .next { s with
          A := (s.A - p) <<< k, C := (s.C + p.setWidth 32) <<< k, t := s.t - BitVec.ofNat 4 k,
          responses := s.responses ++ [0] }) ∧
      (takesUpper s.A p g x = false → 0x8000 ≤ p.toNat * 2 ^ k → p.toNat * 2 ^ k < 0x10000 →
        exec (.encprb x g p) s = .next { s with
          A := p <<< k, C := s.C <<< k, t := s.t - BitVec.ofNat 4 k, responses := s.responses ++ [0] })) ∧
    (∀ (c : BitVec 16) (e : Context) (p : BitVec 16), s.ctx[c.toNat]? = some e → stateProb e.state = p →
      (takesUpper s.A p e.mps x = true → 0x8000 ≤ (s.A - p).toNat * 2 ^ k → (s.A - p).toNat * 2 ^ k < 0x10000 →
        exec (.encctx x c) s = .next { s with
          A := (s.A - p) <<< k, C := (s.C + p.setWidth 32) <<< k, t := s.t - BitVec.ofNat 4 k,
          ctx := s.ctx.set c.toNat (e.adapted s.A p x), responses := s.responses ++ [0] }) ∧
      (takesUpper s.A p e.mps x = false → 0x8000 ≤ p.toNat * 2 ^ k → p.toNat * 2 ^ k < 0x10000 →
        exec (.encctx x c) s = .next { s with
          A := p <<< k, C := s.C <<< k, t := s.t - BitVec.ofNat 4 k, ctx := s.ctx.set c.toNat (e.adapted s.A p x),
          responses := s.responses ++ [0] }))

/-- R173, R100, R102: ENCCTX in mode ENC with a context in range, room for three bytes and room in L (log entry 7) answers
OK; it appends at most three bytes, and the invariant of the encoder holds after it. -/
def Obligations.EncctxCompletes : Prop :=
  ∀ (s : State) (x : Bit) (c : BitVec 16) (b : Buffer), s.mode = .enc → c.toNat < s.ctx.length → EncodeInv s →
    installed s = some b → RoomFor 3 s → PositionRoom 3 s →
    ∃ (u : State) (e : Buffer), exec (.encctx x c) s = .next u ∧ u.responses = s.responses ++ [0] ∧ u.mode = .enc ∧
      installed u = some (b ++ e) ∧ e.length ≤ 3 ∧ EncodeInv u

/-- R175, R100, R102: the same of ENCPRB with a legal probability. -/
def Obligations.EncprbCompletes : Prop :=
  ∀ (s : State) (x g : Bit) (p : BitVec 16) (b : Buffer), s.mode = .enc → 1 ≤ p.toNat → p.toNat ≤ 0x7FFF →
    EncodeInv s → installed s = some b → RoomFor 3 s → PositionRoom 3 s →
    ∃ (u : State) (e : Buffer), exec (.encprb x g p) s = .next u ∧ u.responses = s.responses ++ [0] ∧ u.mode = .enc ∧
      installed u = some (b ++ e) ∧ e.length ≤ 3 ∧ EncodeInv u

/-- R100 c, R131 d, R202: coding a symbol narrows the interval to the sub-interval of the symbol and nothing is lost of
it, whatever the renormalization writes out: the lower end moves up by p for the upper one and stays for the lower one. -/
def Obligations.IntervalNarrows : Prop :=
  ∀ (s u : State), s.mode = .enc → EncodeInv s → installed s ≠ none → u.mode = .enc →
    (∀ (x g : Bit) (p : BitVec 16), 1 ≤ p.toNat → p.toNat ≤ 0x7FFF → exec (.encprb x g p) s = .next u →
      (takesUpper s.A p g x = true → intervalLow u = intervalLow s + p.toNat * intervalUnit s ∧
        u.A.toNat * intervalUnit u = (s.A.toNat - p.toNat) * intervalUnit s) ∧
      (takesUpper s.A p g x = false → intervalLow u = intervalLow s ∧
        u.A.toNat * intervalUnit u = p.toNat * intervalUnit s)) ∧
    (∀ (x : Bit) (c : BitVec 16) (e : Context) (p : BitVec 16), s.ctx[c.toNat]? = some e → stateProb e.state = p →
      exec (.encctx x c) s = .next u →
      (takesUpper s.A p e.mps x = true → intervalLow u = intervalLow s + p.toNat * intervalUnit s ∧
        u.A.toNat * intervalUnit u = (s.A.toNat - p.toNat) * intervalUnit s) ∧
      (takesUpper s.A p e.mps x = false → intervalLow u = intervalLow s ∧
        u.A.toNat * intervalUnit u = p.toNat * intervalUnit s))

/-- R151 to R155, R108, R245: a coding command that is admitted adapts the entry of its context and no other, also when
renormalization raises; the probability commands touch no context. -/
def Obligations.ContextsAdapt : Prop :=
  (∀ (s u : State) (x : Bit) (c : BitVec 16) (e : Context), s.mode = .enc → s.ctx[c.toNat]? = some e →
    exec (.encctx x c) s = .next u → u.ctx = s.ctx.set c.toNat (e.adapted s.A (stateProb e.state) x)) ∧
  (∀ (s u : State) (c : BitVec 16) (e : Context), s.mode = .dec → s.ctx[c.toNat]? = some e →
    exec (.decctx c) s = .next u → u.ctx = s.ctx.set c.toNat
      (e.adapted s.A (stateProb e.state) (symbolRead s.A (stateProb e.state) e.mps s.C))) ∧
  (∀ (s u : State) (x g : Bit) (p : BitVec 16), exec (.encprb x g p) s = .next u → u.ctx = s.ctx) ∧
  (∀ (s u : State) (g : Bit) (p : BitVec 16), exec (.decprb g p) s = .next u → u.ctx = s.ctx)

/-- R179, R62, R63: what the encode commands leave alone. They write A, C, t, Tr, L, the mode only to IDLE on an error,
the entry of their context, and append at the end of the installed buffer; every byte before its end and every byte of
every other buffer reads as before. -/
def Obligations.EncodeFrame : Prop :=
  ∀ (s u : State) (i : Instr) (b : Buffer), ((∃ x c, i = .encctx x c) ∨ ∃ x g p, i = .encprb x g p) →
    installed s = some b → exec i s = .next u →
    u.cur = s.cur ∧ u.cap = s.cap ∧ u.lw = s.lw ∧ u.host = s.host ∧ (u.mode = s.mode ∨ u.mode = .idle) ∧
    (∀ n, (∀ x c, i = .encctx x c → n ≠ c.toNat) → u.ctx[n]? = s.ctx[n]?) ∧
    (∃ e, installed u = some (b ++ e)) ∧
    (∀ sid off, ¬ (isInstalled sid s = true ∧ b.length ≤ off) → readByte u sid off = readByte s sid off)

/-! ### Decoding a symbol -/

/-- R103, R104, R152, R153: the registers after a symbol whose k renormalization shifts need no fill (k = 0 is the path
that does not renormalize), for both commands, with the symbol answered. -/
def Obligations.DecodeWithoutFill : Prop :=
  ∀ (s : State) (k : Nat), s.mode = .dec → 0x8000 ≤ s.A.toNat → k ≤ s.t.toNat →
    (∀ (g : Bit) (p : BitVec 16), 1 ≤ p.toNat → p.toNat ≤ 0x7FFF →
      (windowReaches s.C p = true → 0x8000 ≤ (s.A - p).toNat * 2 ^ k → (s.A - p).toNat * 2 ^ k < 0x10000 →
        exec (.decprb g p) s = .next { s with
          A := (s.A - p) <<< k, C := (s.C - (p.setWidth 32 <<< 8)) <<< k, t := s.t - BitVec.ofNat 4 k,
          responses := s.responses ++ [responseWord .ok ((symbolRead s.A p g s.C).setWidth 3)] }) ∧
      (windowReaches s.C p = false → 0x8000 ≤ p.toNat * 2 ^ k → p.toNat * 2 ^ k < 0x10000 →
        exec (.decprb g p) s = .next { s with
          A := p <<< k, C := s.C <<< k, t := s.t - BitVec.ofNat 4 k,
          responses := s.responses ++ [responseWord .ok ((symbolRead s.A p g s.C).setWidth 3)] })) ∧
    (∀ (c : BitVec 16) (e : Context) (p : BitVec 16), s.ctx[c.toNat]? = some e → stateProb e.state = p →
      (windowReaches s.C p = true → 0x8000 ≤ (s.A - p).toNat * 2 ^ k → (s.A - p).toNat * 2 ^ k < 0x10000 →
        exec (.decctx c) s = .next { s with
          A := (s.A - p) <<< k, C := (s.C - (p.setWidth 32 <<< 8)) <<< k, t := s.t - BitVec.ofNat 4 k,
          ctx := s.ctx.set c.toNat (e.adapted s.A p (symbolRead s.A p e.mps s.C)),
          responses := s.responses ++ [responseWord .ok ((symbolRead s.A p e.mps s.C).setWidth 3)] }) ∧
      (windowReaches s.C p = false → 0x8000 ≤ p.toNat * 2 ^ k → p.toNat * 2 ^ k < 0x10000 →
        exec (.decctx c) s = .next { s with
          A := p <<< k, C := s.C <<< k, t := s.t - BitVec.ofNat 4 k,
          ctx := s.ctx.set c.toNat (e.adapted s.A p (symbolRead s.A p e.mps s.C)),
          responses := s.responses ++ [responseWord .ok ((symbolRead s.A p e.mps s.C).setWidth 3)] }))

/-- R174, R103, R104: DECCTX in mode DEC with a context in range and no marker ahead answers OK with the symbol of R103;
the stream is not written and the decoder's invariant holds after it. `Decoded` says what becomes of A, C, t, Tr and L,
however many fills the shifts need. The premise on LW is U17 (log entry 7). -/
def Obligations.DecctxCompletes : Prop :=
  ∀ (s : State) (c : BitVec 16) (e : Context) (b : Buffer), s.mode = .dec → s.ctx[c.toNat]? = some e → DecodeInv s →
    installed s = some b → b.length ≤ positionMax s.lw → CleanAhead s →
    ∃ (u : State) (j : Nat), exec (.decctx c) s = .next u ∧ u.responses = s.responses ++
        [responseWord .ok ((symbolRead s.A (stateProb e.state) e.mps s.C).setWidth 3)] ∧
      u.mode = .dec ∧ u.sm = s.sm ∧ DecodeInv u ∧ Decoded (stateProb e.state) b j s u

/-- R176, R103, R104: the same of DECPRB with a legal probability. -/
def Obligations.DecprbCompletes : Prop :=
  ∀ (s : State) (g : Bit) (p : BitVec 16) (b : Buffer), s.mode = .dec → 1 ≤ p.toNat → p.toNat ≤ 0x7FFF → DecodeInv s →
    installed s = some b → b.length ≤ positionMax s.lw → CleanAhead s →
    ∃ (u : State) (j : Nat), exec (.decprb g p) s = .next u ∧
      u.responses = s.responses ++ [responseWord .ok ((symbolRead s.A p g s.C).setWidth 3)] ∧
      u.mode = .dec ∧ u.sm = s.sm ∧ DecodeInv u ∧ Decoded p b j s u

/-- R103, R104, R152, R153: the registers after a symbol whose k renormalization shifts need one fill, for both commands.
`f` is the state that fill leaves, met after t shifts; its cases are those of `FillLsbCases` (R133). -/
def Obligations.DecodeWithOneFill : Prop :=
  ∀ (s f : State) (k : Nat), s.mode = .dec → 0x8000 ≤ s.A.toNat → s.t.toNat < k → k ≤ s.t.toNat + f.t.toNat →
    (∀ (g : Bit) (p : BitVec 16), 1 ≤ p.toNat → p.toNat ≤ 0x7FFF →
      (windowReaches s.C p = true → 0x8000 ≤ (s.A - p).toNat * 2 ^ k → (s.A - p).toNat * 2 ^ k < 0x10000 →
        fillLsb { s with C := (s.C - (p.setWidth 32 <<< 8)) <<< s.t.toNat } = .done () f →
        exec (.decprb g p) s = .next { f with
          A := (s.A - p) <<< k, C := f.C <<< (k - s.t.toNat), t := f.t - BitVec.ofNat 4 (k - s.t.toNat),
          responses := s.responses ++ [responseWord .ok ((symbolRead s.A p g s.C).setWidth 3)] }) ∧
      (windowReaches s.C p = false → 0x8000 ≤ p.toNat * 2 ^ k → p.toNat * 2 ^ k < 0x10000 →
        fillLsb { s with C := s.C <<< s.t.toNat } = .done () f →
        exec (.decprb g p) s = .next { f with
          A := p <<< k, C := f.C <<< (k - s.t.toNat), t := f.t - BitVec.ofNat 4 (k - s.t.toNat),
          responses := s.responses ++ [responseWord .ok ((symbolRead s.A p g s.C).setWidth 3)] })) ∧
    (∀ (c : BitVec 16) (e : Context) (p : BitVec 16), s.ctx[c.toNat]? = some e → stateProb e.state = p →
      (windowReaches s.C p = true → 0x8000 ≤ (s.A - p).toNat * 2 ^ k → (s.A - p).toNat * 2 ^ k < 0x10000 →
        fillLsb { s with C := (s.C - (p.setWidth 32 <<< 8)) <<< s.t.toNat } = .done () f →
        exec (.decctx c) s = .next { f with
          A := (s.A - p) <<< k, C := f.C <<< (k - s.t.toNat), t := f.t - BitVec.ofNat 4 (k - s.t.toNat),
          ctx := s.ctx.set c.toNat (e.adapted s.A p (symbolRead s.A p e.mps s.C)),
          responses := s.responses ++ [responseWord .ok ((symbolRead s.A p e.mps s.C).setWidth 3)] }) ∧
      (windowReaches s.C p = false → 0x8000 ≤ p.toNat * 2 ^ k → p.toNat * 2 ^ k < 0x10000 →
        fillLsb { s with C := s.C <<< s.t.toNat } = .done () f →
        exec (.decctx c) s = .next { f with
          A := p <<< k, C := f.C <<< (k - s.t.toNat), t := f.t - BitVec.ofNat 4 (k - s.t.toNat),
          ctx := s.ctx.set c.toNat (e.adapted s.A p (symbolRead s.A p e.mps s.C)),
          responses := s.responses ++ [responseWord .ok ((symbolRead s.A p e.mps s.C).setWidth 3)] }))

/-- R179, R62: what the decode commands leave alone: they write A, C, t, Tr, L, the mode, the entry of their context, and
no byte of memory. -/
def Obligations.DecodeFrame : Prop :=
  ∀ (s u : State) (i : Instr), (i = .rstdec ∨ (∃ c, i = .decctx c) ∨ ∃ g p, i = .decprb g p) → exec i s = .next u →
    u.cur = s.cur ∧ u.cap = s.cap ∧ u.lw = s.lw ∧ u.host = s.host ∧
    (u.mode = s.mode ∨ u.mode = .idle ∨ i = .rstdec ∧ u.mode = .dec) ∧
    (∀ n, (∀ c, i = .decctx c → n ≠ c.toNat) → u.ctx[n]? = s.ctx[n]?) ∧
    (∀ sid off, readByte u sid off = readByte s sid off) ∧ u.sm = s.sm

/-- R103's table: each path of the decoder undoes the encoder's path for the symbol it reads: from equal A and contexts
they end with equal A and contexts, the encoder having added p where the decoder took `p << 8` away. -/
def Obligations.DecoderMirrorsEncoder : Prop :=
  ∀ (e d : State) (p : BitVec 16) (mps : Bit) (cx : Option Nat), p.toNat ≤ 0x7FFF → e.A = d.A → e.ctx = d.ctx →
    (encUpdate p mps (decUpdate p mps cx d).1 cx e).A = (decUpdate p mps cx d).2.A ∧
    (encUpdate p mps (decUpdate p mps cx d).1 cx e).ctx = (decUpdate p mps cx d).2.ctx ∧
    (windowReaches d.C p = true → (encUpdate p mps (decUpdate p mps cx d).1 cx e).C = e.C + p.setWidth 32 ∧
      (decUpdate p mps cx d).2.C = d.C - (p.setWidth 32 <<< 8)) ∧
    (windowReaches d.C p = false → (encUpdate p mps (decUpdate p mps cx d).1 cx e).C = e.C ∧
      (decUpdate p mps cx d).2.C = d.C)

/-- R101: the update of `enc_step` is the exchange helper's; which transition runs depends only on whether the symbol is
the MPS. -/
def Obligations.ExchangeHelperAgrees : Prop :=
  ∀ (s : State) (p : BitVec 16) (mps x : Bit) (cx : Option Nat), p.toNat ≤ 0x7FFF →
    (encUpdate p mps x cx s).A = (exchange s.A s.C p (decide (x = mps))).1 ∧
    (encUpdate p mps x cx s).C = (exchange s.A s.C p (decide (x = mps))).2.1 ∧
    renormDue (encUpdate p mps x cx s).A = (exchange s.A s.C p (decide (x = mps))).2.2 ∧
    (encUpdate p mps x cx s).ctx = if (exchange s.A s.C p (decide (x = mps))).2.2 = true then
      (if x = mps then (mpsTransition cx s).ctx else (lpsTransition cx s).ctx) else s.ctx

/-! ### Transfer, fill, tables -/

/-- R131, R245: `transfer_byte` in its four cases, and where the append fails. T and C are Tr and C after the carry step
of the second branch. -/
def Obligations.TransferByteCases : Prop :=
  ∀ (s : State) (b : Buffer) (T : Byte) (C : Word), installed s = some b → s.L < positionMax s.lw →
    (0x08000000 ≤ s.C → T = s.Tr + 1 ∧ C = s.C &&& 0x07FFFFFF) → (s.C < 0x08000000 → T = s.Tr ∧ C = s.C) →
    (bufferFull s.cap b.length = false → s.Tr = 0xFF → transferByte s = .done () { setInstalled (b ++ [0xFF]) s with
      L := s.L + 1, Tr := s.C.extractLsb' 20 8, C := s.C &&& 0x000FFFFF, t := 7 }) ∧
    (bufferFull s.cap b.length = false → s.Tr ≠ 0xFF → 0 ≤ s.L → T = 0xFF →
      transferByte s = .done () { setInstalled (b ++ [0xFF]) s with
        L := s.L + 1, Tr := C.extractLsb' 20 8, C := C &&& 0x000FFFFF, t := 7 }) ∧
    (bufferFull s.cap b.length = false → s.Tr ≠ 0xFF → 0 ≤ s.L → T ≠ 0xFF →
      transferByte s = .done () { setInstalled (b ++ [T]) s with
        L := s.L + 1, Tr := C.extractLsb' 19 8, C := C &&& 0x0007FFFF, t := 8 }) ∧
    (s.Tr ≠ 0xFF → s.L < 0 → T ≠ 0xFF → transferByte s = .done () { s with
      L := s.L + 1, Tr := C.extractLsb' 19 8, C := C &&& 0x0007FFFF, t := 8 }) ∧
    (bufferFull s.cap b.length = true → s.Tr = 0xFF → transferByte s = .raised .streamIO s) ∧
    (bufferFull s.cap b.length = true → s.Tr ≠ 0xFF → 0 ≤ s.L →
      transferByte s = .raised .streamIO { s with Tr := T, C := C })

/-- R133: `fill_lsb` at the end of the stream, at a marker, and on any other byte; where L is beyond the stream the model
gives the state no meaning (corner f, log entry 8). The premise on LW is U17 (log entry 7). -/
def Obligations.FillLsbCases : Prop :=
  ∀ (s : State) (b : Buffer), installed s = some b →
    (s.L = b.length → fillLsb s = .done () { s with t := 8, C := s.C + 0xFF }) ∧
    (∀ (n : Nat) (v : Byte), s.L = n → b[n]? = some v →
      (s.Tr = 0xFF → 0x8F < v → fillLsb s = .raised .invalidMarker { s with t := 8, C := s.C + 0xFF }) ∧
      (s.Tr = 0xFF → v ≤ 0x8F → s.L < positionMax s.lw → fillLsb s = .done () { s with
        t := 7, Tr := v, L := s.L + 1, C := s.C + (v.setWidth 32 <<< 1) }) ∧
      (s.Tr ≠ 0xFF → s.L < positionMax s.lw → fillLsb s = .done () { s with
        t := 8, Tr := v, L := s.L + 1, C := s.C + v.setWidth 32 })) ∧
    ((b.length : Int) < s.L → fillLsb s = .refused .positionOutsideStream)

/-- R156: what is read off the tables: the switching states, the fixed points, that 46 is reached from no other state and
every other state from 0, the run of MPS transitions; and that no command puts a context in state 46. -/
def Obligations.TablesAreClosed : Prop :=
  (∀ i, stateSwitch i = 1 ↔ i = 0 ∨ i = 6 ∨ i = 14) ∧ (∀ i, stateSwitch i = 1 → stateProb i = 0x5601) ∧
  (∀ i, stateTransMps i = i ↔ i = 45 ∨ i = 46) ∧ (∀ i, stateTransLps i = i ↔ i = 6 ∨ i = 14 ∨ i = 46) ∧
  (stateSwitch 46 = 0 ∧ stateTransMps 46 = 46 ∧ stateTransLps 46 = 46) ∧
  (∀ path : List Bool, path.foldl (fun i m => if m then stateTransMps i else stateTransLps i) 0 ≠ 46) ∧
  (∀ i : Fin 47, i ≠ 46 → ∃ path : List Bool, path.foldl (fun i m => if m then stateTransMps i else stateTransLps i) 0 = i) ∧
  (List.range 15).map (fun n => stateTransMps^[n] 0) = [0, 1, 2, 3, 4, 5, 38, 39, 40, 41, 42, 43, 44, 45, 45] ∧
  (∀ (i : Instr) (s u : State), (∀ e ∈ s.ctx, e.state ≠ 46) → exec i s = .next u → ∀ e ∈ u.ctx, e.state ≠ 46)

/-! ### Termination -/

/-- R200: TERME in mode ENC with room for three bytes and room in L (log entry 7) answers OK: it appends at most three
bytes, advances L by one to three, leaves t at 7 or 8, and ends the message. The bytes are those the flush owes: the message
with them is no greater than the lower end of the interval, and continued with ones it lies in the interval. -/
def Obligations.TermeCompletes : Prop :=
  ∀ (s : State) (b : Buffer), s.mode = .enc → EncodeInv s → installed s = some b → RoomFor 3 s → PositionRoom 3 s →
    ∃ (u : State) (d : Buffer), exec .terme s = .next u ∧ u.responses = s.responses ++ [0] ∧ u.mode = .idle ∧
      installed u = some (b ++ d) ∧ d.length ≤ 3 ∧ s.L < u.L ∧ u.L ≤ s.L + 3 ∧ (u.t = 7 ∨ u.t = 8) ∧
      (NoMarker s → codeValue 1 (messageBytes s ++ d) ≤ intervalLow s ∧ InInterval s (messageBytes s ++ d))

/-- R201, R202, R203, R204 a: under the same conditions TERMO answers OK. It is TERME's flush, then the tail cut to the k
bytes `min_flush` answers, then to the n bytes `post_trim` answers; what it keeps is a prefix of what TERME leaves, and
every register is as TERME leaves it. The k bytes, continued with ones, lie in the interval and no fewer do (but for k = 0
after a `0xFF`, whose next byte R202 does not overlap); so do the n bytes of a message that begins the stream. -/
def Obligations.TermoKeepsPrefixOfTerme : Prop :=
  ∀ (s : State) (b : Buffer), s.mode = .enc → EncodeInv s → installed s = some b → RoomFor 3 s → PositionRoom 3 s →
    ∃ (u w : State) (d : Buffer) (k n : Nat),
      easyFlush s = .done () w ∧ exec .terme s = .next (respond .ok 0 (toIdle w)) ∧ installed w = some (b ++ d) ∧
      minFlush (snapshot b.length s) w = .done k w ∧ k ≤ d.length ∧
      postTrim (b.length + k) w = .done n w ∧ n ≤ b.length + k ∧
      exec .termo s = .next u ∧ u = respond .ok 0 (toIdle (setInstalled ((b ++ d).take n) w)) ∧
      u.responses = s.responses ++ [0] ∧ u.mode = .idle ∧
      (NoMarker s → 0 ≤ s.L ∨ b = [] → InInterval s (messageBytes s ++ d.take k) ∧
        ∀ j, j < k → (j = 0 → (messageBytes s).getLast? ≠ some 0xFF) → ¬ InInterval s (messageBytes s ++ d.take j)) ∧
      (NoMarker s → b.length = s.L.toNat → InInterval s ((b ++ d).take n))

/-- R203, R204 a and b: after TERMO the stream is no longer than TERME would have left it (T1); it does not end with
`FF 7F`, and it ends with a lone `0xFF` only where another `0xFF` followed in the stream of TERME: never where the message
begins the stream, which has T2. -/
def Obligations.TermoTrims : Prop :=
  ∀ (s u v : State) (c d : Buffer), s.mode = .enc → EncodeInv s → exec .termo s = .next u → exec .terme s = .next v →
    v.responses = s.responses ++ [0] → installed u = some d → installed v = some c → OptimalNotLonger s ∧
    ¬ (∃ a : Buffer, d = a ++ [0xFF, 0x7F]) ∧ (∀ a : Buffer, d = a ++ [0xFF] → ∃ rest, c = a ++ 0xFF :: 0xFF :: rest) ∧
    (∀ b : Buffer, NoMarker s → installed s = some b → b.length = s.L.toNat → OptimalEndsTrimmed s)

/-- R179, R200, R201, R63: what the terminations leave alone: A, the contexts, the handle, every other buffer; TERME also
every byte the stream had, and TERMO every byte of it that it keeps. -/
def Obligations.TerminationFrame : Prop :=
  ∀ (s u : State) (i : Instr) (b : Buffer), (i = .terme ∨ i = .termo) → BlockInv s → installed s = some b → exec i s = .next u →
    u.A = s.A ∧ u.ctx = s.ctx ∧ u.cur = s.cur ∧ u.cap = s.cap ∧ u.lw = s.lw ∧ u.host = s.host ∧
    (∀ sid off, isInstalled sid s = false → readByte u sid off = readByte s sid off) ∧
    (i = .terme → ∀ sid off, isInstalled sid s = true → off < b.length → readByte u sid off = readByte s sid off) ∧
    (∀ sid off v, isInstalled sid s = true → off < b.length → readByte u sid off = some v → readByte s sid off = some v)

/-- R280: a host that reserves as many bytes as REMB answers is safe against `StreamIO`: with that much room TERME and
TERMO answer OK, and TERME appends at least two bytes less than the answer. -/
def Obligations.RembReservesEnough : Prop :=
  ∀ (s : State) (b : Buffer) (r : BitVec 3), s.mode = .enc → EncodeInv s → PositionRoom 3 s → installed s = some b →
    exec .remb s = .next (answerOnly (responseWord .ok r) s) → RoomFor r.toNat s →
    (∃ (u : State) (d : Buffer), exec .terme s = .next u ∧ u.responses = s.responses ++ [0] ∧
      installed u = some (b ++ d) ∧ d.length + 2 ≤ r.toNat) ∧
    (∃ u : State, exec .termo s = .next u ∧ u.responses = s.responses ++ [0])

/-! ### The round trip -/

/-- R109, R204 T3: a message encoded into an empty stream and closed by TERME or TERMO, every command answered OK, decodes
to its symbols, each under the context or the probability it was encoded with, from equal contexts. The premise on LW is
U17 (log entry 7). -/
def Obligations.RoundTrip : Prop :=
  ∀ (s d : State) (msg : List Symbol) (i : Instr), (i = .terme ∨ i = .termo) → installed s = some [] →
    TerminatedDecodes i msg s d

/-! ### The whole machine -/

/-- R31, R33, R270: the invariant holds after power-on, whatever the parameters and the contents of the store, and at the
model's reset state (log entries 1 to 4). -/
def Obligations.InvAfterPowerOn : Prop :=
  (∀ (p : Config.Params) (sm : Memory), p.legal = true → sm.length = p.buffers → Memory.wf p.capacity sm = true →
    BlockInv (State.powerOn p sm)) ∧ BlockInv State.reset

/-- R31, R33, R106, R24, R26, R156, R180: every step of block and host keeps the invariant, from every state that has
it. -/
def Obligations.EveryStepKeepsInv : Prop := ∀ s u : State, BlockInv s → step s = .next u → BlockInv u

/-- R288, R102, R105: the block always answers: from every state that meets the invariant no step sticks, and where LW
holds the length of the stream and three more (U17, log entry 7) every command word gets its response. -/
def Obligations.BlockAlwaysAnswers : Prop :=
  ∀ s : State, BlockInv s → (∀ f, step s ≠ .fault f) ∧
    ((∀ b, installed s = some b → (b.length : Int) + 3 ≤ positionMax s.lw) → ∀ w : Word, ∃ u, takeCommand w s = .next u)

/-- R132, R56: the encoder writes no marker: that the bytes of the message hold none, and that none can be about to be
written, is kept by every command that leaves the block encoding. -/
def Obligations.EncoderWritesNoMarker : Prop :=
  (∀ s u : State, exec .rstenc s = .next u → u.mode = .enc → u.L = -1 → NoMarker u) ∧
  (∀ (i : Instr) (s u : State), BlockInv s → s.mode = .enc → NoMarker s → exec i s = .next u → u.mode = .enc → NoMarker u)

/-- R132, R56: the message in the stream after TERME or TERMO holds no marker. -/
def Obligations.TerminatedMessageHoldsNoMarker : Prop :=
  ∀ (i : Instr) (s u : State) (b c : Buffer), (i = .terme ∨ i = .termo) → BlockInv s → s.mode = .enc → NoMarker s →
    exec i s = .next u → u.responses = s.responses ++ [0] → installed s = some b → installed u = some c →
    MarkerFree (c.drop (b.length - s.L.toNat))

/-- R8, R270: no step changes N, NSID, CAP or LW. -/
def Obligations.ParametersNeverChange : Prop :=
  ∀ s u : State, step s = .next u → u.ctx.length = s.ctx.length ∧ u.sm.length = s.sm.length ∧ u.cap = s.cap ∧ u.lw = s.lw

/-- R30, R31 (I6), R26: the handle changes only by CHSTR, and L never moves backward but by a restart. -/
def Obligations.HandleAndPositionMove : Prop :=
  ∀ (i : Instr) (s u : State), exec i s = .next u →
    (u.cur ≠ s.cur → ∃ z sid, i = .chstr z sid ∧ u.cur = some sid) ∧ (i ≠ .rstenc → i ≠ .rstdec → s.L ≤ u.L)

/-- R63, R51: no command rewrites: each buffer after a command is an extension or a truncation of what it was. -/
def Obligations.NoByteIsRewritten : Prop :=
  ∀ (i : Instr) (s u : State) (sid : Nat) (b : Buffer), exec i s = .next u → s.sm[sid]? = some b →
    ∃ c, u.sm[sid]? = some c ∧ (b <+: c ∨ c <+: b)

/-- R50, R57, R62: a command reaches only the installed buffer, and CHSTR.Z only the one it installs. -/
def Obligations.OnlyInstalledBufferChanges : Prop :=
  ∀ (i : Instr) (s u : State) (sid : Nat), exec i s = .next u → isInstalled sid s = false →
    (∀ h, i = .chstr 1 h → h.toNat ≠ sid) → u.sm[sid]? = s.sm[sid]?

/-- R241, R245: `InvalidMarker` is answered only by RSTDEC, DECCTX and DECPRB, and only where the byte at L exists, is
above `0x8F` and follows a `0xFF`; the block is then IDLE with t at 8 and that `0xFF` in Tr. DECPRB and DECCTX do answer it
where their shifts come to a fill at such a byte, in the state given. RSTDEC's case is in `RstdecByFirstBytes`. -/
def Obligations.InvalidMarkerCondition : Prop :=
  (∀ (i : Instr) (s u : State), BlockInv s → exec i s = .next u → u.responses = s.responses ++ [0x10000000] →
    (i = .rstdec ∨ (∃ c, i = .decctx c) ∨ ∃ g p, i = .decprb g p) ∧ u.mode = .idle ∧ u.t = 8 ∧ u.Tr = 0xFF ∧
    ∃ (b : Buffer) (n : Nat) (v : Byte), installed u = some b ∧ u.L = n ∧ b[n]? = some v ∧ 0x8F < v) ∧
  (∀ (s : State) (b : Buffer) (n : Nat) (v : Byte), s.mode = .dec → 0x8000 ≤ s.A.toNat → installed s = some b →
    s.L = n → b[n]? = some v → 0x8F < v → s.Tr = 0xFF →
    (∀ (g : Bit) (p : BitVec 16) (A : BitVec 16) (C : Word), 1 ≤ p.toNat → p.toNat ≤ 0x7FFF →
      (windowReaches s.C p = true → A = s.A - p ∧ C = s.C - (p.setWidth 32 <<< 8)) →
      (windowReaches s.C p = false → A = p ∧ C = s.C) → A.toNat * 2 ^ s.t.toNat < 0x8000 →
      exec (.decprb g p) s = .next { s with
        A := A <<< s.t.toNat, C := (C <<< s.t.toNat) + 0xFF, t := 8, mode := .idle,
        responses := s.responses ++ [0x10000000] }) ∧
    (∀ (c : BitVec 16) (e : Context) (p : BitVec 16) (A : BitVec 16) (C : Word), s.ctx[c.toNat]? = some e →
      stateProb e.state = p → (windowReaches s.C p = true → A = s.A - p ∧ C = s.C - (p.setWidth 32 <<< 8)) →
      (windowReaches s.C p = false → A = p ∧ C = s.C) → A.toNat * 2 ^ s.t.toNat < 0x8000 →
      exec (.decctx c) s = .next { s with
        A := A <<< s.t.toNat, C := (C <<< s.t.toNat) + 0xFF, t := 8, mode := .idle,
        ctx := s.ctx.set c.toNat (e.adapted s.A p (symbolRead s.A p e.mps s.C)),
        responses := s.responses ++ [0x10000000] }))

/-- R242, R245: `StreamIO` is answered only by the encode and termination commands, and only where the installed buffer is
full; with `CAP` unbounded it never occurs. The block is then IDLE. Each of the four does answer it where its first
transfer comes to append to a full buffer (a first byte, L = -1, is not appended), in the state given: that transfer
abandoned after its carry step. -/
def Obligations.StreamIOCondition : Prop :=
  (∀ (i : Instr) (s u : State), BlockInv s → exec i s = .next u → u.responses = s.responses ++ [0x20000000] →
    ((∃ x c, i = .encctx x c) ∨ (∃ x g p, i = .encprb x g p) ∨ i = .terme ∨ i = .termo) ∧ u.mode = .idle ∧
    ∃ (k : Nat) (b : Buffer), s.cap = some k ∧ installed u = some b ∧ b.length = k) ∧
  (∀ (s : State) (b : Buffer), s.mode = .enc → installed s = some b → s.cap = some b.length →
    (s.Tr = 0xFF ∨ 0 ≤ s.L) →
    (∀ (x g : Bit) (p : BitVec 16) (A : BitVec 16) (C : Word), 1 ≤ p.toNat → p.toNat ≤ 0x7FFF → 0x8000 ≤ s.A.toNat →
      1 ≤ s.t.toNat → (takesUpper s.A p g x = true → A = s.A - p ∧ C = s.C + p.setWidth 32) →
      (takesUpper s.A p g x = false → A = p ∧ C = s.C) → A.toNat * 2 ^ (s.t.toNat - 1) < 0x8000 →
      exec (.encprb x g p) s = .next { afterCarry { s with C := C <<< s.t.toNat } with
        A := A <<< s.t.toNat, t := 0, mode := .idle, responses := s.responses ++ [0x20000000] }) ∧
    (∀ (x : Bit) (c : BitVec 16) (e : Context) (p : BitVec 16) (A : BitVec 16) (C : Word), s.ctx[c.toNat]? = some e →
      stateProb e.state = p → 0x8000 ≤ s.A.toNat → 1 ≤ s.t.toNat →
      (takesUpper s.A p e.mps x = true → A = s.A - p ∧ C = s.C + p.setWidth 32) →
      (takesUpper s.A p e.mps x = false → A = p ∧ C = s.C) → A.toNat * 2 ^ (s.t.toNat - 1) < 0x8000 →
      exec (.encctx x c) s = .next { afterCarry { s with C := C <<< s.t.toNat } with
        A := A <<< s.t.toNat, t := 0, mode := .idle, ctx := s.ctx.set c.toNat (e.adapted s.A p x),
        responses := s.responses ++ [0x20000000] }) ∧
    (∀ i : Instr, i = .terme ∨ i = .termo →
      exec i s = .next { afterCarry { s with C := s.C <<< s.t.toNat } with
        mode := .idle, responses := s.responses ++ [0x20000000] }))

/-- R38, R270, R282: in mode IDLE nothing that happens, and nothing observed, depends on A, C, t, Tr or L: two states that
differ only there step alike. So the values the model gives them at power-on (log entry 2) do not matter. -/
def Obligations.DeadRegistersAreNeverRead : Prop :=
  ∀ s u : State, Alike s u → observation s = observation u ∧
    (∀ s1, step s = .next s1 → ∃ u1, step u = .next u1 ∧ Alike s1 u1) ∧
    (∀ f, step s = .fault f → step u = .fault f) ∧ (∀ r, step s = .refused r → step u = .refused r)

/-- R270, R272: the state after power-on but for A, C, t, Tr and L, and that the coding commands and the restarts are
refused from it. -/
def Obligations.PowerOnState : Prop :=
  ∀ (p : Config.Params) (sm : Memory),
    (State.powerOn p sm).mode = .idle ∧ (State.powerOn p sm).cur = none ∧
    (State.powerOn p sm).ctx = List.replicate p.contexts ⟨0, 0⟩ ∧ (State.powerOn p sm).sm = sm ∧
    (State.powerOn p sm).responses = [] ∧
    (∀ i : Instr, i ≠ .reset → i ≠ .rstenc → i ≠ .rstdec → (∀ z sid, i ≠ .chstr z sid) →
      exec i (State.powerOn p sm) = .next (answerOnly 0x40000000 (State.powerOn p sm))) ∧
    (∀ i : Instr, i = .rstenc ∨ i = .rstdec → exec i (State.powerOn p sm) = .next (answerOnly 0x70000000 (State.powerOn p sm)))

/-- R274: a restart forgets the finished message: two states that differ only in A, C, t, Tr, L and the mode restart to the
same state, and RSTDEC meets a marker in both or in neither. -/
def Obligations.RestartForgetsThePast : Prop :=
  ∀ (s : State) (A : BitVec 16) (C : Word) (t : BitVec 4) (T : Byte) (L : Int) (m : Mode), s.cur ≠ none →
    exec .rstenc { s with A := A, C := C, t := t, Tr := T, L := L, mode := m } = exec .rstenc s ∧
    (∀ u : State, exec .rstdec s = .next u → u.mode = .dec →
      exec .rstdec { s with A := A, C := C, t := t, Tr := T, L := L, mode := m } = .next u) ∧
    (∀ u : State, exec .rstdec s = .next u → u.mode ≠ .dec →
      exec .rstdec { s with A := A, C := C, t := t, Tr := T, L := L, mode := m } = .next { u with A := A })

/-- R273: RESET and a restart may come in either order, from a block with a stream installed. -/
def Obligations.ResetAndRestartCommute : Prop :=
  ∀ (s a b c d : State) (i : Instr), (i = .rstenc ∨ i = .rstdec) → s.cur ≠ none →
    exec .reset s = .next a → exec i a = .next b → exec i s = .next c → exec .reset c = .next d →
    b.mode ≠ .idle → b = d

/-- R80, R171, R178, R272: OPENENC from a block in any mode: three steps answer OK three times and leave the block encoding
into the named buffer, which is empty, with all contexts zero. A sequence as one host move is the model's form (log entry
19). -/
def Obligations.OpenencBringsUp : Prop :=
  ∀ (s : State) (sid : BitVec 16) (rest : List HostMove), s.host = (Pseudo.openenc sid).move :: rest →
    sid.toNat < s.sm.length → ∃ s1 s2 s3 : State, step s = .next s1 ∧ step s1 = .next s2 ∧ step s2 = .next s3 ∧
      s3 = { s with
        A := 0x8000, C := 0, t := 12, Tr := 0, L := -1, mode := .enc, cur := some sid, sm := s.sm.set sid.toNat [],
        ctx := List.replicate s.ctx.length ⟨0, 0⟩, responses := s.responses ++ [0, 0, 0],
        host := .sequence [] :: rest }

/-! ### The host's helpers -/

/-- R230: the values of its table. -/
def Obligations.Prob0ToMqValues : Prop :=
  prob0ToMq (1 / 4) = -10922 ∧ prob0ToMq (1 / 2) = 21845 ∧ prob0ToMq (3 / 4) = 10922 ∧ prob0ToMq (9 / 10) = 4369 ∧
  (∀ p : Rat, 9999 / 10000 ≤ p → prob0ToMq p = 4) ∧ (∀ p : Rat, p ≤ 1 / 10000 → prob0ToMq p = -4) ∧
  prob0ToMq (6 / 10) = 17476

/-- R230: the magnitude lies between 4 and 21845 and the sign names the likelier symbol, so every value is a legal operand
(R175). -/
def Obligations.Prob0ToMqRange : Prop :=
  (∀ p : Rat, 1 / 2 ≤ p → 4 ≤ prob0ToMq p ∧ prob0ToMq p ≤ 21845) ∧
  (∀ p : Rat, p < 1 / 2 → -21845 ≤ prob0ToMq p ∧ prob0ToMq p ≤ -4) ∧
  (∀ p : Rat, probLegal (magnitudeOf (prob0ToMq p)) = true)

/-- R231: the conversion back to a probability, its values, and that it undoes R230 up to the floor. That "up to the floor"
is less than the probability of one unit, and that both helpers are exact (R232), is the model's reading (log entry 18). -/
def Obligations.MqToProb0UndoesFloor : Prop :=
  (∀ q : Int, 0 < q → mqToProb0 q = 1 - 3 * q / 131072) ∧ (∀ q : Int, q ≤ 0 → mqToProb0 q = -(3 * q / 131072)) ∧
  mqToProb0 21845 = 1 - 65535 / 131072 ∧ mqToProb0 (-10922) = 32766 / 131072 ∧ mqToProb0 4369 = 1 - 13107 / 131072 ∧
  (∀ p : Rat, 1 / 2 ≤ p → p ≤ 9999 / 10000 → p ≤ mqToProb0 (prob0ToMq p) ∧ mqToProb0 (prob0ToMq p) < p + 3 / 131072) ∧
  (∀ p : Rat, 1 / 10000 ≤ p → p < 1 / 2 → p - 3 / 131072 < mqToProb0 (prob0ToMq p) ∧ mqToProb0 (prob0ToMq p) ≤ p)

/-- R232, D17: the rounding of the helpers is open, so they are an argument. Whatever evaluation within one unit a host
uses, its operands are legal and stand for the integer it computed, and its messages decode when both sides use it; the
exact evaluation is one of them. The bound on `mq_to_prob0` is a reading of that unit (log entry 18). -/
def Obligations.HostEvaluationIsOpen : Prop :=
  LegalEvaluation exactEvaluation ∧
  ∀ e : Config.HostEvaluation, LegalEvaluation e →
    (∀ (x : Bit) (p : Rat), ∃ (g : Bit) (q : BitVec 16), encodeProb0 e x p = .encprb x g q ∧ decodeProb0 e p = .decprb g q ∧
      1 ≤ q.toNat ∧ q.toNat ≤ 0x7FFF ∧ prob0Of g q = e.prob0ToMq p) ∧
    (∀ (s u d : State) (msg : List (Bit × Rat)) (i : Instr) (c : Buffer), (i = .terme ∨ i = .termo) → installed s = some [] →
      execAll (.rstenc :: msg.map (fun m => encodeProb0 e m.1 m.2) ++ [i]) s = some u →
      u.responses = s.responses ++ List.replicate (msg.length + 2) 0 → installed u = some c →
      installed d = some c → d.ctx = s.ctx → c.length ≤ positionMax d.lw →
      ∃ v : State, execAll (.rstdec :: msg.map fun m => decodeProb0 e m.2) d = some v ∧
        v.responses = d.responses ++ 0 :: msg.map fun m => responseWord .ok (m.1.setWidth 3))
end

