-- ==== Sys2Proof/Laws/State.lean ====
section
/-! SUPPORT. One lemma per field per update of the state, so that no later proof unfolds a record update. -/

namespace Sys2Proof.Machine

@[simp] theorem respond_A (st : Status) (v : BitVec 3) (s : State) : (respond st v s).A = s.A := rfl
@[simp] theorem respond_C (st : Status) (v : BitVec 3) (s : State) : (respond st v s).C = s.C := rfl
@[simp] theorem respond_t (st : Status) (v : BitVec 3) (s : State) : (respond st v s).t = s.t := rfl
@[simp] theorem respond_Tr (st : Status) (v : BitVec 3) (s : State) : (respond st v s).Tr = s.Tr := rfl
@[simp] theorem respond_L (st : Status) (v : BitVec 3) (s : State) : (respond st v s).L = s.L := rfl
@[simp] theorem respond_ctx (st : Status) (v : BitVec 3) (s : State) : (respond st v s).ctx = s.ctx := rfl
@[simp] theorem respond_mode (st : Status) (v : BitVec 3) (s : State) : (respond st v s).mode = s.mode := rfl
@[simp] theorem respond_cur (st : Status) (v : BitVec 3) (s : State) : (respond st v s).cur = s.cur := rfl
@[simp] theorem respond_sm (st : Status) (v : BitVec 3) (s : State) : (respond st v s).sm = s.sm := rfl
@[simp] theorem respond_cap (st : Status) (v : BitVec 3) (s : State) : (respond st v s).cap = s.cap := rfl
@[simp] theorem respond_lw (st : Status) (v : BitVec 3) (s : State) : (respond st v s).lw = s.lw := rfl
@[simp] theorem respond_responses (st : Status) (v : BitVec 3) (s : State) : (respond st v s).responses = s.responses ++ [responseWord st v] := rfl
@[simp] theorem respond_host (st : Status) (v : BitVec 3) (s : State) : (respond st v s).host = s.host := rfl

@[simp] theorem refuseWith_A (st : Status) (s : State) : (refuseWith st s).A = s.A := rfl
@[simp] theorem refuseWith_C (st : Status) (s : State) : (refuseWith st s).C = s.C := rfl
@[simp] theorem refuseWith_t (st : Status) (s : State) : (refuseWith st s).t = s.t := rfl
@[simp] theorem refuseWith_Tr (st : Status) (s : State) : (refuseWith st s).Tr = s.Tr := rfl
@[simp] theorem refuseWith_L (st : Status) (s : State) : (refuseWith st s).L = s.L := rfl
@[simp] theorem refuseWith_ctx (st : Status) (s : State) : (refuseWith st s).ctx = s.ctx := rfl
@[simp] theorem refuseWith_mode (st : Status) (s : State) : (refuseWith st s).mode = s.mode := rfl
@[simp] theorem refuseWith_cur (st : Status) (s : State) : (refuseWith st s).cur = s.cur := rfl
@[simp] theorem refuseWith_sm (st : Status) (s : State) : (refuseWith st s).sm = s.sm := rfl
@[simp] theorem refuseWith_cap (st : Status) (s : State) : (refuseWith st s).cap = s.cap := rfl
@[simp] theorem refuseWith_lw (st : Status) (s : State) : (refuseWith st s).lw = s.lw := rfl
@[simp] theorem refuseWith_responses (st : Status) (s : State) : (refuseWith st s).responses = s.responses ++ [responseWord st 0] := rfl
@[simp] theorem refuseWith_host (st : Status) (s : State) : (refuseWith st s).host = s.host := rfl

@[simp] theorem toIdle_A (s : State) : (toIdle s).A = s.A := rfl
@[simp] theorem toIdle_C (s : State) : (toIdle s).C = s.C := rfl
@[simp] theorem toIdle_t (s : State) : (toIdle s).t = s.t := rfl
@[simp] theorem toIdle_Tr (s : State) : (toIdle s).Tr = s.Tr := rfl
@[simp] theorem toIdle_L (s : State) : (toIdle s).L = s.L := rfl
@[simp] theorem toIdle_ctx (s : State) : (toIdle s).ctx = s.ctx := rfl
@[simp] theorem toIdle_mode (s : State) : (toIdle s).mode = .idle := rfl
@[simp] theorem toIdle_cur (s : State) : (toIdle s).cur = s.cur := rfl
@[simp] theorem toIdle_sm (s : State) : (toIdle s).sm = s.sm := rfl
@[simp] theorem toIdle_cap (s : State) : (toIdle s).cap = s.cap := rfl
@[simp] theorem toIdle_lw (s : State) : (toIdle s).lw = s.lw := rfl
@[simp] theorem toIdle_responses (s : State) : (toIdle s).responses = s.responses := rfl
@[simp] theorem toIdle_host (s : State) : (toIdle s).host = s.host := rfl

@[simp] theorem takeError_A (e : ExecError) (s : State) : (takeError e s).A = s.A := rfl
@[simp] theorem takeError_C (e : ExecError) (s : State) : (takeError e s).C = s.C := rfl
@[simp] theorem takeError_t (e : ExecError) (s : State) : (takeError e s).t = s.t := rfl
@[simp] theorem takeError_Tr (e : ExecError) (s : State) : (takeError e s).Tr = s.Tr := rfl
@[simp] theorem takeError_L (e : ExecError) (s : State) : (takeError e s).L = s.L := rfl
@[simp] theorem takeError_ctx (e : ExecError) (s : State) : (takeError e s).ctx = s.ctx := rfl
@[simp] theorem takeError_mode (e : ExecError) (s : State) : (takeError e s).mode = .idle := rfl
@[simp] theorem takeError_cur (e : ExecError) (s : State) : (takeError e s).cur = s.cur := rfl
@[simp] theorem takeError_sm (e : ExecError) (s : State) : (takeError e s).sm = s.sm := rfl
@[simp] theorem takeError_cap (e : ExecError) (s : State) : (takeError e s).cap = s.cap := rfl
@[simp] theorem takeError_lw (e : ExecError) (s : State) : (takeError e s).lw = s.lw := rfl
@[simp] theorem takeError_responses (e : ExecError) (s : State) : (takeError e s).responses = s.responses ++ [responseWord (errorStatus e) 0] := rfl
@[simp] theorem takeError_host (e : ExecError) (s : State) : (takeError e s).host = s.host := rfl

@[simp] theorem bumpPosition_A (s : State) : (bumpPosition s).A = s.A := rfl
@[simp] theorem bumpPosition_C (s : State) : (bumpPosition s).C = s.C := rfl
@[simp] theorem bumpPosition_t (s : State) : (bumpPosition s).t = s.t := rfl
@[simp] theorem bumpPosition_Tr (s : State) : (bumpPosition s).Tr = s.Tr := rfl
@[simp] theorem bumpPosition_L (s : State) : (bumpPosition s).L = s.L + 1 := rfl
@[simp] theorem bumpPosition_ctx (s : State) : (bumpPosition s).ctx = s.ctx := rfl
@[simp] theorem bumpPosition_mode (s : State) : (bumpPosition s).mode = s.mode := rfl
@[simp] theorem bumpPosition_cur (s : State) : (bumpPosition s).cur = s.cur := rfl
@[simp] theorem bumpPosition_sm (s : State) : (bumpPosition s).sm = s.sm := rfl
@[simp] theorem bumpPosition_cap (s : State) : (bumpPosition s).cap = s.cap := rfl
@[simp] theorem bumpPosition_lw (s : State) : (bumpPosition s).lw = s.lw := rfl
@[simp] theorem bumpPosition_responses (s : State) : (bumpPosition s).responses = s.responses := rfl
@[simp] theorem bumpPosition_host (s : State) : (bumpPosition s).host = s.host := rfl

@[simp] theorem shiftByCount_A (s : State) : (shiftByCount s).A = s.A := rfl
@[simp] theorem shiftByCount_C (s : State) : (shiftByCount s).C = s.C <<< s.t.toNat := rfl
@[simp] theorem shiftByCount_t (s : State) : (shiftByCount s).t = s.t := rfl
@[simp] theorem shiftByCount_Tr (s : State) : (shiftByCount s).Tr = s.Tr := rfl
@[simp] theorem shiftByCount_L (s : State) : (shiftByCount s).L = s.L := rfl
@[simp] theorem shiftByCount_ctx (s : State) : (shiftByCount s).ctx = s.ctx := rfl
@[simp] theorem shiftByCount_mode (s : State) : (shiftByCount s).mode = s.mode := rfl
@[simp] theorem shiftByCount_cur (s : State) : (shiftByCount s).cur = s.cur := rfl
@[simp] theorem shiftByCount_sm (s : State) : (shiftByCount s).sm = s.sm := rfl
@[simp] theorem shiftByCount_cap (s : State) : (shiftByCount s).cap = s.cap := rfl
@[simp] theorem shiftByCount_lw (s : State) : (shiftByCount s).lw = s.lw := rfl
@[simp] theorem shiftByCount_responses (s : State) : (shiftByCount s).responses = s.responses := rfl
@[simp] theorem shiftByCount_host (s : State) : (shiftByCount s).host = s.host := rfl

@[simp] theorem reloadStuffed_A (s : State) : (reloadStuffed s).A = s.A := rfl
@[simp] theorem reloadStuffed_C (s : State) : (reloadStuffed s).C = s.C &&& ~~~maskClearMsbs := rfl
@[simp] theorem reloadStuffed_t (s : State) : (reloadStuffed s).t = 7 := rfl
@[simp] theorem reloadStuffed_Tr (s : State) : (reloadStuffed s).Tr = s.C.extractLsb' 20 8 := rfl
@[simp] theorem reloadStuffed_L (s : State) : (reloadStuffed s).L = s.L := rfl
@[simp] theorem reloadStuffed_ctx (s : State) : (reloadStuffed s).ctx = s.ctx := rfl
@[simp] theorem reloadStuffed_mode (s : State) : (reloadStuffed s).mode = s.mode := rfl
@[simp] theorem reloadStuffed_cur (s : State) : (reloadStuffed s).cur = s.cur := rfl
@[simp] theorem reloadStuffed_sm (s : State) : (reloadStuffed s).sm = s.sm := rfl
@[simp] theorem reloadStuffed_cap (s : State) : (reloadStuffed s).cap = s.cap := rfl
@[simp] theorem reloadStuffed_lw (s : State) : (reloadStuffed s).lw = s.lw := rfl
@[simp] theorem reloadStuffed_responses (s : State) : (reloadStuffed s).responses = s.responses := rfl
@[simp] theorem reloadStuffed_host (s : State) : (reloadStuffed s).host = s.host := rfl

@[simp] theorem reloadNormal_A (s : State) : (reloadNormal s).A = s.A := rfl
@[simp] theorem reloadNormal_C (s : State) : (reloadNormal s).C = s.C &&& ~~~maskClearPart := rfl
@[simp] theorem reloadNormal_t (s : State) : (reloadNormal s).t = 8 := rfl
@[simp] theorem reloadNormal_Tr (s : State) : (reloadNormal s).Tr = s.C.extractLsb' 19 8 := rfl
@[simp] theorem reloadNormal_L (s : State) : (reloadNormal s).L = s.L := rfl
@[simp] theorem reloadNormal_ctx (s : State) : (reloadNormal s).ctx = s.ctx := rfl
@[simp] theorem reloadNormal_mode (s : State) : (reloadNormal s).mode = s.mode := rfl
@[simp] theorem reloadNormal_cur (s : State) : (reloadNormal s).cur = s.cur := rfl
@[simp] theorem reloadNormal_sm (s : State) : (reloadNormal s).sm = s.sm := rfl
@[simp] theorem reloadNormal_cap (s : State) : (reloadNormal s).cap = s.cap := rfl
@[simp] theorem reloadNormal_lw (s : State) : (reloadNormal s).lw = s.lw := rfl
@[simp] theorem reloadNormal_responses (s : State) : (reloadNormal s).responses = s.responses := rfl
@[simp] theorem reloadNormal_host (s : State) : (reloadNormal s).host = s.host := rfl

@[simp] theorem startFill_A (s : State) : (startFill s).A = s.A := rfl
@[simp] theorem startFill_C (s : State) : (startFill s).C = s.C := rfl
@[simp] theorem startFill_t (s : State) : (startFill s).t = 8 := rfl
@[simp] theorem startFill_Tr (s : State) : (startFill s).Tr = s.Tr := rfl
@[simp] theorem startFill_L (s : State) : (startFill s).L = s.L := rfl
@[simp] theorem startFill_ctx (s : State) : (startFill s).ctx = s.ctx := rfl
@[simp] theorem startFill_mode (s : State) : (startFill s).mode = s.mode := rfl
@[simp] theorem startFill_cur (s : State) : (startFill s).cur = s.cur := rfl
@[simp] theorem startFill_sm (s : State) : (startFill s).sm = s.sm := rfl
@[simp] theorem startFill_cap (s : State) : (startFill s).cap = s.cap := rfl
@[simp] theorem startFill_lw (s : State) : (startFill s).lw = s.lw := rfl
@[simp] theorem startFill_responses (s : State) : (startFill s).responses = s.responses := rfl
@[simp] theorem startFill_host (s : State) : (startFill s).host = s.host := rfl

@[simp] theorem padOnes_A (s : State) : (padOnes s).A = s.A := rfl
@[simp] theorem padOnes_C (s : State) : (padOnes s).C = s.C + 0xFF := rfl
@[simp] theorem padOnes_t (s : State) : (padOnes s).t = s.t := rfl
@[simp] theorem padOnes_Tr (s : State) : (padOnes s).Tr = s.Tr := rfl
@[simp] theorem padOnes_L (s : State) : (padOnes s).L = s.L := rfl
@[simp] theorem padOnes_ctx (s : State) : (padOnes s).ctx = s.ctx := rfl
@[simp] theorem padOnes_mode (s : State) : (padOnes s).mode = s.mode := rfl
@[simp] theorem padOnes_cur (s : State) : (padOnes s).cur = s.cur := rfl
@[simp] theorem padOnes_sm (s : State) : (padOnes s).sm = s.sm := rfl
@[simp] theorem padOnes_cap (s : State) : (padOnes s).cap = s.cap := rfl
@[simp] theorem padOnes_lw (s : State) : (padOnes s).lw = s.lw := rfl
@[simp] theorem padOnes_responses (s : State) : (padOnes s).responses = s.responses := rfl
@[simp] theorem padOnes_host (s : State) : (padOnes s).host = s.host := rfl

@[simp] theorem acceptByte_A (b : Byte) (s : State) : (acceptByte b s).A = s.A := rfl
@[simp] theorem acceptByte_C (b : Byte) (s : State) : (acceptByte b s).C = s.C := rfl
@[simp] theorem acceptByte_t (b : Byte) (s : State) : (acceptByte b s).t = if s.Tr = 0xFF then 7 else s.t := rfl
@[simp] theorem acceptByte_Tr (b : Byte) (s : State) : (acceptByte b s).Tr = b := rfl
@[simp] theorem acceptByte_L (b : Byte) (s : State) : (acceptByte b s).L = s.L := rfl
@[simp] theorem acceptByte_ctx (b : Byte) (s : State) : (acceptByte b s).ctx = s.ctx := rfl
@[simp] theorem acceptByte_mode (b : Byte) (s : State) : (acceptByte b s).mode = s.mode := rfl
@[simp] theorem acceptByte_cur (b : Byte) (s : State) : (acceptByte b s).cur = s.cur := rfl
@[simp] theorem acceptByte_sm (b : Byte) (s : State) : (acceptByte b s).sm = s.sm := rfl
@[simp] theorem acceptByte_cap (b : Byte) (s : State) : (acceptByte b s).cap = s.cap := rfl
@[simp] theorem acceptByte_lw (b : Byte) (s : State) : (acceptByte b s).lw = s.lw := rfl
@[simp] theorem acceptByte_responses (b : Byte) (s : State) : (acceptByte b s).responses = s.responses := rfl
@[simp] theorem acceptByte_host (b : Byte) (s : State) : (acceptByte b s).host = s.host := rfl

@[simp] theorem addByte_A (s : State) : (addByte s).A = s.A := rfl
@[simp] theorem addByte_C (s : State) : (addByte s).C = s.C + (byteWide s.Tr <<< (8 - s.t.toNat)) := rfl
@[simp] theorem addByte_t (s : State) : (addByte s).t = s.t := rfl
@[simp] theorem addByte_Tr (s : State) : (addByte s).Tr = s.Tr := rfl
@[simp] theorem addByte_L (s : State) : (addByte s).L = s.L := rfl
@[simp] theorem addByte_ctx (s : State) : (addByte s).ctx = s.ctx := rfl
@[simp] theorem addByte_mode (s : State) : (addByte s).mode = s.mode := rfl
@[simp] theorem addByte_cur (s : State) : (addByte s).cur = s.cur := rfl
@[simp] theorem addByte_sm (s : State) : (addByte s).sm = s.sm := rfl
@[simp] theorem addByte_cap (s : State) : (addByte s).cap = s.cap := rfl
@[simp] theorem addByte_lw (s : State) : (addByte s).lw = s.lw := rfl
@[simp] theorem addByte_responses (s : State) : (addByte s).responses = s.responses := rfl
@[simp] theorem addByte_host (s : State) : (addByte s).host = s.host := rfl

@[simp] theorem shiftOnce_A (s : State) : (shiftOnce s).A = s.A <<< 1 := rfl
@[simp] theorem shiftOnce_C (s : State) : (shiftOnce s).C = s.C <<< 1 := rfl
@[simp] theorem shiftOnce_t (s : State) : (shiftOnce s).t = s.t - 1 := rfl
@[simp] theorem shiftOnce_Tr (s : State) : (shiftOnce s).Tr = s.Tr := rfl
@[simp] theorem shiftOnce_L (s : State) : (shiftOnce s).L = s.L := rfl
@[simp] theorem shiftOnce_ctx (s : State) : (shiftOnce s).ctx = s.ctx := rfl
@[simp] theorem shiftOnce_mode (s : State) : (shiftOnce s).mode = s.mode := rfl
@[simp] theorem shiftOnce_cur (s : State) : (shiftOnce s).cur = s.cur := rfl
@[simp] theorem shiftOnce_sm (s : State) : (shiftOnce s).sm = s.sm := rfl
@[simp] theorem shiftOnce_cap (s : State) : (shiftOnce s).cap = s.cap := rfl
@[simp] theorem shiftOnce_lw (s : State) : (shiftOnce s).lw = s.lw := rfl
@[simp] theorem shiftOnce_responses (s : State) : (shiftOnce s).responses = s.responses := rfl
@[simp] theorem shiftOnce_host (s : State) : (shiftOnce s).host = s.host := rfl

@[simp] theorem subtractProb_A (p : BitVec 16) (s : State) : (subtractProb p s).A = s.A - p := rfl
@[simp] theorem subtractProb_C (p : BitVec 16) (s : State) : (subtractProb p s).C = s.C := rfl
@[simp] theorem subtractProb_t (p : BitVec 16) (s : State) : (subtractProb p s).t = s.t := rfl
@[simp] theorem subtractProb_Tr (p : BitVec 16) (s : State) : (subtractProb p s).Tr = s.Tr := rfl
@[simp] theorem subtractProb_L (p : BitVec 16) (s : State) : (subtractProb p s).L = s.L := rfl
@[simp] theorem subtractProb_ctx (p : BitVec 16) (s : State) : (subtractProb p s).ctx = s.ctx := rfl
@[simp] theorem subtractProb_mode (p : BitVec 16) (s : State) : (subtractProb p s).mode = s.mode := rfl
@[simp] theorem subtractProb_cur (p : BitVec 16) (s : State) : (subtractProb p s).cur = s.cur := rfl
@[simp] theorem subtractProb_sm (p : BitVec 16) (s : State) : (subtractProb p s).sm = s.sm := rfl
@[simp] theorem subtractProb_cap (p : BitVec 16) (s : State) : (subtractProb p s).cap = s.cap := rfl
@[simp] theorem subtractProb_lw (p : BitVec 16) (s : State) : (subtractProb p s).lw = s.lw := rfl
@[simp] theorem subtractProb_responses (p : BitVec 16) (s : State) : (subtractProb p s).responses = s.responses := rfl
@[simp] theorem subtractProb_host (p : BitVec 16) (s : State) : (subtractProb p s).host = s.host := rfl

@[simp] theorem subtractWindow_A (p : BitVec 16) (s : State) : (subtractWindow p s).A = s.A := rfl
@[simp] theorem subtractWindow_C (p : BitVec 16) (s : State) : (subtractWindow p s).C = s.C - (probWide p <<< 8) := rfl
@[simp] theorem subtractWindow_t (p : BitVec 16) (s : State) : (subtractWindow p s).t = s.t := rfl
@[simp] theorem subtractWindow_Tr (p : BitVec 16) (s : State) : (subtractWindow p s).Tr = s.Tr := rfl
@[simp] theorem subtractWindow_L (p : BitVec 16) (s : State) : (subtractWindow p s).L = s.L := rfl
@[simp] theorem subtractWindow_ctx (p : BitVec 16) (s : State) : (subtractWindow p s).ctx = s.ctx := rfl
@[simp] theorem subtractWindow_mode (p : BitVec 16) (s : State) : (subtractWindow p s).mode = s.mode := rfl
@[simp] theorem subtractWindow_cur (p : BitVec 16) (s : State) : (subtractWindow p s).cur = s.cur := rfl
@[simp] theorem subtractWindow_sm (p : BitVec 16) (s : State) : (subtractWindow p s).sm = s.sm := rfl
@[simp] theorem subtractWindow_cap (p : BitVec 16) (s : State) : (subtractWindow p s).cap = s.cap := rfl
@[simp] theorem subtractWindow_lw (p : BitVec 16) (s : State) : (subtractWindow p s).lw = s.lw := rfl
@[simp] theorem subtractWindow_responses (p : BitVec 16) (s : State) : (subtractWindow p s).responses = s.responses := rfl
@[simp] theorem subtractWindow_host (p : BitVec 16) (s : State) : (subtractWindow p s).host = s.host := rfl

@[simp] theorem takeUpper_A (p : BitVec 16) (s : State) : (takeUpper p s).A = s.A := rfl
@[simp] theorem takeUpper_C (p : BitVec 16) (s : State) : (takeUpper p s).C = s.C + probWide p := rfl
@[simp] theorem takeUpper_t (p : BitVec 16) (s : State) : (takeUpper p s).t = s.t := rfl
@[simp] theorem takeUpper_Tr (p : BitVec 16) (s : State) : (takeUpper p s).Tr = s.Tr := rfl
@[simp] theorem takeUpper_L (p : BitVec 16) (s : State) : (takeUpper p s).L = s.L := rfl
@[simp] theorem takeUpper_ctx (p : BitVec 16) (s : State) : (takeUpper p s).ctx = s.ctx := rfl
@[simp] theorem takeUpper_mode (p : BitVec 16) (s : State) : (takeUpper p s).mode = s.mode := rfl
@[simp] theorem takeUpper_cur (p : BitVec 16) (s : State) : (takeUpper p s).cur = s.cur := rfl
@[simp] theorem takeUpper_sm (p : BitVec 16) (s : State) : (takeUpper p s).sm = s.sm := rfl
@[simp] theorem takeUpper_cap (p : BitVec 16) (s : State) : (takeUpper p s).cap = s.cap := rfl
@[simp] theorem takeUpper_lw (p : BitVec 16) (s : State) : (takeUpper p s).lw = s.lw := rfl
@[simp] theorem takeUpper_responses (p : BitVec 16) (s : State) : (takeUpper p s).responses = s.responses := rfl
@[simp] theorem takeUpper_host (p : BitVec 16) (s : State) : (takeUpper p s).host = s.host := rfl

@[simp] theorem takeLower_A (p : BitVec 16) (s : State) : (takeLower p s).A = p := rfl
@[simp] theorem takeLower_C (p : BitVec 16) (s : State) : (takeLower p s).C = s.C := rfl
@[simp] theorem takeLower_t (p : BitVec 16) (s : State) : (takeLower p s).t = s.t := rfl
@[simp] theorem takeLower_Tr (p : BitVec 16) (s : State) : (takeLower p s).Tr = s.Tr := rfl
@[simp] theorem takeLower_L (p : BitVec 16) (s : State) : (takeLower p s).L = s.L := rfl
@[simp] theorem takeLower_ctx (p : BitVec 16) (s : State) : (takeLower p s).ctx = s.ctx := rfl
@[simp] theorem takeLower_mode (p : BitVec 16) (s : State) : (takeLower p s).mode = s.mode := rfl
@[simp] theorem takeLower_cur (p : BitVec 16) (s : State) : (takeLower p s).cur = s.cur := rfl
@[simp] theorem takeLower_sm (p : BitVec 16) (s : State) : (takeLower p s).sm = s.sm := rfl
@[simp] theorem takeLower_cap (p : BitVec 16) (s : State) : (takeLower p s).cap = s.cap := rfl
@[simp] theorem takeLower_lw (p : BitVec 16) (s : State) : (takeLower p s).lw = s.lw := rfl
@[simp] theorem takeLower_responses (p : BitVec 16) (s : State) : (takeLower p s).responses = s.responses := rfl
@[simp] theorem takeLower_host (p : BitVec 16) (s : State) : (takeLower p s).host = s.host := rfl

@[simp] theorem clearContexts_A (s : State) : (clearContexts s).A = s.A := rfl
@[simp] theorem clearContexts_C (s : State) : (clearContexts s).C = s.C := rfl
@[simp] theorem clearContexts_t (s : State) : (clearContexts s).t = s.t := rfl
@[simp] theorem clearContexts_Tr (s : State) : (clearContexts s).Tr = s.Tr := rfl
@[simp] theorem clearContexts_L (s : State) : (clearContexts s).L = s.L := rfl
@[simp] theorem clearContexts_ctx (s : State) : (clearContexts s).ctx = s.ctx.map fun _ => ⟨0, 0⟩ := rfl
@[simp] theorem clearContexts_mode (s : State) : (clearContexts s).mode = s.mode := rfl
@[simp] theorem clearContexts_cur (s : State) : (clearContexts s).cur = s.cur := rfl
@[simp] theorem clearContexts_sm (s : State) : (clearContexts s).sm = s.sm := rfl
@[simp] theorem clearContexts_cap (s : State) : (clearContexts s).cap = s.cap := rfl
@[simp] theorem clearContexts_lw (s : State) : (clearContexts s).lw = s.lw := rfl
@[simp] theorem clearContexts_responses (s : State) : (clearContexts s).responses = s.responses := rfl
@[simp] theorem clearContexts_host (s : State) : (clearContexts s).host = s.host := rfl

@[simp] theorem startEncoding_A (s : State) : (startEncoding s).A = 0x8000 := rfl
@[simp] theorem startEncoding_C (s : State) : (startEncoding s).C = 0 := rfl
@[simp] theorem startEncoding_t (s : State) : (startEncoding s).t = 12 := rfl
@[simp] theorem startEncoding_Tr (s : State) : (startEncoding s).Tr = 0 := rfl
@[simp] theorem startEncoding_L (s : State) : (startEncoding s).L = -1 := rfl
@[simp] theorem startEncoding_ctx (s : State) : (startEncoding s).ctx = s.ctx := rfl
@[simp] theorem startEncoding_mode (s : State) : (startEncoding s).mode = .enc := rfl
@[simp] theorem startEncoding_cur (s : State) : (startEncoding s).cur = s.cur := rfl
@[simp] theorem startEncoding_sm (s : State) : (startEncoding s).sm = s.sm := rfl
@[simp] theorem startEncoding_cap (s : State) : (startEncoding s).cap = s.cap := rfl
@[simp] theorem startEncoding_lw (s : State) : (startEncoding s).lw = s.lw := rfl
@[simp] theorem startEncoding_responses (s : State) : (startEncoding s).responses = s.responses := rfl
@[simp] theorem startEncoding_host (s : State) : (startEncoding s).host = s.host := rfl

@[simp] theorem clearForDecoding_A (s : State) : (clearForDecoding s).A = s.A := rfl
@[simp] theorem clearForDecoding_C (s : State) : (clearForDecoding s).C = 0 := rfl
@[simp] theorem clearForDecoding_t (s : State) : (clearForDecoding s).t = s.t := rfl
@[simp] theorem clearForDecoding_Tr (s : State) : (clearForDecoding s).Tr = 0 := rfl
@[simp] theorem clearForDecoding_L (s : State) : (clearForDecoding s).L = 0 := rfl
@[simp] theorem clearForDecoding_ctx (s : State) : (clearForDecoding s).ctx = s.ctx := rfl
@[simp] theorem clearForDecoding_mode (s : State) : (clearForDecoding s).mode = s.mode := rfl
@[simp] theorem clearForDecoding_cur (s : State) : (clearForDecoding s).cur = s.cur := rfl
@[simp] theorem clearForDecoding_sm (s : State) : (clearForDecoding s).sm = s.sm := rfl
@[simp] theorem clearForDecoding_cap (s : State) : (clearForDecoding s).cap = s.cap := rfl
@[simp] theorem clearForDecoding_lw (s : State) : (clearForDecoding s).lw = s.lw := rfl
@[simp] theorem clearForDecoding_responses (s : State) : (clearForDecoding s).responses = s.responses := rfl
@[simp] theorem clearForDecoding_host (s : State) : (clearForDecoding s).host = s.host := rfl

@[simp] theorem finishPreload_A (s : State) : (finishPreload s).A = 0x8000 := rfl
@[simp] theorem finishPreload_C (s : State) : (finishPreload s).C = s.C <<< 7 := rfl
@[simp] theorem finishPreload_t (s : State) : (finishPreload s).t = s.t - 7 := rfl
@[simp] theorem finishPreload_Tr (s : State) : (finishPreload s).Tr = s.Tr := rfl
@[simp] theorem finishPreload_L (s : State) : (finishPreload s).L = s.L := rfl
@[simp] theorem finishPreload_ctx (s : State) : (finishPreload s).ctx = s.ctx := rfl
@[simp] theorem finishPreload_mode (s : State) : (finishPreload s).mode = .dec := rfl
@[simp] theorem finishPreload_cur (s : State) : (finishPreload s).cur = s.cur := rfl
@[simp] theorem finishPreload_sm (s : State) : (finishPreload s).sm = s.sm := rfl
@[simp] theorem finishPreload_cap (s : State) : (finishPreload s).cap = s.cap := rfl
@[simp] theorem finishPreload_lw (s : State) : (finishPreload s).lw = s.lw := rfl
@[simp] theorem finishPreload_responses (s : State) : (finishPreload s).responses = s.responses := rfl
@[simp] theorem finishPreload_host (s : State) : (finishPreload s).host = s.host := rfl

@[simp] theorem installHandle_A (sid : BitVec 16) (s : State) : (installHandle sid s).A = s.A := rfl
@[simp] theorem installHandle_C (sid : BitVec 16) (s : State) : (installHandle sid s).C = s.C := rfl
@[simp] theorem installHandle_t (sid : BitVec 16) (s : State) : (installHandle sid s).t = s.t := rfl
@[simp] theorem installHandle_Tr (sid : BitVec 16) (s : State) : (installHandle sid s).Tr = s.Tr := rfl
@[simp] theorem installHandle_L (sid : BitVec 16) (s : State) : (installHandle sid s).L = s.L := rfl
@[simp] theorem installHandle_ctx (sid : BitVec 16) (s : State) : (installHandle sid s).ctx = s.ctx := rfl
@[simp] theorem installHandle_mode (sid : BitVec 16) (s : State) : (installHandle sid s).mode = s.mode := rfl
@[simp] theorem installHandle_cur (sid : BitVec 16) (s : State) : (installHandle sid s).cur = some sid := rfl
@[simp] theorem installHandle_sm (sid : BitVec 16) (s : State) : (installHandle sid s).sm = s.sm := rfl
@[simp] theorem installHandle_cap (sid : BitVec 16) (s : State) : (installHandle sid s).cap = s.cap := rfl
@[simp] theorem installHandle_lw (sid : BitVec 16) (s : State) : (installHandle sid s).lw = s.lw := rfl
@[simp] theorem installHandle_responses (sid : BitVec 16) (s : State) : (installHandle sid s).responses = s.responses := rfl
@[simp] theorem installHandle_host (sid : BitVec 16) (s : State) : (installHandle sid s).host = s.host := rfl

@[simp] theorem placeCommand_A (w : Word) (s : State) : (placeCommand w s).A = s.A := rfl
@[simp] theorem placeCommand_C (w : Word) (s : State) : (placeCommand w s).C = s.C := rfl
@[simp] theorem placeCommand_t (w : Word) (s : State) : (placeCommand w s).t = s.t := rfl
@[simp] theorem placeCommand_Tr (w : Word) (s : State) : (placeCommand w s).Tr = s.Tr := rfl
@[simp] theorem placeCommand_L (w : Word) (s : State) : (placeCommand w s).L = s.L := rfl
@[simp] theorem placeCommand_ctx (w : Word) (s : State) : (placeCommand w s).ctx = s.ctx := rfl
@[simp] theorem placeCommand_mode (w : Word) (s : State) : (placeCommand w s).mode = s.mode := rfl
@[simp] theorem placeCommand_cur (w : Word) (s : State) : (placeCommand w s).cur = s.cur := rfl
@[simp] theorem placeCommand_sm (w : Word) (s : State) : (placeCommand w s).sm = s.sm := rfl
@[simp] theorem placeCommand_cap (w : Word) (s : State) : (placeCommand w s).cap = s.cap := rfl
@[simp] theorem placeCommand_lw (w : Word) (s : State) : (placeCommand w s).lw = s.lw := rfl
@[simp] theorem placeCommand_responses (w : Word) (s : State) : (placeCommand w s).responses = s.responses := rfl
@[simp] theorem placeCommand_host (w : Word) (s : State) : (placeCommand w s).host = .issue w :: s.host := rfl

@[simp] theorem setInstalled_A (b : Buffer) (s : State) : (setInstalled b s).A = s.A := by unfold setInstalled; split <;> rfl
@[simp] theorem setInstalled_C (b : Buffer) (s : State) : (setInstalled b s).C = s.C := by unfold setInstalled; split <;> rfl
@[simp] theorem setInstalled_t (b : Buffer) (s : State) : (setInstalled b s).t = s.t := by unfold setInstalled; split <;> rfl
@[simp] theorem setInstalled_Tr (b : Buffer) (s : State) : (setInstalled b s).Tr = s.Tr := by unfold setInstalled; split <;> rfl
@[simp] theorem setInstalled_L (b : Buffer) (s : State) : (setInstalled b s).L = s.L := by unfold setInstalled; split <;> rfl
@[simp] theorem setInstalled_ctx (b : Buffer) (s : State) : (setInstalled b s).ctx = s.ctx := by unfold setInstalled; split <;> rfl
@[simp] theorem setInstalled_mode (b : Buffer) (s : State) : (setInstalled b s).mode = s.mode := by unfold setInstalled; split <;> rfl
@[simp] theorem setInstalled_cur (b : Buffer) (s : State) : (setInstalled b s).cur = s.cur := by unfold setInstalled; split <;> rfl
@[simp] theorem setInstalled_cap (b : Buffer) (s : State) : (setInstalled b s).cap = s.cap := by unfold setInstalled; split <;> rfl
@[simp] theorem setInstalled_lw (b : Buffer) (s : State) : (setInstalled b s).lw = s.lw := by unfold setInstalled; split <;> rfl
@[simp] theorem setInstalled_responses (b : Buffer) (s : State) : (setInstalled b s).responses = s.responses := by unfold setInstalled; split <;> rfl
@[simp] theorem setInstalled_host (b : Buffer) (s : State) : (setInstalled b s).host = s.host := by unfold setInstalled; split <;> rfl

@[simp] theorem propagateCarry_A (s : State) : (propagateCarry s).A = s.A := by unfold propagateCarry; split <;> rfl
@[simp] theorem propagateCarry_t (s : State) : (propagateCarry s).t = s.t := by unfold propagateCarry; split <;> rfl
@[simp] theorem propagateCarry_L (s : State) : (propagateCarry s).L = s.L := by unfold propagateCarry; split <;> rfl
@[simp] theorem propagateCarry_ctx (s : State) : (propagateCarry s).ctx = s.ctx := by unfold propagateCarry; split <;> rfl
@[simp] theorem propagateCarry_mode (s : State) : (propagateCarry s).mode = s.mode := by unfold propagateCarry; split <;> rfl
@[simp] theorem propagateCarry_cur (s : State) : (propagateCarry s).cur = s.cur := by unfold propagateCarry; split <;> rfl
@[simp] theorem propagateCarry_sm (s : State) : (propagateCarry s).sm = s.sm := by unfold propagateCarry; split <;> rfl
@[simp] theorem propagateCarry_cap (s : State) : (propagateCarry s).cap = s.cap := by unfold propagateCarry; split <;> rfl
@[simp] theorem propagateCarry_lw (s : State) : (propagateCarry s).lw = s.lw := by unfold propagateCarry; split <;> rfl
@[simp] theorem propagateCarry_responses (s : State) : (propagateCarry s).responses = s.responses := by unfold propagateCarry; split <;> rfl
@[simp] theorem propagateCarry_host (s : State) : (propagateCarry s).host = s.host := by unfold propagateCarry; split <;> rfl

@[simp] theorem mpsTransition_A (cx : Option Nat) (s : State) : (mpsTransition cx s).A = s.A := by cases cx <;> rfl
@[simp] theorem mpsTransition_C (cx : Option Nat) (s : State) : (mpsTransition cx s).C = s.C := by cases cx <;> rfl
@[simp] theorem mpsTransition_t (cx : Option Nat) (s : State) : (mpsTransition cx s).t = s.t := by cases cx <;> rfl
@[simp] theorem mpsTransition_Tr (cx : Option Nat) (s : State) : (mpsTransition cx s).Tr = s.Tr := by cases cx <;> rfl
@[simp] theorem mpsTransition_L (cx : Option Nat) (s : State) : (mpsTransition cx s).L = s.L := by cases cx <;> rfl
@[simp] theorem mpsTransition_mode (cx : Option Nat) (s : State) : (mpsTransition cx s).mode = s.mode := by cases cx <;> rfl
@[simp] theorem mpsTransition_cur (cx : Option Nat) (s : State) : (mpsTransition cx s).cur = s.cur := by cases cx <;> rfl
@[simp] theorem mpsTransition_sm (cx : Option Nat) (s : State) : (mpsTransition cx s).sm = s.sm := by cases cx <;> rfl
@[simp] theorem mpsTransition_cap (cx : Option Nat) (s : State) : (mpsTransition cx s).cap = s.cap := by cases cx <;> rfl
@[simp] theorem mpsTransition_lw (cx : Option Nat) (s : State) : (mpsTransition cx s).lw = s.lw := by cases cx <;> rfl
@[simp] theorem mpsTransition_responses (cx : Option Nat) (s : State) : (mpsTransition cx s).responses = s.responses := by cases cx <;> rfl
@[simp] theorem mpsTransition_host (cx : Option Nat) (s : State) : (mpsTransition cx s).host = s.host := by cases cx <;> rfl

@[simp] theorem lpsTransition_A (cx : Option Nat) (s : State) : (lpsTransition cx s).A = s.A := by cases cx <;> rfl
@[simp] theorem lpsTransition_C (cx : Option Nat) (s : State) : (lpsTransition cx s).C = s.C := by cases cx <;> rfl
@[simp] theorem lpsTransition_t (cx : Option Nat) (s : State) : (lpsTransition cx s).t = s.t := by cases cx <;> rfl
@[simp] theorem lpsTransition_Tr (cx : Option Nat) (s : State) : (lpsTransition cx s).Tr = s.Tr := by cases cx <;> rfl
@[simp] theorem lpsTransition_L (cx : Option Nat) (s : State) : (lpsTransition cx s).L = s.L := by cases cx <;> rfl
@[simp] theorem lpsTransition_mode (cx : Option Nat) (s : State) : (lpsTransition cx s).mode = s.mode := by cases cx <;> rfl
@[simp] theorem lpsTransition_cur (cx : Option Nat) (s : State) : (lpsTransition cx s).cur = s.cur := by cases cx <;> rfl
@[simp] theorem lpsTransition_sm (cx : Option Nat) (s : State) : (lpsTransition cx s).sm = s.sm := by cases cx <;> rfl
@[simp] theorem lpsTransition_cap (cx : Option Nat) (s : State) : (lpsTransition cx s).cap = s.cap := by cases cx <;> rfl
@[simp] theorem lpsTransition_lw (cx : Option Nat) (s : State) : (lpsTransition cx s).lw = s.lw := by cases cx <;> rfl
@[simp] theorem lpsTransition_responses (cx : Option Nat) (s : State) : (lpsTransition cx s).responses = s.responses := by cases cx <;> rfl
@[simp] theorem lpsTransition_host (cx : Option Nat) (s : State) : (lpsTransition cx s).host = s.host := by cases cx <;> rfl

end Sys2Proof.Machine
end

