-- ==== Sys2Proof/Laws/Ops.lean ====
section
/-! SUPPORT. What the shared operations of Machine/Ops.lean can do, said once each, and the frame that every
micro-operation keeps. -/

namespace Sys2Proof.Machine

section Bind
variable {α β : Type}

@[simp] theorem bind_done (a : α) (s : State) (k : α → State → Micro β) : (Micro.done a s).bind k = k a s := rfl
@[simp] theorem bind_raised (e : ExecError) (s : State) (k : α → State → Micro β) :
    (Micro.raised e s).bind k = .raised e s := rfl
@[simp] theorem bind_stuck (f : Fault) (k : α → State → Micro β) : (Micro.stuck f).bind k = .stuck f := rfl
@[simp] theorem bind_refused (r : Refusal) (k : α → State → Micro β) : (Micro.refused r).bind k = .refused r := rfl

theorem bind_eq_done {m : Micro α} {k : α → State → Micro β} {b : β} {u : State} :
    m.bind k = .done b u ↔ ∃ a s, m = .done a s ∧ k a s = .done b u := by
  cases m <;> simp

theorem bind_eq_raised {m : Micro α} {k : α → State → Micro β} {e : ExecError} {u : State} :
    m.bind k = .raised e u ↔ m = .raised e u ∨ ∃ a s, m = .done a s ∧ k a s = .raised e u := by
  cases m <;> simp

theorem bind_eq_stuck {m : Micro α} {k : α → State → Micro β} {f : Fault} :
    m.bind k = .stuck f ↔ m = .stuck f ∨ ∃ a s, m = .done a s ∧ k a s = .stuck f := by
  cases m <;> simp

theorem bind_eq_refused {m : Micro α} {k : α → State → Micro β} {r : Refusal} :
    m.bind k = .refused r ↔ m = .refused r ∨ ∃ a s, m = .done a s ∧ k a s = .refused r := by
  cases m <;> simp

theorem bind_assoc {γ : Type} (m : Micro α) (k : α → State → Micro β) (l : β → State → Micro γ) :
    (m.bind k).bind l = m.bind fun a s => (k a s).bind l := by
  cases m <;> rfl

end Bind

/-! ### The installed buffer -/

theorem installed_congr {s u : State} (hc : s.cur = u.cur) (hm : s.sm = u.sm) : installed s = installed u := by
  unfold installed; rw [hc, hm]

theorem installed_eq_some {s : State} {b : Buffer} :
    installed s = some b ↔ ∃ h, s.cur = some h ∧ s.sm[h.toNat]? = some b := by
  unfold installed; cases s.cur <;> simp

theorem installed_setInstalled {s : State} {b : Buffer} (hb : installed s = some b) (c : Buffer) :
    installed (setInstalled c s) = some c := by
  obtain ⟨h, hc, hm⟩ := installed_eq_some.1 hb
  have hlt : h.toNat < s.sm.length := (List.getElem?_eq_some_iff.1 hm).1
  refine installed_eq_some.2 ⟨h, by simpa using hc, ?_⟩
  unfold setInstalled; rw [hc]; simp [hlt]

theorem setInstalled_sm_length (c : Buffer) (s : State) : (setInstalled c s).sm.length = s.sm.length := by
  unfold setInstalled; split <;> simp

theorem setInstalled_sm_of_ne {s : State} {sid : Nat} (c : Buffer) (h : isInstalled sid s = false) :
    (setInstalled c s).sm[sid]? = s.sm[sid]? := by
  unfold setInstalled
  unfold isInstalled at h
  split
  · rfl
  · rename_i hd hc
    rw [hc] at h
    have hne : hd.toNat ≠ sid := by simpa using h
    simp [List.getElem?_set_ne hne]

/-! ### The stream port (R51) -/

theorem withInstalled_some {α : Type} {s : State} {b : Buffer} (hb : installed s = some b) (k : Buffer → Micro α) :
    withInstalled s k = k b := by
  unfold withInstalled; rw [hb]

theorem streamLen_some {s : State} {b : Buffer} (hb : installed s = some b) : streamLen s = .done b.length s :=
  withInstalled_some hb _

theorem memRead_some {s : State} {b : Buffer} {i : Nat} (hb : installed s = some b) (hi : i < b.length) :
    memRead i s = .done b[i] s := by
  unfold memRead; rw [withInstalled_some hb]; simp [hi]

theorem memAppend_some {s : State} {b : Buffer} (hb : installed s = some b) (v : Byte) :
    memAppend v s =
      if bufferFull s.cap b.length then .raised .streamIO s else .done () (setInstalled (b ++ [v]) s) :=
  withInstalled_some hb _

theorem streamTrunc_some {s : State} {b : Buffer} (hb : installed s = some b) {n : Nat} (hn : n ≤ b.length) :
    streamTrunc n s = .done () (setInstalled (b.take n) s) := by
  unfold streamTrunc; rw [withInstalled_some hb]; simp [hn]

/-- A read changes nothing (R55). -/
theorem memRead_done {s u : State} {i : Nat} {v : Byte} (h : memRead i s = .done v u) :
    u = s ∧ ∃ b, installed s = some b ∧ b[i]? = some v := by
  unfold memRead withInstalled at h
  split at h
  · cases h
  · rename_i b hb
    beta_reduce at h
    split at h
    · cases h; exact ⟨rfl, b, hb, by assumption⟩
    · cases h

theorem streamLen_done {s u : State} {n : Nat} (h : streamLen s = .done n u) :
    u = s ∧ ∃ b, installed s = some b ∧ n = b.length := by
  unfold streamLen withInstalled at h
  split at h
  · cases h
  · rename_i b hb; cases h; exact ⟨rfl, b, hb, rfl⟩

/-- An append adds one byte to a buffer that is not full (R51, R61). -/
theorem memAppend_done {s u : State} {v : Byte} (h : memAppend v s = .done () u) :
    ∃ b, installed s = some b ∧ bufferFull s.cap b.length = false ∧ u = setInstalled (b ++ [v]) s := by
  unfold memAppend withInstalled at h
  split at h
  · cases h
  · rename_i b hb
    beta_reduce at h
    split at h
    · cases h
    · rename_i hf; cases h; exact ⟨b, hb, by simpa using hf, rfl⟩

/-- An append fails only with `StreamIO`, on a full buffer or without a stream, and leaves the state (R61). -/
theorem memAppend_raised {s u : State} {v : Byte} {e : ExecError} (h : memAppend v s = .raised e u) :
    e = .streamIO ∧ u = s ∧ ∀ b, installed s = some b → bufferFull s.cap b.length = true := by
  unfold memAppend withInstalled at h
  split at h
  · rename_i hb; cases h; exact ⟨rfl, rfl, by simp [hb]⟩
  · rename_i b hb
    beta_reduce at h
    split at h
    · cases h
      refine ⟨rfl, rfl, fun c hc => ?_⟩
      rw [hb] at hc; cases hc; assumption
    · cases h

theorem memAppend_ends (v : Byte) (s : State) :
    (∃ u, memAppend v s = .done () u) ∨ memAppend v s = .raised .streamIO s := by
  unfold memAppend withInstalled
  split
  · exact .inr rfl
  · beta_reduce
    split
    · exact .inr rfl
    · exact .inl ⟨_, rfl⟩

theorem streamTrunc_done {s u : State} {n : Int} (h : streamTrunc n s = .done () u) :
    ∃ b, installed s = some b ∧ 0 ≤ n ∧ n ≤ b.length ∧ u = setInstalled (b.take n.toNat) s := by
  unfold streamTrunc withInstalled at h
  split at h
  · cases h
  · rename_i b hb
    beta_reduce at h
    split at h
    · rename_i hn; cases h; exact ⟨b, hb, hn.1, hn.2, rfl⟩
    · cases h

theorem advancePosition_done {s u : State} (h : advancePosition s = .done () u) :
    s.L < positionMax s.lw ∧ u = bumpPosition s := by
  unfold advancePosition at h
  split at h
  · cases h; exact ⟨by assumption, rfl⟩
  · cases h

theorem advancePosition_of_lt {s : State} (h : s.L < positionMax s.lw) :
    advancePosition s = .done () (bumpPosition s) := by
  unfold advancePosition; rw [if_pos h]

/-! ### What a micro-operation leaves alone -/

/-- `u` differs from `s` at most in the registers A, C, t, Tr, L, in the context entries and in the contents of the
installed buffer. -/
structure StreamFrame (s u : State) : Prop where
  ctxLength : u.ctx.length = s.ctx.length
  mode : u.mode = s.mode
  cur : u.cur = s.cur
  cap : u.cap = s.cap
  lw : u.lw = s.lw
  responses : u.responses = s.responses
  host : u.host = s.host
  smLength : u.sm.length = s.sm.length
  others : ∀ sid, isInstalled sid s = false → u.sm[sid]? = s.sm[sid]?

theorem StreamFrame.refl (s : State) : StreamFrame s s := ⟨rfl, rfl, rfl, rfl, rfl, rfl, rfl, rfl, fun _ _ => rfl⟩

theorem isInstalled_congr {s u : State} (h : u.cur = s.cur) (sid : Nat) : isInstalled sid u = isInstalled sid s := by
  unfold isInstalled; rw [h]

theorem StreamFrame.trans {s u v : State} (h : StreamFrame s u) (k : StreamFrame u v) : StreamFrame s v where
  ctxLength := k.ctxLength.trans h.ctxLength
  mode := k.mode.trans h.mode
  cur := k.cur.trans h.cur
  cap := k.cap.trans h.cap
  lw := k.lw.trans h.lw
  responses := k.responses.trans h.responses
  host := k.host.trans h.host
  smLength := k.smLength.trans h.smLength
  others := fun sid hs => (k.others sid (by rw [isInstalled_congr h.cur]; exact hs)).trans (h.others sid hs)

theorem StreamFrame.setInstalled (b : Buffer) (s : State) : StreamFrame s (setInstalled b s) :=
  ⟨by simp, by simp, by simp, by simp, by simp, by simp, by simp, setInstalled_sm_length b s,
   fun _ hs => setInstalled_sm_of_ne b hs⟩

end Sys2Proof.Machine
end

