-- ==== Sys2Proof/Laws/Contexts.lean ====
section
/-! SUPPORT. The four tables of R150 and the two transitions. -/

namespace Sys2Proof.Machine

theorem stateProbTable_length : stateProbTable.length = 47 := rfl
theorem stateTransMpsTable_length : stateTransMpsTable.length = 47 := rfl
theorem stateTransLpsTable_length : stateTransLpsTable.length = 47 := rfl
theorem stateSwitchTable_length : stateSwitchTable.length = 47 := rfl

/-- The probabilities of the table are legal (R105, R151). -/
theorem stateProb_legal (i : Fin 47) : 1 ≤ (stateProb i).toNat ∧ (stateProb i).toNat ≤ 0x7FFF := by
  revert i; decide

/-- State 46 is entered from nowhere else (R156 d). -/
theorem transMps_ne_46 (i : Fin 47) (h : i ≠ 46) : stateTransMps i ≠ 46 := by revert i; decide
theorem transLps_ne_46 (i : Fin 47) (h : i ≠ 46) : stateTransLps i ≠ 46 := by revert i; decide

theorem afterMps_ne_46 (e : Context) (h : e.state ≠ 46) : e.afterMps.state ≠ 46 := transMps_ne_46 _ h
theorem afterLps_ne_46 (e : Context) (h : e.state ≠ 46) : e.afterLps.state ≠ 46 := transLps_ne_46 _ h

theorem mem_modify {α : Type} {f : α → α} {a : α} : ∀ {l : List α} {n : Nat}, a ∈ l.modify n f → a ∈ l ∨ ∃ b ∈ l, a = f b
  | [], n, h => by simp at h
  | b :: l, 0, h => by
    rcases List.mem_cons.1 (by simpa using h) with rfl | h
    · exact .inr ⟨b, by simp, rfl⟩
    · exact .inl (by simp [h])
  | b :: l, n + 1, h => by
    rcases List.mem_cons.1 (by simpa using h) with rfl | h
    · exact .inl (by simp)
    · rcases mem_modify h with h | ⟨c, hc, rfl⟩
      · exact .inl (by simp [h])
      · exact .inr ⟨c, by simp [hc], rfl⟩

theorem modify_eq_set {α : Type} {f : α → α} {n : Nat} {l : List α} (h : n < l.length) : l.modify n f = l.set n (f l[n]) := by
  apply List.ext_getElem?
  intro i
  rw [List.getElem?_modify, List.getElem?_set]
  by_cases hi : n = i
  · subst hi; simp [h]
  · simp [hi]

theorem contextAt_eq {s : State} {c : Nat} (h : c < s.ctx.length) : contextAt c s = s.ctx[c] := by
  unfold contextAt; simp [h]

theorem transition_mem {cx : Option Nat} {s : State} {e : Context} (h : ∀ e ∈ s.ctx, e.state ≠ 46)
    (he : e ∈ (mpsTransition cx s).ctx ∨ e ∈ (lpsTransition cx s).ctx) : e.state ≠ 46 := by
  cases cx with
  | none => exact he.elim (h e) (h e)
  | some c =>
    rcases he with he | he
    · rcases mem_modify he with he | ⟨b, hb, rfl⟩
      · exact h e he
      · exact afterMps_ne_46 _ (h b hb)
    · rcases mem_modify he with he | ⟨b, hb, rfl⟩
      · exact h e he
      · exact afterLps_ne_46 _ (h b hb)

theorem mpsTransition_ctx_length (cx : Option Nat) (s : State) : (mpsTransition cx s).ctx.length = s.ctx.length := by
  cases cx <;> simp [mpsTransition]
theorem lpsTransition_ctx_length (cx : Option Nat) (s : State) : (lpsTransition cx s).ctx.length = s.ctx.length := by
  cases cx <;> simp [lpsTransition]

/-- Without a context nothing changes (R108). -/
theorem mpsTransition_none (s : State) : mpsTransition none s = s := rfl
theorem lpsTransition_none (s : State) : lpsTransition none s = s := rfl

end Sys2Proof.Machine
end

