-- ==== Sys2Proof/Laws/Transfer.lean ====
section
/-! SUPPORT. The arithmetic of the transfer masks (R130), and what `transfer_byte` (R131) and `fill_lsb` (R133) can do. -/

namespace Sys2Proof.Machine

/-! ### Masks and fields as arithmetic -/

theorem and_lowMask (C : Word) (n : Nat) (m : Word) (hm : m.toNat = 2 ^ n - 1) : (C &&& m).toNat = C.toNat % 2 ^ n := by
  rw [BitVec.toNat_and, hm, Nat.and_two_pow_sub_one_eq_mod]

theorem clearMsbs_toNat (C : Word) : (C &&& ~~~maskClearMsbs).toNat = C.toNat % 2 ^ 20 := and_lowMask C 20 _ (by decide)
theorem clearPart_toNat (C : Word) : (C &&& ~~~maskClearPart).toNat = C.toNat % 2 ^ 19 := and_lowMask C 19 _ (by decide)
theorem clearCarry_toNat (C : Word) : (C &&& ~~~maskClearCarry).toNat = C.toNat % 2 ^ 27 := and_lowMask C 27 _ (by decide)

theorem field_toNat (C : Word) (k n : Nat) : (C.extractLsb' k n).toNat = C.toNat / 2 ^ k % 2 ^ n := by
  rw [BitVec.extractLsb'_toNat, Nat.shiftRight_eq_div_pow]

theorem carrySet_iff (C : Word) : carrySet C = true ↔ 2 ^ 27 ≤ C.toNat := by
  unfold carrySet maskCarry; simp [BitVec.le_def]

theorem codeWindow_toNat (C : Word) : (codeWindow C).toNat = C.toNat / 2 ^ 8 % 2 ^ 16 := field_toNat C 8 16

theorem byteWide_toNat (b : Byte) : (byteWide b).toNat = b.toNat := by
  unfold byteWide; rw [BitVec.toNat_setWidth]; omega

theorem probWide_toNat (p : BitVec 16) : (probWide p).toNat = p.toNat := by
  unfold probWide; rw [BitVec.toNat_setWidth]; omega

/-! ### `transfer_byte` (R131) -/

theorem propagateCarry_of_clear {s : State} (h : s.C.toNat < 2 ^ 27) : propagateCarry s = s := by
  unfold propagateCarry; rw [if_neg]; rw [carrySet_iff]; omega

theorem propagateCarry_toNat {s : State} (hT : s.Tr ≠ 0xFF) (hC : s.C.toNat < 2 ^ 28) :
    (propagateCarry s).Tr.toNat = s.Tr.toNat + s.C.toNat / 2 ^ 27 ∧ (propagateCarry s).C.toNat = s.C.toNat % 2 ^ 27 := by
  have hT' : s.Tr.toNat ≠ 255 := fun h => hT (BitVec.eq_of_toNat_eq (by simpa using h))
  have hlt := s.Tr.isLt
  unfold propagateCarry
  split
  · rename_i h
    rw [carrySet_iff] at h
    refine ⟨?_, clearCarry_toNat s.C⟩
    show (s.Tr + 1).toNat = _
    have h1 : (1 : Byte).toNat = 1 := rfl
    rw [BitVec.toNat_add, h1]
    have := s.C.isLt
    omega
  · rename_i h
    rw [carrySet_iff] at h
    exact ⟨by omega, by omega⟩

/-- What `transfer_byte` does with the byte `v` it finishes (R131): the number of shifts to the next transfer, the bits
that go into the new `Tr`, and that nothing of `Tr` and C is lost: in units of bit 0 of C at a transfer,
`Tr * 2^27 + C` is `v` followed by the new `Tr` and C. -/
structure TransferLaw (s u : State) (v : Byte) : Prop where
  width : u.A = s.A
  position : u.L = s.L + 1
  count : u.t = if v = 0xFF then 7 else 8
  low : u.C.toNat < 2 ^ (27 - u.t.toNat)
  value : (s.Tr.toNat * 2 ^ 27 + s.C.toNat) * 2 ^ u.t.toNat =
    v.toNat * 2 ^ 27 * 2 ^ u.t.toNat + u.Tr.toNat * 2 ^ 27 + u.C.toNat * 2 ^ u.t.toNat
  ctx : u.ctx = s.ctx
  frame : StreamFrame s u

theorem installed_reload (u : State) :
    installed (if u.Tr = 0xFF then reloadStuffed u else reloadNormal u) = installed u := by
  split <;> exact installed_congr rfl rfl

theorem transferLaw_stuffed {s u : State} (hC : s.C.toNat < 2 ^ 28) (hT : s.Tr = 0xFF)
    (hu : u.A = s.A ∧ u.C = s.C ∧ u.L = s.L + 1 ∧ u.ctx = s.ctx) (hf : StreamFrame s u) :
    TransferLaw s (reloadStuffed u) 0xFF := by
  obtain ⟨hA, hCu, hL, hx⟩ := hu
  refine ⟨hA, hL, rfl, ?_, ?_, hx, ?_⟩
  · show (u.C &&& ~~~maskClearMsbs).toNat < 2 ^ 20
    rw [clearMsbs_toNat]; omega
  · show (s.Tr.toNat * 2 ^ 27 + s.C.toNat) * 2 ^ 7 = 255 * 2 ^ 27 * 2 ^ 7 + (u.C.extractLsb' 20 8).toNat * 2 ^ 27 +
      (u.C &&& ~~~maskClearMsbs).toNat * 2 ^ 7
    have h1 : (0xFF : Byte).toNat = 255 := rfl
    rw [clearMsbs_toNat, field_toNat, hCu, hT, h1]
    omega
  · exact hf.trans ⟨rfl, rfl, rfl, rfl, rfl, rfl, rfl, rfl, fun _ _ => rfl⟩

theorem transferLaw_data {s u : State}
    (hu : u.A = s.A ∧ u.L = s.L + 1 ∧ u.ctx = s.ctx) (hCu : u.C.toNat = s.C.toNat % 2 ^ 27)
    (hT : u.Tr.toNat = s.Tr.toNat + s.C.toNat / 2 ^ 27) (hf : StreamFrame s u) :
    TransferLaw s (if u.Tr = 0xFF then reloadStuffed u else reloadNormal u) u.Tr := by
  obtain ⟨hA, hL, hx⟩ := hu
  split
  · rename_i h
    refine ⟨hA, hL, by rw [if_pos h]; rfl, ?_, ?_, hx, ?_⟩
    · show (u.C &&& ~~~maskClearMsbs).toNat < 2 ^ 20
      rw [clearMsbs_toNat]; omega
    · show (s.Tr.toNat * 2 ^ 27 + s.C.toNat) * 2 ^ 7 = u.Tr.toNat * 2 ^ 27 * 2 ^ 7 + (u.C.extractLsb' 20 8).toNat * 2 ^ 27 +
        (u.C &&& ~~~maskClearMsbs).toNat * 2 ^ 7
      rw [clearMsbs_toNat, field_toNat, hCu, hT]
      omega
    · exact hf.trans ⟨rfl, rfl, rfl, rfl, rfl, rfl, rfl, rfl, fun _ _ => rfl⟩
  · rename_i h
    refine ⟨hA, hL, by rw [if_neg h]; rfl, ?_, ?_, hx, ?_⟩
    · show (u.C &&& ~~~maskClearPart).toNat < 2 ^ 19
      rw [clearPart_toNat]; omega
    · show (s.Tr.toNat * 2 ^ 27 + s.C.toNat) * 2 ^ 8 = u.Tr.toNat * 2 ^ 27 * 2 ^ 8 + (u.C.extractLsb' 19 8).toNat * 2 ^ 27 +
        (u.C &&& ~~~maskClearPart).toNat * 2 ^ 8
      rw [clearPart_toNat, field_toNat, hCu, hT]
      omega
    · exact hf.trans ⟨rfl, rfl, rfl, rfl, rfl, rfl, rfl, rfl, fun _ _ => rfl⟩

/-- `transfer_byte` within its preconditions (R131), with room for one byte: it ends, finishes one byte `v`, and appends
it unless it is the phantom first byte. -/
theorem transferByte_law {s : State} {b : Buffer} (hb : installed s = some b)
    (hroom : 0 ≤ s.L → bufferFull s.cap b.length = false)
    (hL : s.L < positionMax s.lw) (hlow : -1 ≤ s.L) (hC : s.C.toNat < 2 ^ 28) (hfirst : s.L = -1 → s.Tr = 0) :
    ∃ u v, transferByte s = .done () u ∧ TransferLaw s u v ∧
      installed u = some (if s.L < 0 then b else b ++ [v]) := by
  unfold transferByte
  split
  · rename_i hT
    have hL0 : ¬ s.L < 0 := fun h => by
      have := hfirst (by omega)
      rw [hT] at this; exact absurd this (by decide)
    rw [memAppend_some hb, if_neg (by simp [hroom (by omega)]), bind_done, advancePosition_of_lt (by simpa using hL),
      bind_done]
    refine ⟨_, 0xFF, rfl, transferLaw_stuffed hC hT ⟨by simp, by simp, by simp, by simp⟩ ?_, ?_⟩
    · exact (StreamFrame.setInstalled _ s).trans ⟨rfl, rfl, rfl, rfl, rfl, rfl, rfl, rfl, fun _ _ => rfl⟩
    · rw [if_neg hL0]
      exact (hT ▸ installed_setInstalled hb (b ++ [s.Tr]) : installed (setInstalled (b ++ [s.Tr]) s) = some (b ++ [0xFF]))
  · rename_i hT
    obtain ⟨hTr, hCr⟩ := propagateCarry_toNat hT hC
    have hbp : installed (propagateCarry s) = some b := by
      rw [← hb]; exact installed_congr (by simp) (by simp)
    have hfp : StreamFrame s (propagateCarry s) :=
      ⟨by simp, by simp, by simp, by simp, by simp, by simp, by simp, by simp, fun _ _ => by simp⟩
    unfold emitUnlessFirst
    by_cases h0 : 0 ≤ s.L
    · rw [if_pos (by simpa using h0), memAppend_some hbp, if_neg (by simp [hroom h0]), bind_done,
        advancePosition_of_lt (by simpa using hL), bind_done]
      refine ⟨_, _, rfl, transferLaw_data ⟨by simp, by simp, by simp⟩ (by simpa using hCr) (by simpa using hTr) ?_, ?_⟩
      · exact (hfp.trans (StreamFrame.setInstalled _ _)).trans ⟨rfl, rfl, rfl, rfl, rfl, rfl, rfl, rfl, fun _ _ => rfl⟩
      · rw [if_neg (show ¬ s.L < 0 by omega)]
        have := installed_setInstalled hbp (b ++ [(propagateCarry s).Tr])
        rw [installed_reload]
        simpa using (installed_congr (by simp) (by simp)).trans this
    · rw [if_neg (by simpa using h0), bind_done, advancePosition_of_lt (by simpa using hL), bind_done]
      refine ⟨_, _, rfl, transferLaw_data ⟨by simp, by simp, by simp⟩ (by simpa using hCr) (by simpa using hTr) ?_, ?_⟩
      · exact hfp.trans ⟨rfl, rfl, rfl, rfl, rfl, rfl, rfl, rfl, fun _ _ => rfl⟩
      · rw [if_pos (show s.L < 0 by omega), installed_reload]
        exact (installed_congr (by simp) (by simp)).trans hbp

/-- `transfer_byte` in any state: if it ends, what it has left alone, and that it appends at most one byte (R62). -/
theorem transferByte_done {s u : State} (h : transferByte s = .done () u) :
    StreamFrame s u ∧ u.ctx = s.ctx ∧ u.A = s.A ∧ u.L = s.L + 1 ∧ (u.t = 7 ∨ u.t = 8) ∧
      ∀ b, installed s = some b → ∃ e, e.length ≤ 1 ∧ installed u = some (b ++ e) := by
  unfold transferByte at h
  split at h
  · obtain ⟨⟨⟩, s1, h1, h⟩ := bind_eq_done.1 h
    obtain ⟨⟨⟩, s2, h2, h⟩ := bind_eq_done.1 h
    obtain ⟨b, hb, -, rfl⟩ := memAppend_done h1
    obtain ⟨-, rfl⟩ := advancePosition_done h2
    cases h
    refine ⟨(StreamFrame.setInstalled _ s).trans ⟨rfl, rfl, rfl, rfl, rfl, rfl, rfl, rfl, fun _ _ => rfl⟩, by simp, by simp,
      by simp, .inl rfl, fun c hc => ?_⟩
    rw [hb] at hc; cases hc
    exact ⟨[s.Tr], by simp, (installed_congr (by simp) (by simp)).trans (installed_setInstalled hb _)⟩
  · obtain ⟨⟨⟩, s1, h1, h⟩ := bind_eq_done.1 h
    obtain ⟨⟨⟩, s2, h2, h⟩ := bind_eq_done.1 h
    obtain ⟨-, rfl⟩ := advancePosition_done h2
    have hfp : StreamFrame s (propagateCarry s) :=
      ⟨by simp, by simp, by simp, by simp, by simp, by simp, by simp, by simp, fun _ _ => by simp⟩
    have hip : installed (propagateCarry s) = installed s := installed_congr (by simp) (by simp)
    have key : StreamFrame s s1 ∧ s1.ctx = s.ctx ∧ s1.A = s.A ∧ s1.L = s.L ∧
        ∀ b, installed s = some b → ∃ e, e.length ≤ 1 ∧ installed s1 = some (b ++ e) := by
      unfold emitUnlessFirst at h1
      split at h1
      · obtain ⟨b, hb, -, rfl⟩ := memAppend_done h1
        refine ⟨hfp.trans (StreamFrame.setInstalled _ _), by simp, by simp, by simp, fun c hc => ?_⟩
        rw [hip, hc] at hb; cases hb
        exact ⟨_, by simp, installed_setInstalled (hip.trans hc) _⟩
      · cases h1
        exact ⟨hfp, by simp, by simp, by simp, fun c hc => ⟨[], by simp, by rw [hip, hc]; simp⟩⟩
    obtain ⟨hf, hx, hA, hL, hi⟩ := key
    cases h
    have hfr : StreamFrame s1 (if (bumpPosition s1).Tr = 0xFF then reloadStuffed (bumpPosition s1)
        else reloadNormal (bumpPosition s1)) := by
      split <;> exact ⟨rfl, rfl, rfl, rfl, rfl, rfl, rfl, rfl, fun _ _ => rfl⟩
    refine ⟨hf.trans hfr, ?_, ?_, ?_, ?_, fun b hb => ?_⟩
    · split <;> simpa using hx
    · split <;> simpa using hA
    · split <;> simpa using hL
    · split
      · exact .inl rfl
      · exact .inr rfl
    · obtain ⟨e, he, hi'⟩ := hi b hb
      exact ⟨e, he, by rw [installed_reload]; exact hi'⟩

/-- `transfer_byte` raises only `StreamIO`, on a full buffer or without a stream (R242), before L, t and the stream change
(R245, third and fourth row). -/
theorem transferByte_raised {s u : State} {e : ExecError} (h : transferByte s = .raised e u) :
    e = .streamIO ∧ (u = s ∨ u = propagateCarry s) ∧ ∀ b, installed s = some b → bufferFull s.cap b.length = true := by
  have hadv : ∀ {s1 e1 u1}, advancePosition s1 ≠ .raised e1 u1 := by
    intro s1 e1 u1; unfold advancePosition; split <;> simp
  unfold transferByte at h
  split at h
  · rcases bind_eq_raised.1 h with h | ⟨⟨⟩, s1, -, h⟩
    · obtain ⟨rfl, rfl, hf⟩ := memAppend_raised h
      exact ⟨rfl, .inl rfl, hf⟩
    · rcases bind_eq_raised.1 h with h | ⟨⟨⟩, s2, -, h⟩
      · exact absurd h hadv
      · cases h
  · rcases bind_eq_raised.1 h with h | ⟨⟨⟩, s1, -, h⟩
    · unfold emitUnlessFirst at h
      split at h
      · obtain ⟨rfl, rfl, hf⟩ := memAppend_raised h
        exact ⟨rfl, .inr rfl, fun b hb => by
          simpa using hf b ((installed_congr (by simp) (by simp)).trans hb)⟩
      · cases h
    · rcases bind_eq_raised.1 h with h | ⟨⟨⟩, s2, -, h⟩
      · exact absurd h hadv
      · cases h

/-- `transfer_byte` abandoned for want of room: nothing is appended and L has not advanced (R245). -/
theorem transferByte_raised_frame {s u : State} {e : ExecError} (h : transferByte s = .raised e u) :
    e = .streamIO ∧ StreamFrame s u ∧ u.ctx = s.ctx ∧ u.A = s.A ∧ u.t = s.t ∧ u.L = s.L ∧ installed u = installed s ∧
      ∀ b, installed s = some b → ∃ c, s.cap = some c ∧ c ≤ b.length := by
  obtain ⟨he, hu, hf⟩ := transferByte_raised h
  have hcap : ∀ b, installed s = some b → ∃ c, s.cap = some c ∧ c ≤ b.length := fun b hb => by
    have := hf b hb
    unfold bufferFull at this
    cases hc : s.cap with
    | none => simp [hc] at this
    | some c => exact ⟨c, rfl, by simpa [hc] using this⟩
  rcases hu with rfl | rfl
  · exact ⟨he, StreamFrame.refl u, rfl, rfl, rfl, rfl, rfl, hcap⟩
  · exact ⟨he, ⟨by simp, by simp, by simp, by simp, by simp, by simp, by simp, by simp, fun _ _ => by simp⟩,
      by simp, by simp, by simp, by simp, installed_congr (by simp) (by simp), hcap⟩

theorem advancePosition_ends (s : State) :
    advancePosition s = .done () (bumpPosition s) ∨ advancePosition s = .refused .positionOverflow := by
  unfold advancePosition; split
  · exact .inl rfl
  · exact .inr rfl

theorem transferByte_ne_stuck (s : State) (f : Fault) : transferByte s ≠ .stuck f := by
  intro h
  have hadv : ∀ s1, advancePosition s1 ≠ .stuck f := by
    intro s1; rcases advancePosition_ends s1 with h | h <;> simp [h]
  have hmem : ∀ v s1, memAppend v s1 ≠ .stuck f := by
    intro v s1; rcases memAppend_ends v s1 with ⟨u, h⟩ | h <;> simp [h]
  unfold transferByte emitUnlessFirst at h
  split at h
  · rcases bind_eq_stuck.1 h with h | ⟨⟨⟩, s1, -, h⟩
    · exact hmem _ _ h
    · rcases bind_eq_stuck.1 h with h | ⟨⟨⟩, s2, -, h⟩
      · exact hadv _ h
      · cases h
  · rcases bind_eq_stuck.1 h with h | ⟨⟨⟩, s1, -, h⟩
    · split at h
      · exact hmem _ _ h
      · cases h
    · rcases bind_eq_stuck.1 h with h | ⟨⟨⟩, s2, -, h⟩
      · exact hadv _ h
      · cases h

/-- `transfer_byte` is refused only for want of room in L (93 U17). -/
theorem transferByte_refused {s : State} {r : Refusal} (h : transferByte s = .refused r) :
    r = .positionOverflow ∧ positionMax s.lw ≤ s.L := by
  have hadv : ∀ {s1 : State}, advancePosition s1 = .refused r → r = .positionOverflow ∧ positionMax s1.lw ≤ s1.L := by
    intro s1 h; unfold advancePosition at h; split at h
    · cases h
    · cases h; exact ⟨rfl, by omega⟩
  have hmem : ∀ v s1, memAppend v s1 ≠ .refused r := by
    intro v s1; rcases memAppend_ends v s1 with ⟨u, h⟩ | h <;> simp [h]
  unfold transferByte emitUnlessFirst at h
  split at h
  · rcases bind_eq_refused.1 h with h | ⟨⟨⟩, s1, h1, h⟩
    · exact absurd h (hmem _ _)
    · obtain ⟨b, hb, -, rfl⟩ := memAppend_done h1
      rcases bind_eq_refused.1 h with h | ⟨⟨⟩, s2, -, h⟩
      · simpa using hadv h
      · cases h
  · rcases bind_eq_refused.1 h with h | ⟨⟨⟩, s1, h1, h⟩
    · split at h
      · exact absurd h (hmem _ _)
      · cases h
    · have hs1 : s1.lw = s.lw ∧ s1.L = s.L := by
        split at h1
        · obtain ⟨b, hb, -, rfl⟩ := memAppend_done h1; simp
        · cases h1; simp
      rcases bind_eq_refused.1 h with h | ⟨⟨⟩, s2, -, h⟩
      · simpa [hs1.1, hs1.2] using hadv h
      · cases h

/-- Everything `transfer_byte` can do within its preconditions (R131). -/
theorem transferByte_cases {s : State} {b : Buffer} (hb : installed s = some b) (hlow : -1 ≤ s.L)
    (hC : s.C.toNat < 2 ^ 28) (hfirst : s.L = -1 → s.Tr = 0) :
    (∃ u v, transferByte s = .done () u ∧ TransferLaw s u v ∧ installed u = some (if s.L < 0 then b else b ++ [v])) ∨
    (∃ u, transferByte s = .raised .streamIO u) ∨
    (transferByte s = .refused .positionOverflow ∧ positionMax s.lw ≤ s.L) := by
  cases h : transferByte s with
  | done a u =>
    have hL : s.L < positionMax s.lw := by
      unfold transferByte at h
      split at h
      · obtain ⟨⟨⟩, s1, h1, h⟩ := bind_eq_done.1 h
        obtain ⟨⟨⟩, s2, h2, h⟩ := bind_eq_done.1 h
        obtain ⟨c, -, -, rfl⟩ := memAppend_done h1
        simpa using (advancePosition_done h2).1
      · obtain ⟨⟨⟩, s1, h1, h⟩ := bind_eq_done.1 h
        obtain ⟨⟨⟩, s2, h2, h⟩ := bind_eq_done.1 h
        have h3 := (advancePosition_done h2).1
        unfold emitUnlessFirst at h1
        split at h1
        · obtain ⟨c, -, -, rfl⟩ := memAppend_done h1; simpa using h3
        · cases h1; simpa using h3
    have hroom : 0 ≤ s.L → bufferFull s.cap b.length = false := fun h0 => by
      unfold transferByte at h
      split at h
      · obtain ⟨⟨⟩, s1, h1, h⟩ := bind_eq_done.1 h
        obtain ⟨c, hc, hf, rfl⟩ := memAppend_done h1
        rw [hb] at hc; cases hc; exact hf
      · obtain ⟨⟨⟩, s1, h1, h⟩ := bind_eq_done.1 h
        unfold emitUnlessFirst at h1
        rw [if_pos (by simpa using h0)] at h1
        obtain ⟨c, hc, hf, rfl⟩ := memAppend_done h1
        have : installed s = some c := (installed_congr (by simp) (by simp)).trans hc
        rw [hb] at this; cases this; simpa using hf
    obtain ⟨u', v, hu, hl, hi⟩ := transferByte_law hb hroom hL hlow hC hfirst
    rw [h] at hu; cases hu
    exact .inl ⟨_, v, rfl, hl, hi⟩
  | raised e u =>
    obtain rfl := (transferByte_raised h).1
    exact .inr (.inl ⟨u, rfl⟩)
  | stuck f => exact absurd h (transferByte_ne_stuck s f)
  | refused r =>
    obtain ⟨rfl, hr⟩ := transferByte_refused h
    exact .inr (.inr ⟨rfl, hr⟩)

/-! ### `fill_lsb` (R133) -/

theorem fillLsb_unfold {s : State} {b : Buffer} (hb : installed s = some b) (h0 : 0 ≤ s.L) (h1 : s.L ≤ b.length) :
    fillLsb s = (fillByte b.length (startFill s)).bind fun bl s2 =>
      if s2.L = b.length ∨ (s2.Tr = 0xFF ∧ 0x8F < bl) then
        if s2.L = b.length then .done () (padOnes s2) else .raised .invalidMarker (padOnes s2)
      else fillData bl s2 := by
  unfold fillLsb
  rw [streamLen_some (s := startFill s) hb, bind_done, if_neg]
  simp only [startFill_L]; omega

/-- At the end of the stream `fill_lsb` pads with ones, without an error (R133 corner a). -/
theorem fillLsb_end {s : State} {b : Buffer} (hb : installed s = some b) (h : s.L = b.length) :
    fillLsb s = .done () (padOnes (startFill s)) := by
  rw [fillLsb_unfold hb (by omega) (by omega)]
  unfold fillByte
  rw [if_neg (by simp [h]), bind_done, if_pos (.inl h), if_pos (show (startFill s).L = _ from h)]

/-- Before the end a byte above `0x8F` after a `0xFF` raises `InvalidMarker` (R133 corner b). -/
theorem fillLsb_marker {s : State} {b : Buffer} (hb : installed s = some b) {n : Nat} (hn : s.L = n) (hlt : n < b.length)
    (hT : s.Tr = 0xFF) (hm : 0x8F < b[n]) : fillLsb s = .raised .invalidMarker (padOnes (startFill s)) := by
  rw [fillLsb_unfold hb (by omega) (by omega)]
  unfold fillByte
  have hr : memRead (startFill s).L.toNat (startFill s) = .done b[n] (startFill s) := by
    have : (startFill s).L.toNat = n := by simp [hn]
    rw [this]; exact memRead_some (s := startFill s) hb hlt
  rw [if_pos (by simp only [startFill_L]; omega), hr, bind_done, if_pos (.inr ⟨hT, hm⟩),
    if_neg (by simp only [startFill_L]; omega)]

/-- Any other byte is data (R133). -/
theorem fillLsb_data {s : State} {b : Buffer} (hb : installed s = some b) {n : Nat} (hn : s.L = n) (hlt : n < b.length)
    (hm : ¬ (s.Tr = 0xFF ∧ 0x8F < b[n])) (hL : s.L < positionMax s.lw) :
    fillLsb s = .done () (addByte (bumpPosition (acceptByte b[n] (startFill s)))) := by
  rw [fillLsb_unfold hb (by omega) (by omega)]
  unfold fillByte
  have hr : memRead (startFill s).L.toNat (startFill s) = .done b[n] (startFill s) := by
    have : (startFill s).L.toNat = n := by simp [hn]
    rw [this]; exact memRead_some (s := startFill s) hb hlt
  rw [if_pos (by simp only [startFill_L]; omega), hr, bind_done, if_neg]
  · unfold fillData
    rw [advancePosition_of_lt (by simpa using hL), bind_done]
  · rintro (h | h)
    · simp only [startFill_L] at h; omega
    · exact hm h

/-- What a decode micro-operation leaves alone: everything but A, C, t, Tr, L and context entries. -/
structure ReadFrame (s u : State) : Prop where
  ctxLength : u.ctx.length = s.ctx.length
  mode : u.mode = s.mode
  cur : u.cur = s.cur
  sm : u.sm = s.sm
  cap : u.cap = s.cap
  lw : u.lw = s.lw
  responses : u.responses = s.responses
  host : u.host = s.host

theorem ReadFrame.refl (s : State) : ReadFrame s s := ⟨rfl, rfl, rfl, rfl, rfl, rfl, rfl, rfl⟩

theorem ReadFrame.trans {s u v : State} (h : ReadFrame s u) (k : ReadFrame u v) : ReadFrame s v :=
  ⟨k.ctxLength.trans h.ctxLength, k.mode.trans h.mode, k.cur.trans h.cur, k.sm.trans h.sm, k.cap.trans h.cap,
   k.lw.trans h.lw, k.responses.trans h.responses, k.host.trans h.host⟩

theorem ReadFrame.installed {s u : State} (h : ReadFrame s u) : installed u = installed s := installed_congr h.cur h.sm

/-- What one fill does (R133), in numbers. `v` is the byte it feeds the code register. -/
inductive FillLaw (s u : State) (b : Buffer) : Prop where
  /-- Past the end: a byte of ones, Tr and L kept (corner a). -/
  | pad (h : s.L = b.length) (hu : u = padOnes (startFill s))
  /-- A byte of the stream. -/
  | data (n : Nat) (hn : s.L = n) (hlt : n < b.length) (hm : ¬ (s.Tr = 0xFF ∧ 0x8F < b[n]))
      (hu : u = addByte (bumpPosition (acceptByte b[n] (startFill s))))

/-- Everything `fill_lsb` can do (R133), with a stream installed. -/
theorem fillLsb_cases {s : State} {b : Buffer} (hb : installed s = some b) :
    (∃ u, fillLsb s = .done () u ∧ FillLaw s u b) ∨
    (fillLsb s = .raised .invalidMarker (padOnes (startFill s)) ∧
      ∃ (n : Nat) (h : n < b.length), s.L = n ∧ s.Tr = 0xFF ∧ 0x8F < b[n]) ∨
    (fillLsb s = .refused .positionOutsideStream ∧ (s.L < 0 ∨ (b.length : Int) < s.L)) ∨
    (fillLsb s = .refused .positionOverflow ∧ positionMax s.lw ≤ s.L ∧ 0 ≤ s.L ∧ s.L < b.length) := by
  by_cases h0 : s.L < 0 ∨ (b.length : Int) < s.L
  · refine .inr (.inr (.inl ⟨?_, h0⟩))
    unfold fillLsb
    rw [streamLen_some (s := startFill s) hb, bind_done, if_pos (by simpa using h0)]
  · by_cases h1 : s.L = b.length
    · exact .inl ⟨_, fillLsb_end hb h1, .pad h1 rfl⟩
    · obtain ⟨n, hn⟩ : ∃ n : Nat, s.L = n := ⟨s.L.toNat, by omega⟩
      have hlt : n < b.length := by omega
      by_cases hm : s.Tr = 0xFF ∧ 0x8F < b[n]
      · exact .inr (.inl ⟨fillLsb_marker hb hn hlt hm.1 hm.2, n, hlt, hn, hm⟩)
      · by_cases hL : s.L < positionMax s.lw
        · exact .inl ⟨_, fillLsb_data hb hn hlt hm hL, .data n hn hlt hm rfl⟩
        · refine .inr (.inr (.inr ⟨?_, by omega, by omega, by omega⟩))
          rw [fillLsb_unfold hb (by omega) (by omega)]
          unfold fillByte
          have hr : memRead (startFill s).L.toNat (startFill s) = .done b[n] (startFill s) := by
            have : (startFill s).L.toNat = n := by simp [hn]
            rw [this]; exact memRead_some (s := startFill s) hb hlt
          rw [if_pos (by simp only [startFill_L]; omega), hr, bind_done, if_neg]
          · unfold fillData advancePosition
            rw [if_neg (by simpa using hL), bind_refused]
          · rintro (h | h)
            · simp only [startFill_L] at h; omega
            · exact hm h

theorem FillLaw.readFrame {s u : State} {b : Buffer} (h : FillLaw s u b) : ReadFrame s u := by
  cases h <;> subst_vars <;> exact ⟨rfl, rfl, rfl, rfl, rfl, rfl, rfl, rfl⟩

theorem FillLaw.width {s u : State} {b : Buffer} (h : FillLaw s u b) : u.A = s.A := by
  cases h <;> subst_vars <;> rfl

theorem FillLaw.ctx {s u : State} {b : Buffer} (h : FillLaw s u b) : u.ctx = s.ctx := by
  cases h <;> subst_vars <;> rfl

theorem FillLaw.count {s u : State} {b : Buffer} (h : FillLaw s u b) : u.t = 7 ∨ u.t = 8 := by
  cases h with
  | pad h hu => subst hu; exact .inr rfl
  | data n hn hlt hm hu =>
    subst hu
    by_cases hT : s.Tr = 0xFF
    · exact .inl (if_pos hT)
    · exact .inr (if_neg hT)

theorem FillLaw.position {s u : State} {b : Buffer} (h : FillLaw s u b) : s.L ≤ u.L ∧ u.L ≤ b.length := by
  cases h with
  | pad h hu => subst hu; simp [h]
  | data n hn hlt hm hu => subst hu; simp; omega

end Sys2Proof.Machine
end

