-- ==== Sys2Proof/Laws/Encoder.lean ====
section
/-! SUPPORT. The encoder's renormalization loop (R102) and step (R100): what a run of the loop does to the interval, to the
bytes it finishes and to the bound of R33. -/

namespace Sys2Proof.Machine

/-! ### Markers and code values of byte strings -/

theorem markerFree_nil : MarkerFree [] := by intro i v h; simp at h

theorem markerFree_singleton (a : Byte) : MarkerFree [a] := by
  intro i v _ hv; cases i <;> simp at hv

theorem markerFree_append {b e : Buffer} (h : MarkerFree b) (k : MarkerFree (b.getLast?.toList ++ e)) :
    MarkerFree (b ++ e) := by
  intro i v hi hv
  by_cases h1 : i + 1 < b.length
  · rw [List.getElem?_append_left (by omega)] at hi
    rw [List.getElem?_append_left h1] at hv
    exact h i v hi hv
  · by_cases h2 : i + 1 = b.length
    · rw [List.getElem?_append_left (by omega)] at hi
      rw [List.getElem?_append_right (by omega)] at hv
      have hlast : b.getLast? = some 0xFF := by
        rw [List.getLast?_eq_getElem?, ← hi]; congr 1; omega
      refine k 0 v (by simp [hlast]) ?_
      have : i + 1 - b.length = 0 := by omega
      rw [this] at hv
      simpa [hlast] using hv
    · have hi2 : b.length ≤ i := by omega
      rw [List.getElem?_append_right hi2] at hi
      rw [List.getElem?_append_right (by omega)] at hv
      refine k (i - b.length + b.getLast?.toList.length) v ?_ ?_
      · rw [List.getElem?_append_right (by omega)]; simpa using hi
      · rw [List.getElem?_append_right (by omega)]
        have : i - b.length + b.getLast?.toList.length + 1 - b.getLast?.toList.length = i + 1 - b.length := by omega
        rw [this]; exact hv

theorem markerFree_cons {a : Byte} {e : Buffer} (h : ∀ v, e.head? = some v → a = 0xFF → v ≤ 0x8F) (k : MarkerFree e) :
    MarkerFree (a :: e) := by
  intro i v hi hv
  cases i with
  | zero =>
    simp only [List.getElem?_cons_zero, Option.some.injEq] at hi
    rw [zero_add, List.getElem?_cons_succ] at hv
    exact h v (by cases e <;> simp_all) hi
  | succ i =>
    rw [List.getElem?_cons_succ] at hi hv
    exact k i v hi hv

theorem MarkerFree.prefix {b c : Buffer} (h : MarkerFree c) (hp : b <+: c) : MarkerFree b := by
  obtain ⟨e, rfl⟩ := hp
  intro i v hi hv
  have h1 := (List.getElem?_eq_some_iff.1 hi).1
  have h2 := (List.getElem?_eq_some_iff.1 hv).1
  exact h i v (by rw [List.getElem?_append_left h1]; exact hi) (by rw [List.getElem?_append_left h2]; exact hv)

theorem codeValue_append (w : Rat) (b e : Buffer) : codeValue w (b ++ e) = codeValue w b + codeValue (weightAfter w b) e := by
  induction b generalizing w with
  | nil => simp [codeValue, weightAfter]
  | cons v b ih => simp only [List.cons_append, codeValue, weightAfter, List.foldl_cons]; rw [ih]; unfold weightAfter; ring

theorem weightAfter_append (w : Rat) (b e : Buffer) : weightAfter w (b ++ e) = weightAfter (weightAfter w b) e := by
  unfold weightAfter; rw [List.foldl_append]

theorem weightAfter_pos {w : Rat} (hw : 0 < w) (b : Buffer) : 0 < weightAfter w b := by
  induction b generalizing w with
  | nil => exact hw
  | cons v b ih =>
    have : 0 < nextWeight w v := by unfold nextWeight; split <;> positivity
    exact ih this

/-! ### A run of the encoder -/

/-- The part of the interval's lower end that is still in the registers, in units of bit 0 of `Tr`. -/
def pendingValue (s : State) : Rat := s.Tr.toNat + s.C.toNat * 2 ^ s.t.toNat / 2 ^ 27

/-- `A << t`, in the units of C at a transfer (R202). -/
def widthValue (s : State) : Rat := s.A.toNat * 2 ^ s.t.toNat

/-- After a `0xFF`: what can still reach the pending byte keeps it below `0x90`. -/
def PendingLow (s : State) : Prop := s.Tr.toNat * 2 ^ 27 + intervalTop s ≤ 0x90 * 2 ^ 27

/-- What holds inside an encode command, also while A is below `0x8000`: the bound of R33 (a) and the phantom byte. -/
structure Coding (s : State) : Prop where
  positive : 1 ≤ s.A.toNat
  countLow : 1 ≤ s.t.toNat
  countHigh : s.t.toNat ≤ 12
  position : -1 ≤ s.L
  top : intervalTop s < 2 ^ 27 + 2 ^ 24
  first : s.L = -1 → s.Tr = 0 ∧ intervalTop s ≤ 2 ^ 27

theorem EncodeInv.coding {s : State} (h : EncodeInv s) : Coding s :=
  ⟨by have := h.interval; omega, h.countLow, h.countHigh, h.position, h.top, h.first⟩

theorem nextWeight_pos {w : Rat} (hw : 0 < w) (v : Byte) : 0 < nextWeight w v := by
  unfold nextWeight; split <;> positivity

/-- The encoder went from pending byte `T` and pending value `p` to `T'` and `q` and finished the bytes `e`, the first of
which came of `T`: the lower end did not move down, a byte only grows while it is pending, and when a byte was loaded the
lower end lay below that byte's own upper end (so a carry into it came later; R131 d). -/
structure Emitted (p : Rat) (T : Byte) (q : Rat) (T' : Byte) (e : Buffer) : Prop where
  value : ∀ w, 0 < w → w * p ≤ codeValue w e + weightAfter w e * q
  loaded : ∀ w, 0 < w → ∀ e1 v e2, e ++ [T'] = e1 ++ v :: e2 → e1 ≠ [] →
    w * p < codeValue w e1 + (v.toNat + 1) * weightAfter w e1
  head : ∀ v, (e ++ [T']).head? = some v → T.toNat ≤ v.toNat

theorem Emitted.refl (p : Rat) (T : Byte) : Emitted p T p T [] where
  value := fun w _ => by simp [codeValue, weightAfter]
  loaded := fun w _ e1 v e2 h he => by
    cases e1 with
    | nil => exact absurd rfl he
    | cons a e1 => simp at h
  head := fun v h => by simp at h; rw [h]

/-- The lower end may move up between transfers. -/
theorem Emitted.mono {p q r : Rat} {T T' : Byte} {e : Buffer} (h : Emitted p T q T' e) (hq : q ≤ r) :
    Emitted p T r T' e where
  value := fun w hw => by
    have := h.value w hw
    have := mul_le_mul_of_nonneg_left hq (weightAfter_pos hw e).le
    linarith
  loaded := h.loaded
  head := h.head

theorem Emitted.cons {p q r : Rat} {T T' T'' v : Byte} {e : Buffer}
    (hval : ∀ w : Rat, v.toNat * w + nextWeight w v * q = w * p) (hq : q < T'.toNat + 1) (hT : T.toNat ≤ v.toNat)
    (k : Emitted q T' r T'' e) : Emitted p T r T'' (v :: e) where
  value := fun w hw => by
    have := hval w
    have := k.value _ (nextWeight_pos hw v)
    simp only [codeValue, weightAfter, List.foldl_cons] at this ⊢
    linarith
  loaded := fun w hw e1 x e2 h he => by
    have hn := nextWeight_pos hw v
    have hv := hval w
    cases e1 with
    | nil => exact absurd rfl he
    | cons a e1 =>
      simp only [List.cons_append, List.cons.injEq] at h
      obtain ⟨rfl, h⟩ := h
      simp only [codeValue, weightAfter, List.foldl_cons]
      by_cases h1 : e1 = []
      · subst h1
        have hx := k.head x (by rw [h]; rfl)
        have hx' : (T'.toNat : Rat) ≤ x.toNat := by exact_mod_cast hx
        simp only [codeValue, List.foldl_nil]
        nlinarith
      · have := k.loaded _ hn e1 x e2 h h1
        unfold weightAfter at this
        linarith
  head := fun x h => by simp at h; rw [← h]; exact hT

theorem Emitted.trans {p q r : Rat} {T T' T'' : Byte} {e f : Buffer} (h : Emitted p T q T' e) (k : Emitted q T' r T'' f) :
    Emitted p T r T'' (e ++ f) where
  value := fun w hw => by
    have h1 := h.value w hw
    have h2 := k.value _ (weightAfter_pos hw e)
    rw [codeValue_append, weightAfter_append]
    linarith
  loaded := fun w hw e1 v e2 hs he => by
    rw [List.append_assoc] at hs
    rcases List.append_eq_append_iff.1 hs with ⟨d, rfl, hd⟩ | ⟨d, rfl, hd⟩
    · cases d with
      | nil =>
        have hv := k.head v (by rw [hd]; rfl)
        have hv' : (T'.toNat : Rat) ≤ v.toNat := by exact_mod_cast hv
        rw [List.append_nil] at he ⊢
        have := h.loaded w hw e T' [] rfl he
        have := mul_le_mul_of_nonneg_right hv' (weightAfter_pos hw e).le
        linarith
      | cons a d =>
        have h1 := h.value w hw
        have h2 := k.loaded _ (weightAfter_pos hw e) (a :: d) v e2 hd (by simp)
        rw [codeValue_append, weightAfter_append]
        linarith
    · cases d with
      | nil =>
        have hv := k.head v (by rw [← List.nil_append (f ++ [T'']), ← List.nil_append (f ++ [T''])]; simpa using congrArg List.head? hd.symm)
        have hv' : (T'.toNat : Rat) ≤ v.toNat := by exact_mod_cast hv
        have := h.loaded w hw e1 T' [] (by simp) he
        have := mul_le_mul_of_nonneg_right hv' (weightAfter_pos hw e1).le
        linarith
      | cons a d =>
        simp only [List.cons_append, List.cons.injEq] at hd
        obtain ⟨rfl, -⟩ := hd
        exact h.loaded w hw e1 v (d ++ [T']) (by simp) he
  head := fun v hv => by
    cases e with
    | nil =>
      have h1 := h.head T' rfl
      have h2 := k.head v (by simpa using hv)
      omega
    | cons a e => exact h.head v (by simpa using hv)

/-- The run from `s` to `u` finished the bytes `e` (the phantom byte among them) and lost nothing of the interval. -/
structure EncodeRun (s u : State) (b e : Buffer) : Prop where
  position : u.L = s.L + e.length
  stream : installed u = some (b ++ if s.L < 0 then e.drop 1 else e)
  phantom : s.L = -1 → ∀ v, e.head? = some v → v = 0
  value : ∀ w, codeValue w e + weightAfter w e * pendingValue u = w * pendingValue s
  width : ∀ w, weightAfter w e * widthValue u = w * widthValue s
  marker : ∀ l : Option Byte, (l = some 0xFF → PendingLow s) →
    MarkerFree (l.toList ++ e) ∧ ((l.toList ++ e).getLast? = some 0xFF → PendingLow u)
  emitted : Emitted (pendingValue s) s.Tr (pendingValue u) u.Tr e
  ctx : u.ctx = s.ctx
  frame : StreamFrame s u

theorem EncodeRun.refl {s : State} {b : Buffer} (hb : installed s = some b) : EncodeRun s s b [] where
  position := by simp
  stream := by simp [hb]
  phantom := by simp
  value := by simp [codeValue, weightAfter]
  width := by simp [weightAfter]
  marker := fun l hl => by
    cases l with
    | none => exact ⟨markerFree_nil, by simp⟩
    | some a => exact ⟨markerFree_singleton a, fun h => hl (by simpa using h)⟩
  emitted := Emitted.refl _ _
  ctx := rfl
  frame := StreamFrame.refl s

/-- `s` and `u` describe the same interval with the same bytes finished. -/
structure SameInterval (s u : State) : Prop where
  position : u.L = s.L
  pending : pendingValue u = pendingValue s
  width : widthValue u = widthValue s
  tr : u.Tr = s.Tr
  top : intervalTop u = intervalTop s
  ctx : u.ctx = s.ctx
  installed : installed u = installed s
  frame : StreamFrame s u

theorem EncodeRun.after {s u v : State} {b e : Buffer} (h : SameInterval s u) (k : EncodeRun u v b e) :
    EncodeRun s v b e where
  position := by rw [k.position, h.position]
  stream := by rw [k.stream, h.position]
  phantom := fun h0 => k.phantom (by rw [h.position]; exact h0)
  value := fun w => by rw [k.value, h.pending]
  width := fun w => by rw [k.width, h.width]
  marker := fun l hl => k.marker l fun h1 => by
    have := hl h1; unfold PendingLow at *; rw [h.tr, h.top]; exact this
  emitted := by rw [← h.pending, ← h.tr]; exact k.emitted
  ctx := k.ctx.trans h.ctx
  frame := h.frame.trans k.frame

theorem toNat_pow_half {t : BitVec 4} (h : 1 ≤ t.toNat) : (t - 1).toNat + 1 = t.toNat ∧ 2 * 2 ^ (t - 1).toNat = 2 ^ t.toNat := by
  have h1 : (t - 1).toNat + 1 = t.toNat := by
    have h1 : (1 : BitVec 4).toNat = 1 := rfl
    have := t.isLt
    rw [BitVec.toNat_sub, h1]; omega
  exact ⟨h1, by rw [← h1, Nat.pow_succ]; ring⟩

theorem Coding.codeBound {s : State} (h : Coding s) : s.C.toNat * 2 ^ s.t.toNat + 2 ^ s.t.toNat ≤ intervalTop s := by
  have hA := h.positive
  unfold intervalTop
  nlinarith [Nat.one_le_two_pow (n := s.t.toNat)]

/-- The renormalization shift keeps the interval (R102). -/
theorem shiftOnce_interval {s : State} (h : Coding s) (hA : s.A.toNat < 0x8000) :
    (shiftOnce s).A.toNat = 2 * s.A.toNat ∧ (shiftOnce s).C.toNat = 2 * s.C.toNat ∧ SameInterval s (shiftOnce s) := by
  obtain ⟨ht, hp⟩ := toNat_pow_half h.countLow
  have hb := h.codeBound
  have htop := h.top
  have h2 : 2 ≤ 2 ^ s.t.toNat := by rw [← hp]; have := Nat.one_le_two_pow (n := (s.t - 1).toNat); omega
  have hC : s.C.toNat < 2 ^ 28 := by nlinarith
  have hA' : (shiftOnce s).A.toNat = 2 * s.A.toNat := by
    rw [shiftOnce_A, BitVec.toNat_shiftLeft, Nat.shiftLeft_eq]; omega
  have hC' : (shiftOnce s).C.toNat = 2 * s.C.toNat := by
    rw [shiftOnce_C, BitVec.toNat_shiftLeft, Nat.shiftLeft_eq]; omega
  have hq : (2 : Rat) * 2 ^ (s.t - 1).toNat = 2 ^ s.t.toNat := by exact_mod_cast hp
  refine ⟨hA', hC', ⟨rfl, ?_, ?_, rfl, ?_, rfl, installed_congr rfl rfl, ⟨rfl, rfl, rfl, rfl, rfl, rfl, rfl, rfl, fun _ _ => rfl⟩⟩⟩
  · unfold pendingValue; rw [hC', shiftOnce_t, shiftOnce_Tr, ← hq]; push_cast; ring
  · unfold widthValue; rw [hA', shiftOnce_t, ← hq]; push_cast; ring
  · unfold intervalTop; rw [hA', hC', shiftOnce_t, ← hp]; ring

/-- The bound of R33 (a) after a transfer. -/
theorem TransferLaw.top_lt {s u : State} {v : Byte} (h : TransferLaw s u v) (hA : s.A.toNat < 2 ^ 16) :
    intervalTop u < 2 ^ 27 + 2 ^ 24 := by
  have hc := h.count
  have hl := h.low
  unfold intervalTop
  rw [h.width]
  split at hc
  · rw [hc] at hl ⊢
    have h7 : (7 : BitVec 4).toNat = 7 := rfl
    rw [h7] at hl ⊢; omega
  · rw [hc] at hl ⊢
    have h8 : (8 : BitVec 4).toNat = 8 := rfl
    rw [h8] at hl ⊢; omega

theorem TransferLaw.count_toNat {s u : State} {v : Byte} (h : TransferLaw s u v) :
    u.t.toNat = if v = 0xFF then 7 else 8 := by
  rw [h.count]; split <;> rfl

theorem TransferLaw.value_rat {s u : State} {v : Byte} (h : TransferLaw s u v) (ht : s.t.toNat = 0) (w : Rat) :
    v.toNat * w + nextWeight w v * pendingValue u = w * pendingValue s := by
  have hv : ((s.Tr.toNat * 2 ^ 27 + s.C.toNat : Nat) : Rat) * 2 ^ u.t.toNat =
      (v.toNat : Rat) * 2 ^ 27 * 2 ^ u.t.toNat + u.Tr.toNat * 2 ^ 27 + u.C.toNat * 2 ^ u.t.toNat := by exact_mod_cast h.value
  have hw : nextWeight w v = w / 2 ^ u.t.toNat := by
    unfold nextWeight; rw [h.count_toNat]; split <;> rfl
  have hne : (2 : Rat) ^ u.t.toNat ≠ 0 := by positivity
  unfold pendingValue
  rw [hw, ht]
  push_cast at hv
  field_simp
  linear_combination (-w) * hv

/-- A byte never shrinks while it is pending: a transfer finishes at least what was loaded (R131 c). -/
theorem TransferLaw.tr_le {s u : State} {v : Byte} (h : TransferLaw s u v) : s.Tr.toNat ≤ v.toNat := by
  have hv := h.value
  have hl := h.low
  have hc := h.count_toNat
  have h1 := s.Tr.isLt
  have h2 := u.Tr.isLt
  split at hc
  · rename_i hff
    have : v.toNat = 255 := by rw [hff]; rfl
    omega
  · rw [hc] at hv hl; omega

/-- Right after a transfer nothing has carried into the new pending byte (R131). -/
theorem TransferLaw.pending_lt {s u : State} {v : Byte} (h : TransferLaw s u v) : pendingValue u < u.Tr.toNat + 1 := by
  have hl := h.low
  have hc := h.count_toNat
  have hC : u.C.toNat * 2 ^ u.t.toNat < 2 ^ 27 := by
    split at hc <;> rw [hc] at hl ⊢ <;> omega
  have hq : (u.C.toNat : Rat) * 2 ^ u.t.toNat < 2 ^ 27 := by exact_mod_cast hC
  unfold pendingValue
  have : (u.C.toNat : Rat) * 2 ^ u.t.toNat / 2 ^ 27 < 1 := by rw [div_lt_one (by positivity)]; exact hq
  linarith

theorem TransferLaw.width_rat {s u : State} {v : Byte} (h : TransferLaw s u v) (ht : s.t.toNat = 0) (w : Rat) :
    nextWeight w v * widthValue u = w * widthValue s := by
  have hw : nextWeight w v = w / 2 ^ u.t.toNat := by
    unfold nextWeight; rw [h.count_toNat]; split <;> rfl
  have hne : (2 : Rat) ^ u.t.toNat ≠ 0 := by positivity
  unfold widthValue
  rw [hw, ht, h.width]
  field_simp

/-- After a `0xFF` is finished the pending byte is low (R132). -/
theorem TransferLaw.pendingLow {s u : State} {v : Byte} (h : TransferLaw s u v) (hv : v = 0xFF)
    (hC : s.C.toNat + s.A.toNat < 2 ^ 27 + 2 ^ 24) : PendingLow u := by
  have ht : u.t.toNat = 7 := by rw [h.count_toNat, if_pos hv]
  have hval := h.value
  have h255 : v.toNat = 255 := by rw [hv]; rfl
  have := s.Tr.isLt
  unfold PendingLow intervalTop
  rw [ht, h255] at hval
  rw [ht, h.width]
  omega

/-- The byte a transfer finishes is at most `0x8F` where the pending byte was low (R132). -/
theorem TransferLaw.finished_le {s u : State} {v : Byte} (h : TransferLaw s u v) (ht : s.t.toNat = 0) (hA : 1 ≤ s.A.toNat)
    (hp : PendingLow s) : v ≤ 0x8F := by
  have hval := h.value
  unfold PendingLow intervalTop at hp
  rw [ht] at hp
  rw [BitVec.le_def]
  show v.toNat ≤ 143
  have hc := h.count_toNat
  split at hc <;> rw [hc] at hval <;> omega

theorem EncodeRun.cons {s u x : State} {b e : Buffer} {v : Byte} (h : TransferLaw s u v) (ht : s.t.toNat = 0)
    (hA : 1 ≤ s.A.toNat) (hC : s.C.toNat + s.A.toNat < 2 ^ 27 + 2 ^ 24) (hlow : -1 ≤ s.L)
    (hph : s.L = -1 → v = 0) (k : EncodeRun u x (if s.L < 0 then b else b ++ [v]) e) : EncodeRun s x b (v :: e) where
  position := by rw [k.position, h.position]; simp; omega
  stream := by
    have hu : ¬ u.L < 0 := by have := h.position; omega
    rw [k.stream, if_neg hu]
    split <;> simp
  phantom := fun h0 w hw => by simp at hw; rw [← hw]; exact hph h0
  value := fun w => by
    have := h.value_rat ht w
    have hk := k.value (nextWeight w v)
    simp only [codeValue, weightAfter, List.foldl_cons] at hk ⊢
    linarith
  width := fun w => by
    have := h.width_rat ht w
    have hk := k.width (nextWeight w v)
    simp only [weightAfter, List.foldl_cons] at hk ⊢
    rw [hk, this]
  marker := fun l hl => by
    obtain ⟨h1, h2⟩ := k.marker (some v) fun hv => h.pendingLow (by simpa using hv) hC
    have h2' : (v :: e).getLast? = some 0xFF → PendingLow x := h2
    cases l with
    | none => exact ⟨h1, h2'⟩
    | some a =>
      refine ⟨markerFree_cons (fun w hw ha => ?_) h1, fun hlast => h2' (by simpa using hlast)⟩
      simp at hw
      rw [← hw]
      exact h.finished_le ht hA (hl (by rw [ha]))
  emitted := Emitted.cons (fun w => h.value_rat ht w) h.pending_lt h.tr_le k.emitted
  ctx := k.ctx.trans h.ctx
  frame := h.frame.trans k.frame

/-- A bound on the transfers of a loop that makes at most `r` shifts, entered with the count `t` (R102). -/
def transferBound (r t : Nat) : Nat := if r < t then 0 else 1 + (r - t) / 7

theorem renormDue_iff (A : BitVec 16) : renormDue A = true ↔ A.toNat < 0x8000 := by
  unfold renormDue; rw [decide_eq_true_iff, BitVec.lt_def]; rfl

/-- A run that stopped at an append to a full buffer (R242, R245): what stays, and that fewer than `k` bytes were
appended before. -/
structure EncodeAbort (s u : State) (b : Buffer) (k : Nat) : Prop where
  position : s.L ≤ u.L
  stream : ∃ e, e.length < k ∧ installed u = some (b ++ e) ∧ ∃ c, s.cap = some c ∧ c ≤ (b ++ e).length
  ctx : u.ctx = s.ctx
  frame : StreamFrame s u

theorem EncodeAbort.after {s u v : State} {b : Buffer} {k : Nat} (hL : u.L = s.L) (hx : u.ctx = s.ctx)
    (hf : StreamFrame s u) (h : EncodeAbort u v b k) : EncodeAbort s v b k where
  position := by have := h.position; omega
  stream := by rw [← hf.cap]; exact h.stream
  ctx := h.ctx.trans hx
  frame := hf.trans h.frame

theorem EncodeAbort.cons {s u x : State} {b e : Buffer} {k m : Nat} (hL : s.L ≤ u.L) (hx : u.ctx = s.ctx)
    (hf : StreamFrame s u) (he : e.length ≤ 1) (hkm : k + 1 ≤ m) (h : EncodeAbort u x (b ++ e) k) : EncodeAbort s x b m where
  position := by have := h.position; omega
  stream := by
    obtain ⟨d, hd, hi, c, hc, hl⟩ := h.stream
    exact ⟨e ++ d, by simp; omega, by rw [← List.append_assoc]; exact hi, c, by rw [← hf.cap]; exact hc,
      by rw [← List.append_assoc]; exact hl⟩
  ctx := h.ctx.trans hx
  frame := hf.trans h.frame

/-- Everything the renormalization loop can do (R102) when A needs at most `r` shifts: it ends with A at least `0x8000`
and keeps the interval; or it meets a full buffer; or L overflows. -/
theorem renormEnc_cases (r : Nat) : ∀ (fuel : Nat) (s : State) (b : Buffer), r < fuel → Coding s → 0x8000 ≤ s.A.toNat * 2 ^ r →
    installed s = some b →
    (∃ u e, renormEnc fuel s = .done () u ∧ e.length ≤ transferBound r s.t.toNat ∧ EncodeRun s u b e ∧ Coding u ∧
      0x8000 ≤ u.A.toNat) ∨
    (∃ u, renormEnc fuel s = .raised .streamIO u ∧ EncodeAbort s u b (transferBound r s.t.toNat)) ∨
    (renormEnc fuel s = .refused .positionOverflow ∧ positionMax s.lw < s.L + transferBound r s.t.toNat) := by
  induction r with
  | zero =>
    intro fuel s b hf hc hA hb
    obtain ⟨k, rfl⟩ : ∃ k, fuel = k + 1 := ⟨fuel - 1, by omega⟩
    refine .inl ⟨s, [], ?_, by simp, EncodeRun.refl hb, hc, by omega⟩
    unfold renormEnc
    rw [if_neg]; rw [renormDue_iff]; omega
  | succ r ih =>
    intro fuel s b hf hc hA hb
    obtain ⟨k, rfl⟩ : ∃ k, fuel = k + 1 := ⟨fuel - 1, by omega⟩
    unfold renormEnc
    split
    · rename_i hd
      rw [renormDue_iff] at hd
      obtain ⟨hA', hC', hs⟩ := shiftOnce_interval hc hd
      obtain ⟨ht', -⟩ := toNat_pow_half hc.countLow
      have ht'' : (shiftOnce s).t.toNat + 1 = s.t.toNat := ht'
      have hb' : installed (shiftOnce s) = some b := hb
      have hAr : 0x8000 ≤ 2 * s.A.toNat * 2 ^ r := by rw [Nat.pow_succ] at hA; linarith
      have hx := hc.positive
      split
      · rename_i ht
        have ht0 : (shiftOnce s).t.toNat = 0 := by rw [ht]; rfl
        have htop : (shiftOnce s).C.toNat + (shiftOnce s).A.toNat < 2 ^ 27 + 2 ^ 24 := by
          have := hc.top; rw [← hs.top] at this; unfold intervalTop at this; rw [ht0] at this; simpa using this
        have h1 : transferBound (r + 1) s.t.toNat = 1 + r / 7 := by
          have : s.t.toNat = 1 := by omega
          unfold transferBound; rw [this, if_neg (by omega)]; simp
        rw [h1]
        have hph : (shiftOnce s).L = -1 → (shiftOnce s).Tr = 0 := fun h => (hc.first h).1
        rcases transferByte_cases hb' hc.position (by omega) hph with ⟨u, v, hu, hlaw, hi⟩ | ⟨u, hu⟩ | ⟨hu, hov⟩
        · rw [hu, bind_done]
          have hv0 : s.L = -1 → v = 0 := fun h0 => by
            obtain ⟨hT, h27⟩ := hc.first h0
            have hval := hlaw.value
            have hTr : (shiftOnce s).Tr.toNat = 0 := by rw [shiftOnce_Tr, hT]; rfl
            have hbd : (shiftOnce s).C.toNat < 2 ^ 27 := by
              rw [← hs.top] at h27; unfold intervalTop at h27; rw [ht0] at h27; omega
            have hcnt := hlaw.count_toNat
            apply BitVec.eq_of_toNat_eq
            show v.toNat = 0
            rw [hTr] at hval
            split at hcnt <;> rw [hcnt] at hval <;> omega
          have hut := hlaw.count_toNat
          have hcu : Coding u := by
            refine ⟨by rw [hlaw.width]; omega, by split at hut <;> omega, by split at hut <;> omega,
              by have := hlaw.position; have := hc.position; simp at *; omega, hlaw.top_lt (by omega), fun h => ?_⟩
            have h2 := hlaw.position
            have h3 := hc.position
            rw [shiftOnce_L] at h2
            omega
          have hbound : transferBound r u.t.toNat ≤ r / 7 := by
            rw [hut]; unfold transferBound; split <;> split <;> omega
          have hcap : u.cap = s.cap := hlaw.frame.cap
          have hlw : u.lw = s.lw := hlaw.frame.lw
          have hLu : u.L = s.L + 1 := hlaw.position
          have happ : (if (shiftOnce s).L < 0 then b else b ++ [v]) = b ++ if s.L < 0 then [] else [v] := by
            show (if s.L < 0 then b else b ++ [v]) = _
            split <;> simp
          rcases ih k u _ (by omega) hcu (by rw [hlaw.width, hA']; exact hAr) hi with
            ⟨x, e, hx1, hx2, hx3, hx4, hx5⟩ | ⟨x, hx1, hx2⟩ | ⟨hx1, hx2⟩
          · exact .inl ⟨x, v :: e, hx1, by simp; omega,
              EncodeRun.after hs (EncodeRun.cons hlaw ht0 (by omega) htop hc.position hv0 hx3), hx4, hx5⟩
          · rw [happ] at hx2
            exact .inr (.inl ⟨x, hx1, EncodeAbort.cons (by omega) (hlaw.ctx.trans hs.ctx) (hs.frame.trans hlaw.frame)
              (by split <;> simp) (by omega) hx2⟩)
          · exact .inr (.inr ⟨hx1, by rw [hLu, hlw] at hx2; omega⟩)
        · rw [hu, bind_raised]
          obtain ⟨-, hfr, hcx, -, -, hL, hin, hfull⟩ := transferByte_raised_frame hu
          obtain ⟨c, hc1, hc2⟩ := hfull b hb'
          refine .inr (.inl ⟨u, rfl, ⟨?_, ⟨[], by simp, by rw [hin, hb']; simp, c, hc1, by simpa using hc2⟩,
            hcx, hs.frame.trans hfr⟩⟩)
          rw [hL]; simp
        · rw [hu, bind_refused]
          exact .inr (.inr ⟨rfl, by simp at hov; omega⟩)
      · rename_i ht
        have ht0 : (shiftOnce s).t.toNat ≠ 0 := fun h => ht (BitVec.eq_of_toNat_eq (by simpa using h))
        rw [bind_done]
        have hcu : Coding (shiftOnce s) :=
          ⟨by omega, by omega, by have := hc.countHigh; omega, hc.position, by rw [hs.top]; exact hc.top,
            fun h => by rw [hs.top, hs.tr]; exact hc.first h⟩
        have hbound : transferBound r (shiftOnce s).t.toNat = transferBound (r + 1) s.t.toNat := by
          rw [← ht'']; unfold transferBound
          have : r + 1 - ((shiftOnce s).t.toNat + 1) = r - (shiftOnce s).t.toNat := by omega
          rw [this]
          split <;> split <;> first | rfl | omega
        rw [← hbound]
        rcases ih k (shiftOnce s) b (by omega) hcu (by rw [hA']; exact hAr) hb' with
          ⟨x, e, hx1, hx2, hx3, hx4, hx5⟩ | ⟨x, hx1, hx2⟩ | ⟨hx1, hx2⟩
        · exact .inl ⟨x, e, hx1, hx2, EncodeRun.after hs hx3, hx4, hx5⟩
        · exact .inr (.inl ⟨x, hx1, EncodeAbort.after (u := shiftOnce s) rfl rfl hs.frame hx2⟩)
        · exact .inr (.inr ⟨hx1, hx2⟩)
    · rename_i hd
      rw [renormDue_iff] at hd
      exact .inl ⟨s, [], rfl, by simp, EncodeRun.refl hb, hc, by omega⟩

/-- The renormalization loop with room for the bytes it may finish: it ends. -/
theorem renormEnc_law {r fuel : Nat} {s : State} {b : Buffer} (hf : r < fuel) (hc : Coding s)
    (hA : 0x8000 ≤ s.A.toNat * 2 ^ r) (hb : installed s = some b)
    (hroom : ∀ c, s.cap = some c → b.length + transferBound r s.t.toNat ≤ c)
    (hpos : s.L + transferBound r s.t.toNat ≤ positionMax s.lw) :
    ∃ u e, renormEnc fuel s = .done () u ∧ e.length ≤ transferBound r s.t.toNat ∧ EncodeRun s u b e ∧ Coding u ∧
      0x8000 ≤ u.A.toNat := by
  rcases renormEnc_cases r fuel s b hf hc hA hb with h | ⟨u, -, h⟩ | ⟨-, h⟩
  · exact h
  · obtain ⟨e, he, -, c, hc', hl⟩ := h.stream
    have := hroom c hc'
    simp at hl; omega
  · omega

end Sys2Proof.Machine
end

