-- ==== Sys2Proof/Laws/Engine.lean ====
section
/-! SUPPORT. The interval updates of `enc_step` (R100) and `dec_step` (R103), and what a whole encoder step can do. -/

namespace Sys2Proof.Machine

theorem legal_prob {p : BitVec 16} : probLegal p = true ↔ 1 ≤ p.toNat ∧ p.toNat ≤ 0x7FFF := by
  unfold probLegal; simp [BitVec.le_def]

theorem sub_toNat {A p : BitVec 16} (h : p.toNat ≤ A.toNat) : (A - p).toNat = A.toNat - p.toNat := by
  have := A.isLt
  rw [BitVec.toNat_sub]; omega

theorem exchangeDue_iff (A p : BitVec 16) : exchangeDue A p = true ↔ ¬ p ≤ A := by
  unfold exchangeDue; simp

/-- What `enc_step` does before it renormalizes (R100): which sub-interval, and which context transition. -/
structure Narrowed (p : BitVec 16) (mps x : Bit) (cx : Option Nat) (s u : State) : Prop where
  upper : takesUpper s.A p mps x = true → u.A = s.A - p ∧ u.C = s.C + probWide p
  lower : takesUpper s.A p mps x = false → u.A = p ∧ u.C = s.C
  count : u.t = s.t
  tr : u.Tr = s.Tr
  position : u.L = s.L
  ctx : u.ctx = if x = mps then (if renormDue (s.A - p) then (mpsTransition cx s).ctx else s.ctx)
    else (lpsTransition cx s).ctx
  installed : installed u = installed s
  frame : StreamFrame s u

theorem streamFrame_of {s u : State} (hx : u.ctx.length = s.ctx.length) (h1 : u.mode = s.mode) (h2 : u.cur = s.cur)
    (h3 : u.cap = s.cap) (h4 : u.lw = s.lw) (h5 : u.responses = s.responses) (h6 : u.host = s.host) (h7 : u.sm = s.sm) :
    StreamFrame s u := ⟨hx, h1, h2, h3, h4, h5, h6, by rw [h7], fun _ _ => by rw [h7]⟩

theorem encUpdate_law {p : BitVec 16} (hp : p.toNat ≤ 0x7FFF) (mps x : Bit) (cx : Option Nat) (s : State) :
    Narrowed p mps x cx s (encUpdate p mps x cx s) := by
  have hle : ∀ {a : BitVec 16}, ¬ renormDue a = true → p ≤ a := fun {a} h => by
    rw [renormDue_iff] at h; rw [BitVec.le_def]; omega
  unfold encUpdate
  simp only
  by_cases hx : x = mps
  · rw [if_pos hx]
    by_cases hd : renormDue (subtractProb p s).A = true
    · rw [if_pos hd]
      by_cases he : exchangeDue (subtractProb p s).A p = true
      · rw [if_pos he]
        rw [exchangeDue_iff] at he
        have he' : ¬ p ≤ s.A - p := he
        have hd' : renormDue (s.A - p) = true := hd
        constructor <;> first
          | exact (installed_congr (by simp) (by simp))
          | exact streamFrame_of (by rw [mpsTransition_ctx_length]; simp) (by simp) (by simp) (by simp) (by simp) (by simp) (by simp) (by simp)
          | simp [takesUpper, hx, he', hd', takeLower, subtractProb]
        cases cx <;> rfl
      · rw [if_neg he]
        rw [exchangeDue_iff, not_not] at he
        have he' : p ≤ s.A - p := he
        have hd' : renormDue (s.A - p) = true := hd
        constructor <;> first
          | exact (installed_congr (by simp) (by simp))
          | exact streamFrame_of (by rw [mpsTransition_ctx_length]; simp) (by simp) (by simp) (by simp) (by simp) (by simp) (by simp) (by simp)
          | simp [takesUpper, hx, he', hd', takeUpper, subtractProb]
        cases cx <;> rfl
    · rw [if_neg hd]
      have he' : p ≤ s.A - p := hle hd
      have hd' : renormDue (s.A - p) = false := by simpa using hd
      constructor <;> first
        | exact (installed_congr (by simp) (by simp))
        | exact streamFrame_of (by simp) (by simp) (by simp) (by simp) (by simp) (by simp) (by simp) (by simp)
        | simp [takesUpper, hx, he', hd', takeUpper, subtractProb]
  · rw [if_neg hx]
    by_cases he : exchangeDue (subtractProb p s).A p = true
    · rw [if_pos he]
      rw [exchangeDue_iff] at he
      have he' : ¬ p ≤ s.A - p := he
      constructor <;> first
        | exact (installed_congr (by simp) (by simp))
        | exact streamFrame_of (by rw [lpsTransition_ctx_length]; simp) (by simp) (by simp) (by simp) (by simp) (by simp) (by simp) (by simp)
        | simp [takesUpper, hx, he', takeUpper, subtractProb]
      cases cx <;> rfl
    · rw [if_neg he]
      rw [exchangeDue_iff, not_not] at he
      have he' : p ≤ s.A - p := he
      constructor <;> first
        | exact (installed_congr (by simp) (by simp))
        | exact streamFrame_of (by rw [lpsTransition_ctx_length]; simp) (by simp) (by simp) (by simp) (by simp) (by simp) (by simp) (by simp)
        | simp [takesUpper, hx, he', takeLower, subtractProb]
      cases cx <;> rfl

theorem probWide_add {C : Word} {p : BitVec 16} (hC : C.toNat < 2 ^ 28) : (C + probWide p).toNat = C.toNat + p.toNat := by
  have := p.isLt
  rw [BitVec.toNat_add, probWide_toNat]; omega

/-- Where A and C stand after the update, in numbers (R100 c). -/
theorem Narrowed.numbers {p : BitVec 16} {mps x : Bit} {cx : Option Nat} {s u : State} (h : Narrowed p mps x cx s u)
    (hA : 0x8000 ≤ s.A.toNat) (hp : p.toNat ≤ 0x7FFF) (hC : s.C.toNat < 2 ^ 28) :
    (takesUpper s.A p mps x = true ∧ u.A.toNat = s.A.toNat - p.toNat ∧ u.C.toNat = s.C.toNat + p.toNat) ∨
    (takesUpper s.A p mps x = false ∧ u.A.toNat = p.toNat ∧ u.C.toNat = s.C.toNat) := by
  cases ht : takesUpper s.A p mps x with
  | true =>
    obtain ⟨h1, h2⟩ := h.upper ht
    exact .inl ⟨rfl, by rw [h1, sub_toNat (by omega)], by rw [h2, probWide_add hC]⟩
  | false =>
    obtain ⟨h1, h2⟩ := h.lower ht
    exact .inr ⟨rfl, by rw [h1], by rw [h2]⟩

theorem Coding.codeLt {s : State} (h : Coding s) : s.C.toNat < 2 ^ 28 := by
  have h1 := h.codeBound
  have h2 := h.top
  have h3 := Nat.one_le_two_pow (n := s.t.toNat)
  nlinarith

/-- The update keeps the bound of R33 (a). -/
theorem Narrowed.coding {p : BitVec 16} {mps x : Bit} {cx : Option Nat} {s u : State} (h : Narrowed p mps x cx s u)
    (hs : EncodeInv s) (hp1 : 1 ≤ p.toNat) (hp2 : p.toNat ≤ 0x7FFF) : Coding u ∧ 0x8000 ≤ u.A.toNat * 2 ^ 15 := by
  have hc := hs.coding
  have hA := hs.interval
  have hA' := s.A.isLt
  have hn := h.numbers hA hp2 hc.codeLt
  have hsum : u.C.toNat + u.A.toNat ≤ s.C.toNat + s.A.toNat := by omega
  have htop : intervalTop u ≤ intervalTop s := by
    unfold intervalTop; rw [h.count]; exact Nat.mul_le_mul_right _ hsum
  refine ⟨⟨by omega, by rw [h.count]; exact hc.countLow, by rw [h.count]; exact hc.countHigh,
    by rw [h.position]; exact hc.position, lt_of_le_of_lt htop hc.top, fun h1 => ?_⟩, by omega⟩
  rw [h.position] at h1
  obtain ⟨h2, h3⟩ := hc.first h1
  exact ⟨by rw [h.tr]; exact h2, le_trans htop h3⟩

theorem transferBound_le {t : Nat} (h : 1 ≤ t) : transferBound 15 t ≤ 3 := by
  unfold transferBound; split <;> omega

/-- Everything an encoder step can do between commands (R100): it ends; it meets a full buffer; or L overflows. -/
theorem encStep_cases {p : BitVec 16} {mps x : Bit} {cx : Option Nat} {s : State} {b : Buffer} (hs : EncodeInv s)
    (hp1 : 1 ≤ p.toNat) (hp2 : p.toNat ≤ 0x7FFF) (hb : installed s = some b) :
    (∃ u e, encStep p mps x cx s = .done () u ∧ e.length ≤ transferBound 15 s.t.toNat ∧
      EncodeRun (encUpdate p mps x cx s) u b e ∧ Coding u ∧ 0x8000 ≤ u.A.toNat) ∨
    (∃ u, encStep p mps x cx s = .raised .streamIO u ∧
      EncodeAbort (encUpdate p mps x cx s) u b (transferBound 15 s.t.toNat)) ∨
    (encStep p mps x cx s = .refused .positionOverflow ∧ positionMax s.lw < s.L + transferBound 15 s.t.toNat) := by
  have hn := encUpdate_law hp2 mps x cx s
  obtain ⟨hc, hA⟩ := hn.coding hs hp1 hp2
  have := renormEnc_cases 15 renormFuel (encUpdate p mps x cx s) b (by unfold renormFuel; omega) hc hA
    (hn.installed.trans hb)
  rw [hn.count, hn.position, hn.frame.lw] at this
  exact this

end Sys2Proof.Machine
end

