-- ==== Sys2Proof/Laws/Decoder.lean ====
section
/-! SUPPORT. What the decoder's renormalization loop (R104), its step (R103) and the start of decoding (R172) can do. -/

namespace Sys2Proof.Machine

/-- What holds inside a decode command, also while A is below `0x8000`. -/
structure Reading (s : State) (b : Buffer) : Prop where
  stream : installed s = some b
  count : s.t.toNat ≤ 8
  positionLow : 0 ≤ s.L
  positionHigh : s.L ≤ b.length

theorem FillLaw.reading {s u : State} {b : Buffer} (h : FillLaw s u b) (hs : Reading s b) : Reading u b where
  stream := h.readFrame.installed.trans hs.stream
  count := by rcases h.count with h | h <;> rw [h] <;> decide
  positionLow := by have := h.position; have := hs.positionLow; omega
  positionHigh := h.position.2

/-- No marker can follow what has been read (R133). -/
def CleanAfter (s : State) (b : Buffer) : Prop := s.Tr = 0xFF → ∀ v, b[s.L.toNat]? = some v → v ≤ 0x8F

theorem FillLaw.cleanAfter {s u : State} {b : Buffer} (h : FillLaw s u b) (hm : MarkerFree b) : CleanAfter u b := by
  cases h with
  | pad h hu =>
    subst hu
    intro _ v hv
    have : s.L.toNat = b.length := by omega
    simp [this] at hv
  | data n hn hlt hm' hu =>
    subst hu
    intro hT v hv
    have h1 : b[n]? = some 0xFF := by rw [← hT]; simp [hlt]
    have h2 : (addByte (bumpPosition (acceptByte b[n] (startFill s)))).L.toNat = n + 1 := by simp; omega
    rw [h2] at hv
    exact hm n v h1 hv

/-- A decode abandoned at a marker (R241, R245). -/
structure AtMarker (u : State) (b : Buffer) : Prop where
  count : u.t = 8
  tr : u.Tr = 0xFF
  marker : ∃ (n : Nat) (v : Byte), u.L = n ∧ b[n]? = some v ∧ 0x8F < v

/-- Everything one fill can do from within a decode command. -/
theorem fillLsb_reading {s : State} {b : Buffer} (hs : Reading s b) :
    (∃ u, fillLsb s = .done () u ∧ FillLaw s u b) ∨
    (∃ u, fillLsb s = .raised .invalidMarker u ∧ AtMarker u b ∧ ReadFrame s u ∧ u.ctx = s.ctx ∧ u.A = s.A ∧ u.L = s.L ∧
      ¬ CleanAfter s b) ∨
    (fillLsb s = .refused .positionOverflow ∧ positionMax s.lw < b.length) := by
  rcases fillLsb_cases hs.stream with h | ⟨h, n, hn, hL, hT, hm⟩ | ⟨-, h⟩ | ⟨h, h1, -, h2⟩
  · exact .inl h
  · refine .inr (.inl ⟨_, h, ⟨rfl, hT, n, b[n], hL, by simp [hn], hm⟩, ⟨rfl, rfl, rfl, rfl, rfl, rfl, rfl, rfl⟩, rfl, rfl, rfl,
      fun hc => ?_⟩)
    have := hc hT b[n] (by rw [hL]; simp [hn])
    rw [BitVec.le_def] at this; rw [BitVec.lt_def] at hm; omega
  · have := hs.positionLow; have := hs.positionHigh; omega
  · exact .inr (.inr ⟨h, by omega⟩)

theorem shiftOnce_frame (s : State) : ReadFrame s (shiftOnce s) := ⟨rfl, rfl, rfl, rfl, rfl, rfl, rfl, rfl⟩

theorem shiftOnce_width {s : State} (hA : s.A.toNat < 0x8000) : (shiftOnce s).A.toNat = 2 * s.A.toNat := by
  rw [shiftOnce_A, BitVec.toNat_shiftLeft, Nat.shiftLeft_eq]; omega

/-- Everything the decoder's renormalization loop can do (R104) when A needs at most `r` shifts: it ends with A at least
`0x8000`; it meets a marker; or L overflows. -/
theorem renormDec_cases (r : Nat) : ∀ (fuel : Nat) (s : State) (b : Buffer), r < fuel → Reading s b → 1 ≤ s.A.toNat →
    0x8000 ≤ s.A.toNat * 2 ^ r →
    (∃ u, renormDec fuel s = .done () u ∧ Reading u b ∧ 0x8000 ≤ u.A.toNat ∧ ReadFrame s u ∧ u.ctx = s.ctx ∧ s.L ≤ u.L) ∨
    (∃ u, renormDec fuel s = .raised .invalidMarker u ∧ AtMarker u b ∧ ReadFrame s u ∧ u.ctx = s.ctx ∧ s.L ≤ u.L ∧
      ¬ (MarkerFree b ∧ CleanAfter s b)) ∨
    (renormDec fuel s = .refused .positionOverflow ∧ positionMax s.lw < b.length) := by
  induction r with
  | zero =>
    intro fuel s b hf hs h1 hA
    obtain ⟨k, rfl⟩ : ∃ k, fuel = k + 1 := ⟨fuel - 1, by omega⟩
    refine .inl ⟨s, ?_, hs, by omega, ReadFrame.refl s, rfl, le_refl _⟩
    unfold renormDec
    rw [if_neg]; rw [renormDue_iff]; omega
  | succ r ih =>
    intro fuel s b hf hs h1 hA
    obtain ⟨k, rfl⟩ : ∃ k, fuel = k + 1 := ⟨fuel - 1, by omega⟩
    unfold renormDec
    by_cases hd : renormDue s.A = true
    · rw [if_pos hd]
      rw [renormDue_iff] at hd
      have hAr : 0x8000 ≤ 2 * s.A.toNat * 2 ^ r := by rw [Nat.pow_succ] at hA; linarith
      -- after the fill, if one is due
      have key : ∀ v, Reading v b → 1 ≤ v.t.toNat → ReadFrame s v → v.ctx = s.ctx → v.A = s.A → s.L ≤ v.L →
          (MarkerFree b ∧ CleanAfter s b → CleanAfter v b) →
          (∃ u, renormDec k (shiftOnce v) = .done () u ∧ Reading u b ∧ 0x8000 ≤ u.A.toNat ∧ ReadFrame s u ∧ u.ctx = s.ctx ∧
            s.L ≤ u.L) ∨
          (∃ u, renormDec k (shiftOnce v) = .raised .invalidMarker u ∧ AtMarker u b ∧ ReadFrame s u ∧ u.ctx = s.ctx ∧
            s.L ≤ u.L ∧ ¬ (MarkerFree b ∧ CleanAfter s b)) ∨
          (renormDec k (shiftOnce v) = .refused .positionOverflow ∧ positionMax s.lw < b.length) := by
        intro v hv ht hfr hx hAv hL hcl
        have hw := shiftOnce_width (s := v) (by rw [hAv]; omega)
        have ht' := (toNat_pow_half ht).1
        have hr : Reading (shiftOnce v) b :=
          ⟨hv.stream, by show (v.t - 1).toNat ≤ 8; have := hv.count; omega, hv.positionLow, hv.positionHigh⟩
        rcases ih k (shiftOnce v) b (by omega) hr (by rw [hw, hAv]; omega) (by rw [hw, hAv]; exact hAr) with
          ⟨u, g1, g2, g3, g4, g5, g6⟩ | ⟨u, g1, g2, g3, g4, g5, g6⟩ | ⟨g1, g2⟩
        · exact .inl ⟨u, g1, g2, g3, (hfr.trans (shiftOnce_frame v)).trans g4, g5.trans hx, le_trans hL g6⟩
        · exact .inr (.inl ⟨u, g1, g2, (hfr.trans (shiftOnce_frame v)).trans g3, g4.trans hx, le_trans hL g5,
            fun hm => g6 ⟨hm.1, hcl hm⟩⟩)
        · exact .inr (.inr ⟨g1, by have : v.lw = s.lw := hfr.lw; simpa [this] using g2⟩)
      by_cases ht : s.t = 0
      · rw [if_pos ht]
        rcases fillLsb_reading hs with ⟨v, hv, hl⟩ | ⟨v, hv, g1, g2, g3, g4, g5, g6⟩ | ⟨hv, g⟩
        · rw [hv, bind_done]
          exact key v (hl.reading hs) (by rcases hl.count with h | h <;> rw [h] <;> decide) hl.readFrame hl.ctx hl.width
            hl.position.1 fun hm => hl.cleanAfter hm.1
        · rw [hv, bind_raised]
          exact .inr (.inl ⟨v, rfl, g1, g2, g3, by rw [g5], fun hm => g6 hm.2⟩)
        · rw [hv, bind_refused]
          exact .inr (.inr ⟨rfl, g⟩)
      · rw [if_neg ht, bind_done]
        exact key s hs (Nat.one_le_iff_ne_zero.2 fun h => ht (BitVec.eq_of_toNat_eq (by simpa using h)))
          (ReadFrame.refl s) rfl rfl (le_refl _) fun hm => hm.2
    · rw [if_neg hd]
      rw [renormDue_iff] at hd
      exact .inl ⟨s, rfl, hs, by omega, ReadFrame.refl s, rfl, le_refl _⟩

/-- What `dec_step` does before it renormalizes (R103). -/
structure Compared (p : BitVec 16) (mps : Bit) (cx : Option Nat) (s : State) (x : Bit) (u : State) : Prop where
  symbol : x = symbolRead s.A p mps s.C
  reached : windowReaches s.C p = true → u.A = s.A - p ∧ u.C = s.C - (probWide p <<< 8)
  below : windowReaches s.C p = false → u.A = p ∧ u.C = s.C
  count : u.t = s.t
  tr : u.Tr = s.Tr
  position : u.L = s.L
  ctx : u.ctx = if x = mps then (if renormDue (s.A - p) then (mpsTransition cx s).ctx else s.ctx)
    else (lpsTransition cx s).ctx
  frame : ReadFrame s u

theorem readFrame_of {s u : State} (hx : u.ctx.length = s.ctx.length) (h1 : u.mode = s.mode) (h2 : u.cur = s.cur)
    (h3 : u.sm = s.sm) (h4 : u.cap = s.cap) (h5 : u.lw = s.lw) (h6 : u.responses = s.responses) (h7 : u.host = s.host) :
    ReadFrame s u := ⟨hx, h1, h2, h3, h4, h5, h6, h7⟩

theorem bit_flip_ne (m : Bit) : 1 - m ≠ m := by revert m; decide

theorem decUpdate_law {p : BitVec 16} (hp : p.toNat ≤ 0x7FFF) (mps : Bit) (cx : Option Nat) (s : State) :
    Compared p mps cx s (decUpdate p mps cx s).1 (decUpdate p mps cx s).2 := by
  have hne := bit_flip_ne mps
  have hle : ∀ {a : BitVec 16}, ¬ renormDue a = true → p ≤ a := fun {a} h => by
    rw [renormDue_iff] at h; rw [BitVec.le_def]; omega
  have hdue : ∀ {a : BitVec 16}, ¬ p ≤ a → renormDue a = true := fun {a} h => by
    by_contra hc; exact h (hle hc)
  unfold decUpdate
  simp only
  by_cases hw : windowReaches s.C p = true
  · rw [if_pos hw]
    by_cases hd : renormDue (subtractWindow p (subtractProb p s)).A = true
    · rw [if_pos hd]
      have hd' : renormDue (s.A - p) = true := hd
      by_cases he : exchangeDue (subtractWindow p (subtractProb p s)).A p = true
      · rw [if_pos he]
        rw [exchangeDue_iff] at he
        have he' : ¬ p ≤ s.A - p := he
        constructor <;> first
          | exact readFrame_of (by rw [lpsTransition_ctx_length]; simp) (by simp) (by simp) (by simp) (by simp) (by simp) (by simp) (by simp)
          | simp [symbolRead, takesUpper, hw, hd', he', subtractWindow, subtractProb]
        rw [if_neg (show ¬ (1#1 - mps = mps) from hne)]
        cases cx <;> rfl
      · rw [if_neg he]
        rw [exchangeDue_iff, not_not] at he
        have he' : p ≤ s.A - p := he
        constructor <;> first
          | exact readFrame_of (by rw [mpsTransition_ctx_length]; simp) (by simp) (by simp) (by simp) (by simp) (by simp) (by simp) (by simp)
          | simp [symbolRead, takesUpper, hw, hd', he', subtractWindow, subtractProb]
        cases cx <;> rfl
    · rw [if_neg hd]
      have he' : p ≤ s.A - p := hle hd
      have hd' : renormDue (s.A - p) = false := by simpa using hd
      constructor <;> first
        | exact readFrame_of (by simp) (by simp) (by simp) (by simp) (by simp) (by simp) (by simp) (by simp)
        | simp [symbolRead, takesUpper, hw, hd', he', subtractWindow, subtractProb]
  · rw [if_neg hw]
    have hw' : windowReaches s.C p = false := by simpa using hw
    by_cases he : exchangeDue (subtractProb p s).A p = true
    · rw [if_pos he]
      rw [exchangeDue_iff] at he
      have he' : ¬ p ≤ s.A - p := he
      have hd' := hdue he'
      constructor <;> first
        | exact readFrame_of (by rw [mpsTransition_ctx_length]; simp) (by simp) (by simp) (by simp) (by simp) (by simp) (by simp) (by simp)
        | simp [symbolRead, takesUpper, hw', hd', he', takeLower, subtractProb]
      cases cx <;> rfl
    · rw [if_neg he]
      rw [exchangeDue_iff, not_not] at he
      have he' : p ≤ s.A - p := he
      constructor <;> first
        | exact readFrame_of (by rw [lpsTransition_ctx_length]; simp) (by simp) (by simp) (by simp) (by simp) (by simp) (by simp) (by simp)
        | simp [symbolRead, takesUpper, hw', he', takeLower, subtractProb]
      rw [if_neg (show ¬ (1#1 - mps = mps) from hne)]
      cases cx <;> rfl

/-- Everything a decoder step can do between commands (R103). -/
theorem decStep_cases {p : BitVec 16} {mps : Bit} {cx : Option Nat} {s : State} {b : Buffer} (hs : DecodeInv s)
    (hp1 : 1 ≤ p.toNat) (hp2 : p.toNat ≤ 0x7FFF) (hb : installed s = some b) :
    (∃ u, decStep p mps cx s = .done (decUpdate p mps cx s).1 u ∧ Reading u b ∧ 0x8000 ≤ u.A.toNat ∧ ReadFrame s u ∧
      u.ctx = (decUpdate p mps cx s).2.ctx ∧ s.L ≤ u.L) ∨
    (∃ u, decStep p mps cx s = .raised .invalidMarker u ∧ AtMarker u b ∧ ReadFrame s u ∧
      u.ctx = (decUpdate p mps cx s).2.ctx ∧ s.L ≤ u.L ∧ ¬ CleanAhead s) ∨
    (decStep p mps cx s = .refused .positionOverflow ∧ positionMax s.lw < b.length) := by
  have hl := decUpdate_law hp2 mps cx s
  have hA := hs.interval
  have hA1 : 1 ≤ (decUpdate p mps cx s).2.A.toNat := by
    cases hw : windowReaches s.C p with
    | true => rw [(hl.reached hw).1, sub_toNat (by omega)]; omega
    | false => rw [(hl.below hw).1]; exact hp1
  have hr : Reading (decUpdate p mps cx s).2 b :=
    ⟨hl.frame.installed.trans hb, by rw [hl.count]; exact hs.count, by rw [hl.position]; exact hs.positionLow,
      by rw [hl.position]; exact hs.positionHigh b hb⟩
  have hp := hl.position
  unfold decStep
  rcases renormDec_cases 15 renormFuel _ b (by unfold renormFuel; omega) hr hA1 (by omega) with
    ⟨u, g1, g2, g3, g4, g5, g6⟩ | ⟨u, g1, g2, g3, g4, g5, g6⟩ | ⟨g1, g2⟩
  · rw [g1, bind_done]
    exact .inl ⟨u, rfl, g2, g3, hl.frame.trans g4, g5, by omega⟩
  · rw [g1, bind_raised]
    refine .inr (.inl ⟨u, rfl, g2, hl.frame.trans g3, g4, by omega, fun hc => g6 ⟨(hc b hb).1, fun hT v hv => ?_⟩⟩)
    rw [hp] at hv
    rw [hl.tr] at hT
    exact (hc b hb).2 hT v hv
  · rw [g1, bind_refused]
    exact .inr (.inr ⟨rfl, by rw [hl.frame.lw] at g2; exact g2⟩)

end Sys2Proof.Machine
end

