-- ==== Sys2Proof/Laws/Memory.lean ====
section
/-! SUPPORT. Every operation over the store keeps its form (R50), and the store after reset has it. -/

namespace Sys2Proof.Machine

/-- The form, read off: 1 to 65536 buffers, each within `CAP`. -/
theorem memory_wf_iff {cap : Option Nat} {m : Memory} : Memory.wf cap m = true ↔
    1 ≤ m.length ∧ m.length ≤ 65536 ∧ ∀ b ∈ m, withinCapacity cap b.length = true := by
  unfold Memory.wf withinCapacity
  cases cap <;> simp [and_assoc]

theorem reset_memory_wf : Memory.wf State.reset.cap State.reset.sm = true := by decide

theorem powerOn_memory_wf {p : Config.Params} {sm : Memory} (h : Memory.wf p.capacity sm = true) :
    Memory.wf (State.powerOn p sm).cap (State.powerOn p sm).sm = true := h

/-- Replacing one buffer by one that fits keeps the form. -/
theorem memory_wf_set {cap : Option Nat} {m : Memory} (h : Memory.wf cap m = true) (i : Nat) {b : Buffer}
    (hb : withinCapacity cap b.length = true) : Memory.wf cap (m.set i b) = true := by
  rw [memory_wf_iff] at h ⊢
  obtain ⟨h1, h2, h3⟩ := h
  refine ⟨by simpa using h1, by simpa using h2, fun c hc => ?_⟩
  rcases List.mem_or_eq_of_mem_set hc with hc | rfl
  · exact h3 c hc
  · exact hb

theorem setInstalled_wf {s : State} (h : Memory.wf s.cap s.sm = true) {b : Buffer} (hb : withinCapacity s.cap b.length = true) :
    Memory.wf (setInstalled b s).cap (setInstalled b s).sm = true := by
  unfold setInstalled
  split
  · exact h
  · exact memory_wf_set h _ hb

theorem memory_wf_installed {s : State} (h : Memory.wf s.cap s.sm = true) {b : Buffer} (hb : installed s = some b) :
    withinCapacity s.cap b.length = true := by
  obtain ⟨hd, -, hm⟩ := installed_eq_some.1 hb
  exact (memory_wf_iff.1 h).2.2 b (List.mem_of_getElem? hm)

theorem withinCapacity_le {cap : Option Nat} {m n : Nat} (h : withinCapacity cap n = true) (hm : m ≤ n) :
    withinCapacity cap m = true := by
  unfold withinCapacity at *
  cases cap with
  | none => rfl
  | some k => simp at *; omega

/-- `MemWrite` keeps the form: it appends only to a buffer that is not full (R61). -/
theorem memAppend_wf {s u : State} {v : Byte} (h : Memory.wf s.cap s.sm = true) (hu : memAppend v s = .done () u) :
    Memory.wf u.cap u.sm = true := by
  obtain ⟨b, hb, hf, rfl⟩ := memAppend_done hu
  refine setInstalled_wf h ?_
  have hc := memory_wf_installed h hb
  unfold withinCapacity at *
  unfold bufferFull at hf
  cases hcap : s.cap with
  | none => rfl
  | some k => simp [hcap] at *; omega

/-- `StreamTrunc` keeps the form. -/
theorem streamTrunc_wf {s u : State} {n : Int} (h : Memory.wf s.cap s.sm = true) (hu : streamTrunc n s = .done () u) :
    Memory.wf u.cap u.sm = true := by
  obtain ⟨b, hb, -, -, rfl⟩ := streamTrunc_done hu
  exact setInstalled_wf h (withinCapacity_le (memory_wf_installed h hb) (by simp))

/-- A host edit keeps the form. -/
theorem hostEdit_wf {s u : State} {sid : Nat} {e : BufferEdit} (h : Memory.wf s.cap s.sm = true)
    (hu : hostEdit sid e s = .next u) : Memory.wf u.cap u.sm = true := by
  unfold hostEdit onFreeBuffer at hu
  split at hu
  · cases hu
  · split at hu
    · cases hu
    · beta_reduce at hu
      split at hu
      · cases hu
      · split at hu
        · rename_i hw; cases hu; exact memory_wf_set h _ hw
        · cases hu

/-- Two states with the same capacity and the same buffers but the installed one, which fits, are both in form. -/
theorem streamFrame_wf {s u : State} (hf : StreamFrame s u) (h : Memory.wf s.cap s.sm = true)
    (hb : ∀ b, installed u = some b → withinCapacity s.cap b.length = true) : Memory.wf u.cap u.sm = true := by
  rw [hf.cap]
  obtain ⟨h1, h2, h3⟩ := memory_wf_iff.1 h
  refine memory_wf_iff.2 ⟨by rw [hf.smLength]; exact h1, by rw [hf.smLength]; exact h2, fun b hm => ?_⟩
  obtain ⟨i, hi⟩ := List.mem_iff_getElem?.1 hm
  cases hin : isInstalled i s with
  | false => exact h3 b (List.mem_of_getElem? ((hf.others i hin).symm.trans hi))
  | true =>
    refine hb b (installed_eq_some.2 ?_)
    unfold isInstalled at hin
    cases hc : s.cur with
    | none => simp [hc] at hin
    | some hd =>
      have : hd.toNat = i := by simpa [hc] using hin
      exact ⟨hd, by rw [hf.cur, hc], by rw [this]; exact hi⟩

/-! ### Reading one byte of the store -/

theorem readByte_congr {s u : State} (h : u.sm = s.sm) (sid off : Nat) : readByte u sid off = readByte s sid off := by
  unfold readByte; rw [h]

/-- A store only appends (R51): every byte that was there, and every byte of another buffer, reads as before. -/
theorem readByte_append {s u : State} (hf : StreamFrame s u) {b e : Buffer} (hb : installed s = some b)
    (hu : installed u = some (b ++ e)) {sid off : Nat} (h : ¬ (isInstalled sid s = true ∧ b.length ≤ off)) :
    readByte u sid off = readByte s sid off := by
  unfold readByte
  cases hin : isInstalled sid s with
  | false => rw [hf.others sid hin]
  | true =>
    have hoff : off < b.length := by
      by_contra hc; exact h ⟨hin, by omega⟩
    obtain ⟨hd, hcur, hm⟩ := installed_eq_some.1 hb
    obtain ⟨hd', hcur', hm'⟩ := installed_eq_some.1 hu
    rw [hf.cur, hcur] at hcur'; cases hcur'
    have : hd.toNat = sid := by unfold isInstalled at hin; simpa [hcur] using hin
    rw [this] at hm hm'
    rw [hm, hm']
    simp [List.getElem?_append_left hoff]

end Sys2Proof.Machine
end

