-- ==== Sys2Proof/Laws/Termination.lean ====
section
/-! SUPPORT. What the flush loop, `easy_flush` (R200), `min_flush` (R202) and `post_trim` (R203) can do. -/

namespace Sys2Proof.Machine

/-- Ready for a transfer: C as it stands when the byte is complete (R33 a, R131's preconditions). -/
structure Ready (s : State) : Prop where
  code : s.C.toNat < 2 ^ 27 + 2 ^ 24
  position : -1 ≤ s.L
  first : s.L = -1 → s.Tr = 0 ∧ s.C.toNat < 2 ^ 27

/-- After a `0xFF` the byte about to be finished is at most `0x8F`. -/
def TransferLow (s : State) : Prop := s.Tr.toNat * 2 ^ 27 + s.C.toNat < 0x90 * 2 ^ 27

/-- What is left to write while a flush goes on, in units of bit 0 of `Tr`: C has been shifted for the next transfer. -/
def readyValue (s : State) : Rat := s.Tr.toNat + s.C.toNat / 2 ^ 27

/-- Transfers from `s` to `u` that finished the bytes `e`, the phantom first byte among them. -/
structure FlushRun (s u : State) (b e : Buffer) : Prop where
  position : u.L = s.L + e.length
  stream : installed u = some (b ++ if s.L < 0 then e.drop 1 else e)
  phantom : s.L = -1 → ∀ v, e.head? = some v → v = 0
  marker : ∀ l : Option Byte, (l = some 0xFF → TransferLow s) →
    MarkerFree (l.toList ++ e) ∧ ((l.toList ++ e).getLast? = some 0xFF → TransferLow u)
  value : ∀ w, codeValue w e + weightAfter w e * readyValue u = w * readyValue s
  emitted : Emitted (readyValue s) s.Tr (readyValue u) u.Tr e
  code : s.C.toNat < 2 ^ 27 ∨ e ≠ [] → u.C.toNat < 2 ^ 27
  width : u.A = s.A
  ctx : u.ctx = s.ctx
  frame : StreamFrame s u

theorem FlushRun.refl {s : State} {b : Buffer} (hb : installed s = some b) : FlushRun s s b [] where
  position := by simp
  stream := by simp [hb]
  phantom := by simp
  marker := fun l hl => by
    cases l with
    | none => exact ⟨markerFree_nil, by simp⟩
    | some a => exact ⟨markerFree_singleton a, fun h => hl (by simpa using h)⟩
  value := fun w => by simp [codeValue, weightAfter]
  emitted := Emitted.refl _ _
  code := fun h => h.elim id fun h => absurd rfl h
  width := rfl
  ctx := rfl
  frame := StreamFrame.refl s

theorem shiftByCount_frame (s : State) : StreamFrame s (shiftByCount s) :=
  ⟨rfl, rfl, rfl, rfl, rfl, rfl, rfl, rfl, fun _ _ => rfl⟩

/-- C after `C <- C << t`, where nothing is shifted out. -/
theorem shiftByCount_code {s : State} (h : s.C.toNat * 2 ^ s.t.toNat < 2 ^ 32) :
    (shiftByCount s).C.toNat = s.C.toNat * 2 ^ s.t.toNat := by
  rw [shiftByCount_C, BitVec.toNat_shiftLeft, Nat.shiftLeft_eq, Nat.mod_eq_of_lt h]

/-- The first shift of the flush completes the byte in progress (R200). -/
theorem EncodeInv.ready {s : State} (h : EncodeInv s) : Ready (shiftByCount s) := by
  have hb := h.coding.codeBound
  have ht := h.top
  have h1 := Nat.one_le_two_pow (n := s.t.toNat)
  have hC := shiftByCount_code (s := s) (by omega)
  exact ⟨by rw [hC]; omega, h.position, fun h0 => ⟨(h.first h0).1, by rw [hC]; have := (h.first h0).2; omega⟩⟩

theorem TransferLaw.ready {s u : State} {v : Byte} (h : TransferLaw s u v) (hs : Ready s) : Ready (shiftByCount u) := by
  have hl := h.low
  have hc := h.count_toNat
  have hC : u.C.toNat * 2 ^ u.t.toNat < 2 ^ 27 := by
    split at hc <;> rw [hc] at hl ⊢ <;> omega
  have hC' := shiftByCount_code (s := u) (by omega)
  have hp := h.position
  have := hs.position
  exact ⟨by rw [hC']; omega, by show -1 ≤ u.L; omega, fun h0 => by have : u.L = -1 := h0; omega⟩

theorem TransferLaw.finished_phantom {s u : State} {v : Byte} (h : TransferLaw s u v) (hs : Ready s) (h0 : s.L = -1) : v = 0 := by
  obtain ⟨hT, hC⟩ := hs.first h0
  have hval := h.value
  have hTr : s.Tr.toNat = 0 := by rw [hT]; rfl
  have hcnt := h.count_toNat
  apply BitVec.eq_of_toNat_eq
  show v.toNat = 0
  rw [hTr] at hval
  split at hcnt <;> rw [hcnt] at hval <;> omega

/-- After a transfer the carry bit stays clear through the shift to the next one (R200). -/
theorem TransferLaw.code_shift {s u : State} {v : Byte} (h : TransferLaw s u v) : (shiftByCount u).C.toNat < 2 ^ 27 := by
  have hl := h.low
  have hc := h.count_toNat
  have hC := shiftByCount_code (s := u) (by split at hc <;> rw [hc] at hl ⊢ <;> omega)
  rw [hC]
  split at hc <;> rw [hc] at hl ⊢ <;> omega

/-- The value the next transfer of a flush starts from is what the last one left pending. -/
theorem TransferLaw.readyValue_shift {s u : State} {v : Byte} (h : TransferLaw s u v) :
    readyValue (shiftByCount u) = pendingValue u := by
  have hl := h.low
  have hc := h.count_toNat
  have hC := shiftByCount_code (s := u) (by split at hc <;> rw [hc] at hl ⊢ <;> omega)
  unfold readyValue pendingValue
  rw [hC, shiftByCount_Tr]
  push_cast
  ring

theorem TransferLaw.value_ready {s u : State} {v : Byte} (h : TransferLaw s u v) (w : Rat) :
    v.toNat * w + nextWeight w v * readyValue (shiftByCount u) = w * readyValue s := by
  have hv : ((s.Tr.toNat * 2 ^ 27 + s.C.toNat : Nat) : Rat) * 2 ^ u.t.toNat =
      (v.toNat : Rat) * 2 ^ 27 * 2 ^ u.t.toNat + u.Tr.toNat * 2 ^ 27 + u.C.toNat * 2 ^ u.t.toNat := by exact_mod_cast h.value
  have hw : nextWeight w v = w / 2 ^ u.t.toNat := by
    unfold nextWeight; rw [h.count_toNat]; split <;> rfl
  have hne : (2 : Rat) ^ u.t.toNat ≠ 0 := by positivity
  rw [h.readyValue_shift, hw]
  unfold readyValue pendingValue
  push_cast at hv
  field_simp
  linear_combination (-w) * hv

theorem TransferLaw.flush {s u x : State} {b e : Buffer} {v : Byte} (h : TransferLaw s u v) (hs : Ready s)
    (k : FlushRun (shiftByCount u) x (if s.L < 0 then b else b ++ [v]) e) : FlushRun s x b (v :: e) where
  position := by rw [k.position]; show u.L + _ = _; rw [h.position]; simp; omega
  stream := by
    have hu : ¬ (shiftByCount u).L < 0 := by
      have := h.position; have := hs.position; show ¬ u.L < 0; omega
    rw [k.stream, if_neg hu]
    split <;> simp
  phantom := fun h0 w hw => by simp at hw; rw [← hw]; exact h.finished_phantom hs h0
  marker := fun l hl => by
    have hval := h.value
    have hcnt := h.count_toNat
    have hC' : (shiftByCount u).C.toNat = u.C.toNat * 2 ^ u.t.toNat := by
      refine shiftByCount_code ?_
      have hlow := h.low
      split at hcnt <;> rw [hcnt] at hlow ⊢ <;> omega
    have hT := s.Tr.isLt
    have hco := hs.code
    obtain ⟨h1, h2⟩ := k.marker (some v) fun hv => by
      have hv' : v = 0xFF := by simpa using hv
      have h255 : v.toNat = 255 := by rw [hv']; rfl
      unfold TransferLow
      rw [hC']
      show u.Tr.toNat * 2 ^ 27 + _ < _
      rw [if_pos hv'] at hcnt
      rw [h255, hcnt] at hval
      rw [hcnt]
      omega
    have h2' : (v :: e).getLast? = some 0xFF → TransferLow x := h2
    cases l with
    | none => exact ⟨h1, h2'⟩
    | some a =>
      refine ⟨markerFree_cons (fun w hw ha => ?_) h1, fun hlast => h2' (by simpa using hlast)⟩
      simp at hw
      rw [← hw]
      have hlow := hl (by rw [ha])
      unfold TransferLow at hlow
      rw [BitVec.le_def]
      show v.toNat ≤ 143
      split at hcnt <;> rw [hcnt] at hval <;> omega
  value := fun w => by
    have h1 := h.value_ready w
    have h2 := k.value (nextWeight w v)
    simp only [codeValue, weightAfter, List.foldl_cons] at h2 ⊢
    linarith
  emitted := Emitted.cons h.value_ready (by rw [h.readyValue_shift]; exact h.pending_lt) h.tr_le k.emitted
  code := fun _ => k.code (.inl h.code_shift)
  width := k.width.trans (show u.A = s.A from h.width)
  ctx := k.ctx.trans (show u.ctx = s.ctx from h.ctx)
  frame := (h.frame.trans (shiftByCount_frame u)).trans k.frame

theorem FlushRun.trans {s u x : State} {b e f : Buffer} (hL : -1 ≤ s.L) (k : FlushRun s u b e)
    (m : FlushRun u x (b ++ if s.L < 0 then e.drop 1 else e) f) : FlushRun s x b (e ++ f) where
  position := by rw [m.position, k.position]; simp; omega
  stream := by
    rw [m.stream, k.position]
    by_cases h : s.L < 0
    · cases e with
      | nil => simp [h]
      | cons a e =>
        have : ¬ s.L + ((a :: e).length : Int) < 0 := by simp; omega
        rw [if_neg this, if_pos h, if_pos h]; simp
    · have : ¬ s.L + (e.length : Int) < 0 := by omega
      rw [if_neg this, if_neg h, if_neg h]; simp
  phantom := fun h0 v hv => by
    cases e with
    | nil => exact m.phantom (by rw [k.position]; simpa using h0) v (by simpa using hv)
    | cons a e => exact k.phantom h0 v (by simpa using hv)
  marker := fun l hl => by
    obtain ⟨h1, h2⟩ := k.marker l hl
    obtain ⟨h3, h4⟩ := m.marker (l.toList ++ e).getLast? h2
    rw [← List.append_assoc]
    refine ⟨markerFree_append h1 h3, fun h => h4 ?_⟩
    cases f with
    | nil =>
      rw [List.append_nil] at h ⊢
      rw [h]; rfl
    | cons a f =>
      rw [List.getLast?_append_of_ne_nil _ (by simp)] at h ⊢
      exact h
  value := fun w => by
    have h1 := k.value w
    have h2 := m.value (weightAfter w e)
    rw [codeValue_append, weightAfter_append]
    linarith
  emitted := k.emitted.trans m.emitted
  code := fun h => by
    by_cases hf : f = []
    · exact m.code (.inl (k.code (h.imp id fun h he => h (by rw [he, hf]; rfl))))
    · exact m.code (.inr hf)
  width := m.width.trans k.width
  ctx := m.ctx.trans k.ctx
  frame := k.frame.trans m.frame

/-- A bound on the transfers the flush loop makes with `n` shifts owed. -/
def flushBound (n : Int) : Nat := ((n + 6) / 7).toNat

/-- Everything the flush loop can do (R200). -/
theorem flushLoop_cases (fuel : Nat) : ∀ (n : Int) (s : State) (b : Buffer), Ready s → installed s = some b →
    (∃ u e, flushLoop fuel n s = .done () u ∧ e.length ≤ flushBound n ∧ FlushRun s u b e ∧ Ready u ∧
      (n ≤ 7 * fuel → ∀ w : Rat, 0 < w → weightAfter w e * 2 ^ n.toNat ≤ w)) ∨
    (∃ u, flushLoop fuel n s = .raised .streamIO u ∧ EncodeAbort s u b (flushBound n)) ∨
    (flushLoop fuel n s = .refused .positionOverflow ∧ positionMax s.lw < s.L + flushBound n) := by
  have hz : ∀ {n : Int}, n ≤ 0 → ∀ w : Rat, 0 < w → weightAfter w [] * 2 ^ n.toNat ≤ w := by
    intro n hn w _
    rw [show n.toNat = 0 by omega]; simp [weightAfter]
  induction fuel with
  | zero => intro n s b hs hb; exact .inl ⟨s, [], rfl, by simp, FlushRun.refl hb, hs, fun h => hz (by simpa using h)⟩
  | succ fuel ih =>
    intro n s b hs hb
    unfold flushLoop
    split
    · rename_i hn
      have hb1 : 1 ≤ flushBound n := by unfold flushBound; omega
      rcases transferByte_cases hb hs.position (by have := hs.code; omega) (fun h => (hs.first h).1) with
        ⟨u, v, hu, hlaw, hi⟩ | ⟨u, hu⟩ | ⟨hu, hov⟩
      · rw [hu, bind_done]
        have hcnt := hlaw.count_toNat
        have hbd : flushBound (n - u.t.toNat) + 1 ≤ flushBound n := by
          unfold flushBound; split at hcnt <;> rw [hcnt] <;> omega
        have hcap : u.cap = s.cap := hlaw.frame.cap
        have happ : (if s.L < 0 then b else b ++ [v]) = b ++ if s.L < 0 then [] else [v] := by split <;> simp
        rcases ih (n - u.t.toNat) (shiftByCount u) _ (hlaw.ready hs) hi with ⟨x, e, h1, h2, h3, h4, h5⟩ | ⟨x, h1, h2⟩ | ⟨h1, h2⟩
        · refine .inl ⟨x, v :: e, h1, by simp; omega, hlaw.flush hs h3, h4, fun hf w hw => ?_⟩
          have hnw : nextWeight w v * 2 ^ u.t.toNat = w := by
            unfold nextWeight; rw [hcnt]; split <;> field_simp
          have h6 := h5 (by push_cast at hf; split at hcnt <;> omega) _ (nextWeight_pos hw v)
          have hle : (2 : Rat) ^ n.toNat ≤ 2 ^ (n - u.t.toNat).toNat * 2 ^ u.t.toNat := by
            rw [← pow_add]; exact pow_le_pow_right₀ (by norm_num) (by omega)
          have hpos := weightAfter_pos (nextWeight_pos hw v) e
          show weightAfter (nextWeight w v) e * _ ≤ w
          calc weightAfter (nextWeight w v) e * 2 ^ n.toNat
              ≤ weightAfter (nextWeight w v) e * (2 ^ (n - u.t.toNat).toNat * 2 ^ u.t.toNat) :=
                mul_le_mul_of_nonneg_left hle hpos.le
            _ = weightAfter (nextWeight w v) e * 2 ^ (n - u.t.toNat).toNat * 2 ^ u.t.toNat := by ring
            _ ≤ nextWeight w v * 2 ^ u.t.toNat := mul_le_mul_of_nonneg_right h6 (by positivity)
            _ = w := hnw
        · rw [happ] at h2
          exact .inr (.inl ⟨x, h1, EncodeAbort.cons (u := shiftByCount u) (by show s.L ≤ u.L; rw [hlaw.position]; omega)
            (show u.ctx = s.ctx from hlaw.ctx) (hlaw.frame.trans (shiftByCount_frame u)) (by split <;> simp) hbd h2⟩)
        · have hL : (shiftByCount u).L = s.L + 1 := hlaw.position
          have hw : (shiftByCount u).lw = s.lw := hlaw.frame.lw
          rw [hL, hw] at h2
          exact .inr (.inr ⟨h1, by omega⟩)
      · rw [hu, bind_raised]
        obtain ⟨-, hfr, hcx, -, -, hL, hin, hfull⟩ := transferByte_raised_frame hu
        obtain ⟨c, hc1, hc2⟩ := hfull b hb
        exact .inr (.inl ⟨u, rfl, ⟨by rw [hL], ⟨[], by simp; omega, by rw [hin, hb]; simp, c, hc1, by simpa using hc2⟩,
          hcx, hfr⟩⟩)
      · rw [hu, bind_refused]
        exact .inr (.inr ⟨rfl, by omega⟩)
    · exact .inl ⟨s, [], rfl, by simp, FlushRun.refl hb, hs, fun _ => hz (by omega)⟩

/-- More iterations than `flushFuel` are never made (R288): the loop stops by its own test. -/
theorem flushLoop_fuel (k : Nat) {n : Int} (hn : n ≤ 12) (s : State) : flushLoop (flushFuel + k) n s = flushLoop flushFuel n s := by
  have hz : ∀ f (m : Int) (u : State), m ≤ 0 → flushLoop f m u = .done () u := by
    intro f m u hm
    cases f with
    | zero => rfl
    | succ f => unfold flushLoop; rw [if_neg (by omega)]
  have h7 : ∀ {a c : State}, transferByte a = .done () c → 7 ≤ c.t.toNat := fun h => by
    rcases (transferByte_done h).2.2.2.2.1 with h | h <;> rw [h] <;> decide
  unfold flushFuel
  show flushLoop (2 + k) n s = flushLoop 2 n s
  rw [show 2 + k = (k + 1) + 1 by omega]
  unfold flushLoop
  split
  · cases h : transferByte s with
    | done a u =>
      rw [bind_done, bind_done]
      have := h7 h
      unfold flushLoop
      split
      · cases h' : transferByte (shiftByCount u) with
        | done a v =>
          rw [bind_done, bind_done]
          have := h7 h'
          rw [hz _ _ _ (by omega), hz _ _ _ (by omega)]
        | _ => rfl
      · rfl
    | _ => rfl
  · rfl

/-- The bytes `e ++ [v]` an easy flush finishes (R200), the phantom byte and a trailing `0xFF` among them: they are the lower
end of the interval cut off below the last byte, and that byte is no coarser than A's own scale. -/
structure Emptied (s : State) (e : Buffer) (v : Byte) : Prop where
  emitted : ∃ q T, Emitted (pendingValue s) s.Tr q T (e ++ [v])
  below : ∀ w, 0 < w → codeValue w (e ++ [v]) ≤ w * pendingValue s
  above : ∀ w, 0 < w → w * pendingValue s < codeValue w (e ++ [v]) + weightAfter w e
  fine : ∀ w, 0 < w → weightAfter w e * 2 ^ 12 ≤ w * 2 ^ s.t.toNat
  phantom : s.L = -1 → ∀ x, (e ++ [v]).head? = some x → x = 0
  marker : ∀ l : Option Byte, (l = some 0xFF → TransferLow (shiftByCount s)) → MarkerFree (l.toList ++ (e ++ [v]))

/-- Without the phantom byte. -/
def realBytes (s : State) (e : Buffer) : Buffer := if s.L < 0 then e.drop 1 else e

/-- What an easy flush appends (R200). -/
structure Flushed (s u : State) (b d : Buffer) (k : Nat) : Prop where
  bytes : ∃ e v, Emptied s e v ∧ d = realBytes s (if v = 0xFF then e else e ++ [v])
  stream : installed u = some (b ++ d)
  short : d.length ≤ k
  positionLow : s.L < u.L
  positionHigh : u.L ≤ s.L + k
  count : u.t = 7 ∨ u.t = 8
  marker : ∀ l : Option Byte, (s.L < 0 → l = none) → (l = some 0xFF → TransferLow (shiftByCount s)) →
    MarkerFree (l.toList ++ d)
  width : u.A = s.A
  ctx : u.ctx = s.ctx
  frame : StreamFrame s u

theorem dropStuffedTail_of_ne {s : State} (h : s.t ≠ 7) : dropStuffedTail s = .done () s := by
  unfold dropStuffedTail; rw [if_neg h]

theorem dropStuffedTail_of_eq {s : State} {b : Buffer} {v : Byte} (h : s.t = 7) (hb : installed s = some (b ++ [v])) :
    dropStuffedTail s = .done () (setInstalled b s) := by
  unfold dropStuffedTail
  rw [if_pos h, streamLen_some hb, bind_done]
  have : ((b ++ [v]).length : Int) - 1 = b.length := by simp
  rw [this, streamTrunc_some hb (by simp)]
  simp

theorem MarkerFree.drop_append {b c : Buffer} (h : MarkerFree (b ++ c)) : MarkerFree c := by
  intro i v hi hv
  refine h (b.length + i) v ?_ ?_
  · rw [List.getElem?_append_right (by omega)]; simpa using hi
  · rw [List.getElem?_append_right (by omega), show b.length + i + 1 - b.length = i + 1 by omega]; exact hv

theorem MarkerFree.of_append {b c : Buffer} (h : MarkerFree (b ++ c)) : MarkerFree b := h.prefix ⟨c, rfl⟩

/-- The number of transfers of an easy flush, at most (R200, R280). -/
def easyBound (t : Nat) : Nat := flushBound (12 - (t : Int)) + 1

theorem easyBound_le {t : Nat} (h : 1 ≤ t) : easyBound t ≤ 3 := by
  unfold easyBound flushBound; omega

theorem easyBound_le_two {t : Nat} (h : 5 ≤ t) : easyBound t ≤ 2 := by
  unfold easyBound flushBound; omega

theorem EncodeInv.shift_code {s : State} (hs : EncodeInv s) : (shiftByCount s).C.toNat = s.C.toNat * 2 ^ s.t.toNat := by
  have hb := hs.coding.codeBound
  have ht := hs.top
  have h1 := Nat.one_le_two_pow (n := s.t.toNat)
  exact shiftByCount_code (by omega)

theorem EncodeInv.readyValue_shift {s : State} (hs : EncodeInv s) : readyValue (shiftByCount s) = pendingValue s := by
  have hC := hs.shift_code
  unfold readyValue pendingValue
  rw [hC, shiftByCount_Tr]
  push_cast
  ring

/-- The bytes of the flush loop and of the final transfer together (R200). -/
theorem EncodeInv.emptied {s u x : State} {b d e : Buffer} {v : Byte} (hs : EncodeInv s)
    (h : FlushRun (shiftByCount s) u b e)
    (hw : 12 - (s.t.toNat : Int) ≤ 7 * flushFuel → ∀ w : Rat, 0 < w → weightAfter w e * 2 ^ (12 - (s.t.toNat : Int)).toNat ≤ w)
    (hall : FlushRun (shiftByCount s) (shiftByCount x) d (e ++ [v]))
    (hlaw : TransferLaw u x v) : Emptied s e v := by
  have hlo := hs.countLow
  have hhi := hs.countHigh
  have hC := hs.shift_code
  have hq0 : 0 ≤ readyValue (shiftByCount x) := by unfold readyValue; positivity
  have hcode : u.C.toNat < 2 ^ 27 := by
    refine h.code ?_
    by_cases he : e = []
    · left
      by_cases h12 : s.t.toNat = 12
      · have hA := hs.interval
        have : (s.C.toNat + s.A.toNat) * 2 ^ 12 < 2 ^ 27 + 2 ^ 24 := by
          have h1 := hs.top; unfold intervalTop at h1; rwa [h12] at h1
        rw [hC, h12]; linarith
      · exfalso
        have := hw (by unfold flushFuel; omega) 1 one_pos
        rw [he] at this
        have h2 : (2 : Rat) ^ 1 ≤ 2 ^ (12 - (s.t.toNat : Int)).toNat := pow_le_pow_right₀ (by norm_num) (by omega)
        simp only [weightAfter, List.foldl_nil] at this
        linarith
    · exact .inr he
  -- what is left after the last byte is less than one unit of it
  have hrest : ∀ w : Rat, 0 < w → nextWeight w v * readyValue (shiftByCount x) < w := by
    intro w hw
    have hval := hlaw.value
    have hcnt := hlaw.count_toNat
    have hT := u.Tr.isLt
    have hT' := x.Tr.isLt
    have hlt := hlaw.pending_lt
    rw [hlaw.readyValue_shift]
    unfold nextWeight
    split
    · rename_i hv
      rw [if_pos hv] at hcnt
      have h255 : v.toNat = 255 := by rw [hv]; rfl
      rw [hcnt, h255] at hval
      have : x.Tr.toNat + 1 ≤ 2 ^ 7 := by omega
      have : (x.Tr.toNat : Rat) + 1 ≤ 2 ^ 7 := by exact_mod_cast this
      rw [div_mul_eq_mul_div, div_lt_iff₀ (by positivity)]
      exact mul_lt_mul_of_pos_left (by linarith) hw
    · have : (x.Tr.toNat : Rat) + 1 ≤ 2 ^ 8 := by exact_mod_cast hT'
      rw [div_mul_eq_mul_div, div_lt_iff₀ (by positivity)]
      exact mul_lt_mul_of_pos_left (by linarith) hw
  have hval := fun w : Rat => hall.value w
  rw [hs.readyValue_shift] at hval
  refine ⟨⟨_, _, by rw [← hs.readyValue_shift]; exact hall.emitted⟩, fun w hw => ?_, fun w hw => ?_, fun w hp => ?_,
    fun h0 => hall.phantom h0, fun l hl => (hall.marker l hl).1⟩
  · have := hval w
    have := mul_nonneg (weightAfter_pos hw (e ++ [v])).le hq0
    linarith
  · have := hval w
    have h1 := hrest _ (weightAfter_pos hw e)
    have h2 : weightAfter w (e ++ [v]) = nextWeight (weightAfter w e) v := by rw [weightAfter_append]; rfl
    rw [h2] at this
    linarith
  · have h1 := hw (by unfold flushFuel; omega) w hp
    have h2 : (2 : Rat) ^ 12 = 2 ^ (12 - (s.t.toNat : Int)).toNat * 2 ^ s.t.toNat := by
      rw [← pow_add]; congr 1; omega
    rw [h2, ← mul_assoc]
    exact mul_le_mul_of_nonneg_right h1 (by positivity)

/-- Everything `easy_flush` can do in mode ENC (R200). -/
theorem easyFlush_cases {s : State} {b : Buffer} (hs : EncodeInv s) (hb : installed s = some b) :
    (∃ u d, easyFlush s = .done () u ∧ Flushed s u b d (easyBound s.t.toNat)) ∨
    (∃ u, easyFlush s = .raised .streamIO u ∧ EncodeAbort s u b (easyBound s.t.toNat)) ∨
    (easyFlush s = .refused .positionOverflow ∧ positionMax s.lw < s.L + easyBound s.t.toNat) := by
  have hr := hs.ready
  have hn : (27 - 15 - (s.t.toNat : Int)) = 12 - (s.t.toNat : Int) := by omega
  unfold easyFlush
  rw [hn]
  have hbb : easyBound s.t.toNat = flushBound (12 - (s.t.toNat : Int)) + 1 := rfl
  have hL0 : (shiftByCount s).L = s.L := rfl
  rcases flushLoop_cases flushFuel (12 - (s.t.toNat : Int)) (shiftByCount s) b hr hb with
    ⟨u, e, h1, h2, h3, h4, h5⟩ | ⟨u, h1, h2⟩ | ⟨h1, h2⟩
  · rw [h1, bind_done]
    have hbu := h3.stream
    have hpu := h3.position
    rw [hL0] at hbu hpu
    rcases transferByte_cases hbu h4.position (by have := h4.code; omega) (fun h => (h4.first h).1) with
      ⟨x, v, hx, hlaw, hi⟩ | ⟨x, hx⟩ | ⟨hx, hov⟩
    · rw [hx, bind_done]
      left
      have hone : FlushRun u (shiftByCount x) (b ++ if (shiftByCount s).L < 0 then e.drop 1 else e) [v] :=
        hlaw.flush h4 (FlushRun.refl hi)
      have hall := h3.trans hr.position hone
      have hempty := hs.emptied h3 h5 hall hlaw
      have hcnt := hlaw.count
      have hpx : x.L = s.L + (e.length + 1 : Nat) := by have := hall.position; simpa using this
      have hfr : StreamFrame s x := ((shiftByCount_frame s).trans h3.frame).trans hlaw.frame
      have hw : x.A = s.A := hlaw.width.trans h3.width
      have hcx : x.ctx = s.ctx := hlaw.ctx.trans h3.ctx
      by_cases hv : v = 0xFF
      · rw [if_pos hv] at hcnt
        have hu0 : ¬ u.L < 0 := fun h => by
          have := h4.position
          have := hlaw.finished_phantom h4 (by omega)
          rw [this] at hv; exact absurd hv (by decide)
        rw [if_neg hu0] at hi
        refine ⟨_, _, dropStuffedTail_of_eq hcnt hi, ⟨⟨e, v, hempty, by rw [if_pos hv]; rfl⟩,
          installed_setInstalled hi _, ?_, ?_, ?_, .inl (by simpa using hcnt),
          fun l hl0 hl => ?_, by simpa using hw, by simpa using hcx, hfr.trans (StreamFrame.setInstalled _ _)⟩⟩
        · split <;> (try simp) <;> omega
        · simp; omega
        · simp; omega
        · have hm := (h3.marker l hl).1
          by_cases hneg : s.L < 0
          · rw [if_pos hneg, hl0 hneg]
            rw [hl0 hneg] at hm
            cases e with
            | nil => exact markerFree_nil
            | cons a e => exact MarkerFree.drop_append (b := [a]) hm
          · rw [if_neg hneg]; exact hm
      · rw [if_neg hv] at hcnt
        have hstr := hall.stream
        rw [hL0] at hstr
        refine ⟨x, _, dropStuffedTail_of_ne (by rw [hcnt]; decide), ⟨⟨e, v, hempty, by rw [if_neg hv]; rfl⟩, hstr, ?_, ?_, ?_, .inr hcnt,
          fun l hl0 hl => ?_, hw, hcx, hfr⟩⟩
        · split <;> (try simp) <;> omega
        · omega
        · omega
        · have hm := (hall.marker l hl).1
          by_cases hneg : s.L < 0
          · rw [if_pos hneg, hl0 hneg]
            rw [hl0 hneg] at hm
            cases e with
            | nil => exact markerFree_nil
            | cons a e => exact MarkerFree.drop_append (b := [a]) hm
          · rw [if_neg hneg]; exact hm
    · rw [hx, bind_raised]
      obtain ⟨-, hfr, hcx, -, -, hL, hin, hfull⟩ := transferByte_raised_frame hx
      obtain ⟨c, hc1, hc2⟩ := hfull _ hbu
      refine .inr (.inl ⟨x, rfl, ⟨by omega, ⟨_, ?_, by rw [hin]; exact hbu, c, ?_, hc2⟩, hcx.trans h3.ctx,
        ((shiftByCount_frame s).trans h3.frame).trans hfr⟩⟩)
      · split <;> (try simp) <;> omega
      · rw [← hc1]; exact (h3.frame.cap).symm
    · rw [hx, bind_refused]
      have : u.lw = s.lw := h3.frame.lw
      exact .inr (.inr ⟨rfl, by rw [← this]; omega⟩)
  · rw [h1, bind_raised]
    refine .inr (.inl ⟨u, rfl, ⟨h2.position, ?_, h2.ctx, (shiftByCount_frame s).trans h2.frame⟩⟩)
    obtain ⟨e, he, hi, hc⟩ := h2.stream
    exact ⟨e, by omega, hi, hc⟩
  · rw [h1, bind_refused]
    exact .inr (.inr ⟨rfl, by rw [hL0] at h2; have h3 : positionMax s.lw < _ := h2; omega⟩)

/-! ### The minimal prefix and the trim -/

/-- `min_flush` only reads: it answers a number of tail bytes that exist (R202, R204 a). -/
theorem minFlushLoop_law {Cr Ar L0 : Nat} {s : State} {b : Buffer} (hb : installed s = some b) (left : Nat) :
    ∀ (nb Rf : Nat) (Sf sh : Int), L0 + nb + left ≤ b.length →
      ∃ k, minFlushLoop Cr Ar L0 s left nb Rf Sf sh = .done k s ∧ nb ≤ k ∧ k ≤ nb + left := by
  induction left with
  | zero => intro nb Rf Sf sh _; exact ⟨nb, rfl, le_refl _, by omega⟩
  | succ left ih =>
    intro nb Rf Sf sh h
    unfold minFlushLoop
    split
    · rw [memRead_some hb (by omega), bind_done]
      obtain ⟨k, h1, h2, h3⟩ := ih (nb + 1) (Rf + shiftByte (b[L0 + nb]'(by omega)) (Sf - sh)) (Sf - sh)
        (if b[L0 + nb]'(by omega) = 0xFF then 7 else 8) (by omega)
      exact ⟨k, h1, by omega, by omega⟩
    · exact ⟨nb, rfl, le_refl _, by omega⟩

theorem minFlush_law {z : Snapshot} {s : State} {b : Buffer} (hb : installed s = some b) (hL : z.L0 ≤ b.length) :
    ∃ k, minFlush z s = .done k s ∧ z.L0 + k ≤ b.length := by
  unfold minFlush
  rw [streamLen_some hb, bind_done]
  have hle : z.L0 + 0 + min 5 (b.length - z.L0) ≤ b.length := by omega
  obtain ⟨k, h1, -, h2⟩ :=
    minFlushLoop_law (Cr := z.lowAdjusted) (Ar := z.widthAdjusted) hb (min 5 (b.length - z.L0)) 0 0 35 8 hle
  exact ⟨k, h1, by omega⟩

/-- The pair step of `post_trim` (R203): it only lowers the length, leaves no pair `FF 7F` at the end, and a trailing
`0xFF` only where it stood before or before another `0xFF`. -/
theorem trimPairs_law {s : State} {b : Buffer} (hb : installed s = some b) (fuel : Nat) : ∀ l, l ≤ fuel → l ≤ b.length →
    ∃ k, trimPairs fuel l s = .done k s ∧ k ≤ l ∧
      ¬ (2 ≤ k ∧ b[k - 2]? = some 0xFF ∧ b[k - 1]? = some 0x7F) ∧
      (1 ≤ k → b[k - 1]? = some 0xFF → k = l ∨ b[k]? = some 0xFF) := by
  induction fuel with
  | zero => intro l hl hb'; exact ⟨l, rfl, le_refl _, by omega, by omega⟩
  | succ fuel ih =>
    intro l hl hb'
    unfold trimPairs
    split
    · rename_i h2
      rw [memRead_some hb (by omega), bind_done, memRead_some hb (by omega), bind_done]
      split
      · rename_i hp
        obtain ⟨k, h1, h3, h4, h5⟩ := ih (l - 2) (by omega) (by omega)
        refine ⟨k, h1, by omega, h4, fun hk1 hk => ?_⟩
        rcases h5 hk1 hk with rfl | h
        · exact .inr (by rw [List.getElem?_eq_getElem (by omega), hp.1])
        · exact .inr h
      · rename_i hp
        refine ⟨l, rfl, le_refl _, fun h => hp ⟨?_, ?_⟩, fun _ _ => .inl rfl⟩
        · have := h.2.1; rw [List.getElem?_eq_getElem (by omega)] at this; simpa using this
        · have := h.2.2; rw [List.getElem?_eq_getElem (by omega)] at this; simpa using this
    · rename_i h2
      exact ⟨l, rfl, le_refl _, fun h => h2 h.1, fun _ _ => .inl rfl⟩

/-- `post_trim` (R203, R204 b). -/
theorem postTrim_law {s : State} {b : Buffer} (hb : installed s = some b) {l : Nat} (hl : l ≤ b.length) :
    ∃ k, postTrim l s = .done k s ∧ k ≤ l ∧
      ¬ (2 ≤ k ∧ b[k - 2]? = some 0xFF ∧ b[k - 1]? = some 0x7F) ∧
      (1 ≤ k → b[k - 1]? = some 0xFF → b[k]? = some 0xFF) := by
  unfold postTrim trimByte
  by_cases h1 : 1 ≤ l
  · rw [if_pos h1, memRead_some hb (by omega), bind_done, bind_done]
    by_cases hff : b[l - 1]'(by omega) = 0xFF
    · rw [if_pos hff]
      obtain ⟨k, g1, g2, g3, g4⟩ := trimPairs_law hb (l - 1) (l - 1) (le_refl _) (by omega)
      refine ⟨k, g1, by omega, g3, fun hk1 hk => ?_⟩
      rcases g4 hk1 hk with rfl | h
      · rw [List.getElem?_eq_getElem (by omega), hff]
      · exact h
    · rw [if_neg hff]
      obtain ⟨k, g1, g2, g3, g4⟩ := trimPairs_law hb l l (le_refl _) hl
      refine ⟨k, g1, g2, g3, fun hk1 hk => ?_⟩
      rcases g4 hk1 hk with rfl | h
      · rw [List.getElem?_eq_getElem (by omega)] at hk
        exact absurd (by simpa using hk) hff
      · exact h
  · rw [if_neg h1, bind_done]
    obtain ⟨k, g1, g2, g3, g4⟩ := trimPairs_law hb l l (le_refl _) hl
    exact ⟨k, g1, g2, g3, fun hk1 => by omega⟩

/-- What the rest of an optimal termination does with the flushed stream `d` (R201): it keeps a prefix and changes nothing
else. -/
theorem optimalFlush_tail {s u : State} {b d : Buffer} (hb : installed s = some b) (hu : easyFlush s = .done () u)
    (hc : installed u = some d) (hbc : b.length ≤ d.length) :
    ∃ k, optimalFlush s = .done () (setInstalled (d.take k) u) ∧ k ≤ d.length ∧
      ¬ (2 ≤ k ∧ d[k - 2]? = some 0xFF ∧ d[k - 1]? = some 0x7F) ∧
      (1 ≤ k → d[k - 1]? = some 0xFF → d[k]? = some 0xFF) := by
  unfold optimalFlush
  rw [streamLen_some hb, bind_done, hu, bind_done]
  obtain ⟨nb, h1, h2⟩ := minFlush_law (z := snapshot b.length s) hc (by exact hbc)
  rw [h1, bind_done]
  obtain ⟨k, h3, h4, h5, h6⟩ := postTrim_law hc (l := b.length + nb) (by exact h2)
  have h2' : b.length + nb ≤ d.length := h2
  rw [h3, bind_done, streamTrunc_some hc (by omega)]
  exact ⟨k, rfl, by omega, h5, h6⟩

theorem optimalFlush_raised {s u : State} {b : Buffer} {e : ExecError} (hb : installed s = some b)
    (hu : easyFlush s = .raised e u) : optimalFlush s = .raised e u := by
  unfold optimalFlush; rw [streamLen_some hb, bind_done, hu, bind_raised]

theorem optimalFlush_refused {s : State} {b : Buffer} {r : Refusal} (hb : installed s = some b)
    (hu : easyFlush s = .refused r) : optimalFlush s = .refused r := by
  unfold optimalFlush; rw [streamLen_some hb, bind_done, hu, bind_refused]

end Sys2Proof.Machine
end

