-- ==== Sys2Proof/Laws/Commands.lean ====
section
/-! SUPPORT. The rule of each command apart from its admission, and how a command ends (R180, R240). -/

namespace Sys2Proof.Machine

/-- The rule a command executes once it is admitted. -/
def rule (i : Instr) (s : State) : Micro (BitVec 3) :=
  match i with
  | .reset => .done 0 (clearContexts s)
  | .rstenc => .done 0 (startEncoding s)
  | .rstdec => (startDecoding s).bind fun _ s1 => .done 0 s1
  | .encctx x c => (encStep (stateProb (contextAt (contextIndex c) s).state) (contextAt (contextIndex c) s).mps x
      (some (contextIndex c)) s).bind fun _ s1 => .done 0 s1
  | .decctx c => (decStep (stateProb (contextAt (contextIndex c) s).state) (contextAt (contextIndex c) s).mps
      (some (contextIndex c)) s).bind fun x s1 => .done (bitValue x) s1
  | .encprb x g p => (encStep p g x none s).bind fun _ s1 => .done 0 s1
  | .decprb g p => (decStep p g none s).bind fun x s1 => .done (bitValue x) s1
  | .terme => (easyFlush s).bind fun _ s1 => .done 0 (toIdle s1)
  | .termo => (optimalFlush s).bind fun _ s1 => .done 0 (toIdle s1)
  | .remb => .done (remainingBytes s.t) s
  | .chstr z sid => (changeStream z sid s).bind fun _ s1 => .done 0 s1

theorem exec_eq (i : Instr) (s : State) : exec i s = guarded i s (conclude (rule i s)) := by cases i <;> rfl

theorem guarded_admitted {i : Instr} {s : State} (h : admission i s = none) (r : Host.Outcome State Fault Refusal) :
    guarded i s r = r := by
  unfold guarded; rw [h]

theorem exec_refused_by {i : Instr} {s : State} {st : Status} (h : admission i s = some st) :
    exec i s = .next (refuseWith st s) := by
  rw [exec_eq]; unfold guarded; rw [h]

theorem exec_of_done {i : Instr} {s u : State} {v : BitVec 3} (ha : admission i s = none) (h : rule i s = .done v u) :
    exec i s = .next (respond .ok v u) := by
  rw [exec_eq, guarded_admitted ha, h]; rfl

theorem exec_of_raised {i : Instr} {s u : State} {e : ExecError} (ha : admission i s = none) (h : rule i s = .raised e u) :
    exec i s = .next (takeError e u) := by
  rw [exec_eq, guarded_admitted ha, h]; rfl

/-- How a command that answers has ended (R240). -/
theorem exec_next {i : Instr} {s u : State} (h : exec i s = .next u) :
    (∃ st, admission i s = some st ∧ u = refuseWith st s) ∨
    (admission i s = none ∧ ∃ v w, rule i s = .done v w ∧ u = respond .ok v w) ∨
    (admission i s = none ∧ ∃ e w, rule i s = .raised e w ∧ u = takeError e w) := by
  cases ha : admission i s with
  | some st => rw [exec_refused_by ha] at h; cases h; exact .inl ⟨st, rfl, rfl⟩
  | none =>
    rw [exec_eq, guarded_admitted ha] at h
    cases hr : rule i s with
    | done v w => rw [hr] at h; cases h; exact .inr (.inl ⟨rfl, v, w, rfl, rfl⟩)
    | raised e w => rw [hr] at h; cases h; exact .inr (.inr ⟨rfl, e, w, rfl, rfl⟩)
    | stuck f => rw [hr] at h; cases h
    | refused r => rw [hr] at h; cases h

/-- When a command gets no answer: its own rule sticks or has no meaning. -/
theorem exec_not_next {i : Instr} {s : State} (h : ∀ u, exec i s ≠ .next u) :
    (∃ f, rule i s = .stuck f ∧ exec i s = .fault f) ∨ (∃ r, rule i s = .refused r ∧ exec i s = .refused r) := by
  cases ha : admission i s with
  | some st => exact absurd (exec_refused_by ha) (h _)
  | none =>
    have he : exec i s = conclude (rule i s) := by rw [exec_eq, guarded_admitted ha]
    cases hr : rule i s with
    | done v w => rw [hr] at he; exact absurd he (h _)
    | raised e w => rw [hr] at he; exact absurd he (h _)
    | stuck f => rw [hr] at he; exact .inl ⟨f, rfl, he⟩
    | refused r => rw [hr] at he; exact .inr ⟨r, rfl, he⟩

/-! ### When a command is refused (R180, R243) -/

theorem refused_by_mode {i : Instr} {m : Mode} {s : State} (hi : modeNeeded i = some m) (h : s.mode ≠ m) :
    admission i s = some .badSequence := by
  unfold admission modeAdmits; rw [hi]; simp [h]

theorem refused_by_stream {i : Instr} {s : State} (hi : modeAdmits i s = true) (h : streamAdmits i s = false) :
    admission i s = some .noStream := by
  unfold admission; rw [if_neg (by simp [hi]), if_pos h]

theorem refused_by_operand {i : Instr} {s : State} {st : Status} (hi : modeAdmits i s = true) (hs : streamAdmits i s = true)
    (h : operandRefusal i s = some st) : admission i s = some st := by
  unfold admission; rw [if_neg (by simp [hi]), if_neg (by simp [hs]), h]

theorem modeAdmits_of {i : Instr} {m : Mode} {s : State} (hi : modeNeeded i = some m) (h : s.mode = m) :
    modeAdmits i s = true := by
  unfold modeAdmits; rw [hi]; simp [h]

/-! ### What an admitted command may rely on (R180) -/

theorem admission_none {i : Instr} {s : State} (h : admission i s = none) :
    modeAdmits i s = true ∧ streamAdmits i s = true ∧ operandRefusal i s = none := by
  unfold admission at h
  split at h
  · cases h
  · split at h
    · cases h
    · rename_i h1 h2; exact ⟨by simpa using h1, by simpa using h2, h⟩

theorem admitted_encctx {x : Bit} {c : BitVec 16} {s : State} :
    admission (.encctx x c) s = none ↔ s.mode = .enc ∧ c.toNat < s.ctx.length := by
  unfold admission modeAdmits modeNeeded streamAdmits operandRefusal contextIndex
  by_cases h1 : s.mode = .enc <;> by_cases h2 : c.toNat < s.ctx.length <;> simp [h1, h2]

theorem admitted_decctx {c : BitVec 16} {s : State} :
    admission (.decctx c) s = none ↔ s.mode = .dec ∧ c.toNat < s.ctx.length := by
  unfold admission modeAdmits modeNeeded streamAdmits operandRefusal contextIndex
  by_cases h1 : s.mode = .dec <;> by_cases h2 : c.toNat < s.ctx.length <;> simp [h1, h2]

theorem admitted_encprb {x g : Bit} {p : BitVec 16} {s : State} :
    admission (.encprb x g p) s = none ↔ s.mode = .enc ∧ 1 ≤ p.toNat ∧ p.toNat ≤ 0x7FFF := by
  rw [← legal_prob]
  unfold admission modeAdmits modeNeeded streamAdmits operandRefusal
  by_cases h1 : s.mode = .enc <;> by_cases h2 : probLegal p = true <;> simp [h1, h2]

theorem admitted_decprb {g : Bit} {p : BitVec 16} {s : State} :
    admission (.decprb g p) s = none ↔ s.mode = .dec ∧ 1 ≤ p.toNat ∧ p.toNat ≤ 0x7FFF := by
  rw [← legal_prob]
  unfold admission modeAdmits modeNeeded streamAdmits operandRefusal
  by_cases h1 : s.mode = .dec <;> by_cases h2 : probLegal p = true <;> simp [h1, h2]

theorem admitted_enc {i : Instr} {s : State} (hi : i = .terme ∨ i = .termo ∨ i = .remb) :
    admission i s = none ↔ s.mode = .enc := by
  rcases hi with rfl | rfl | rfl <;>
  · unfold admission modeAdmits modeNeeded streamAdmits operandRefusal
    by_cases h1 : s.mode = .enc <;> simp [h1]

theorem admitted_restart {i : Instr} {s : State} (hi : i = .rstenc ∨ i = .rstdec) :
    admission i s = none ↔ s.cur ≠ none := by
  rcases hi with rfl | rfl <;>
  · unfold admission modeAdmits modeNeeded streamAdmits operandRefusal
    cases h1 : s.cur <;> simp

theorem admitted_chstr {z : Bit} {sid : BitVec 16} {s : State} :
    admission (.chstr z sid) s = none ↔ sid.toNat < s.sm.length := by
  unfold admission modeAdmits modeNeeded streamAdmits operandRefusal handleIndex
  by_cases h1 : sid.toNat < s.sm.length <;> simp [h1]

theorem admitted_reset (s : State) : admission .reset s = none := rfl

end Sys2Proof.Machine
end

