-- ==== Sys2Proof/Laws/Decode.lean ====
section
/-! SUPPORT. The fields of a word built from its two halves, and of the words the encoder builds (R71, R72). -/

namespace Sys2Proof

/-- A field above bit 15 lies in the upper half. -/
theorem field_high (h c : BitVec 16) {k n : Nat} (hk : 16 ≤ k) :
    (h ++ c : Word).extractLsb' k n = h.extractLsb' (k - 16) n := by
  apply BitVec.eq_of_getLsbD_eq
  intro i hi
  rw [BitVec.getLsbD_extractLsb', BitVec.getLsbD_extractLsb', BitVec.getLsbD_append]
  have h1 : ¬ k + i < 16 := by omega
  have h2 : k + i - 16 = k - 16 + i := by omega
  simp [hi, h1, h2]

/-- The lower half is `imm`. -/
theorem fieldImm_append (h c : BitVec 16) : fieldImm (h ++ c) = c := by
  unfold fieldImm
  apply BitVec.eq_of_getLsbD_eq
  intro i hi
  rw [BitVec.getLsbD_extractLsb', BitVec.getLsbD_append]
  simp [hi]

theorem fieldOp_append (h c : BitVec 16) : fieldOp (h ++ c) = h.extractLsb' 12 4 := field_high h c (by omega)
theorem fieldRsv1_append (h c : BitVec 16) : fieldRsv1 (h ++ c) = h.extractLsb' 9 3 := field_high h c (by omega)
theorem fieldX_append (h c : BitVec 16) : fieldX (h ++ c) = h.extractLsb' 8 1 := field_high h c (by omega)
theorem fieldRsv2_append (h c : BitVec 16) : fieldRsv2 (h ++ c) = h.extractLsb' 1 7 := field_high h c (by omega)
theorem fieldG_append (h c : BitVec 16) : fieldG (h ++ c) = h.extractLsb' 0 1 := field_high h c (by omega)

/-- Every word is its two halves. -/
theorem word_halves (w : Word) : w = w.extractLsb' 16 16 ++ fieldImm w := by
  unfold fieldImm
  apply BitVec.eq_of_getLsbD_eq
  intro i hi
  rw [BitVec.getLsbD_append, BitVec.getLsbD_extractLsb', BitVec.getLsbD_extractLsb']
  by_cases h : i < 16
  · simp [h]
  · have h1 : i - 16 < 16 := by omega
    have h2 : 16 + (i - 16) = i := by omega
    simp [h, h1, h2]

/-- The fields of the upper half the encoder builds (R72). -/
theorem headBits_fields (op : BitVec 4) (x g : Bit) :
    (headBits op x g).extractLsb' 12 4 = op ∧ (headBits op x g).extractLsb' 9 3 = 0 ∧ (headBits op x g).extractLsb' 8 1 = x ∧
    (headBits op x g).extractLsb' 1 7 = 0 ∧ (headBits op x g).extractLsb' 0 1 = g := by
  revert op x g; decide

/-- The fields of an encoded word (R71, R72). -/
theorem encoded_fields (op : BitVec 4) (x g : Bit) (c : BitVec 16) :
    fieldOp (headBits op x g ++ c) = op ∧ fieldRsv1 (headBits op x g ++ c) = 0 ∧ fieldX (headBits op x g ++ c) = x ∧
    fieldRsv2 (headBits op x g ++ c) = 0 ∧ fieldG (headBits op x g ++ c) = g ∧ fieldImm (headBits op x g ++ c) = c := by
  obtain ⟨h1, h2, h3, h4, h5⟩ := headBits_fields op x g
  rw [fieldOp_append, fieldRsv1_append, fieldX_append, fieldRsv2_append, fieldG_append, fieldImm_append]
  exact ⟨h1, h2, h3, h4, h5, rfl⟩

/-- A mask over both halves. -/
theorem and_halves (h c mh ml : BitVec 16) : (h ++ c : Word) &&& (mh ++ ml) = (h &&& mh) ++ (c &&& ml) := by
  rw [BitVec.and_append]

/-- A comparison of both halves. -/
theorem append_beq (h c k d : BitVec 16) : ((h ++ c : Word) == (k ++ d)) = ((h == k) && (c == d)) := by
  rw [Bool.eq_iff_iff]
  simp only [beq_iff_eq, Bool.and_eq_true]
  refine ⟨fun hh => ?_, fun hh => by rw [hh.1, hh.2]⟩
  have h1 : (h ++ c : Word).extractLsb' 16 16 = (k ++ d : Word).extractLsb' 16 16 := by rw [hh]
  have h2 : fieldImm (h ++ c) = fieldImm (k ++ d) := by rw [hh]
  rw [fieldImm_append, fieldImm_append] at h2
  rw [field_high h c (by omega), field_high k d (by omega)] at h1
  exact ⟨by simpa using h1, h2⟩

/-- A row of the opcode map in halves: which bits of each half it compares, and with what. -/
theorem row_hits {r : OpcodeRow} {mh ml ph pl : BitVec 16} (hm : r.mask = mh ++ ml) (hp : r.pattern = ph ++ pl)
    (h c : BitVec 16) : r.hits (h ++ c) = ((h &&& mh == ph) && (c &&& ml == pl)) := by
  unfold OpcodeRow.hits; rw [hm, hp, and_halves, append_beq]

end Sys2Proof
end

