-- ==== Sys2Proof/Laws/Frames.lean ====
section
/-! SUPPORT. What every micro-operation leaves alone, from any state, however it ends; and from that what every command
leaves alone (R62, R179). -/

namespace Sys2Proof.Machine

/-- However the operation ends with a state, that state has the property. -/
def Micro.ends {α : Type} (m : Micro α) (P : State → Prop) : Prop :=
  (∀ a u, m = .done a u → P u) ∧ (∀ e u, m = .raised e u → P u)

theorem Micro.ends_bind {α β : Type} {m : Micro α} {k : α → State → Micro β} {P Q : State → Prop}
    (hm : m.ends P) (hr : ∀ e u, m = .raised e u → Q u) (hk : ∀ a u, m = .done a u → P u → (k a u).ends Q) :
    (m.bind k).ends Q := by
  constructor
  · intro b u h
    obtain ⟨a, v, h1, h2⟩ := bind_eq_done.1 h
    exact (hk a v h1 (hm.1 a v h1)).1 b u h2
  · intro e u h
    rcases bind_eq_raised.1 h with h1 | ⟨a, v, h1, h2⟩
    · exact hr e u h1
    · exact (hk a v h1 (hm.1 a v h1)).2 e u h2

theorem Micro.ends_done {α : Type} {a : α} {s : State} {P : State → Prop} (h : P s) : (Micro.done a s).ends P :=
  ⟨fun _ _ hu => (by cases hu; exact h), fun _ _ hu => (by cases hu)⟩

theorem Micro.ends_raised {α : Type} {e : ExecError} {s : State} {P : State → Prop} (h : P s) :
    (Micro.raised e s : Micro α).ends P := ⟨fun _ _ hu => (by cases hu), fun _ _ hu => (by cases hu; exact h)⟩

theorem Micro.ends_refused {α : Type} {r : Refusal} {P : State → Prop} : (Micro.refused r : Micro α).ends P :=
  ⟨fun _ _ hu => (by cases hu), fun _ _ hu => (by cases hu)⟩

theorem Micro.ends_stuck {α : Type} {f : Fault} {P : State → Prop} : (Micro.stuck f : Micro α).ends P :=
  ⟨fun _ _ hu => (by cases hu), fun _ _ hu => (by cases hu)⟩

theorem Micro.ends.mono {α : Type} {m : Micro α} {P Q : State → Prop} (h : m.ends P) (hpq : ∀ u, P u → Q u) : m.ends Q :=
  ⟨fun a u hu => hpq u (h.1 a u hu), fun e u hu => hpq u (h.2 e u hu)⟩

/-- What an operation that only appends keeps. -/
structure Grows (s u : State) : Prop where
  frame : StreamFrame s u
  ctx : u.ctx = s.ctx
  position : s.L ≤ u.L
  stream : ∀ b, installed s = some b → ∃ e, installed u = some (b ++ e)

theorem Grows.of {s u : State} (hf : StreamFrame s u) (hx : u.ctx = s.ctx) (hL : u.L = s.L) (hi : installed u = installed s) :
    Grows s u := ⟨hf, hx, by omega, fun b hb => ⟨[], by rw [hi, hb]; simp⟩⟩

theorem Grows.refl (s : State) : Grows s s := Grows.of (StreamFrame.refl s) rfl rfl rfl

theorem Grows.trans {s u v : State} (h : Grows s u) (k : Grows u v) : Grows s v where
  frame := h.frame.trans k.frame
  ctx := k.ctx.trans h.ctx
  position := le_trans h.position k.position
  stream := fun b hb => by
    obtain ⟨e, he⟩ := h.stream b hb
    obtain ⟨d, hd⟩ := k.stream _ he
    exact ⟨e ++ d, by rw [hd, List.append_assoc]⟩

theorem shiftOnce_grows (s : State) : Grows s (shiftOnce s) :=
  Grows.of ⟨rfl, rfl, rfl, rfl, rfl, rfl, rfl, rfl, fun _ _ => rfl⟩ rfl rfl rfl

theorem shiftByCount_grows (s : State) : Grows s (shiftByCount s) := Grows.of (shiftByCount_frame s) rfl rfl rfl

theorem transferByte_grows (s : State) : (transferByte s).ends (Grows s) := by
  constructor
  · intro a u h
    obtain ⟨hf, hx, -, hL, -, hi⟩ := transferByte_done h
    exact ⟨hf, hx, by omega, fun b hb => by obtain ⟨e, -, he⟩ := hi b hb; exact ⟨e, he⟩⟩
  · intro e u h
    obtain ⟨-, hf, hx, -, -, hL, hi, -⟩ := transferByte_raised_frame h
    exact Grows.of hf hx hL hi

theorem renormEnc_grows (fuel : Nat) : ∀ s : State, (renormEnc fuel s).ends (Grows s) := by
  induction fuel with
  | zero => intro s; exact Micro.ends_stuck
  | succ fuel ih =>
    intro s
    unfold renormEnc
    split
    · have hone : (if (shiftOnce s).t = 0 then transferByte (shiftOnce s) else .done () (shiftOnce s)).ends (Grows s) := by
        split
        · exact (transferByte_grows _).mono fun u hu => (shiftOnce_grows s).trans hu
        · exact Micro.ends_done (shiftOnce_grows s)
      exact Micro.ends_bind hone (fun e u h => hone.2 e u h) fun a u _ hu => (ih u).mono fun v hv => hu.trans hv
    · exact Micro.ends_done (Grows.refl s)

theorem flushLoop_grows (fuel : Nat) : ∀ (n : Int) (s : State), (flushLoop fuel n s).ends (Grows s) := by
  induction fuel with
  | zero => intro n s; exact Micro.ends_done (Grows.refl s)
  | succ fuel ih =>
    intro n s
    unfold flushLoop
    split
    · exact Micro.ends_bind (transferByte_grows s) (fun e u h => (transferByte_grows s).2 e u h) fun a u _ hu =>
        (ih _ _).mono fun v hv => (hu.trans (shiftByCount_grows u)).trans hv
    · exact Micro.ends_done (Grows.refl s)

/-- What an encoder step leaves alone, from any state: all but A, C, t, Tr, L, the entry of its context, and appends. -/
structure CodedFrame (s u : State) : Prop where
  frame : StreamFrame s u
  position : s.L ≤ u.L
  stream : ∀ b, installed s = some b → ∃ e, installed u = some (b ++ e)

theorem encStep_frame {p : BitVec 16} (hp : p.toNat ≤ 0x7FFF) (mps x : Bit) (cx : Option Nat) (s : State) :
    (encStep p mps x cx s).ends fun u => CodedFrame s u ∧ u.ctx = (encUpdate p mps x cx s).ctx := by
  have hn := encUpdate_law hp mps x cx s
  have h0 : CodedFrame s (encUpdate p mps x cx s) :=
    ⟨hn.frame, by rw [hn.position], fun b hb => ⟨[], by rw [hn.installed, hb]; simp⟩⟩
  exact (renormEnc_grows _ _).mono fun u hu => ⟨⟨h0.frame.trans hu.frame, le_trans h0.position hu.position, fun b hb => by
    obtain ⟨e, he⟩ := hu.stream b (hn.installed.trans hb); exact ⟨e, he⟩⟩, hu.ctx⟩

/-- What a decode micro-operation leaves alone, from any state. -/
structure ReadsOnly (s u : State) : Prop where
  frame : ReadFrame s u
  ctx : u.ctx = s.ctx
  position : s.L ≤ u.L

theorem ReadsOnly.refl (s : State) : ReadsOnly s s := ⟨ReadFrame.refl s, rfl, le_refl _⟩

theorem ReadsOnly.trans {s u v : State} (h : ReadsOnly s u) (k : ReadsOnly u v) : ReadsOnly s v :=
  ⟨h.frame.trans k.frame, k.ctx.trans h.ctx, le_trans h.position k.position⟩

theorem fillLsb_reads (s : State) : (fillLsb s).ends (ReadsOnly s) := by
  cases hb : installed s with
  | none =>
    have : fillLsb s = .raised .streamIO (startFill s) := by
      have h2 : installed (startFill s) = none := hb
      unfold fillLsb streamLen withInstalled
      rw [h2]; rfl
    rw [this]
    exact Micro.ends_raised ⟨⟨rfl, rfl, rfl, rfl, rfl, rfl, rfl, rfl⟩, rfl, le_refl _⟩
  | some b =>
    rcases fillLsb_cases hb with ⟨u, h, hl⟩ | ⟨h, -⟩ | ⟨h, -⟩ | ⟨h, -⟩
    · rw [h]; exact Micro.ends_done ⟨hl.readFrame, hl.ctx, hl.position.1⟩
    · rw [h]
      exact Micro.ends_raised ⟨⟨rfl, rfl, rfl, rfl, rfl, rfl, rfl, rfl⟩, rfl, le_refl _⟩
    · rw [h]; exact Micro.ends_refused
    · rw [h]; exact Micro.ends_refused

theorem renormDec_reads (fuel : Nat) : ∀ s : State, (renormDec fuel s).ends (ReadsOnly s) := by
  induction fuel with
  | zero => intro s; exact Micro.ends_stuck
  | succ fuel ih =>
    intro s
    unfold renormDec
    split
    · have hone : (if s.t = 0 then fillLsb s else .done () s).ends (ReadsOnly s) := by
        split
        · exact fillLsb_reads s
        · exact Micro.ends_done (ReadsOnly.refl s)
      exact Micro.ends_bind hone (fun e u h => hone.2 e u h) fun a u _ hu =>
        (ih (shiftOnce u)).mono fun v hv => (hu.trans ⟨shiftOnce_frame u, rfl, le_refl _⟩).trans hv
    · exact Micro.ends_done (ReadsOnly.refl s)

theorem decStep_frame {p : BitVec 16} (hp : p.toNat ≤ 0x7FFF) (mps : Bit) (cx : Option Nat) (s : State) :
    (decStep p mps cx s).ends fun u => ReadFrame s u ∧ s.L ≤ u.L ∧ u.ctx = (decUpdate p mps cx s).2.ctx := by
  have hl := decUpdate_law hp mps cx s
  have hone := (renormDec_reads renormFuel (decUpdate p mps cx s).2).mono (Q := fun u => ReadFrame s u ∧ s.L ≤ u.L ∧
    u.ctx = (decUpdate p mps cx s).2.ctx) fun u hu => ⟨hl.frame.trans hu.frame, by have := hu.position; rw [hl.position] at this; exact this, hu.ctx⟩
  exact Micro.ends_bind hone (fun e u h => hone.2 e u h) fun a u _ hu => Micro.ends_done hu

/-- RSTDEC's rule reads only; where it ends it also sets the mode (R172). -/
theorem startDecoding_reads (s : State) :
    (∀ a u, startDecoding s = .done a u → ReadFrame { s with mode := .dec } u ∧ u.ctx = s.ctx) ∧
    (∀ e u, startDecoding s = .raised e u → ReadFrame s u ∧ u.ctx = s.ctx) := by
  have h0 : ReadFrame s (clearForDecoding s) := ⟨rfl, rfl, rfl, rfl, rfl, rfl, rfl, rfl⟩
  have h1 := fillLsb_reads (clearForDecoding s)
  have hs : ∀ v, ReadFrame v (shiftByCount v) := fun v => ⟨rfl, rfl, rfl, rfl, rfl, rfl, rfl, rfl⟩
  constructor
  · intro a u h
    unfold startDecoding at h
    obtain ⟨⟨⟩, v, hv, h⟩ := bind_eq_done.1 h
    obtain ⟨⟨⟩, w, hw, h⟩ := bind_eq_done.1 h
    cases h
    have g1 := h1.1 _ _ hv
    have g2 := (fillLsb_reads _).1 _ _ hw
    have g := ((h0.trans g1.frame).trans (hs v)).trans g2.frame
    exact ⟨⟨g.ctxLength, rfl, g.cur, g.sm, g.cap, g.lw, g.responses, g.host⟩, g2.ctx.trans g1.ctx⟩
  · intro e u h
    unfold startDecoding at h
    rcases bind_eq_raised.1 h with h | ⟨⟨⟩, v, hv, h⟩
    · have g1 := h1.2 _ _ h
      exact ⟨h0.trans g1.frame, g1.ctx⟩
    · have g1 := h1.1 _ _ hv
      rcases bind_eq_raised.1 h with h | ⟨⟨⟩, w, hw, h⟩
      · have g2 := (fillLsb_reads _).2 _ _ h
        exact ⟨((h0.trans g1.frame).trans (hs v)).trans g2.frame, g2.ctx.trans g1.ctx⟩
      · cases h

/-- What the terminations leave alone, from any state: they extend the installed buffer or cut it short. -/
structure FlushFrame (s u : State) : Prop where
  frame : StreamFrame s u
  ctx : u.ctx = s.ctx
  position : s.L ≤ u.L
  stream : ∀ b, installed s = some b → ∃ e, installed u = some e ∧ (b <+: e ∨ e <+: b)

theorem Grows.flushFrame {s u : State} (h : Grows s u) : FlushFrame s u :=
  ⟨h.frame, h.ctx, h.position, fun b hb => by obtain ⟨e, he⟩ := h.stream b hb; exact ⟨_, he, .inl ⟨e, rfl⟩⟩⟩

/-- A truncation after appends: still an extension or a truncation. -/
theorem prefix_or_of_prefix {b c d : Buffer} (h : b <+: c ∨ c <+: b) (hd : d <+: c) : b <+: d ∨ d <+: b := by
  rcases h with h | h
  · exact List.prefix_or_prefix_of_prefix h hd
  · exact .inr (hd.trans h)

theorem FlushFrame.truncate {s u v : State} {n : Int} (h : FlushFrame s u) (hv : streamTrunc n u = .done () v) :
    FlushFrame s v := by
  obtain ⟨c, hc, -, -, rfl⟩ := streamTrunc_done hv
  refine ⟨h.frame.trans (StreamFrame.setInstalled _ _), by simpa using h.ctx, by simpa using h.position, fun b hb => ?_⟩
  obtain ⟨e, he, hp⟩ := h.stream b hb
  rw [hc] at he; cases he
  exact ⟨_, installed_setInstalled hc _, prefix_or_of_prefix hp (List.take_prefix _ _)⟩

theorem streamTrunc_raised {s u : State} {n : Int} {e : ExecError} (h : streamTrunc n s = .raised e u) : u = s := by
  unfold streamTrunc withInstalled at h
  split at h
  · cases h; rfl
  · beta_reduce at h
    split at h
    · cases h
    · cases h; rfl

theorem dropStuffedTail_frame {s u : State} (h : FlushFrame s u) : (dropStuffedTail u).ends (FlushFrame s) := by
  unfold dropStuffedTail
  split
  · constructor
    · intro a v hv
      obtain ⟨n, w, h1, h2⟩ := bind_eq_done.1 hv
      obtain ⟨rfl, -⟩ := streamLen_done h1
      exact h.truncate h2
    · intro e v hv
      rcases bind_eq_raised.1 hv with h1 | ⟨n, w, h1, h2⟩
      · unfold streamLen withInstalled at h1
        split at h1
        · cases h1; exact h
        · cases h1
      · obtain ⟨rfl, -⟩ := streamLen_done h1
        rw [streamTrunc_raised h2]; exact h
  · exact Micro.ends_done h

theorem easyFlush_frame (s : State) : (easyFlush s).ends (FlushFrame s) := by
  have h1 := (flushLoop_grows flushFuel (27 - 15 - (s.t.toNat : Int)) (shiftByCount s)).mono fun u hu =>
    (shiftByCount_grows s).trans hu
  unfold easyFlush
  refine Micro.ends_bind h1 (fun e u h => (h1.2 e u h).flushFrame) fun a u _ hu => ?_
  have h2 := (transferByte_grows u).mono fun v hv => hu.trans hv
  exact Micro.ends_bind h2 (fun e v h => (h2.2 e v h).flushFrame) fun a v _ hv => dropStuffedTail_frame hv.flushFrame

/-- A read, whatever it answers, changes nothing. -/
theorem memRead_same (i : Nat) (s : State) : (memRead i s).ends fun u => u = s := by
  unfold memRead withInstalled
  split
  · exact Micro.ends_raised rfl
  · beta_reduce
    split
    · exact Micro.ends_done rfl
    · exact Micro.ends_raised rfl

theorem streamLen_same (s : State) : (streamLen s).ends fun u => u = s := by
  unfold streamLen withInstalled
  split
  · exact Micro.ends_raised rfl
  · exact Micro.ends_done rfl

theorem minFlushLoop_same {Cr Ar L0 : Nat} {s : State} (left : Nat) :
    ∀ (nb Rf : Nat) (Sf sh : Int), (minFlushLoop Cr Ar L0 s left nb Rf Sf sh).ends fun u => u = s := by
  induction left with
  | zero => intro nb Rf Sf sh; exact Micro.ends_done rfl
  | succ left ih =>
    intro nb Rf Sf sh
    unfold minFlushLoop
    split
    · exact Micro.ends_bind (memRead_same _ s) (fun e u h => (memRead_same _ s).2 e u h) fun a u _ _ => ih _ _ _ _
    · exact Micro.ends_done rfl

theorem minFlush_same (z : Snapshot) (s : State) : (minFlush z s).ends fun u => u = s := by
  unfold minFlush
  exact Micro.ends_bind (streamLen_same s) (fun e u h => (streamLen_same s).2 e u h) fun a u _ hu => by
    rw [hu]; exact minFlushLoop_same _ _ _ _ _

theorem trimPairs_same {s : State} (fuel : Nat) : ∀ l, (trimPairs fuel l s).ends fun u => u = s := by
  induction fuel with
  | zero => intro l; exact Micro.ends_done rfl
  | succ fuel ih =>
    intro l
    unfold trimPairs
    split
    · refine Micro.ends_bind (memRead_same _ s) (fun e u h => (memRead_same _ s).2 e u h) fun a u _ _ => ?_
      refine Micro.ends_bind (memRead_same _ s) (fun e u h => (memRead_same _ s).2 e u h) fun a u _ _ => ?_
      split
      · exact ih _
      · exact Micro.ends_done rfl
    · exact Micro.ends_done rfl

theorem postTrim_same (l : Nat) (s : State) : (postTrim l s).ends fun u => u = s := by
  have h1 : (trimByte l s).ends fun u => u = s := by
    unfold trimByte
    split
    · exact Micro.ends_bind (memRead_same _ s) (fun e u h => (memRead_same _ s).2 e u h) fun a u _ hu => Micro.ends_done hu
    · exact Micro.ends_done rfl
  unfold postTrim
  exact Micro.ends_bind h1 (fun e u h => h1.2 e u h) fun a u _ hu => by rw [hu]; exact trimPairs_same _ _

theorem optimalFlush_frame (s : State) : (optimalFlush s).ends (FlushFrame s) := by
  unfold optimalFlush
  refine Micro.ends_bind (streamLen_same s) (fun e u h => ?_) fun L0 u _ hu => ?_
  · rw [(streamLen_same s).2 e u h]; exact (Grows.refl s).flushFrame
  subst hu
  refine Micro.ends_bind (easyFlush_frame u) (fun e v h => (easyFlush_frame u).2 e v h) fun a v _ hv => ?_
  refine Micro.ends_bind (minFlush_same _ v) (fun e w h => ?_) fun nb w _ hw => ?_
  · rw [(minFlush_same _ v).2 e w h]; exact hv
  subst hw
  refine Micro.ends_bind (postTrim_same _ w) (fun e x h => ?_) fun l x _ hx => ?_
  · rw [(postTrim_same _ w).2 e x h]; exact hv
  subst hx
  exact ⟨fun a y hy => hv.truncate hy, fun e y hy => by rw [streamTrunc_raised hy]; exact hv⟩

/-! ### The terminations neither read nor write A (R200), and only read it for the snapshot (R201) -/

theorem transferByte_width (s : State) : (transferByte s).ends fun u => u.A = s.A :=
  ⟨fun _ _ h => (transferByte_done h).2.2.1, fun _ _ h => (transferByte_raised_frame h).2.2.2.1⟩

theorem flushLoop_width (fuel : Nat) : ∀ (n : Int) (s : State), (flushLoop fuel n s).ends fun u => u.A = s.A := by
  induction fuel with
  | zero => intro n s; exact Micro.ends_done rfl
  | succ fuel ih =>
    intro n s
    unfold flushLoop
    split
    · exact Micro.ends_bind (transferByte_width s) (fun e u h => (transferByte_width s).2 e u h) fun a u _ hu =>
        (ih _ (shiftByCount u)).mono fun v hv => hv.trans hu
    · exact Micro.ends_done rfl

theorem streamTrunc_width (n : Int) (s : State) : (streamTrunc n s).ends fun u => u.A = s.A :=
  ⟨fun _ _ h => by obtain ⟨c, -, -, -, rfl⟩ := streamTrunc_done h; simp, fun _ _ h => by rw [streamTrunc_raised h]⟩

theorem easyFlush_width (s : State) : (easyFlush s).ends fun u => u.A = s.A := by
  have h1 := flushLoop_width flushFuel (27 - 15 - (s.t.toNat : Int)) (shiftByCount s)
  unfold easyFlush
  refine Micro.ends_bind h1 (fun e u h => h1.2 e u h) fun a u _ hu => ?_
  have h2 := (transferByte_width u).mono fun v (hv : v.A = u.A) => hv.trans (show u.A = s.A from hu)
  refine Micro.ends_bind h2 (fun e v h => h2.2 e v h) fun a v _ hv => ?_
  unfold dropStuffedTail
  split
  · refine Micro.ends_bind (streamLen_same v) (fun e w h => ?_) fun n w _ hw => ?_
    · rw [(streamLen_same v).2 e w h]; exact hv
    · rw [hw]; exact (streamTrunc_width _ v).mono fun x hx => hx.trans hv
  · exact Micro.ends_done hv

theorem optimalFlush_width (s : State) : (optimalFlush s).ends fun u => u.A = s.A := by
  unfold optimalFlush
  refine Micro.ends_bind (streamLen_same s) (fun e u h => by rw [(streamLen_same s).2 e u h]) fun L0 u _ hu => ?_
  subst hu
  refine Micro.ends_bind (easyFlush_width u) (fun e v h => (easyFlush_width u).2 e v h) fun a v _ hv => ?_
  refine Micro.ends_bind (minFlush_same _ v) (fun e w h => by rw [(minFlush_same _ v).2 e w h]; exact hv) fun nb w _ hw => ?_
  subst hw
  refine Micro.ends_bind (postTrim_same _ w) (fun e x h => by rw [(postTrim_same _ w).2 e x h]; exact hv) fun l x _ hx => ?_
  subst hx
  exact (streamTrunc_width _ x).mono fun y hy => hy.trans hv

end Sys2Proof.Machine
end

