-- ==== Sys2Proof/Laws/Held.lean ====
section
/-! SUPPORT. Every micro-operation keeps the form of the store (R50) and the range of L (R26); what each rule leaves behind
in a state that meets the invariant. -/

namespace Sys2Proof.Machine

/-- The store in form and L within its width. -/
structure Held (s : State) : Prop where
  store : Memory.wf s.cap s.sm = true
  position : s.L ≤ positionMax s.lw

theorem Held.congr {s u : State} (h : Held s) (h1 : u.cap = s.cap) (h2 : u.sm = s.sm) (h3 : u.L = s.L) (h4 : u.lw = s.lw) :
    Held u := ⟨by rw [h1, h2]; exact h.store, by rw [h3, h4]; exact h.position⟩

theorem memAppend_held {s : State} (v : Byte) (h : Held s) : (memAppend v s).ends Held := by
  constructor
  · intro a u hu
    refine ⟨memAppend_wf h.store hu, ?_⟩
    obtain ⟨b, -, -, rfl⟩ := memAppend_done hu
    simpa using h.position
  · intro e u hu
    obtain ⟨-, rfl, -⟩ := memAppend_raised hu
    exact h

theorem advancePosition_held {s : State} (h : Held s) : (advancePosition s).ends Held := by
  constructor
  · intro a u hu
    obtain ⟨hlt, rfl⟩ := advancePosition_done hu
    exact ⟨h.store, by show s.L + 1 ≤ positionMax s.lw; omega⟩
  · intro e u hu
    unfold advancePosition at hu
    split at hu <;> cases hu

theorem transferByte_held {s : State} (h : Held s) : (transferByte s).ends Held := by
  have hp : Held (propagateCarry s) := h.congr (by simp) (by simp) (by simp) (by simp)
  unfold transferByte
  split
  · have h1 := memAppend_held s.Tr h
    refine Micro.ends_bind h1 (fun e u hu => h1.2 e u hu) fun a u _ hu => ?_
    have h2 := advancePosition_held hu
    exact Micro.ends_bind h2 (fun e u hu => h2.2 e u hu) fun a v _ hv => Micro.ends_done (hv.congr rfl rfl rfl rfl)
  · have h1 : (emitUnlessFirst (propagateCarry s)).ends Held := by
      unfold emitUnlessFirst
      split
      · exact memAppend_held _ hp
      · exact Micro.ends_done hp
    refine Micro.ends_bind h1 (fun e u hu => h1.2 e u hu) fun a u _ hu => ?_
    have h2 := advancePosition_held hu
    refine Micro.ends_bind h2 (fun e u hu => h2.2 e u hu) fun a v _ hv => Micro.ends_done ?_
    split <;> exact hv.congr rfl rfl rfl rfl

theorem renormEnc_held (fuel : Nat) : ∀ s : State, Held s → (renormEnc fuel s).ends Held := by
  induction fuel with
  | zero => intro s _; exact Micro.ends_stuck
  | succ fuel ih =>
    intro s h
    have hs : Held (shiftOnce s) := h.congr rfl rfl rfl rfl
    unfold renormEnc
    split
    · have h1 : (if (shiftOnce s).t = 0 then transferByte (shiftOnce s) else .done () (shiftOnce s)).ends Held := by
        split
        · exact transferByte_held hs
        · exact Micro.ends_done hs
      exact Micro.ends_bind h1 (fun e u hu => h1.2 e u hu) fun a u _ hu => ih u hu
    · exact Micro.ends_done h

theorem flushLoop_held (fuel : Nat) : ∀ (n : Int) (s : State), Held s → (flushLoop fuel n s).ends Held := by
  induction fuel with
  | zero => intro n s h; exact Micro.ends_done h
  | succ fuel ih =>
    intro n s h
    unfold flushLoop
    split
    · have h1 := transferByte_held h
      exact Micro.ends_bind h1 (fun e u hu => h1.2 e u hu) fun a u _ hu => ih _ _ (hu.congr rfl rfl rfl rfl)
    · exact Micro.ends_done h

theorem streamTrunc_held {s : State} (n : Int) (h : Held s) : (streamTrunc n s).ends Held := by
  constructor
  · intro a u hu
    refine ⟨streamTrunc_wf h.store hu, ?_⟩
    obtain ⟨b, -, -, -, rfl⟩ := streamTrunc_done hu
    simpa using h.position
  · intro e u hu
    rw [streamTrunc_raised hu]; exact h

theorem easyFlush_held {s : State} (h : Held s) : (easyFlush s).ends Held := by
  have h1 := flushLoop_held flushFuel (27 - 15 - (s.t.toNat : Int)) (shiftByCount s) (h.congr rfl rfl rfl rfl)
  unfold easyFlush
  refine Micro.ends_bind h1 (fun e u hu => h1.2 e u hu) fun a u _ hu => ?_
  have h2 := transferByte_held hu
  refine Micro.ends_bind h2 (fun e u hu => h2.2 e u hu) fun a v _ hv => ?_
  unfold dropStuffedTail
  split
  · refine Micro.ends_bind (streamLen_same v) (fun e w hw => ?_) fun n w _ hw => ?_
    · rw [(streamLen_same v).2 e w hw]; exact hv
    · rw [hw]; exact streamTrunc_held _ hv
  · exact Micro.ends_done hv

theorem optimalFlush_held {s : State} (h : Held s) : (optimalFlush s).ends Held := by
  unfold optimalFlush
  refine Micro.ends_bind (streamLen_same s) (fun e u hu => by rw [(streamLen_same s).2 e u hu]; exact h) fun L0 u _ hu => ?_
  subst hu
  have h1 := easyFlush_held h
  refine Micro.ends_bind h1 (fun e v hv => h1.2 e v hv) fun a v _ hv => ?_
  refine Micro.ends_bind (minFlush_same _ v) (fun e w hw => by rw [(minFlush_same _ v).2 e w hw]; exact hv) fun nb w _ hw => ?_
  subst hw
  refine Micro.ends_bind (postTrim_same _ w) (fun e x hx => by rw [(postTrim_same _ w).2 e x hx]; exact hv) fun l x _ hx => ?_
  subst hx
  exact streamTrunc_held _ hv

theorem fillLsb_held {s : State} (h : Held s) : (fillLsb s).ends Held := by
  have h0 : Held (startFill s) := h.congr rfl rfl rfl rfl
  have hpad : ∀ v, Held v → Held (padOnes v) := fun v hv => hv.congr rfl rfl rfl rfl
  unfold fillLsb
  refine Micro.ends_bind (streamLen_same _) (fun e u hu => by rw [(streamLen_same _).2 e u hu]; exact h0) fun n u _ hu => ?_
  subst hu
  split
  · exact Micro.ends_refused
  · have h1 : (fillByte n (startFill s)).ends fun u => u = startFill s := by
      unfold fillByte
      split
      · exact memRead_same _ _
      · exact Micro.ends_done rfl
    refine Micro.ends_bind h1 (fun e v hv => by rw [h1.2 e v hv]; exact h0) fun bl v _ hv => ?_
    subst hv
    split
    · split
      · exact Micro.ends_done (hpad _ h0)
      · exact Micro.ends_raised (hpad _ h0)
    · have h2 := advancePosition_held (s := acceptByte bl (startFill s)) (h0.congr rfl rfl rfl rfl)
      exact Micro.ends_bind h2 (fun e w hw => h2.2 e w hw) fun a w _ hw => Micro.ends_done (hw.congr rfl rfl rfl rfl)

theorem renormDec_held (fuel : Nat) : ∀ s : State, Held s → (renormDec fuel s).ends Held := by
  induction fuel with
  | zero => intro s _; exact Micro.ends_stuck
  | succ fuel ih =>
    intro s h
    unfold renormDec
    split
    · have h1 : (if s.t = 0 then fillLsb s else .done () s).ends Held := by
        split
        · exact fillLsb_held h
        · exact Micro.ends_done h
      exact Micro.ends_bind h1 (fun e u hu => h1.2 e u hu) fun a u _ hu => ih _ (hu.congr rfl rfl rfl rfl)
    · exact Micro.ends_done h

end Sys2Proof.Machine
end

