-- ==== Sys2Proof/Laws/Rules.lean ====
section
/-! SUPPORT. What the rule of each command leaves behind in a state that meets the invariant: the pieces of the invariant
that the frames do not give. -/

namespace Sys2Proof.Machine

/-- A response word determines its status and its value (R76). -/
theorem responseWord_injective {st st' : Status} {v v' : BitVec 3} (h : responseWord st v = responseWord st' v') :
    st = st' ∧ v = v' := by
  have h1 : (responseWord st v).extractLsb' 28 4 = (responseWord st' v').extractLsb' 28 4 := by rw [h]
  have h2 : (responseWord st v).extractLsb' 0 3 = (responseWord st' v').extractLsb' 0 3 := by rw [h]
  have e1 : ∀ q w, (responseWord q w).extractLsb' 28 4 = statusCode q := by intro q; cases q <;> decide
  have e2 : ∀ q w, (responseWord q w).extractLsb' 0 3 = w := by intro q; cases q <;> decide
  rw [e1, e1] at h1
  rw [e2, e2] at h2
  refine ⟨?_, h2⟩
  revert h1; cases st <;> cases st' <;> decide

theorem responses_append_injective {l : List Word} {st st' : Status} {v v' : BitVec 3}
    (h : l ++ [responseWord st v] = l ++ [responseWord st' v']) : st = st' ∧ v = v' := by
  have := List.append_cancel_left h
  exact responseWord_injective (by simpa using this)

/-- No transition puts a context in state 46 (R156 d). -/
theorem encUpdate_ne_46 {p : BitVec 16} (hp : p.toNat ≤ 0x7FFF) {mps x : Bit} {cx : Option Nat} {s : State}
    (h : ∀ e ∈ s.ctx, e.state ≠ 46) : ∀ e ∈ (encUpdate p mps x cx s).ctx, e.state ≠ 46 := by
  intro e he
  rw [(encUpdate_law hp mps x cx s).ctx] at he
  split at he
  · split at he
    · exact transition_mem h (.inl he)
    · exact h e he
  · exact transition_mem h (.inr he)

theorem decUpdate_ne_46 {p : BitVec 16} (hp : p.toNat ≤ 0x7FFF) {mps : Bit} {cx : Option Nat} {s : State}
    (h : ∀ e ∈ s.ctx, e.state ≠ 46) : ∀ e ∈ (decUpdate p mps cx s).2.ctx, e.state ≠ 46 := by
  intro e he
  rw [(decUpdate_law hp mps cx s).ctx] at he
  split at he
  · split at he
    · exact transition_mem h (.inl he)
    · exact h e he
  · exact transition_mem h (.inr he)

/-- A completed encoder step leaves the invariant of mode ENC (R31, R33). -/
theorem EncodeRun.inv {s u : State} {b e : Buffer} {p : BitVec 16} {mps x : Bit} {cx : Option Nat} (hs : EncodeInv s)
    (hn : Narrowed p mps x cx s (encUpdate p mps x cx s)) (hb : installed s = some b)
    (hr : EncodeRun (encUpdate p mps x cx s) u b e) (hc : Coding u) (hA : 0x8000 ≤ u.A.toNat) : EncodeInv u where
  interval := hA
  countLow := hc.countLow
  countHigh := hc.countHigh
  position := hc.position
  appended := fun c hc' => by
    have h1 := hr.stream
    rw [hn.position] at h1
    rw [h1] at hc'; cases hc'
    have h2 := hr.position
    rw [hn.position] at h2
    have h3 := hs.appended b hb
    have h4 := hs.position
    by_cases h : s.L < 0
    · rw [if_pos h]; rw [h2]
      cases e <;> simp <;> omega
    · rw [if_neg h]; rw [h2]; simp; omega
  top := hc.top
  first := hc.first

theorem DecodeInv.congr {s u : State} (h : DecodeInv s) (hA : u.A = s.A) (ht : u.t = s.t) (hL : u.L = s.L)
    (hi : installed u = installed s) : DecodeInv u :=
  ⟨by rw [hA]; exact h.interval, by rw [ht]; exact h.count, by rw [hL]; exact h.positionLow,
    fun b hb => by rw [hL]; exact h.positionHigh b (hi ▸ hb)⟩

theorem EncodeInv.congr {s u : State} (h : EncodeInv s) (hA : u.A = s.A) (hC : u.C = s.C) (ht : u.t = s.t) (hT : u.Tr = s.Tr)
    (hL : u.L = s.L) (hi : installed u = installed s) : EncodeInv u := by
  have htop : intervalTop u = intervalTop s := by unfold intervalTop; rw [hA, hC, ht]
  exact ⟨by rw [hA]; exact h.interval, by rw [ht]; exact h.countLow, by rw [ht]; exact h.countHigh, by rw [hL]; exact h.position,
    fun b hb => by rw [hL]; exact h.appended b (hi ▸ hb), by rw [htop]; exact h.top,
    fun h0 => by rw [htop, hT]; exact h.first (hL ▸ h0)⟩

/-- Everything RSTDEC's rule can do with a stream installed (R172): the block decodes; it meets a marker in the second
fill; or L overflows. -/
theorem startDecoding_cases {s : State} {b : Buffer} (hb : installed s = some b) :
    (∃ u, startDecoding s = .done () u ∧ DecodeInv u ∧ installed u = some b) ∨
    (∃ u, startDecoding s = .raised .invalidMarker u ∧ AtMarker u b ∧ 0 ≤ u.L ∧ u.L ≤ b.length ∧ ReadFrame s u ∧
      ¬ MarkerFree b) ∨
    (startDecoding s = .refused .positionOverflow ∧ positionMax s.lw < b.length) := by
  have hr0 : Reading (clearForDecoding { s with t := 0 }) b :=
    ⟨hb, by show (0#4).toNat ≤ 8; decide, le_refl 0, by show (0 : Int) ≤ _; omega⟩
  have hsame : fillLsb (clearForDecoding s) = fillLsb (clearForDecoding { s with t := 0 }) := rfl
  unfold startDecoding
  rw [hsame]
  rcases fillLsb_reading hr0 with ⟨u, h1, h2⟩ | ⟨u, h1, h2, h3, h4, h5, h6, h7⟩ | ⟨h1, h2⟩
  · rw [h1, bind_done]
    have hru := h2.reading hr0
    have hrs : Reading (shiftByCount u) b := ⟨hru.stream, hru.count, hru.positionLow, hru.positionHigh⟩
    have hfr : ReadFrame s u := ReadFrame.trans (u := clearForDecoding { s with t := 0 })
      ⟨rfl, rfl, rfl, rfl, rfl, rfl, rfl, rfl⟩ h2.readFrame
    have hfs : ReadFrame s (shiftByCount u) := hfr.trans ⟨rfl, rfl, rfl, rfl, rfl, rfl, rfl, rfl⟩
    rcases fillLsb_reading hrs with ⟨v, g1, g2⟩ | ⟨v, g1, g2, g3, g4, g5, g6, g7⟩ | ⟨g1, g2⟩
    · rw [g1, bind_done]
      have hrv := g2.reading hrs
      have ht : (finishPreload v).t.toNat ≤ 8 := by rcases g2.count with h | h <;> simp [finishPreload, h]
      exact .inl ⟨_, rfl, ⟨by show 0x8000 ≤ 0x8000; omega, ht, hrv.positionLow, fun c hc => by
        have : installed v = some c := hc
        rw [hrv.stream] at this; cases this; exact hrv.positionHigh⟩, hrv.stream⟩
    · rw [g1, bind_raised]
      exact .inr (.inl ⟨v, rfl, g2, by rw [g6]; exact hrs.positionLow, by rw [g6]; exact hrs.positionHigh, hfs.trans g3,
        fun hm => g7 (h2.cleanAfter hm)⟩)
    · rw [g1, bind_refused]
      exact .inr (.inr ⟨rfl, by rw [hfs.lw] at g2; exact g2⟩)
  · exact absurd (fun hT => absurd hT (by show ¬ (0 : Byte) = 0xFF; decide)) h7
  · rw [h1, bind_refused]; exact .inr (.inr ⟨rfl, h2⟩)

theorem startDecoding_held {s : State} (hs : Memory.wf s.cap s.sm = true) (hw : 2 ≤ s.lw) : (startDecoding s).ends Held := by
  have hpm : (1 : Int) ≤ positionMax s.lw := by
    unfold positionMax
    have : (2 : Int) ^ 1 ≤ 2 ^ (s.lw - 1) := pow_le_pow_right₀ (by norm_num) (by omega)
    omega
  have h0 : Held (clearForDecoding s) := ⟨hs, by show (0 : Int) ≤ positionMax s.lw; omega⟩
  have h1 := fillLsb_held h0
  unfold startDecoding
  refine Micro.ends_bind h1 (fun e u hu => h1.2 e u hu) fun a u _ hu => ?_
  have h2 := fillLsb_held (s := shiftByCount u) (hu.congr rfl rfl rfl rfl)
  exact Micro.ends_bind h2 (fun e v hv => h2.2 e v hv) fun a v _ hv => Micro.ends_done (hv.congr rfl rfl rfl rfl)

/-- CHSTR's rule never fails once it is admitted (R178). -/
theorem changeStream_done {z : Bit} {sid : BitVec 16} {s : State} (h : sid.toNat < s.sm.length) :
    changeStream z sid s = .done () { s with
      cur := some sid, sm := if z = 1 then s.sm.set sid.toNat [] else s.sm, mode := .idle } := by
  have hi : installed (installHandle sid s) = some s.sm[sid.toNat] := installed_eq_some.2 ⟨sid, rfl, by simp [installHandle, h]⟩
  unfold changeStream
  by_cases hz : z = 1
  · rw [if_pos hz, if_pos hz]
    have := streamTrunc_some (n := 0) hi (by omega)
    rw [show ((0 : Nat) : Int) = 0 from rfl] at this
    rw [this, bind_done]
    rfl
  · rw [if_neg hz, if_neg hz, bind_done]; rfl

/-- `fill_lsb` neither reads nor writes A, the mode, the contexts and the responses (R133). -/
theorem fillLsb_ignores (A : BitVec 16) (m : Mode) (x : List Context)
    (l : List Word) (s : State) :
    (∃ v, fillLsb s = .done () v ∧
      fillLsb { s with A := A, mode := m, ctx := x, responses := l } =
        .done () { v with A := A, mode := m, ctx := x, responses := l }) ∨
    (∃ e v, fillLsb s = .raised e v ∧
      fillLsb { s with A := A, mode := m, ctx := x, responses := l } =
        .raised e { v with A := A, mode := m, ctx := x, responses := l }) ∨
    (∃ r, fillLsb s = .refused r ∧
      fillLsb { s with A := A, mode := m, ctx := x, responses := l } = .refused r) := by
  cases hb : installed s with
  | none =>
    refine .inr (.inl ⟨.streamIO, startFill s, ?_, ?_⟩)
    · unfold fillLsb streamLen withInstalled
      rw [show installed (startFill s) = none from hb]; rfl
    · unfold fillLsb streamLen withInstalled
      rw [show installed (startFill { s with A := A, mode := m, ctx := x, responses := l }) = none from hb]; rfl
  | some b =>
    have hb' : installed { s with A := A, mode := m, ctx := x, responses := l } = some b := hb
    by_cases h0 : s.L < 0 ∨ (b.length : Int) < s.L
    · refine .inr (.inr ⟨.positionOutsideStream, ?_, ?_⟩)
      · unfold fillLsb; rw [streamLen_some (s := startFill s) hb, bind_done, if_pos (by simpa using h0)]
      · unfold fillLsb
        rw [streamLen_some (s := startFill { s with A := A, mode := m, ctx := x, responses := l }) hb, bind_done, if_pos (by simpa using h0)]
    · by_cases h1 : s.L = b.length
      · exact .inl ⟨_, fillLsb_end hb h1, fillLsb_end hb' h1⟩
      · obtain ⟨n, hn⟩ : ∃ n : Nat, s.L = n := ⟨s.L.toNat, by omega⟩
        have hlt : n < b.length := by omega
        by_cases hmk : s.Tr = 0xFF ∧ 0x8F < b[n]
        · exact .inr (.inl ⟨_, _, fillLsb_marker hb hn hlt hmk.1 hmk.2, fillLsb_marker hb' hn hlt hmk.1 hmk.2⟩)
        · by_cases hL : s.L < positionMax s.lw
          · exact .inl ⟨_, fillLsb_data hb hn hlt hmk hL, fillLsb_data hb' hn hlt hmk hL⟩
          · have hov : ∀ s : State, installed s = some b → s.L = n → ¬ (s.Tr = 0xFF ∧ 0x8F < b[n]) →
                ¬ s.L < positionMax s.lw → fillLsb s = .refused .positionOverflow := by
              intro s hb hn hmk hL
              rw [fillLsb_unfold hb (by omega) (by omega)]
              unfold fillByte
              have hr : memRead (startFill s).L.toNat (startFill s) = .done b[n] (startFill s) := by
                have : (startFill s).L.toNat = n := by simp [hn]
                rw [this]; exact memRead_some (s := startFill s) hb hlt
              rw [if_pos (by simp only [startFill_L]; omega), hr, bind_done, if_neg]
              · unfold fillData advancePosition
                rw [if_neg (by simpa using hL), bind_refused]
              · rintro (h | h)
                · simp only [startFill_L] at h; omega
                · exact hmk h
            exact .inr (.inr ⟨_, hov s hb hn hmk hL, hov { s with A := A, mode := m, ctx := x, responses := l } hb hn hmk hL⟩)

/-- RSTDEC's rule forgets A, C, t, Tr, L and the mode and leaves the contexts and the responses alone; where it meets a marker, A
stays as it was (R274, R271, R245). -/
theorem startDecoding_ignores (A : BitVec 16) (C : Word) (t : BitVec 4) (T : Byte) (L : Int) (m : Mode)
    (x : List Context) (l : List Word) (s : State) :
    (∃ v, startDecoding s = .done () v ∧
      startDecoding { s with A := A, C := C, t := t, Tr := T, L := L, mode := m, ctx := x, responses := l } =
        .done () { v with ctx := x, responses := l }) ∨
    (∃ e v, startDecoding s = .raised e v ∧
      startDecoding { s with A := A, C := C, t := t, Tr := T, L := L, mode := m, ctx := x, responses := l } =
        .raised e { v with A := A, mode := m, ctx := x, responses := l }) ∨
    (∃ r, startDecoding s = .refused r ∧
      startDecoding { s with A := A, C := C, t := t, Tr := T, L := L, mode := m, ctx := x, responses := l } = .refused r) := by
  have h0 : startDecoding { s with A := A, C := C, t := t, Tr := T, L := L, mode := m, ctx := x, responses := l } =
      startDecoding { s with A := A, mode := m, ctx := x, responses := l } := rfl
  rw [h0]
  unfold startDecoding
  rcases fillLsb_ignores A m x l (clearForDecoding s) with ⟨v, h1, h2⟩ | ⟨e, v, h1, h2⟩ | ⟨r, h1, h2⟩ <;>
    (have h2' : fillLsb (clearForDecoding { s with A := A, mode := m, ctx := x, responses := l }) = _ := h2) <;> rw [h1, h2']
  · rw [bind_done, bind_done]
    rcases fillLsb_ignores A m x l (shiftByCount v) with ⟨w, g1, g2⟩ | ⟨e, w, g1, g2⟩ | ⟨r, g1, g2⟩ <;>
      (have g2' : fillLsb (shiftByCount { v with A := A, mode := m, ctx := x, responses := l }) = _ := g2) <;> rw [g1, g2']
    · exact .inl ⟨_, rfl, rfl⟩
    · exact .inr (.inl ⟨_, _, rfl, rfl⟩)
    · exact .inr (.inr ⟨_, rfl, rfl⟩)
  · exact .inr (.inl ⟨_, _, rfl, rfl⟩)
  · exact .inr (.inr ⟨_, rfl, rfl⟩)

end Sys2Proof.Machine
end

