-- ==== Sys2Proof/Laws/Whole.lean ====
section
/-! SUPPORT. Whole commands: what the rule of each command leaves alone from any state, when it answers, what it raises, and
the pieces of the invariant after it. -/

namespace Sys2Proof.Machine

theorem BlockInv.held {s : State} (h : BlockInv s) : Held s := ⟨h.store, h.positionHigh⟩

/-- Outside IDLE a stream is installed (R180). -/
theorem inv_installed {s} (h : BlockInv s) (hm : s.mode ≠ .idle) : ∃ b, installed s = some b := by
  have := h.stream hm
  cases hc : s.cur with
  | none => exact absurd hc this
  | some hd => exact ⟨s.sm[hd.toNat]'(h.handle _ hc), installed_eq_some.2 ⟨hd, hc, by simp [h.handle _ hc]⟩⟩

/-- The invariant of a block that has ended IDLE. -/
theorem inv_idle {s u} (h : BlockInv s) (hx : u.ctx.length = s.ctx.length) (h1 : u.mode = .idle) (hcur : ∀ h, u.cur = some h → h.toNat < u.sm.length)
   (hlw : u.lw = s.lw) (hh : Held u) (hL : -positionMax s.lw - 1 ≤ u.L) (h46 : ∀ e ∈ u.ctx, e.state ≠ 46) : BlockInv u where
  contexts := hx ▸ h.contexts
  width := hlw ▸ h.width
  store := hh.store
  handle := hcur
  stream := fun hm => absurd h1 hm
  positionLow := by rw [hlw]; exact hL
  positionHigh := hh.position
  adapting := h46
  encode := fun hm => by rw [h1] at hm; cases hm
  decode := fun hm => by rw [h1] at hm; cases hm

/-- The invariant of a block that goes on. -/
theorem inv_coding {s u} (h : BlockInv s) (hx : u.ctx.length = s.ctx.length)  (hcur : u.cur = s.cur) (hsl : u.sm.length = s.sm.length) (hst : u.mode ≠ .idle → u.cur ≠ none)
   (hlw : u.lw = s.lw) (hh : Held u) (hL : s.L ≤ u.L ∨ -1 ≤ u.L) (h46 : ∀ e ∈ u.ctx, e.state ≠ 46) (he : u.mode = .enc → EncodeInv u) (hd : u.mode = .dec → DecodeInv u) : BlockInv u where
  contexts := hx ▸ h.contexts
  width := hlw ▸ h.width
  store := hh.store
  handle := by rw [hcur, hsl]; exact h.handle
  stream := hst
  positionLow := by
    rw [hlw]; have := h.positionLow
    have hpm : (1:Int) ≤ positionMax s.lw := by
      unfold positionMax
      have : (2:Int)^1 ≤ 2^(s.lw - 1) := pow_le_pow_right₀ (by norm_num) (by have := h.width; omega)
      omega
    omega
  positionHigh := hh.position
  adapting := h46
  encode := he
  decode := hd

theorem inv_respond {s st v} (h : BlockInv s) : BlockInv (respond st v s) :=
 ⟨h.contexts, h.width, h.store, h.handle, h.stream, h.positionLow, h.positionHigh, h.adapting, fun m => (h.encode m).congr rfl rfl rfl rfl rfl rfl, fun m => (h.decode m).congr rfl rfl rfl rfl⟩
theorem inv_host {s l} (h : BlockInv s) : BlockInv {s with host := l} :=
 ⟨h.contexts, h.width, h.store, h.handle, h.stream, h.positionLow, h.positionHigh, h.adapting, fun m => (h.encode m).congr rfl rfl rfl rfl rfl rfl, fun m => (h.decode m).congr rfl rfl rfl rfl⟩

theorem encStep_inv {s p mps x cx} (h : BlockInv s) (hm : s.mode = .enc) (h1 : 1 ≤ p.toNat) (h2 : p.toNat ≤ 0x7FFF) :
  (∀ u, encStep p mps x cx s = .done () u → BlockInv u ∧ u.mode = .enc) ∧ (∀ e u, encStep p mps x cx s = .raised e u → BlockInv (toIdle u)) := by
  obtain ⟨b, hb⟩ := inv_installed h (by rw [hm]; decide)
  have hf := encStep_frame h2 mps x cx s
  have hn := encUpdate_law h2 mps x cx s
  have hh0 : Held (encUpdate p mps x cx s) := h.held.congr hn.frame.cap (by
      -- sm same?
      unfold encUpdate; simp only; split <;> (try split) <;> (try split) <;> simp) hn.position hn.frame.lw
  have hh := renormEnc_held renormFuel _ hh0
  have hs := h.encode hm
  constructor
  · intro u hu
    obtain ⟨hcf, hx⟩ := hf.1 _ _ hu
    refine ⟨inv_coding h hcf.frame.ctxLength hcf.frame.cur hcf.frame.smLength (fun _ => by rw [hcf.frame.cur]; exact h.stream (by rw [hm]; decide)) hcf.frame.lw (hh.1 _ _ hu) (.inl hcf.position) (by rw [hx]; exact encUpdate_ne_46 h2 h.adapting) (fun _ => ?_) (fun hd => by rw [hcf.frame.mode, hm] at hd; cases hd), hcf.frame.mode.trans hm⟩
    rcases encStep_cases (mps := mps) (x := x) (cx := cx) hs h1 h2 hb with ⟨v, e, g1, g2, g3, g4, g5⟩ | ⟨v, g1, g2⟩ | ⟨g1, g2⟩
    · rw [hu] at g1; cases g1
      exact g3.inv hs hn hb g4 g5
    · rw [hu] at g1; cases g1
    · rw [hu] at g1; cases g1
  · intro e u hu
    obtain ⟨hcf, hx⟩ := hf.2 _ _ hu
    have := hh.2 _ _ hu
    exact inv_idle h hcf.frame.ctxLength rfl (by show ∀ h, u.cur = some h → h.toNat < u.sm.length; rw [hcf.frame.cur, hcf.frame.smLength]; exact h.handle) hcf.frame.lw (this.congr rfl rfl rfl rfl) (by show _ ≤ u.L; have := hcf.position; have := h.positionLow; omega) (by show ∀ e ∈ u.ctx, _; rw [hx]; exact encUpdate_ne_46 h2 h.adapting)

theorem decStep_inv {s p mps cx} (h : BlockInv s) (hm : s.mode = .dec) (h1 : 1 ≤ p.toNat) (h2 : p.toNat ≤ 0x7FFF) :
  (∀ x u, decStep p mps cx s = .done x u → BlockInv u ∧ u.mode = .dec) ∧ (∀ e u, decStep p mps cx s = .raised e u → BlockInv (toIdle u)) := by
  obtain ⟨b, hb⟩ := inv_installed h (by rw [hm]; decide)
  have hf := decStep_frame h2 mps cx s
  have hn := decUpdate_law h2 mps cx s
  have hh0 : Held (decUpdate p mps cx s).2 := h.held.congr hn.frame.cap hn.frame.sm hn.position hn.frame.lw
  have hh : (decStep p mps cx s).ends Held := by
    have := renormDec_held renormFuel _ hh0
    exact Micro.ends_bind this (fun e u h => this.2 e u h) fun a u _ hu => Micro.ends_done hu
  have hs := h.decode hm
  constructor
  · intro x u hu
    obtain ⟨hcf, hL, hx⟩ := hf.1 _ _ hu
    refine ⟨inv_coding h hcf.ctxLength hcf.cur (by rw [hcf.sm]) (fun _ => by rw [hcf.cur]; exact h.stream (by rw [hm]; decide)) hcf.lw (hh.1 _ _ hu) (.inl hL) (by rw [hx]; exact decUpdate_ne_46 h2 h.adapting) (fun hd => by rw [hcf.mode, hm] at hd; cases hd) (fun _ => ?_), hcf.mode.trans hm⟩
    rcases decStep_cases (mps := mps) (cx := cx) hs h1 h2 hb with ⟨v, g1, g2, g3, -⟩ | ⟨v, g1, g2⟩ | ⟨g1, g2⟩
    · rw [hu] at g1; cases g1
      exact ⟨g3, g2.count, g2.positionLow, fun c hc => by rw [g2.stream] at hc; cases hc; exact g2.positionHigh⟩
    · rw [hu] at g1; cases g1
    · rw [hu] at g1; cases g1
  · intro e u hu
    obtain ⟨hcf, hL, hx⟩ := hf.2 _ _ hu
    have := hh.2 _ _ hu
    exact inv_idle h hcf.ctxLength rfl (by show ∀ h, u.cur = some h → h.toNat < u.sm.length; rw [hcf.cur, hcf.sm]; exact h.handle) hcf.lw (this.congr rfl rfl rfl rfl) (by show _ ≤ u.L; have := h.positionLow; omega) (by show ∀ e ∈ u.ctx, _; rw [hx]; exact decUpdate_ne_46 h2 h.adapting)

theorem flush_inv {s : State} {m : Micro Unit} (h : BlockInv s) (hf : m.ends (FlushFrame s)) (hh : m.ends Held) :
   (∀ u, m = .done () u → BlockInv (toIdle u)) ∧ (∀ e u, m = .raised e u → BlockInv (toIdle u)) := by
  have key : ∀ u, FlushFrame s u → Held u → BlockInv (toIdle u) := fun u hf hh =>
    inv_idle h hf.frame.ctxLength rfl (by show ∀ h, u.cur = some h → h.toNat < u.sm.length; rw [hf.frame.cur, hf.frame.smLength]; exact h.handle) hf.frame.lw (hh.congr rfl rfl rfl rfl) (by show _ ≤ u.L; have := hf.position; have := h.positionLow; omega) (by show ∀ e ∈ u.ctx, _; rw [hf.ctx]; exact h.adapting)
  exact ⟨fun u hu => key u (hf.1 _ _ hu) (hh.1 _ _ hu), fun e u hu => key u (hf.2 _ _ hu) (hh.2 _ _ hu)⟩

/-! ### What any rule leaves alone -/

/-- The frame of the command `i`, from any state in which it is admitted (R62, R63, R30, R26). -/
structure CommandFrame (i : Instr) (s u : State) : Prop where
  ctx : u.ctx.length = s.ctx.length
  sm : u.sm.length = s.sm.length
  cap : u.cap = s.cap
  lw : u.lw = s.lw
  host : u.host = s.host
  responses : u.responses = s.responses
  cur : u.cur ≠ s.cur → ∃ z sid, i = .chstr z sid ∧ u.cur = some sid
  pos : i ≠ .rstenc → i ≠ .rstdec → s.L ≤ u.L
  bytes : ∀ (sid : Nat) (b : Buffer), s.sm[sid]? = some b → ∃ c : Buffer, u.sm[sid]? = some c ∧ (b <+: c ∨ c <+: b)
  only : ∀ sid, isInstalled sid s = false → (∀ h, i = .chstr 1 h → h.toNat ≠ sid) → u.sm[sid]? = s.sm[sid]?

theorem bytes_of {s u : State} (hf : StreamFrame s u) (h : ∀ b, installed s = some b → ∃ e, installed u = some e ∧ (b <+: e ∨ e <+: b)) : ∀ (sid : Nat) (b : Buffer), s.sm[sid]? = some b → ∃ c : Buffer, u.sm[sid]? = some c ∧ (b <+: c ∨ c <+: b) := by
  intro sid b hb
  cases hin : isInstalled sid s with
  | false => exact ⟨b, by rw [hf.others sid hin, hb], .inl ⟨[], by simp⟩⟩
  | true =>
    unfold isInstalled at hin
    cases hc : s.cur with
    | none => simp [hc] at hin
    | some hd =>
      have heq : hd.toNat = sid := by simpa [hc] using hin
      subst heq
      obtain ⟨e, he, hp⟩ := h b (installed_eq_some.2 ⟨hd, hc, hb⟩)
      obtain ⟨hd', h1, h2⟩ := installed_eq_some.1 he
      rw [hf.cur, hc] at h1; cases h1
      exact ⟨e, h2, hp⟩

theorem CommandFrame.same {i s u} (h1 : u.ctx.length = s.ctx.length) (h2 : u.sm = s.sm) (h3 : u.cap = s.cap) (h4 : u.lw = s.lw) (h5 : u.host = s.host) (h6 : u.responses = s.responses) (h7 : u.cur = s.cur) (h8 : i ≠ .rstenc → i ≠ .rstdec → s.L ≤ u.L) : CommandFrame i s u :=
  ⟨h1, by rw [h2], h3, h4, h5, h6, fun h => absurd h7 h, h8, fun sid b hb => ⟨b, by rw [h2, hb], .inl ⟨[], by simp⟩⟩, fun sid _ _ => by rw [h2]⟩

theorem CommandFrame.ofFlush {i s u} (h : FlushFrame s u) : CommandFrame i s u :=
  ⟨h.frame.ctxLength, h.frame.smLength, h.frame.cap, h.frame.lw, h.frame.host, h.frame.responses, fun k => absurd h.frame.cur k, fun _ _ => h.position, bytes_of h.frame h.stream, fun sid hs _ => h.frame.others sid hs⟩

theorem CommandFrame.ofCoded {i s u} (h : CodedFrame s u) : CommandFrame i s u :=
  ⟨h.frame.ctxLength, h.frame.smLength, h.frame.cap, h.frame.lw, h.frame.host, h.frame.responses, fun k => absurd h.frame.cur k, fun _ _ => h.position, bytes_of h.frame (fun b hb => by obtain ⟨e, he⟩ := h.stream b hb; exact ⟨_, he, .inl ⟨e, rfl⟩⟩), fun sid hs _ => h.frame.others sid hs⟩

theorem CommandFrame.ofRead {i s u} (h : ReadFrame s u) (hL : i ≠ .rstenc → i ≠ .rstdec → s.L ≤ u.L) : CommandFrame i s u :=
  CommandFrame.same h.ctxLength h.sm h.cap h.lw h.host h.responses h.cur hL

theorem bind_ends_pure {α} {m : Micro α} {P : State → Prop} {f : α → State → Micro (BitVec 3)} (h : m.ends P) (hf : ∀ a u, P u → (f a u).ends P) : (m.bind f).ends P :=
  Micro.ends_bind h (fun e u hu => h.2 e u hu) fun a u _ hu => hf a u hu

theorem rule_frame {i s} (ha : admission i s = none) : (rule i s).ends (CommandFrame i s) := by
  cases i with
  | reset => exact Micro.ends_done (CommandFrame.same (by simp [clearContexts]) rfl rfl rfl rfl rfl rfl (fun _ _ => le_refl _))
  | rstenc => exact Micro.ends_done (CommandFrame.same rfl rfl rfl rfl rfl rfl rfl (fun h _ => absurd rfl h))
  | remb => exact Micro.ends_done (CommandFrame.same rfl rfl rfl rfl rfl rfl rfl (fun _ _ => le_refl _))
  | rstdec =>
    have h := startDecoding_reads s
    have h' : (startDecoding s).ends (CommandFrame .rstdec s) := by
      refine ⟨fun a u hu => ?_, fun e u hu => ?_⟩
      · have := (h.1 a u hu).1
        exact CommandFrame.same this.ctxLength this.sm this.cap this.lw this.host this.responses this.cur (fun _ h => absurd rfl h)
      · exact CommandFrame.ofRead (h.2 e u hu).1 (fun _ h => absurd rfl h)
    exact bind_ends_pure h' fun a u hu => Micro.ends_done hu
  | encctx x c => exact bind_ends_pure ((encStep_frame (stateProb_legal _).2 _ _ _ s).mono fun u hu => CommandFrame.ofCoded hu.1) fun a u hu => Micro.ends_done hu
  | encprb x g p => exact bind_ends_pure ((encStep_frame (admitted_encprb.1 ha).2.2 _ _ _ s).mono fun u hu => CommandFrame.ofCoded hu.1) fun a u hu => Micro.ends_done hu
  | decctx c => exact bind_ends_pure ((decStep_frame (stateProb_legal _).2 _ _ s).mono fun u hu => CommandFrame.ofRead hu.1 fun _ _ => hu.2.1) fun a u hu => Micro.ends_done hu
  | decprb g p => exact bind_ends_pure ((decStep_frame (admitted_decprb.1 ha).2.2 _ _ s).mono fun u hu => CommandFrame.ofRead hu.1 fun _ _ => hu.2.1) fun a u hu => Micro.ends_done hu
  | terme => exact bind_ends_pure ((easyFlush_frame s).mono fun u hu => CommandFrame.ofFlush hu) fun a u hu => Micro.ends_done ⟨hu.1, hu.2, hu.3, hu.4, hu.5, hu.6, hu.7, hu.8, hu.9, hu.10⟩
  | termo => exact bind_ends_pure ((optimalFlush_frame s).mono fun u hu => CommandFrame.ofFlush hu) fun a u hu => Micro.ends_done ⟨hu.1, hu.2, hu.3, hu.4, hu.5, hu.6, hu.7, hu.8, hu.9, hu.10⟩
  | chstr z sid =>
    have hlt := admitted_chstr.1 ha
    have hd : rule (.chstr z sid) s = .done 0 { s with cur := some sid, sm := if z = 1 then s.sm.set sid.toNat [] else s.sm, mode := .idle } := by show (changeStream z sid s).bind _ = _; rw [changeStream_done hlt, bind_done]
    rw [hd]
    refine Micro.ends_done ⟨rfl, ?_, rfl, rfl, rfl, rfl, fun _ => ⟨z, sid, rfl, rfl⟩, fun _ _ => le_refl _, ?_, ?_⟩
    · show List.length (if z = 1 then s.sm.set sid.toNat [] else s.sm) = _; split <;> simp
    · intro k b hb
      by_cases hz : z = 1
      · by_cases hk : sid.toNat = k
        · refine ⟨[], ?_, .inr ⟨b, by simp⟩⟩
          show (if z = 1 then s.sm.set sid.toNat [] else s.sm)[k]? = _
          rw [if_pos hz, hk]; have := (List.getElem?_eq_some_iff.1 hb).1; simp [this]
        · refine ⟨b, ?_, .inl ⟨[], by simp⟩⟩
          show (if z = 1 then s.sm.set sid.toNat [] else s.sm)[k]? = _
          rw [if_pos hz]; simp [hk, hb]
      · refine ⟨b, ?_, .inl ⟨[], by simp⟩⟩
        show (if z = 1 then s.sm.set sid.toNat [] else s.sm)[k]? = _
        rw [if_neg hz, hb]
    · intro k _ hne
      show (if z = 1 then s.sm.set sid.toNat [] else s.sm)[k]? = _
      by_cases hz : z = 1
      · have := hne sid (by rw [hz])
        rw [if_pos hz]; simp [this]
      · rw [if_neg hz]

theorem exec_frame {i s u} (hu : exec i s = .next u) : ∃ w st v, CommandFrame i s w ∧ (u = respond st v w ∨ u = respond st v (toIdle w)) := by
  rcases exec_next hu with ⟨st, -, rfl⟩ | ⟨ha, v, w, hr, rfl⟩ | ⟨ha, e, w, hr, rfl⟩
  · exact ⟨s, _, _, CommandFrame.same rfl rfl rfl rfl rfl rfl rfl (fun _ _ => le_refl _), .inl rfl⟩
  · exact ⟨w, _, _, (rule_frame ha).1 _ _ hr, .inl rfl⟩
  · exact ⟨w, _, _, (rule_frame ha).2 _ _ hr, .inr rfl⟩

theorem take_frame {w s u} (hu : takeCommand w s = .next u) : u.ctx.length = s.ctx.length ∧ u.sm.length = s.sm.length ∧ u.cap = s.cap ∧ u.lw = s.lw ∧ u.host = s.host := by
  unfold takeCommand at hu
  split at hu
  · obtain ⟨w, st, v, h, rfl | rfl⟩ := exec_frame hu <;> exact ⟨h.ctx, h.sm, h.cap, h.lw, h.host⟩
  · cases hu; exact ⟨rfl, rfl, rfl, rfl, rfl⟩

/-! ### How a command ends -/

/-- A command that answers was refused, ended, or met an error, by its response (R240). -/
theorem exec_status {i s u} (hu : exec i s = .next u) :
   (∃ st, admission i s = some st ∧ u = refuseWith st s) ∨ (admission i s = none ∧ ∃ v w, rule i s = .done v w ∧ u = respond .ok v w ∧ w.responses = s.responses) ∨
   (admission i s = none ∧ ∃ e w, rule i s = .raised e w ∧ u = takeError e w ∧ w.responses = s.responses) := by
  rcases exec_next hu with h | ⟨ha, v, w, hr, rfl⟩ | ⟨ha, e, w, hr, rfl⟩
  · exact .inl h
  · exact .inr (.inl ⟨ha, v, w, hr, rfl, ((rule_frame ha).1 _ _ hr).responses⟩)
  · exact .inr (.inr ⟨ha, e, w, hr, rfl, ((rule_frame ha).2 _ _ hr).responses⟩)

/-- The statuses a command can be refused with (R243). -/
theorem adm_cases {i s st} (h : admission i s = some st) : st = .badSequence ∨ st = .noStream ∨ st = .badContext ∨ st = .badProbability := by
  unfold admission at h
  split at h
  · cases h; simp
  · split at h
    · cases h; simp
    · unfold operandRefusal at h
      split at h <;> first | (split at h <;> cases h <;> simp) | cases h

/-- An answer with an execution error comes from the rule (R240). -/
theorem raised_of {i s u st} (hu : exec i s = .next u) (hr : u.responses = s.responses ++ [responseWord st 0]) (hst : st = .invalidMarker ∨ st = .streamIO) :
  admission i s = none ∧ ∃ e w, rule i s = .raised e w ∧ u = takeError e w ∧ errorStatus e = st := by
  rcases exec_status hu with ⟨q, ha, rfl⟩ | ⟨ha, v, w, h, rfl, hw⟩ | ⟨ha, e, w, h, rfl, hw⟩
  · have := (responses_append_injective (l := s.responses) hr).1
    subst this
    rcases adm_cases ha with h | h | h | h <;> rw [h] at hst <;> rcases hst with h | h <;> cases h
  · have hr' : w.responses ++ [responseWord .ok v] = s.responses ++ [responseWord st 0] := hr
    rw [hw] at hr'
    have := (responses_append_injective hr').1
    subst this; rcases hst with h | h <;> cases h
  · have hr' : w.responses ++ [responseWord (errorStatus e) 0] = s.responses ++ [responseWord st 0] := hr
    rw [hw] at hr'
    exact ⟨ha, e, w, h, rfl, (responses_append_injective hr').1⟩

/-- Which rules raise, and where (R241, R242). -/
theorem rule_raises {i s e w} (h : BlockInv s) (ha : admission i s = none) (hr : rule i s = .raised e w) :
  (e = .invalidMarker ∧ (i = .rstdec ∨ (∃ c, i = .decctx c) ∨ ∃ g p, i = .decprb g p) ∧ ∃ b, installed w = some b ∧ AtMarker w b) ∨
  (e = .streamIO ∧ ((∃ x c, i = .encctx x c) ∨ (∃ x g p, i = .encprb x g p) ∨ i = .terme ∨ i = .termo) ∧ ∃ (k : Nat) (b : Buffer), s.cap = some k ∧ installed w = some b ∧ k ≤ b.length) := by
  have habort : ∀ {x y : State} {b k}, EncodeAbort x y b k → x.cap = s.cap → ∃ (k : Nat) (b : Buffer), s.cap = some k ∧ installed y = some b ∧ k ≤ b.length := by
    intro x y b k hx hc
    obtain ⟨e, -, h1, c, h2, h3⟩ := hx.stream
    exact ⟨c, _, by rw [← hc, h2], h1, h3⟩
  have henc : ∀ {p mps x cx e w}, s.mode = .enc → 1 ≤ p.toNat → p.toNat ≤ 0x7FFF → encStep p mps x cx s = .raised e w → e = .streamIO ∧ ∃ (k : Nat) (b : Buffer), s.cap = some k ∧ installed w = some b ∧ k ≤ b.length := by
    intro p mps x cx e w hm h1 h2 hw
    obtain ⟨b, hb⟩ := inv_installed h (by rw [hm]; decide)
    rcases encStep_cases (mps := mps) (x := x) (cx := cx) (h.encode hm) h1 h2 hb with ⟨v, e, g1, -⟩ | ⟨v, g1, g2⟩ | ⟨g1, g2⟩ <;> rw [hw] at g1 <;> cases g1
    exact ⟨rfl, habort g2 (encUpdate_law h2 mps x cx s).frame.cap⟩
  have hdec : ∀ {p mps cx e w}, s.mode = .dec → 1 ≤ p.toNat → p.toNat ≤ 0x7FFF → decStep p mps cx s = .raised e w → e = .invalidMarker ∧ ∃ b, installed w = some b ∧ AtMarker w b := by
    intro p mps cx e w hm h1 h2 hw
    obtain ⟨b, hb⟩ := inv_installed h (by rw [hm]; decide)
    rcases decStep_cases (mps := mps) (cx := cx) (h.decode hm) h1 h2 hb with ⟨v, g1, -⟩ | ⟨v, g1, g2, g3, -⟩ | ⟨g1, g2⟩ <;> rw [hw] at g1 <;> cases g1
    exact ⟨rfl, b, g3.installed.trans hb, g2⟩
  cases i with
  | reset => cases hr
  | rstenc => cases hr
  | remb => cases hr
  | rstdec =>
    have hc := (admitted_restart (.inr rfl)).1 ha
    obtain ⟨hd, hcur⟩ := Option.ne_none_iff_exists'.1 hc
    have hlt := h.handle hd hcur
    have hb : installed s = some s.sm[hd.toNat] := installed_eq_some.2 ⟨hd, hcur, by simp [hlt]⟩
    rcases bind_eq_raised.1 hr with hr | ⟨_, y, -, hr⟩
    · rcases startDecoding_cases hb with ⟨v, g1, -⟩ | ⟨v, g1, g2, -, -, g3, -⟩ | ⟨g1, g2⟩ <;> rw [hr] at g1 <;> cases g1
      exact .inl ⟨rfl, .inl rfl, _, g3.installed.trans hb, g2⟩
    · cases hr
  | encctx x c =>
    rcases bind_eq_raised.1 hr with hr | ⟨_, y, -, hr⟩
    · obtain ⟨h1, h2⟩ := henc (admitted_encctx.1 ha).1 (stateProb_legal _).1 (stateProb_legal _).2 hr
      exact .inr ⟨h1, .inl ⟨_, _, rfl⟩, h2⟩
    · cases hr
  | encprb x g p =>
    obtain ⟨hm, p1, p2⟩ := admitted_encprb.1 ha
    rcases bind_eq_raised.1 hr with hr | ⟨_, y, -, hr⟩
    · obtain ⟨h1, h2⟩ := henc hm p1 p2 hr
      exact .inr ⟨h1, .inr (.inl ⟨_, _, _, rfl⟩), h2⟩
    · cases hr
  | decctx c =>
    rcases bind_eq_raised.1 hr with hr | ⟨_, y, -, hr⟩
    · obtain ⟨h1, h2⟩ := hdec (admitted_decctx.1 ha).1 (stateProb_legal _).1 (stateProb_legal _).2 hr
      exact .inl ⟨h1, .inr (.inl ⟨_, rfl⟩), h2⟩
    · cases hr
  | decprb g p =>
    obtain ⟨hm, p1, p2⟩ := admitted_decprb.1 ha
    rcases bind_eq_raised.1 hr with hr | ⟨_, y, -, hr⟩
    · obtain ⟨h1, h2⟩ := hdec hm p1 p2 hr
      exact .inl ⟨h1, .inr (.inr ⟨_, _, rfl⟩), h2⟩
    · cases hr
  | terme =>
    have hm := (admitted_enc (.inl rfl)).1 ha
    obtain ⟨b, hb⟩ := inv_installed h (by rw [hm]; decide)
    rcases bind_eq_raised.1 hr with hr | ⟨_, y, -, hr⟩
    · rcases easyFlush_cases (h.encode hm) hb with ⟨w, d, g1, g2⟩ | ⟨w, g1, g2⟩ | ⟨g1, g2⟩ <;> rw [hr] at g1 <;> cases g1
      exact .inr ⟨rfl, by simp, habort g2 rfl⟩
    · cases hr
  | termo =>
    have hm := (admitted_enc (.inr (.inl rfl))).1 ha
    obtain ⟨b, hb⟩ := inv_installed h (by rw [hm]; decide)
    rcases bind_eq_raised.1 hr with hr | ⟨_, y, -, hr⟩
    · rcases easyFlush_cases (h.encode hm) hb with ⟨w, d, g1, g2⟩ | ⟨w, g1, g2⟩ | ⟨g1, g2⟩
      · obtain ⟨n, q1, q2, -⟩ := optimalFlush_tail hb g1 g2.stream (by simp)
        rw [q1] at hr; cases hr
      · rw [optimalFlush_raised hb g1] at hr; cases hr
        exact .inr ⟨rfl, by simp, habort g2 rfl⟩
      · rw [optimalFlush_refused hb g1] at hr; cases hr
    · cases hr
  | chstr z sid =>
    have hlt := admitted_chstr.1 ha
    have hd : rule (.chstr z sid) s = .done 0 { s with cur := some sid, sm := if z = 1 then s.sm.set sid.toNat [] else s.sm, mode := .idle } := by show (changeStream z sid s).bind _ = _; rw [changeStream_done hlt, bind_done]
    rw [hd] at hr; cases hr

/-- A rule that is admitted ends, or meets an error, or is refused for want of room in L. -/
theorem rule_answers {i s} (h : BlockInv s) (ha : admission i s = none) :
  (∃ v u, rule i s = .done v u) ∨ (∃ e u, rule i s = .raised e u) ∨ (∃ b, installed s = some b ∧ rule i s = .refused .positionOverflow ∧ positionMax s.lw < b.length + 3) := by
  have hencb : s.mode = .enc → ∃ b, installed s = some b := fun hm => inv_installed h (by rw [hm]; decide)
  have henc : ∀ p mps x cx, s.mode = .enc → 1 ≤ p.toNat → p.toNat ≤ 0x7FFF → (∃ v u, (encStep p mps x cx s).bind (fun _ s1 => (.done 0 s1 : Micro (BitVec 3))) = .done v u) ∨ (∃ e u, (encStep p mps x cx s).bind (fun _ s1 => (.done 0 s1 : Micro (BitVec 3))) = .raised e u) ∨ (∃ b, installed s = some b ∧ (encStep p mps x cx s).bind (fun _ s1 => (.done 0 s1 : Micro (BitVec 3))) = .refused .positionOverflow ∧ positionMax s.lw < b.length + 3) := by
    intro p mps x cx hm h1 h2
    obtain ⟨b, hb⟩ := hencb hm
    have hs := h.encode hm
    have := hs.appended b hb
    have htb := transferBound_le hs.countLow
    rcases encStep_cases (mps := mps) (x := x) (cx := cx) hs h1 h2 hb with ⟨v, e, g1, -⟩ | ⟨v, g1, g2⟩ | ⟨g1, g2⟩ <;> rw [g1]
    · exact .inl ⟨_, _, rfl⟩
    · exact .inr (.inl ⟨_, _, rfl⟩)
    · exact .inr (.inr ⟨b, hb, rfl, by omega⟩)
  have hdec : ∀ p mps cx, s.mode = .dec → 1 ≤ p.toNat → p.toNat ≤ 0x7FFF → (∃ v u, (decStep p mps cx s).bind (fun x s1 => (.done (bitValue x) s1 : Micro (BitVec 3))) = .done v u) ∨ (∃ e u, (decStep p mps cx s).bind (fun x s1 => (.done (bitValue x) s1 : Micro (BitVec 3))) = .raised e u) ∨ (∃ b, installed s = some b ∧ (decStep p mps cx s).bind (fun x s1 => (.done (bitValue x) s1 : Micro (BitVec 3))) = .refused .positionOverflow ∧ positionMax s.lw < b.length + 3) := by
    intro p mps cx hm h1 h2
    obtain ⟨b, hb⟩ := inv_installed h (by rw [hm]; decide)
    have hs := h.decode hm
    rcases decStep_cases (mps := mps) (cx := cx) hs h1 h2 hb with ⟨v, g1, -⟩ | ⟨v, g1, g2⟩ | ⟨g1, g2⟩ <;> rw [g1]
    · exact .inl ⟨_, _, rfl⟩
    · exact .inr (.inl ⟨_, _, rfl⟩)
    · exact .inr (.inr ⟨b, hb, rfl, by omega⟩)
  cases i with
  | reset => exact .inl ⟨_, _, rfl⟩
  | rstenc => exact .inl ⟨_, _, rfl⟩
  | remb => exact .inl ⟨_, _, rfl⟩
  | rstdec =>
    have hc := (admitted_restart (.inr rfl)).1 ha
    obtain ⟨hd, hcur⟩ := Option.ne_none_iff_exists'.1 hc
    have hlt := h.handle hd hcur
    have hb : installed s = some s.sm[hd.toNat] := installed_eq_some.2 ⟨hd, hcur, by simp [hlt]⟩
    unfold rule
    rcases startDecoding_cases hb with ⟨v, g1, -⟩ | ⟨v, g1, -⟩ | ⟨g1, g2⟩ <;> rw [g1]
    · exact .inl ⟨_, _, rfl⟩
    · exact .inr (.inl ⟨_, _, rfl⟩)
    · exact .inr (.inr ⟨_, hb, rfl, by omega⟩)
  | encctx x c => obtain ⟨hm, hc⟩ := admitted_encctx.1 ha; exact henc _ _ _ _ hm (stateProb_legal _).1 (stateProb_legal _).2
  | encprb x g p => obtain ⟨hm, p1, p2⟩ := admitted_encprb.1 ha; exact henc _ _ _ _ hm p1 p2
  | decctx c => obtain ⟨hm, hc⟩ := admitted_decctx.1 ha; exact hdec _ _ _ hm (stateProb_legal _).1 (stateProb_legal _).2
  | decprb g p => obtain ⟨hm, p1, p2⟩ := admitted_decprb.1 ha; exact hdec _ _ _ hm p1 p2
  | terme =>
    have hm := (admitted_enc (.inl rfl)).1 ha
    obtain ⟨b, hb⟩ := hencb hm
    have hs := h.encode hm
    have := hs.appended b hb
    have h3 := easyBound_le hs.countLow
    unfold rule
    rcases easyFlush_cases hs hb with ⟨w, d, g1, g2⟩ | ⟨w, g1, g2⟩ | ⟨g1, g2⟩ <;> rw [g1]
    · exact .inl ⟨_, _, rfl⟩
    · exact .inr (.inl ⟨_, _, rfl⟩)
    · exact .inr (.inr ⟨_, hb, rfl, by omega⟩)
  | termo =>
    have hm := (admitted_enc (.inr (.inl rfl))).1 ha
    obtain ⟨b, hb⟩ := hencb hm
    have hs := h.encode hm
    have := hs.appended b hb
    have h3 := easyBound_le hs.countLow
    unfold rule
    rcases easyFlush_cases hs hb with ⟨w, d, g1, g2⟩ | ⟨w, g1, g2⟩ | ⟨g1, g2⟩
    · obtain ⟨n, q1, q2, -⟩ := optimalFlush_tail hb g1 g2.stream (by simp)
      rw [q1]; exact .inl ⟨_, _, rfl⟩
    · rw [optimalFlush_raised hb g1]; exact .inr (.inl ⟨_, _, rfl⟩)
    · rw [optimalFlush_refused hb g1]; exact .inr (.inr ⟨_, hb, rfl, by omega⟩)
  | chstr z sid =>
    have hlt := admitted_chstr.1 ha
    exact .inl ⟨_, _, by show (changeStream z sid s).bind _ = _; rw [changeStream_done hlt]; rfl⟩

theorem exec_answers {i s} (h : BlockInv s) : (∃ u, exec i s = .next u) ∨ (∃ b, installed s = some b ∧ exec i s = .refused .positionOverflow ∧ positionMax s.lw < b.length + 3) := by
  cases ha : admission i s with
  | some st => exact .inl ⟨_, exec_refused_by ha⟩
  | none =>
    rcases rule_answers h ha with ⟨v, u, hr⟩ | ⟨e, u, hr⟩ | ⟨b, hb, hr, hl⟩
    · exact .inl ⟨_, exec_of_done ha hr⟩
    · exact .inl ⟨_, exec_of_raised ha hr⟩
    · exact .inr ⟨b, hb, by rw [exec_eq, guarded_admitted ha, hr]; rfl, hl⟩

/-! ### Markers -/

theorem messageBytes_some {s : State} {b} (hb : installed s = some b) : messageBytes s = b.drop (b.length - s.L.toNat) := by
  unfold messageBytes; rw [hb]

theorem noMarker_first {s : State} (h : s.L = -1) : NoMarker s := by
  have : messageBytes s = [] := by
    unfold messageBytes; split
    · rfl
    · rw [h]; simp
  refine ⟨by rw [this]; exact markerFree_nil, fun h => by rw [this] at h; cases h⟩

theorem NoMarker.congr {s u : State} (h : NoMarker s) (h1 : installed u = installed s) (hL : u.L = s.L) (hA : u.A = s.A) (hC : u.C = s.C) (ht : u.t = s.t) (hT : u.Tr = s.Tr) : NoMarker u := by
  have hm : messageBytes u = messageBytes s := by unfold messageBytes; rw [h1, hL]
  have htop : intervalTop u = intervalTop s := by unfold intervalTop; rw [hA, hC, ht]
  exact ⟨by rw [hm]; exact h.written, by rw [hm, htop, hT]; exact h.pending⟩

theorem run_marker {s u b e p mps x cx} (h2 : p.toNat ≤ 0x7FFF) (hs : EncodeInv s) (hb : installed s = some b) (hm : NoMarker s) (hr : EncodeRun (encUpdate p mps x cx s) u b e) : NoMarker u := by
  have hn := encUpdate_law h2 mps x cx s
  have hL := hs.position
  have hap := hs.appended b hb
  have hstr := hr.stream
  have hpos := hr.position
  rw [hn.position] at hstr hpos
  have hlow : PendingLow s → PendingLow (encUpdate p mps x cx s) := by
    intro h
    have hc := hs.coding
    have := hn.numbers hs.interval h2 hc.codeLt
    have hA' := s.A.isLt
    have hi := hs.interval
    have hsum : (encUpdate p mps x cx s).C.toNat + (encUpdate p mps x cx s).A.toNat ≤ s.C.toNat + s.A.toNat := by omega
    have htop : intervalTop (encUpdate p mps x cx s) ≤ intervalTop s := by
      unfold intervalTop; rw [hn.count]; exact Nat.mul_le_mul_right _ hsum
    unfold PendingLow at *
    rw [hn.tr]; omega
  have key : ∀ l : Option Byte, (l = some 0xFF → PendingLow s) → _ := fun l hl => hr.marker l (fun h => hlow (hl h))
  by_cases h0 : s.L < 0
  · rw [if_pos h0] at hstr
    obtain ⟨k1, k2⟩ := key none (fun h => by cases h)
    simp at k1 k2
    cases e with
    | nil => exact noMarker_first (by simp at hpos; omega)
    | cons a e =>
      have hmsg : messageBytes u = e := by
        rw [messageBytes_some hstr, hpos]
        simp only [List.drop_succ_cons, List.drop_zero, List.length_append, List.length_cons]
        rw [show b.length + e.length - (s.L + ((e.length + 1 : ℕ) : Int)).toNat = b.length by omega]; simp
      refine ⟨by rw [hmsg]; exact MarkerFree.drop_append (b := [a]) k1, fun h => ?_⟩
      rw [hmsg] at h
      have h3 := k2 (by rw [List.getLast?_cons, h]; rfl)
      exact h3
  · rw [if_neg h0] at hstr
    have hmsg : messageBytes u = messageBytes s ++ e := by
      rw [messageBytes_some hstr, messageBytes_some hb, hpos, List.length_append]
      rw [show b.length + e.length - (s.L + e.length).toNat = b.length - s.L.toNat by omega, List.drop_append_of_le_length (by omega)]
    obtain ⟨k1, k2⟩ := key (messageBytes s).getLast? hm.pending
    refine ⟨by rw [hmsg]; exact markerFree_append hm.written k1, fun h => ?_⟩
    rw [hmsg] at h
    refine k2 ?_
    cases e with
    | nil => simp at h ⊢; rw [h]; rfl
    | cons a e => 
      rw [List.getLast?_append] at h ⊢
      simpa using h

theorem low_of_pending {s : State} (h : PendingLow s) (hA : 0x8000 ≤ s.A.toNat) (hs : EncodeInv s) : TransferLow (shiftByCount s) := by
  have hb := hs.coding.codeBound
  have ht := hs.top
  have h1 := Nat.one_le_two_pow (n := s.t.toNat)
  have hC := shiftByCount_code (s := s) (by omega)
  unfold TransferLow
  rw [hC]
  show s.Tr.toNat * 2^27 + _ < _
  unfold PendingLow intervalTop at h
  have : s.C.toNat * 2^s.t.toNat < (s.C.toNat + s.A.toNat) * 2^s.t.toNat := by
    apply Nat.mul_lt_mul_of_pos_right <;> omega
  omega

end Sys2Proof.Machine
end

