-- ==== Sys2Proof/Laws/Interval.lean ====
section
/-! SUPPORT. The encoder's interval in fixed coordinates (R53, R202): coding keeps it, an easy flush writes a point of it,
`min_flush` and `post_trim` keep that point's padded value inside it. -/

namespace Sys2Proof.Machine

/-! ### Coordinates -/

theorem intervalLow_eq (s : State) : intervalLow s = codeValue 1 (messageBytes s) + pendingWeight s * pendingValue s := rfl

theorem intervalUnit_width (s : State) : s.A.toNat * intervalUnit s = pendingWeight s * widthValue s / 2 ^ 27 := by
  unfold intervalUnit widthValue; ring

theorem pendingWeight_pos (s : State) : 0 < pendingWeight s := by
  unfold pendingWeight; split
  · positivity
  · exact weightAfter_pos one_pos _

theorem intervalUnit_pos (s : State) : 0 < intervalUnit s := by
  unfold intervalUnit; have := pendingWeight_pos s; positivity

/-- Before the first byte the message has none. -/
theorem messageBytes_first {s : State} (h : s.L < 0) : messageBytes s = [] := by
  unfold messageBytes; split
  · rfl
  · rw [show s.L.toNat = 0 by omega]; simp

theorem pendingWeight_first {s : State} (h : s.L < 0) : pendingWeight s = 2 ^ 8 := if_pos h
theorem pendingWeight_later {s : State} (h : ¬ s.L < 0) : pendingWeight s = weightAfter 1 (messageBytes s) := if_neg h

theorem nextWeight_phantom : nextWeight (2 ^ 8) (0 : Byte) = 1 := by
  unfold nextWeight; rw [if_neg (by decide)]; norm_num

theorem lastWeight_nil : lastWeight [] = 2 ^ 8 := rfl
theorem lastWeight_concat (b : Buffer) (v : Byte) : lastWeight (b ++ [v]) = weightAfter 1 b := by
  unfold lastWeight; simp

theorem lastWeight_pos (b : Buffer) : 0 < lastWeight b := by
  unfold lastWeight; split
  · positivity
  · exact weightAfter_pos one_pos _

theorem weightAfter_concat (w : Rat) (b : Buffer) (v : Byte) : weightAfter w (b ++ [v]) = nextWeight (weightAfter w b) v := by
  rw [weightAfter_append]; rfl

theorem codeValue_concat (w : Rat) (b : Buffer) (v : Byte) :
    codeValue w (b ++ [v]) = codeValue w b + v.toNat * weightAfter w b := by
  rw [codeValue_append]; simp [codeValue]

theorem paddedValue_concat (b : Buffer) (v : Byte) :
    paddedValue (b ++ [v]) = codeValue 1 b + (v.toNat + 1) * weightAfter 1 b := by
  unfold paddedValue; rw [codeValue_concat, lastWeight_concat]; ring

/-- A message that does not end with `0xFF` leaves the next byte eight places lower. -/
theorem lastWeight_of_ne {b : Buffer} (h : b.getLast? ≠ some 0xFF) : lastWeight b = 2 ^ 8 * weightAfter 1 b := by
  rcases List.eq_nil_or_concat' b with rfl | ⟨c, v, rfl⟩
  · simp [lastWeight, weightAfter]
  · rw [List.getLast?_concat] at h
    rw [lastWeight_concat, weightAfter_concat]
    unfold nextWeight
    rw [if_neg (fun hv => h (by rw [hv]))]; ring

theorem weightAfter_mul (k w : Rat) (b : Buffer) : weightAfter (k * w) b = k * weightAfter w b := by
  induction b generalizing w with
  | nil => rfl
  | cons v b ih =>
    have : nextWeight (k * w) v = k * nextWeight w v := by unfold nextWeight; split <;> ring
    simp only [weightAfter, List.foldl_cons]
    rw [this]; exact ih _

theorem codeValue_mul (k w : Rat) (b : Buffer) : codeValue (k * w) b = k * codeValue w b := by
  induction b generalizing w with
  | nil => simp [codeValue]
  | cons v b ih =>
    have : nextWeight (k * w) v = k * nextWeight w v := by unfold nextWeight; split <;> ring
    simp only [codeValue]
    rw [this, ih]; ring

theorem codeValue_nonneg {w : Rat} (hw : 0 < w) (b : Buffer) : 0 ≤ codeValue w b := by
  induction b generalizing w with
  | nil => exact le_refl _
  | cons v b ih => have := ih (nextWeight_pos hw v); simp only [codeValue]; positivity

/-! ### Bytes a decoder supplies by itself (R203) -/

/-- A trailing `0xFF` adds nothing to what the decoder sees. -/
theorem paddedValue_ones {b : Buffer} (h : b.getLast? ≠ some 0xFF) : paddedValue (b ++ [0xFF]) = paddedValue b := by
  have h255 : ((0xFF : Byte).toNat : Rat) = 255 := Nat.cast_ofNat
  rw [paddedValue_concat, h255]; unfold paddedValue; rw [lastWeight_of_ne h]; ring

/-- Nor does a trailing pair `FF 7F`. -/
theorem paddedValue_pair {b : Buffer} (h : b.getLast? ≠ some 0xFF) : paddedValue (b ++ [0xFF, 0x7F]) = paddedValue b := by
  have h255 : ((0xFF : Byte).toNat : Rat) = 255 := Nat.cast_ofNat
  have h127 : ((0x7F : Byte).toNat : Rat) = 127 := Nat.cast_ofNat
  have hs : b ++ [0xFF, 0x7F] = (b ++ [0xFF]) ++ [0x7F] := by simp
  rw [hs, paddedValue_concat, codeValue_concat, weightAfter_concat, h255, h127]
  unfold paddedValue nextWeight; rw [lastWeight_of_ne h, if_pos rfl]; ring

/-! ### Coding keeps the interval (R100 c, R131 d) -/

theorem messageBytes_run {s u : State} {b e : Buffer} (hpos : -1 ≤ s.L) (happ : s.L ≤ b.length) (hb : installed s = some b)
    (hu : installed u = some (b ++ if s.L < 0 then e.drop 1 else e)) (hp : u.L = s.L + e.length) :
    messageBytes u = messageBytes s ++ realBytes s e := by
  unfold realBytes
  by_cases h : s.L < 0
  · rw [if_pos h] at hu ⊢
    rw [messageBytes_first h, messageBytes_some hu]
    cases e with
    | nil => simp at hp ⊢; omega
    | cons v e =>
      have h1 : u.L.toNat = e.length := by simp at hp; omega
      rw [h1]; simp
  · rw [if_neg h] at hu ⊢
    rw [messageBytes_some hb, messageBytes_some hu, List.length_append,
      show b.length + e.length - u.L.toNat = b.length - s.L.toNat by omega, List.drop_append_of_le_length (by omega)]

/-- In the coordinates of the message, the bytes finished from `s` on start at the pending weight. -/
theorem codeValue_real {s : State} {e : Buffer} (hpos : -1 ≤ s.L) (hph : s.L = -1 → ∀ v, e.head? = some v → v = 0) :
    codeValue 1 (messageBytes s ++ realBytes s e) = codeValue 1 (messageBytes s) + codeValue (pendingWeight s) e := by
  unfold realBytes
  by_cases h : s.L < 0
  · rw [if_pos h, messageBytes_first h, pendingWeight_first h]
    cases e with
    | nil => simp [codeValue]
    | cons v e =>
      obtain rfl := hph (by omega) v rfl
      have h0 : ((0 : Byte).toNat : Rat) = 0 := Nat.cast_zero
      simp only [List.nil_append, List.drop_one, List.tail_cons, codeValue, nextWeight_phantom, h0]
      ring
  · rw [if_neg h, codeValue_append, pendingWeight_later h]

theorem weightAfter_real {s : State} {e : Buffer} (hpos : -1 ≤ s.L) (hph : s.L = -1 → ∀ v, e.head? = some v → v = 0)
    (he : s.L = -1 → e ≠ []) : weightAfter 1 (messageBytes s ++ realBytes s e) = weightAfter (pendingWeight s) e := by
  unfold realBytes
  by_cases h : s.L < 0
  · rw [if_pos h, messageBytes_first h, pendingWeight_first h]
    cases e with
    | nil => exact absurd rfl (he (by omega))
    | cons v e =>
      obtain rfl := hph (by omega) v rfl
      simp only [List.nil_append, List.drop_one, List.tail_cons, weightAfter, List.foldl_cons, nextWeight_phantom]
  · rw [if_neg h, weightAfter_append, pendingWeight_later h]

/-- The weight of the pending byte after the bytes `e`. -/
theorem pendingWeight_run {s u : State} {b e : Buffer} (hpos : -1 ≤ s.L) (happ : s.L ≤ b.length) (hb : installed s = some b)
    (hu : installed u = some (b ++ if s.L < 0 then e.drop 1 else e)) (hp : u.L = s.L + e.length)
    (hph : s.L = -1 → ∀ v, e.head? = some v → v = 0) : pendingWeight u = weightAfter (pendingWeight s) e := by
  by_cases h : u.L < 0
  · have : e = [] := by
      cases e with
      | nil => rfl
      | cons v e => simp at hp; omega
    subst this
    rw [pendingWeight_first h, pendingWeight_first (by simp at hp; omega)]; rfl
  · rw [pendingWeight_later h, messageBytes_run hpos happ hb hu hp]
    exact weightAfter_real hpos hph (fun h0 he => by subst he; simp at hp; omega)

/-- A run of the encoder keeps the interval. -/
theorem EncodeRun.interval {s u : State} {b e : Buffer} (hpos : -1 ≤ s.L) (happ : s.L ≤ b.length) (hb : installed s = some b)
    (hr : EncodeRun s u b e) : intervalLow u = intervalLow s ∧ u.A.toNat * intervalUnit u = s.A.toNat * intervalUnit s := by
  have hm := messageBytes_run hpos happ hb hr.stream hr.position
  have hw := pendingWeight_run hpos happ hb hr.stream hr.position hr.phantom
  constructor
  · rw [intervalLow_eq, intervalLow_eq, hm, hw, codeValue_real hpos hr.phantom]
    have := hr.value (pendingWeight s)
    linarith
  · rw [intervalUnit_width, intervalUnit_width, hw, hr.width]

/-- The update before renormalization narrows the interval to the symbol's sub-interval. -/
theorem Narrowed.interval {p : BitVec 16} {mps x : Bit} {cx : Option Nat} {s u : State} (hn : Narrowed p mps x cx s u)
    (hs : EncodeInv s) (hp2 : p.toNat ≤ 0x7FFF) :
    (takesUpper s.A p mps x = true → intervalLow u = intervalLow s + p.toNat * intervalUnit s ∧
      u.A.toNat * intervalUnit u = (s.A.toNat - p.toNat) * intervalUnit s) ∧
    (takesUpper s.A p mps x = false → intervalLow u = intervalLow s ∧
      u.A.toNat * intervalUnit u = p.toNat * intervalUnit s) := by
  have hm : messageBytes u = messageBytes s := by unfold messageBytes; rw [hn.installed, hn.position]
  have hw : pendingWeight u = pendingWeight s := by unfold pendingWeight; rw [hm, hn.position]
  have hun : intervalUnit u = intervalUnit s := by unfold intervalUnit; rw [hw, hn.count]
  have h := hn.numbers hs.interval hp2 hs.coding.codeLt
  have hA := hs.interval
  constructor
  · intro ht
    rcases h with ⟨-, h1, h2⟩ | ⟨h0, -⟩
    · rw [hun, h1]
      refine ⟨?_, by rw [Nat.cast_sub (by omega)]⟩
      unfold intervalLow; rw [hm, hw, hn.tr, hn.count, h2]; unfold intervalUnit; push_cast; ring
    · rw [ht] at h0; cases h0
  · intro ht
    rcases h with ⟨h0, -⟩ | ⟨-, h1, h2⟩
    · rw [ht] at h0; cases h0
    · rw [hun, h1]
      refine ⟨?_, rfl⟩
      unfold intervalLow; rw [hm, hw, hn.tr, hn.count, h2]

/-! ### An easy flush writes a point of the interval (R200) -/

/-- The lower end cut off below the last byte a flush finishes, and that byte is no coarser than the interval. -/
theorem Emptied.point {s : State} {e : Buffer} {v : Byte} (h : Emptied s e v) (hs : EncodeInv s) :
    codeValue 1 (messageBytes s ++ realBytes s (e ++ [v])) ≤ intervalLow s ∧
    InInterval s (messageBytes s ++ realBytes s (e ++ [v])) := by
  have hw := pendingWeight_pos s
  have hval := codeValue_real hs.position h.phantom
  have hlast : lastWeight (messageBytes s ++ realBytes s (e ++ [v])) = weightAfter (pendingWeight s) e := by
    cases e with
    | nil =>
      unfold realBytes
      by_cases h0 : s.L < 0
      · rw [if_pos h0, messageBytes_first h0, pendingWeight_first h0]; simp [lastWeight, weightAfter]
      · rw [if_neg h0, pendingWeight_later h0]
        exact lastWeight_concat _ _
    | cons a e =>
      have hr : realBytes s ((a :: e) ++ [v]) = realBytes s (a :: e) ++ [v] := by unfold realBytes; split <;> simp
      rw [hr, ← List.append_assoc, lastWeight_concat]
      exact weightAfter_real hs.position (fun h0 x hx => h.phantom h0 x (by simpa using hx)) (fun _ => by simp)
  have hb := h.below _ hw
  have ha := h.above _ hw
  have hf := h.fine _ hw
  have hA : (0x8000 : Rat) ≤ s.A.toNat := by exact_mod_cast hs.interval
  have hu : weightAfter (pendingWeight s) e ≤ s.A.toNat * intervalUnit s := by
    have hup := intervalUnit_pos s
    have : weightAfter (pendingWeight s) e ≤ 0x8000 * intervalUnit s := by
      unfold intervalUnit; linarith
    nlinarith
  unfold InInterval paddedValue
  rw [hval, hlast, intervalLow_eq]
  exact ⟨by linarith, by linarith, by linarith⟩

theorem Emptied.markerFree {s : State} {e : Buffer} {v : Byte} (h : Emptied s e v) (hs : EncodeInv s) (hm : NoMarker s) :
    MarkerFree (messageBytes s ++ realBytes s (e ++ [v])) := by
  unfold realBytes
  by_cases h0 : s.L < 0
  · have h1 := h.marker none (fun h => by cases h)
    rw [if_pos h0, messageBytes_first h0]
    generalize e ++ [v] = l at h1 ⊢
    cases l with
    | nil => exact markerFree_nil
    | cons a l => exact MarkerFree.drop_append (b := [a]) h1
  · rw [if_neg h0]
    exact markerFree_append hm.written (h.marker _ fun hl => low_of_pending (hm.pending hl) hs.interval hs)

/-- A message that holds no marker has no `0xFF` right before another. -/
theorem MarkerFree.last_ne {b : Buffer} {v : Byte} {c : Buffer} (h : MarkerFree (b ++ v :: c)) (hv : 0x8F < v) :
    b.getLast? ≠ some 0xFF := by
  intro hl
  rcases List.eq_nil_or_concat' b with rfl | ⟨d, a, rfl⟩
  · cases hl
  · rw [List.getLast?_concat] at hl
    have := h d.length v (by simp [Option.some.inj hl]) (by simp)
    rw [BitVec.le_def] at this; rw [BitVec.lt_def] at hv; omega

/-- What an easy flush leaves (R200): the message with its last byte `0xFF` left out still lies in the interval. -/
theorem Flushed.point {s u : State} {b d : Buffer} {k : Nat} (h : Flushed s u b d k) (hs : EncodeInv s) (hm : NoMarker s) :
    codeValue 1 (messageBytes s ++ d) ≤ intervalLow s ∧ InInterval s (messageBytes s ++ d) ∧ MarkerFree (messageBytes s ++ d) ∧
    ∃ e v, Emptied s e v ∧ messageBytes s ++ d <+: messageBytes s ++ realBytes s (e ++ [v]) := by
  obtain ⟨e, v, he, rfl⟩ := h.bytes
  obtain ⟨h1, h2⟩ := he.point hs
  have h3 := he.markerFree hs hm
  by_cases hv : v = 0xFF
  · subst hv
    have hr : realBytes s (e ++ [0xFF]) = realBytes s e ++ [0xFF] := by
      unfold realBytes
      by_cases h0 : s.L < 0
      · cases e with
        | nil => exact absurd (he.phantom (by have := hs.position; omega) 0xFF rfl) (by decide)
        | cons a e => simp [h0]
      · simp [h0]
    rw [if_pos rfl]
    rw [hr, ← List.append_assoc] at h1 h2 h3
    have hne := MarkerFree.last_ne h3 (by decide)
    refine ⟨?_, ?_, h3.of_append, e, 0xFF, he, by rw [hr, ← List.append_assoc]; exact List.prefix_append _ _⟩
    · rw [codeValue_concat] at h1
      have := weightAfter_pos one_pos (messageBytes s ++ realBytes s e)
      have h255 : ((0xFF : Byte).toNat : Rat) = 255 := Nat.cast_ofNat
      rw [h255] at h1; linarith
    · unfold InInterval at h2 ⊢; rwa [paddedValue_ones hne] at h2
  · rw [if_neg hv]
    exact ⟨h1, h2, h3, e, v, he, List.prefix_refl _⟩

/-! ### `min_flush` (R202) -/

/-- The tail bytes kept so far followed by ones, in the coordinates of R202 where the first tail byte has weight `2^27`:
`Rf + 2^Sf`. -/
def keptValue (c : Buffer) : Nat → Rat
  | 0 => 2 ^ 35
  | j + 1 => codeValue (2 ^ 27) (c.take (j + 1)) + weightAfter (2 ^ 27) (c.take j)

/-- The test of R202 succeeds: what is kept lies in `[Cr, Cr + Ar)`. -/
def KeptFits (Cr Ar : Nat) (c : Buffer) (j : Nat) : Prop := (Cr : Rat) < keptValue c j ∧ keptValue c j ≤ Cr + Ar

theorem take_succ_concat {b : Buffer} {j : Nat} (h : j < b.length) : b.take (j + 1) = b.take j ++ [b[j]] :=
  List.take_succ_eq_append_getElem h

/-- `min_flush` keeps the fewest tail bytes whose padded value lies in `[Cr, Cr + Ar)`, or all of them. -/
theorem minFlushLoop_fits {Cr Ar L0 : Nat} {s : State} {b : Buffer} (hb : installed s = some b) (left : Nat) :
    ∀ (nb Rf : Nat) (Sf sh : Int), L0 + nb + left ≤ b.length → nb + left ≤ 3 → 35 - 8 * (nb : Int) ≤ Sf → 0 ≤ sh → sh ≤ 8 →
      (Rf : Rat) + 2 ^ Sf.toNat = keptValue (b.drop L0) nb → (Rf : Rat) = codeValue (2 ^ 27) ((b.drop L0).take nb) →
      (2 : Rat) ^ (Sf - sh).toNat = weightAfter (2 ^ 27) ((b.drop L0).take nb) →
      ∃ k, minFlushLoop Cr Ar L0 s left nb Rf Sf sh = .done k s ∧ nb ≤ k ∧ k ≤ nb + left ∧
        (∀ j, nb ≤ j → j < k → ¬ KeptFits Cr Ar (b.drop L0) j) ∧ (k < nb + left → KeptFits Cr Ar (b.drop L0) k) := by
  induction left with
  | zero => intro nb Rf Sf sh _ _ _ _ _ _ _ _; exact ⟨nb, rfl, le_refl _, by omega, fun j h1 h2 => by omega, fun h => by omega⟩
  | succ left ih =>
    intro nb Rf Sf sh h h4 hSf hsh0 hsh8 hkept hRf hw
    have hfit : ambiguous Cr Ar Rf Sf = true ↔ ¬ KeptFits Cr Ar (b.drop L0) nb := by
      have hp := Nat.one_le_two_pow (n := Sf.toNat)
      unfold ambiguous KeptFits
      rw [← hkept]
      have e1 : ((Cr : Rat) < Rf + 2 ^ Sf.toNat) ↔ Cr < Rf + 2 ^ Sf.toNat := by exact_mod_cast Iff.rfl
      have e2 : ((Rf : Rat) + 2 ^ Sf.toNat ≤ Cr + Ar) ↔ Rf + 2 ^ Sf.toNat ≤ Cr + Ar := by exact_mod_cast Iff.rfl
      rw [e1, e2]
      simp only [Bool.or_eq_true, decide_eq_true_eq]
      omega
    unfold minFlushLoop
    split
    · rename_i ha
      have hlt : L0 + nb < b.length := by omega
      have hnb : nb < (b.drop L0).length := by rw [List.length_drop]; omega
      have htake : (b.drop L0).take (nb + 1) = (b.drop L0).take nb ++ [b[L0 + nb]] := by
        rw [take_succ_concat hnb, List.getElem_drop]
      rw [memRead_some hb hlt, bind_done]
      have hS : 0 ≤ Sf - sh := by omega
      have hbyte : ((shiftByte b[L0 + nb] (Sf - sh) : Nat) : Rat) = (b[L0 + nb]).toNat * 2 ^ (Sf - sh).toNat := by
        unfold shiftByte; rw [if_pos hS]; push_cast; rfl
      have hRf' : ((Rf + shiftByte b[L0 + nb] (Sf - sh) : Nat) : Rat) = codeValue (2 ^ 27) ((b.drop L0).take (nb + 1)) := by
        rw [htake, codeValue_concat, ← hw, ← hRf]; push_cast; rw [hbyte]
      obtain ⟨k, h1, h2, h3, h5, h6⟩ := ih (nb + 1) (Rf + shiftByte b[L0 + nb] (Sf - sh)) (Sf - sh)
        (if b[L0 + nb] = 0xFF then 7 else 8) (by omega) (by omega) (by push_cast; omega) (by split <;> omega) (by split <;> omega)
        (by rw [hRf', hw]; rfl) hRf' (by
          rw [htake, weightAfter_concat, ← hw]
          unfold nextWeight
          split
          · rw [show (Sf - sh).toNat = (Sf - sh - 7).toNat + 7 by omega, pow_add]; field_simp
          · rw [show (Sf - sh).toNat = (Sf - sh - 8).toNat + 8 by omega, pow_add]; field_simp)
      refine ⟨k, h1, by omega, by omega, fun j hj1 hj2 => ?_, fun hk => h6 (by omega)⟩
      by_cases hj : j = nb
      · subst hj; exact hfit.1 ha
      · exact h5 j (by omega) hj2
    · rename_i ha
      exact ⟨nb, rfl, le_refl _, by omega, fun j h1 h2 => by omega, fun _ => by
        by_contra hc; exact ha (hfit.2 hc)⟩

theorem minFlush_fits {z : Snapshot} {s : State} {b c : Buffer} (hb : installed s = some (b ++ c)) (hL : z.L0 = b.length)
    (hc : c.length ≤ 3) :
    ∃ k, minFlush z s = .done k s ∧ k ≤ c.length ∧
      (∀ j, j < k → ¬ KeptFits z.lowAdjusted z.widthAdjusted c j) ∧
      (k < c.length → KeptFits z.lowAdjusted z.widthAdjusted c k) := by
  have hd : (b ++ c).drop z.L0 = c := by rw [hL]; simp
  have hlen : min 5 ((b ++ c).length - z.L0) = c.length := by rw [hL, List.length_append]; omega
  unfold minFlush
  rw [streamLen_some hb, bind_done, hlen]
  obtain ⟨k, h1, -, h3, h4, h5⟩ := minFlushLoop_fits (Cr := z.lowAdjusted) (Ar := z.widthAdjusted) (L0 := z.L0) hb c.length 0 0 35 8
    (by rw [hL]; simp) (by omega) (by simp) (by omega) (le_refl _)
    (by show ((0 : Nat) : Rat) + 2 ^ (35 : Nat) = 2 ^ 35; norm_num) (by simp [codeValue])
    (by show (2 : Rat) ^ (27 : Nat) = _; simp [weightAfter])
  rw [hd] at h4 h5
  exact ⟨k, h1, by omega, fun j hj => h4 j (by omega) hj, fun hk => h5 (by omega)⟩

/-- The coordinates of R202 are those of the message, scaled: the next byte after the message has weight `2^27`. -/
theorem snapshot_interval {s : State} {b : Buffer} (hs : EncodeInv s) (hcase : 0 ≤ s.L ∨ b = []) :
    intervalLow s = codeValue 1 (messageBytes s) +
      weightAfter 1 (messageBytes s) * (snapshot b.length s).lowAdjusted / 2 ^ 27 ∧
    s.A.toNat * intervalUnit s = weightAfter 1 (messageBytes s) * (snapshot b.length s).widthAdjusted / 2 ^ 27 := by
  have hlow : (snapshot b.length s).low = s.Tr.toNat * 2 ^ 27 + s.C.toNat * 2 ^ s.t.toNat := rfl
  have hwid : (snapshot b.length s).width = s.A.toNat * 2 ^ s.t.toNat := rfl
  rw [intervalLow_eq, intervalUnit_width]
  by_cases h : s.L < 0
  · have hL : s.L = -1 := by have := hs.position; omega
    have hb0 : b = [] := hcase.resolve_left (by omega)
    obtain ⟨hT, hlt⟩ := hs.first hL
    have hTr : s.Tr.toNat = 0 := by rw [hT]; rfl
    have hcode := hs.coding.codeBound
    have h27 : s.C.toNat * 2 ^ s.t.toNat < 2 ^ 27 := by
      have := Nat.one_le_two_pow (n := s.t.toNat); omega
    have hadj : (snapshot b.length s).adjusts = true := by
      unfold Snapshot.adjusts
      rw [hlow, hTr, zero_mul, zero_add, Nat.div_eq_of_lt (by omega), hb0]
      simp [snapshot, hL]
    unfold Snapshot.lowAdjusted Snapshot.widthAdjusted pendingValue widthValue
    rw [if_pos hadj, if_pos hadj, hlow, hwid, messageBytes_first h, pendingWeight_first h, hTr]
    simp only [weightAfter, List.foldl_nil]
    push_cast
    exact ⟨by ring, by ring⟩
  · have hadj : ¬ (snapshot b.length s).adjusts = true := by
      unfold Snapshot.adjusts snapshot
      simp only [Bool.and_eq_true, decide_eq_true_eq]
      rintro ⟨-, h1⟩
      omega
    unfold Snapshot.lowAdjusted Snapshot.widthAdjusted pendingValue widthValue
    rw [if_neg hadj, if_neg hadj, hlow, hwid, pendingWeight_later h]
    push_cast
    exact ⟨by ring, by ring⟩

theorem keptValue_padded {m d : Buffer} {j : Nat} (hj : j ≤ d.length) (h0 : j = 0 → m.getLast? ≠ some 0xFF) :
    paddedValue (m ++ d.take j) = codeValue 1 m + weightAfter 1 m * keptValue d j / 2 ^ 27 := by
  cases j with
  | zero =>
    unfold paddedValue keptValue
    rw [List.take_zero, List.append_nil, lastWeight_of_ne (h0 rfl)]; ring
  | succ j =>
    have hscale : ∀ e : Buffer, codeValue (weightAfter 1 m) e = weightAfter 1 m / 2 ^ 27 * codeValue (2 ^ 27) e := by
      intro e; rw [← codeValue_mul]; congr 1; ring
    have hscale' : ∀ e : Buffer, weightAfter (weightAfter 1 m) e = weightAfter 1 m / 2 ^ 27 * weightAfter (2 ^ 27) e := by
      intro e; rw [← weightAfter_mul]; congr 1; ring
    have ht := take_succ_concat (show j < d.length by omega)
    have hk : keptValue d (j + 1) = codeValue (2 ^ 27) (d.take j ++ [d[j]]) + weightAfter (2 ^ 27) (d.take j) := by
      rw [← ht]; rfl
    unfold paddedValue
    rw [hk, ht, codeValue_append, hscale, ← List.append_assoc, lastWeight_concat, weightAfter_append, hscale']
    ring

/-- The test of R202 says whether what is kept, padded with ones, lies in the encoder's interval. -/
theorem keptFits_iff {s : State} {b d : Buffer} {j : Nat} (hs : EncodeInv s)
    (hcase : 0 ≤ s.L ∨ b = []) (hj : j ≤ d.length) (h0 : j = 0 → (messageBytes s).getLast? ≠ some 0xFF) :
    KeptFits (snapshot b.length s).lowAdjusted (snapshot b.length s).widthAdjusted d j ↔ InInterval s (messageBytes s ++ d.take j) := by
  obtain ⟨h1, h2⟩ := snapshot_interval hs hcase
  have hw := weightAfter_pos one_pos (messageBytes s)
  unfold KeptFits InInterval
  rw [keptValue_padded hj h0, h1, h2]
  generalize weightAfter 1 (messageBytes s) = w at hw
  generalize keptValue d j = v
  constructor
  · rintro ⟨g1, g2⟩
    have g1 := mul_lt_mul_of_pos_left g1 hw
    have g2 := mul_le_mul_of_nonneg_left g2 hw.le
    exact ⟨by linarith, by linarith⟩
  · rintro ⟨g1, g2⟩
    refine ⟨?_, ?_⟩
    · by_contra hc
      have := mul_le_mul_of_nonneg_left (not_lt.1 hc) hw.le
      linarith
    · by_contra hc
      have := mul_lt_mul_of_pos_left (not_le.1 hc) hw
      linarith

/-- After a `0xFF` the first tail byte is always kept: the test of R202 stands for eight places, the byte has seven. -/
theorem keptFits_after_ones {s : State} {b d : Buffer} (hm : NoMarker s) (h : (messageBytes s).getLast? = some 0xFF) :
    ¬ KeptFits (snapshot b.length s).lowAdjusted (snapshot b.length s).widthAdjusted d 0 := by
  have hp := hm.pending h
  have hL : ¬ s.L < 0 := fun h0 => by rw [messageBytes_first h0] at h; cases h
  have hadj : ¬ (snapshot b.length s).adjusts = true := by
    unfold Snapshot.adjusts snapshot
    simp only [Bool.and_eq_true, decide_eq_true_eq]
    rintro ⟨-, h1⟩
    omega
  rintro ⟨-, h2⟩
  unfold Snapshot.lowAdjusted Snapshot.widthAdjusted at h2
  rw [if_neg hadj, if_neg hadj] at h2
  have h3 : (2 : Rat) ^ 35 ≤ ((snapshot b.length s).low + (snapshot b.length s).width : Nat) := by push_cast; exact h2
  have h4 : 2 ^ 35 ≤ (snapshot b.length s).low + (snapshot b.length s).width := by exact_mod_cast h3
  have h5 : (snapshot b.length s).low + (snapshot b.length s).width = s.Tr.toNat * 2 ^ 27 + intervalTop s := by
    unfold Snapshot.low Snapshot.width intervalTop snapshot; simp only []; ring
  omega

/-- `min_flush` after an easy flush: the fewest bytes of the tail that, padded with ones, lie in the interval (R202). -/
theorem minFlush_interval {s u : State} {b d : Buffer} {k : Nat} (h : Flushed s u b d k) (hk : d.length ≤ 3) (hs : EncodeInv s)
    (hm : NoMarker s) (hcase : 0 ≤ s.L ∨ b = []) :
    ∃ nb, minFlush (snapshot b.length s) u = .done nb u ∧ nb ≤ d.length ∧ InInterval s (messageBytes s ++ d.take nb) ∧
      ∀ j, j < nb → (j = 0 → (messageBytes s).getLast? ≠ some 0xFF) → ¬ InInterval s (messageBytes s ++ d.take j) := by
  obtain ⟨nb, h1, h2, h3, h4⟩ := minFlush_fits (z := snapshot b.length s) h.stream rfl hk
  refine ⟨nb, h1, h2, ?_, fun j hj h0 hi => h3 j hj ((keptFits_iff hs hcase (by omega) h0).2 hi)⟩
  by_cases hlt : nb < d.length
  · have hf := h4 hlt
    refine (keptFits_iff hs hcase h2 fun h0 hl => ?_).1 hf
    rw [h0] at hf
    exact keptFits_after_ones hm hl hf
  · rw [List.take_of_length_le (by omega)]
    exact (h.point hs hm).2.1

/-! ### `post_trim` (R203) -/

theorem take_append_rest {b : Buffer} {l : Nat} (h : l < b.length) : b.take l ++ b[l] :: b.drop (l + 1) = b := by
  rw [← List.drop_eq_getElem_cons h, List.take_append_drop]

theorem trimPairs_padded {s : State} {b : Buffer} (hb : installed s = some b) (hm : MarkerFree b) (fuel : Nat) :
    ∀ (l k : Nat) (u : State), l ≤ b.length → trimPairs fuel l s = .done k u → paddedValue (b.take k) = paddedValue (b.take l) := by
  induction fuel with
  | zero => intro l k u _ h; cases h; rfl
  | succ fuel ih =>
    intro l k u hl h
    unfold trimPairs at h
    split at h
    · rename_i h2
      rw [memRead_some hb (by omega), bind_done, memRead_some hb (by omega), bind_done] at h
      split at h
      · rename_i hp
        rw [ih (l - 2) k u (by omega) h]
        have hne : (b.take (l - 2)).getLast? ≠ some 0xFF := by
          have := take_append_rest (b := b) (l := l - 2) (by omega)
          rw [hp.1] at this
          exact MarkerFree.last_ne (by rw [this]; exact hm) (by decide)
        have ht : b.take l = b.take (l - 2) ++ [0xFF, 0x7F] := by
          have h1 := take_succ_concat (b := b) (j := l - 1) (by omega)
          have h0 := take_succ_concat (b := b) (j := l - 2) (by omega)
          rw [show l - 1 + 1 = l by omega, hp.2] at h1
          rw [show l - 2 + 1 = l - 1 by omega, hp.1] at h0
          rw [h1, h0]; simp
        rw [ht, paddedValue_pair hne]
      · cases h; rfl
    · cases h; rfl

/-- The bytes `post_trim` drops are those the decoder supplies by itself (R203). -/
theorem postTrim_padded {s u : State} {b : Buffer} {l k : Nat} (hb : installed s = some b) (hm : MarkerFree b)
    (hl : l ≤ b.length) (h : postTrim l s = .done k u) : paddedValue (b.take k) = paddedValue (b.take l) := by
  unfold postTrim trimByte at h
  split at h
  · rename_i h1
    rw [memRead_some hb (by omega), bind_done, bind_done] at h
    split at h
    · rename_i hff
      rw [trimPairs_padded hb hm _ _ _ _ (by omega) h]
      have hne : (b.take (l - 1)).getLast? ≠ some 0xFF := by
        have := take_append_rest (b := b) (l := l - 1) (by omega)
        rw [hff] at this
        exact MarkerFree.last_ne (by rw [this]; exact hm) (by decide)
      have h0 := take_succ_concat (b := b) (j := l - 1) (by omega)
      rw [show l - 1 + 1 = l by omega, hff] at h0
      rw [h0, paddedValue_ones hne]
    · exact trimPairs_padded hb hm _ _ _ _ hl h
  · exact trimPairs_padded hb hm _ _ _ _ hl h

end Sys2Proof.Machine
end

