-- ==== Sys2Proof/Laws/PerInstr.lean ====
section
/-! SUPPORT. Statements made of every command as syntax, one lemma per constructor. -/

namespace Sys2Proof.Laws.WordShape

/-- The word of a command is well formed field by field (R75), and the command meets the operand ranges of R79. -/
def Statement (i : Instr) : Prop := wordWellFormed (encode i) = true ∧ i.wellFormed = true

theorem bit_le (b : Bit) : b.toNat ≤ 1 := by have := b.isLt; omega

theorem imm_le (c : BitVec 16) : c.toNat ≤ 0xFFFF := by have := c.isLt; omega

/-- The fields decide: an opcode in use, the operands it has, and nothing else. -/
theorem of_fields {op : BitVec 4} {x g : Bit} {c : BitVec 16} (ho : opUsed op = true) (hx : opHasX op = true ∨ x = 0)
    (hg : opHasG op = true ∨ g = 0) (hc : opHasImm op = true ∨ c = 0) : wordWellFormed (headBits op x g ++ c) = true := by
  obtain ⟨h1, h2, h3, h4, h5, h6⟩ := encoded_fields op x g c
  unfold wordWellFormed
  rw [h1, h2, h3, h4, h5, h6, ho]
  rcases hx with hx | hx <;> rcases hg with hg | hg <;> rcases hc with hc | hc <;> simp [hx, hg, hc]

theorem reset : Statement .reset := ⟨by decide, rfl⟩
theorem rstenc : Statement .rstenc := ⟨by decide, rfl⟩
theorem rstdec : Statement .rstdec := ⟨by decide, rfl⟩
theorem encctx (x : Bit) (c : BitVec 16) : Statement (.encctx x c) :=
  ⟨of_fields rfl (.inl rfl) (.inr rfl) (.inl rfl), by simp [Instr.wellFormed, bit_le, imm_le]⟩
theorem decctx (c : BitVec 16) : Statement (.decctx c) :=
  ⟨of_fields rfl (.inr rfl) (.inr rfl) (.inl rfl), by simp [Instr.wellFormed, imm_le]⟩
theorem encprb (x g : Bit) (p : BitVec 16) : Statement (.encprb x g p) :=
  ⟨of_fields rfl (.inl rfl) (.inl rfl) (.inl rfl), by simp [Instr.wellFormed, bit_le, imm_le]⟩
theorem decprb (g : Bit) (p : BitVec 16) : Statement (.decprb g p) :=
  ⟨of_fields rfl (.inr rfl) (.inl rfl) (.inl rfl), by simp [Instr.wellFormed, bit_le, imm_le]⟩
theorem terme : Statement .terme := ⟨by decide, rfl⟩
theorem termo : Statement .termo := ⟨by decide, rfl⟩
theorem remb : Statement .remb := ⟨by decide, rfl⟩
theorem chstr (z : Bit) (sid : BitVec 16) : Statement (.chstr z sid) :=
  ⟨of_fields rfl (.inr rfl) (.inl rfl) (.inl rfl), by simp [Instr.wellFormed, bit_le, imm_le]⟩

end Sys2Proof.Laws.WordShape
end

