-- ==== Sys2Proof/Laws/RoundTrip.lean ====
section
/-! SUPPORT. Encoder and decoder side by side (R109): what the final bytes owe to every state the encoder passed through, and
where a decoder of those bytes stands while it mirrors the encoder. -/

namespace Sys2Proof.Machine

/-! ### How far a renormalization shifts -/

/-- The encoder's loop multiplies A by a power of two; after a shift fewer than twelve are owed to the next transfer. -/
theorem renormEnc_shifts (fuel : Nat) : ∀ s u : State, 1 ≤ s.t.toNat → s.t.toNat ≤ 12 → renormEnc fuel s = .done () u →
    ∃ k, u.A.toNat = s.A.toNat * 2 ^ k ∧ (k = 0 ∨ u.t.toNat ≤ 11) ∧ 0x8000 ≤ u.A.toNat := by
  induction fuel with
  | zero => intro s u _ _ h; cases h
  | succ fuel ih =>
    intro s u h1 h12 h
    unfold renormEnc at h
    split at h
    · rename_i hd
      rw [renormDue_iff] at hd
      obtain ⟨⟨⟩, v, hv, h⟩ := bind_eq_done.1 h
      have ht := (toNat_pow_half h1).1
      have hA : (shiftOnce s).A.toNat = 2 * s.A.toNat := shiftOnce_width hd
      have hvt : v.A = (shiftOnce s).A ∧ 1 ≤ v.t.toNat ∧ v.t.toNat ≤ 11 := by
        split at hv
        · obtain ⟨-, -, g1, -, g2, -⟩ := transferByte_done hv
          exact ⟨g1, by rcases g2 with h | h <;> rw [h] <;> decide, by rcases g2 with h | h <;> rw [h] <;> decide⟩
        · rename_i hne
          cases hv
          have h0 : (shiftOnce s).t.toNat ≠ 0 := fun h => hne (BitVec.eq_of_toNat_eq (by simpa using h))
          have h2 : (shiftOnce s).t.toNat + 1 = s.t.toNat := ht
          exact ⟨rfl, by omega, by omega⟩
      obtain ⟨k, g1, g2, g3⟩ := ih v u hvt.2.1 (by omega) h
      refine ⟨k + 1, by rw [g1, hvt.1, hA, Nat.pow_succ]; ring, ?_, g3⟩
      rcases g2 with rfl | g2
      · have hdone : v = u := by
          have hA1 : u.A.toNat = v.A.toNat := by simpa using g1
          cases fuel with
          | zero => cases h
          | succ fuel =>
            unfold renormEnc at h
            rw [if_neg (by rw [renormDue_iff]; omega)] at h
            cases h; rfl
        exact .inr (by rw [← hdone]; exact hvt.2.2)
      · exact .inr g2
    · rename_i hd
      cases h
      rw [renormDue_iff] at hd
      exact ⟨0, by simp, .inl rfl, by omega⟩

/-- Two renormalizations of one A end with the same A after the same number of shifts. -/
theorem shifts_unique {A k j : Nat} (hk : 0x8000 ≤ A * 2 ^ k) (hk' : A * 2 ^ k < 0x10000) (hj : 0x8000 ≤ A * 2 ^ j)
    (hj' : A * 2 ^ j < 0x10000) : k = j := by
  have key : ∀ {a b : Nat}, 0x8000 ≤ A * 2 ^ a → A * 2 ^ b < 0x10000 → b ≤ a := by
    intro a b ha hb
    by_contra hc
    have h1 : 2 ^ (a + 1) ≤ 2 ^ b := Nat.pow_le_pow_right (by norm_num) (by omega)
    have h2 := Nat.mul_le_mul_left A h1
    have h3 : A * 2 ^ (a + 1) = 2 * (A * 2 ^ a) := by rw [Nat.pow_succ]; ring
    omega
  exact le_antisymm (key hj hk') (key hk hj')

/-! ### What the final bytes owe to a state of the encoder -/

/-- No byte loaded after `s` can have made the lower end of `s` pass its own upper end: for every byte of `F` beyond the
pending one, the lower end of `s` lies below the byte's upper end. -/
def Ahead (s : State) (F : Buffer) : Prop :=
  ∀ (e1 : Buffer) (v : Byte) (e2 : Buffer), F = e1 ++ v :: e2 → s.L < e1.length →
    intervalLow s < codeValue 1 e1 + (v.toNat + 1) * weightAfter 1 e1

/-- `F` is what the encoder finishes from `s` to the end, and `S`, the padded value of the final bytes, lies in the interval
of `s`. -/
structure Sound (s : State) (F : Buffer) (S : Rat) : Prop where
  run : ∃ q T E, Emitted (pendingValue s) s.Tr q T E ∧ F = messageBytes s ++ realBytes s E ∧
    (s.L = -1 → ∀ v, E.head? = some v → v = 0)
  low : intervalLow s < S
  high : S ≤ intervalLow s + s.A.toNat * intervalUnit s

theorem messageBytes_length {s : State} {b : Buffer} (hs : EncodeInv s) (hb : installed s = some b) :
    (messageBytes s).length = s.L.toNat := by
  have := hs.appended b hb
  have := hs.position
  rw [messageBytes_some hb, List.length_drop]; omega

theorem Sound.ahead {s : State} {b F : Buffer} {S : Rat} (h : Sound s F S) (hs : EncodeInv s) (hb : installed s = some b) :
    Ahead s F := by
  obtain ⟨q, T, E, he, rfl, hph⟩ := h.run
  intro e1 v e2 heq hL
  have hlen := messageBytes_length hs hb
  have hpos := hs.position
  have hw := pendingWeight_pos s
  rw [intervalLow_eq]
  by_cases h0 : s.L < 0
  · rw [messageBytes_first h0, pendingWeight_first h0]
    rw [messageBytes_first h0] at heq
    unfold realBytes at heq
    rw [if_pos h0] at heq
    cases E with
    | nil => simp at heq
    | cons a E =>
      obtain rfl := hph (by omega) a rfl
      have heq' : E = e1 ++ v :: e2 := by simpa using heq
      have := he.loaded (2 ^ 8) (by positivity) (0 :: e1) v (e2 ++ [T]) (by rw [heq']; simp) (by simp)
      simp only [codeValue, weightAfter, List.foldl_cons, nextWeight_phantom] at this ⊢
      have hz : ((0 : Byte).toNat : Rat) = 0 := Nat.cast_zero
      rw [hz] at this
      linarith
  · rw [pendingWeight_later h0]
    unfold realBytes at heq
    rw [if_neg h0] at heq
    have hlt : (messageBytes s).length < e1.length := by omega
    rcases List.append_eq_append_iff.1 heq with ⟨d, rfl, hd⟩ | ⟨d, hd, -⟩
    · have hne : d ≠ [] := fun h => by rw [h] at hlt; simp at hlt
      have := he.loaded _ (weightAfter_pos one_pos (messageBytes s)) d v (e2 ++ [T]) (by rw [hd]; simp) hne
      rw [codeValue_append, weightAfter_append]
      linarith
    · rw [hd] at hlt; simp at hlt

theorem realBytes_append {s u : State} {e f : Buffer} (hpos : -1 ≤ s.L) (hp : u.L = s.L + e.length) :
    realBytes s (e ++ f) = realBytes s e ++ realBytes u f := by
  unfold realBytes
  by_cases h : s.L < 0
  · cases e with
    | nil => rw [if_pos h, if_pos h, if_pos (by simp at hp; omega)]; simp
    | cons a e => rw [if_pos h, if_pos h, if_neg (by simp at hp; omega)]; simp
  · rw [if_neg h, if_neg h, if_neg (by omega)]

/-- What the final bytes owe to the state after a symbol they owe to the state before it. -/
theorem Sound.back {p : BitVec 16} {mps x : Bit} {cx : Option Nat} {s u : State} {b e F : Buffer} {S : Rat} (hs : EncodeInv s)
    (hb : installed s = some b) (hp2 : p.toNat ≤ 0x7FFF) (hn : Narrowed p mps x cx s (encUpdate p mps x cx s))
    (hr : EncodeRun (encUpdate p mps x cx s) u b e) (h : Sound u F S) : Sound s F S := by
  have hpos : -1 ≤ (encUpdate p mps x cx s).L := by rw [hn.position]; exact hs.position
  have happ : (encUpdate p mps x cx s).L ≤ b.length := by rw [hn.position]; exact hs.appended b hb
  obtain ⟨hlow, hwid⟩ := hr.interval hpos happ (hn.installed.trans hb)
  obtain ⟨hup, hdown⟩ := hn.interval hs hp2
  have hunit := intervalUnit_pos s
  have hA := hs.interval
  have hpA : (p.toNat : Rat) ≤ s.A.toNat := by exact_mod_cast (by omega : p.toNat ≤ s.A.toNat)
  have hp0 : (0 : Rat) ≤ p.toNat * intervalUnit s := by positivity
  have hnum := hn.numbers hA hp2 hs.coding.codeLt
  obtain ⟨q, T, E, he, hF, hph⟩ := h.run
  have hl := h.low
  have hh := h.high
  rw [hlow] at hl hh
  rw [hwid] at hh
  refine ⟨⟨q, T, e ++ E, ?_, ?_, ?_⟩, ?_, ?_⟩
  · have hle : pendingValue s ≤ pendingValue (encUpdate p mps x cx s) := by
      have hC : s.C.toNat ≤ (encUpdate p mps x cx s).C.toNat := by omega
      have hC' : (s.C.toNat : Rat) ≤ (encUpdate p mps x cx s).C.toNat := by exact_mod_cast hC
      unfold pendingValue
      rw [hn.tr, hn.count]
      have := mul_le_mul_of_nonneg_right hC' (show (0 : Rat) ≤ 2 ^ s.t.toNat by positivity)
      have := div_le_div_of_nonneg_right this (show (0 : Rat) ≤ 2 ^ 27 by positivity)
      linarith
    have h0 := (Emitted.refl (pendingValue s) s.Tr).mono hle
    have h1 := hr.emitted
    rw [hn.tr] at h1
    exact h0.trans (h1.trans he)
  · have hm := messageBytes_run hpos happ (hn.installed.trans hb) hr.stream hr.position
    have hm' : messageBytes (encUpdate p mps x cx s) = messageBytes s := by
      unfold messageBytes; rw [hn.installed, hn.position]
    have hrb : ∀ l, realBytes (encUpdate p mps x cx s) l = realBytes s l := fun l => by unfold realBytes; rw [hn.position]
    have hp := hr.position
    rw [hn.position] at hp
    rw [hF, hm, hm', hrb, realBytes_append hs.position hp, List.append_assoc]
  · intro h0 v hv
    have hp := hr.position
    rw [hn.position] at hp
    cases e with
    | nil => exact hph (by rw [hp, h0]; simp) v (by simpa using hv)
    | cons a e => exact hr.phantom (by rw [hn.position]; exact h0) v (by simpa using hv)
  · cases ht : takesUpper s.A p mps x with
    | true => rw [(hup ht).1] at hl; linarith
    | false => rw [(hdown ht).1] at hl; exact hl
  · cases ht : takesUpper s.A p mps x with
    | true =>
      rw [(hup ht).1, (hup ht).2] at hh
      linarith
    | false =>
      rw [(hdown ht).1, (hdown ht).2] at hh
      have := mul_le_mul_of_nonneg_right hpA hunit.le
      linarith

/-! ### Multiples of a weight -/

theorem codeValue_multiple (w : Rat) (b : Buffer) :
    (∃ n : Nat, codeValue w b = n * weightAfter w b) ∧ ∃ n : Nat, w = n * weightAfter w b := by
  induction b generalizing w with
  | nil => exact ⟨⟨0, by simp [codeValue]⟩, 1, by simp [weightAfter]⟩
  | cons v b ih =>
    obtain ⟨⟨n, hn⟩, m, hm⟩ := ih (nextWeight w v)
    have hw : ∃ j : Nat, w = j * nextWeight w v := by
      unfold nextWeight; split
      · exact ⟨2 ^ 7, by push_cast; field_simp; norm_num⟩
      · exact ⟨2 ^ 8, by push_cast; field_simp; norm_num⟩
    obtain ⟨j, hj⟩ := hw
    have hwb : weightAfter w (v :: b) = weightAfter (nextWeight w v) b := rfl
    refine ⟨⟨v.toNat * (j * m) + n, ?_⟩, j * m, ?_⟩
    · rw [hwb]; simp only [codeValue]; rw [hn]; push_cast
      have : w = j * m * weightAfter (nextWeight w v) b := by rw [mul_assoc, ← hm]; exact hj
      conv_lhs => rw [this]
      ring_nf
      rw [← this]
      ring
    · rw [hwb]; push_cast; rw [mul_assoc, ← hm]; exact hj

/-! ### Where a decoder of the final bytes stands -/

/-- What the decoder has read: `T` is the value it knows of the final bytes `F`, `w` the weight of bit 0 of the byte read
last. Within the bytes it knows a prefix of them; at their end the ones it supplies carry it on. -/
def HasRead (F : Buffer) (k : Nat) (Tr : Byte) (T w : Rat) : Prop :=
  (T = codeValue 1 (F.take k) ∧ w = lastWeight (F.take k) ∧ (F.take k).getLastD 0 = Tr) ∨
  (k = F.length ∧ T + w = paddedValue F)

/-- A decoder of the bytes `F` whose window is measured from `low` in units of `unit`. -/
structure Mirrors (F : Buffer) (low unit : Rat) (d : State) : Prop where
  stream : installed d = some F
  count : d.t.toNat ≤ 8
  read : ∃ (k : Nat) (T w : Rat), d.L = k ∧ k ≤ F.length ∧ 0 < w ∧ (∃ M : Nat, T = M * w) ∧ unit = w * 2 ^ d.t.toNat ∧
    d.C.toNat * unit = 2 ^ 8 * (T - low) ∧ HasRead F k d.Tr T w

theorem codeValue_take_le (F : Buffer) (k : Nat) : codeValue 1 (F.take k) ≤ codeValue 1 F := by
  conv_rhs => rw [← List.take_append_drop k F]
  rw [codeValue_append]
  have := codeValue_nonneg (weightAfter_pos one_pos (F.take k)) (F.drop k)
  linarith

/-- What is known never reaches the padded value. -/
theorem HasRead.lt {F : Buffer} {k : Nat} {Tr : Byte} {T w : Rat} (h : HasRead F k Tr T w) (hw : 0 < w) : T < paddedValue F := by
  rcases h with ⟨rfl, -, -⟩ | ⟨-, h⟩
  · have := codeValue_take_le F k
    have := lastWeight_pos F
    unfold paddedValue; linarith
  · linarith

/-- At the end of the bytes what is missing is one unit of the byte read last. -/
theorem HasRead.end {F : Buffer} {Tr : Byte} {T w : Rat} (h : HasRead F F.length Tr T w) : T + w = paddedValue F := by
  rcases h with ⟨h1, h2, -⟩ | ⟨-, h⟩
  · rw [List.take_length] at h1 h2; rw [h1, h2]; rfl
  · exact h

theorem Mirrors.congr {F : Buffer} {low unit : Rat} {d u : State} (h : Mirrors F low unit d) (h1 : installed u = installed d)
    (hC : u.C = d.C) (ht : u.t = d.t) (hT : u.Tr = d.Tr) (hL : u.L = d.L) : Mirrors F low unit u :=
  ⟨h1.trans h.stream, by rw [ht]; exact h.count, by rw [hC, ht, hT, hL]; exact h.read⟩

/-- The code register stays below the interval. -/
theorem Mirrors.code_lt {F : Buffer} {low unit : Rat} {d : State} {m : Nat} (h : Mirrors F low unit d)
    (hS : paddedValue F ≤ low + m * unit) : d.C.toNat < 2 ^ 8 * m := by
  obtain ⟨k, T, w, -, -, hw, -, hu, hC, hr⟩ := h.read
  have := hr.lt hw
  have hup : 0 < unit := by rw [hu]; positivity
  have h1 : (d.C.toNat : Rat) * unit < 2 ^ 8 * m * unit := by rw [hC]; linarith
  have h2 := lt_of_mul_lt_mul_right h1 hup.le
  exact_mod_cast h2

/-- Shifting the code register by part of the count. -/
theorem Mirrors.shift {F : Buffer} {low unit : Rat} {d u : State} {j : Nat} (h : Mirrors F low unit d) (hj : j ≤ d.t.toNat)
    (hC : d.C.toNat * 2 ^ j < 2 ^ 32) (h1 : installed u = installed d) (hCu : u.C = d.C <<< j)
    (ht : u.t.toNat + j = d.t.toNat) (hT : u.Tr = d.Tr) (hL : u.L = d.L) : Mirrors F low (unit / 2 ^ j) u := by
  obtain ⟨k, T, w, r1, r2, r3, r4, r5, r6, r7⟩ := h.read
  have hcount := h.count
  refine ⟨h1.trans h.stream, by omega, k, T, w, by rw [hL, r1], r2, r3, r4, ?_, ?_, by rw [hT]; exact r7⟩
  · rw [r5, ← ht, pow_add]; field_simp
  · have : (u.C.toNat : Rat) = d.C.toNat * 2 ^ j := by
      rw [hCu, BitVec.toNat_shiftLeft, Nat.shiftLeft_eq, Nat.mod_eq_of_lt hC]; push_cast; rfl
    rw [this, ← r6]; field_simp

/-- One fill (R133): the bytes read grow by one, or the ones at the end by eight. -/
theorem Mirrors.fill {F : Buffer} {low unit : Rat} {d u : State} (h : Mirrors F low unit d) (ht : d.t.toNat = 0)
    (hS : paddedValue F ≤ low + 2 ^ 16 * unit) (hf : FillLaw d u F) : Mirrors F low unit u := by
  obtain ⟨k, T, w, r1, r2, r3, ⟨M, r4⟩, r5, r6, r7⟩ := h.read
  have hC := h.code_lt (m := 2 ^ 16) (by push_cast; exact hS)
  rw [ht, pow_zero, mul_one] at r5
  refine ⟨hf.readFrame.installed.trans h.stream, by rcases hf.count with h | h <;> rw [h] <;> decide, ?_⟩
  cases hf with
  | pad h0 hu =>
    have hk : k = F.length := by omega
    subst hk
    have hend := r7.end
    have hC' : (u.C.toNat : Rat) = d.C.toNat + 255 := by
      have : u.C.toNat = d.C.toNat + 255 := by
        rw [hu]; show (d.C + 0xFF).toNat = _
        rw [BitVec.toNat_add]; show (_ + 255) % _ = _; omega
      rw [this]; push_cast; rfl
    have htu : u.t.toNat = 8 := by rw [hu]; rfl
    refine ⟨F.length, T + 255 * (w / 2 ^ 8), w / 2 ^ 8, by rw [hu]; exact r1, le_refl _, by positivity,
      ⟨M * 2 ^ 8 + 255, by rw [r4]; push_cast; field_simp; ring⟩, ?_, ?_, .inr ⟨rfl, ?_⟩⟩
    · rw [htu, r5]; field_simp
    · rw [hC', add_mul, r6, r5]; ring
    · rw [← hend]; ring
  | data n hn hlt hm hu =>
    have hk : n = k := by omega
    subst hk
    rcases r7 with ⟨q1, q2, q3⟩ | ⟨q1, -⟩
    swap
    · omega
    have htake := take_succ_concat hlt
    have hv := (F[n]).isLt
    have htu : u.t.toNat = if d.Tr = 0xFF then 7 else 8 := by
      rw [hu]; show (if d.Tr = 0xFF then (7 : BitVec 4) else 8).toNat = _
      split <;> rfl
    have hw : w = weightAfter 1 (F.take n) * 2 ^ u.t.toNat := by
      rw [q2, htu]
      rcases List.eq_nil_or_concat' (F.take n) with h0 | ⟨a, v, h0⟩
      · rw [h0] at q3 ⊢
        have : d.Tr = 0 := q3.symm
        rw [if_neg (by rw [this]; decide), lastWeight_nil]; simp [weightAfter]
      · rw [h0] at q3 ⊢
        have : d.Tr = v := by rw [← q3]; simp
        rw [lastWeight_concat, weightAfter_concat, this]
        unfold nextWeight; split <;> field_simp
    have hC' : (u.C.toNat : Rat) = d.C.toNat + (F[n]).toNat * 2 ^ (8 - u.t.toNat) := by
      have : u.C.toNat = d.C.toNat + (F[n]).toNat * 2 ^ (8 - u.t.toNat) := by
        rw [hu]; show (d.C + (byteWide F[n] <<< _)).toNat = _
        rw [BitVec.toNat_add, BitVec.toNat_shiftLeft, byteWide_toNat, Nat.shiftLeft_eq]
        rw [hu] at htu
        simp only [addByte_t] at htu ⊢
        generalize (bumpPosition (acceptByte F[n] (startFill d))).t.toNat = t at htu ⊢
        split at htu <;> subst htu <;> norm_num <;> omega
      rw [this]; push_cast; rfl
    have hpow : (2 : Rat) ^ (8 - u.t.toNat) * 2 ^ u.t.toNat = 2 ^ 8 := by
      rw [← pow_add]; congr 1; rw [htu]; split <;> rfl
    refine ⟨n + 1, T + (F[n]).toNat * weightAfter 1 (F.take n), weightAfter 1 (F.take n), by rw [hu]; show d.L + 1 = _; rw [r1]; rfl,
      by omega, weightAfter_pos one_pos _, ⟨M * 2 ^ u.t.toNat + (F[n]).toNat, ?_⟩, by rw [r5, hw], ?_, .inl ⟨?_, ?_, ?_⟩⟩
    · rw [r4, hw]; push_cast; ring
    · rw [hC', add_mul, r6, r5]
      conv_lhs => rw [hw]
      linear_combination ((F[n]).toNat * weightAfter 1 (F.take n)) * hpow
    · rw [htake, codeValue_concat, q1]
    · rw [htake, lastWeight_concat]
    · have : u.Tr = F[n] := by rw [hu]; rfl
      rw [htake, this, List.getLastD_concat]

/-- Only a stream with a marker, or one too long for L, keeps a fill from ending (R133, R241). -/
theorem Mirrors.fill_done {F : Buffer} {low unit : Rat} {d : State} (h : Mirrors F low unit d) (hm : MarkerFree F)
    (hlw : F.length ≤ positionMax d.lw) : ∃ u, fillLsb d = .done () u ∧ FillLaw d u F := by
  obtain ⟨k, T, w, r1, r2, r3, r4, r5, r6, r7⟩ := h.read
  rcases fillLsb_cases h.stream with h | ⟨-, n, hn, h1, h2, h3⟩ | ⟨-, h1⟩ | ⟨-, h1, h2, h3⟩
  · exact h
  · exfalso
    have : n = k := by omega
    subst this
    rcases r7 with ⟨-, -, q⟩ | ⟨q, -⟩
    · rcases List.eq_nil_or_concat' (F.take n) with h0 | ⟨a, v, h0⟩
      · rw [h0, h2] at q; cases q
      · rw [h0, h2, List.getLastD_concat] at q
        have hlen := congrArg List.length h0
        simp only [List.length_take, List.length_append, List.length_singleton] at hlen
        have h4 : F[n - 1]? = some 0xFF := by
          have : (F.take n)[a.length]? = some 0xFF := by rw [h0, q]; simp
          rw [List.getElem?_take, if_pos (by omega)] at this
          rw [show n - 1 = a.length by omega]; exact this
        have := hm (n - 1) F[n] h4 (by rw [show n - 1 + 1 = n by omega]; simp [hn])
        rw [BitVec.le_def] at this; rw [BitVec.lt_def] at h3; omega
    · omega
  · omega
  · omega

/-- The decoder's loop doubles A and halves the unit until A is large again (R104). -/
theorem Mirrors.renorm {F : Buffer} {low : Rat} (hm : MarkerFree F) (r : Nat) : ∀ (fuel : Nat) (unit : Rat) (d : State), r < fuel →
    Mirrors F low unit d → F.length ≤ positionMax d.lw → paddedValue F ≤ low + d.A.toNat * unit → 1 ≤ d.A.toNat →
    0x8000 ≤ d.A.toNat * 2 ^ r →
    ∃ (u : State) (j : Nat), renormDec fuel d = .done () u ∧ Mirrors F low (unit / 2 ^ j) u ∧ u.A.toNat = d.A.toNat * 2 ^ j ∧
      0x8000 ≤ u.A.toNat ∧ u.ctx = d.ctx ∧ d.L ≤ u.L ∧ ReadFrame d u := by
  induction r with
  | zero =>
    intro fuel unit d hf h hlw hS h1 hA
    obtain ⟨k, rfl⟩ : ∃ k, fuel = k + 1 := ⟨fuel - 1, by omega⟩
    refine ⟨d, 0, ?_, by simpa using h, by simp, by omega, rfl, le_refl _, ReadFrame.refl d⟩
    unfold renormDec
    rw [if_neg]; rw [renormDue_iff]; omega
  | succ r ih =>
    intro fuel unit d hf h hlw hS h1 hA
    obtain ⟨k, rfl⟩ : ∃ k, fuel = k + 1 := ⟨fuel - 1, by omega⟩
    unfold renormDec
    by_cases hd : renormDue d.A = true
    swap
    · rw [if_neg hd]
      rw [renormDue_iff] at hd
      exact ⟨d, 0, rfl, by simpa using h, by simp, by omega, rfl, le_refl _, ReadFrame.refl d⟩
    rw [if_pos hd]
    rw [renormDue_iff] at hd
    have hAr : 0x8000 ≤ 2 * d.A.toNat * 2 ^ r := by rw [Nat.pow_succ] at hA; linarith
    have hup : 0 < unit := by obtain ⟨_, _, w, -, -, hw, -, hu, -⟩ := h.read; rw [hu]; positivity
    -- after the fill, if one is due
    have key : ∀ v, Mirrors F low unit v → 1 ≤ v.t.toNat → ReadFrame d v → v.ctx = d.ctx → v.A = d.A → d.L ≤ v.L →
        ∃ (u : State) (j : Nat), renormDec k (shiftOnce v) = .done () u ∧ Mirrors F low (unit / 2 ^ j) u ∧
          u.A.toNat = d.A.toNat * 2 ^ j ∧ 0x8000 ≤ u.A.toNat ∧ u.ctx = d.ctx ∧ d.L ≤ u.L ∧ ReadFrame d u := by
      intro v hv ht hfr hx hAv hL
      have hw := shiftOnce_width (s := v) (by rw [hAv]; omega)
      have hC := hv.code_lt hS
      have hsh : Mirrors F low (unit / 2 ^ 1) (shiftOnce v) :=
        hv.shift ht (by omega) rfl rfl (toNat_pow_half ht).1 rfl rfl
      have hS' : paddedValue F ≤ low + (shiftOnce v).A.toNat * (unit / 2 ^ 1) := by
        rw [hw, hAv]; push_cast
        have : 2 * (d.A.toNat : Rat) * (unit / 2 ^ 1) = d.A.toNat * unit := by ring
        rw [this]; exact hS
      obtain ⟨u, j, g1, g2, g3, g4, g5, g6, g7⟩ := ih k (unit / 2 ^ 1) (shiftOnce v) (by omega) hsh
        (by show _ ≤ positionMax v.lw; rw [hfr.lw]; exact hlw) hS' (by rw [hw, hAv]; omega) (by rw [hw, hAv]; exact hAr)
      refine ⟨u, j + 1, g1, ?_, ?_, g4, g5.trans hx, le_trans hL g6, (hfr.trans (shiftOnce_frame v)).trans g7⟩
      · rw [show unit / 2 ^ (j + 1) = unit / 2 ^ 1 / 2 ^ j by rw [pow_succ]; field_simp]; exact g2
      · rw [g3, hw, hAv, pow_succ]; ring
    by_cases ht : d.t = 0
    · rw [if_pos ht]
      obtain ⟨v, hv, hl⟩ := h.fill_done hm hlw
      have hS16 : paddedValue F ≤ low + 2 ^ 16 * unit := by
        have : (d.A.toNat : Rat) ≤ 2 ^ 16 := by exact_mod_cast d.A.isLt.le
        have := mul_le_mul_of_nonneg_right this hup.le
        linarith
      rw [hv, bind_done]
      exact key v (h.fill (by rw [ht]; rfl) hS16 hl) (by rcases hl.count with h | h <;> rw [h] <;> decide) hl.readFrame hl.ctx
        hl.width hl.position.1
    · rw [if_neg ht, bind_done]
      exact key d h (Nat.one_le_iff_ne_zero.2 fun h => ht (BitVec.eq_of_toNat_eq (by simpa using h)))
        (ReadFrame.refl d) rfl rfl (le_refl _)

/-- The start of decoding (R172): the window spans the whole first byte and the phantom above it. -/
theorem Mirrors.start {F : Buffer} {d : State} (hb : installed d = some F) (hm : MarkerFree F) (hlw : F.length ≤ positionMax d.lw)
    (hS : paddedValue F ≤ 2 ^ 8) :
    ∃ u, startDecoding d = .done () u ∧ Mirrors F 0 (2 ^ 8 / 2 ^ 15) u ∧ u.A = 0x8000 ∧ u.ctx = d.ctx ∧ u.mode = .dec ∧
      u.lw = d.lw ∧ u.responses = d.responses ∧ (1 ≤ u.L ∨ u.L = F.length) := by
  have h0 : Mirrors F 0 (2 ^ 8) (clearForDecoding { d with t := 0 }) :=
    ⟨hb, by show (0#4).toNat ≤ 8; decide, 0, 0, 2 ^ 8, rfl, by omega, by positivity, ⟨0, by simp⟩, by
      show _ = _ * 2 ^ (0#4).toNat; simp, by show ((0#32).toNat : Rat) * _ = _; simp, .inl ⟨rfl, rfl, rfl⟩⟩
  have hsame : fillLsb (clearForDecoding d) = fillLsb (clearForDecoding { d with t := 0 }) := rfl
  unfold startDecoding
  rw [hsame]
  obtain ⟨v, hv, hl⟩ := h0.fill_done hm hlw
  rw [hv, bind_done]
  have h1 := h0.fill rfl (by linarith) hl
  have htv : v.t = 8 := by
    cases hl with
    | pad h hu => rw [hu]; rfl
    | data n hn hlt hm' hu => rw [hu]; show (if (0 : Byte) = 0xFF then (7 : BitVec 4) else 8) = 8; exact if_neg (by decide)
  have hC1 := h1.code_lt (m := 1) (by push_cast; linarith)
  have h2 : Mirrors F 0 (2 ^ 8 / 2 ^ 8) { shiftByCount v with t := 0 } :=
    h1.shift (j := 8) (by rw [htv]; decide) (by omega) rfl (by show v.C <<< v.t.toNat = _; rw [htv]; rfl)
      (by rw [htv]; rfl) rfl rfl
  have hfr1 := hl.readFrame
  obtain ⟨x, hx, hlx⟩ := h2.fill_done hm (by show _ ≤ positionMax v.lw; rw [hfr1.lw]; exact hlw)
  have hsame2 : fillLsb (shiftByCount v) = fillLsb { shiftByCount v with t := 0 } := rfl
  rw [hsame2, hx, bind_done]
  have h3 := h2.fill rfl (by norm_num at hS ⊢; linarith) hlx
  have htx : 7 ≤ x.t.toNat := by rcases hlx.count with h | h <;> rw [h] <;> decide
  have hC3 := h3.code_lt (m := 2 ^ 8) (by norm_num at hS ⊢; linarith)
  have hfr2 := hlx.readFrame
  refine ⟨_, rfl, ?_, rfl, hlx.ctx.trans hl.ctx, rfl, hfr2.lw.trans hfr1.lw, hfr2.responses.trans hfr1.responses, ?_⟩
  · have := h3.shift (u := finishPreload x) (j := 7) htx (by omega) rfl rfl (by
      show (x.t - 7).toNat + 7 = _
      have := x.t.isLt
      have h7 : (7 : BitVec 4).toNat = 7 := rfl
      rw [BitVec.toNat_sub, h7]; omega) rfl rfl
    convert this using 1; norm_num
  · have hp1 := hl.position
    have hp2 := hlx.position
    have hv1 : 1 ≤ v.L ∨ v.L = F.length := by
      cases hl with
      | pad h hu => right; rw [hu]; exact h
      | data n hn hlt hm' hu => left; rw [hu]; show (1 : Int) ≤ 0 + 1; omega
    show 1 ≤ x.L ∨ x.L = _
    have : (shiftByCount v).L = v.L := rfl
    simp only [this] at hp2
    omega

/-! ### One symbol on both sides -/

theorem weightAfter_le {w : Rat} (hw : 0 < w) (b : Buffer) : weightAfter w b ≤ w := by
  induction b generalizing w with
  | nil => exact le_refl _
  | cons v b ih =>
    have h1 := ih (nextWeight_pos hw v)
    have h2 : nextWeight w v ≤ w := by
      unfold nextWeight; split
      · rw [div_le_iff₀ (by positivity)]; linarith
      · rw [div_le_iff₀ (by positivity)]; linarith
    exact le_trans h1 h2

theorem weightAfter_prefix {a b : Buffer} (h : a <+: b) : weightAfter 1 b ≤ weightAfter 1 a := by
  obtain ⟨r, rfl⟩ := h
  rw [weightAfter_append]; exact weightAfter_le (weightAfter_pos one_pos a) r

/-- The lower end of the interval is a whole number of units. -/
theorem intervalLow_multiple (s : State) : ∃ N : Nat, intervalLow s = N * intervalUnit s := by
  have hp : (2 : Rat) ^ 27 = 2 ^ (27 - s.t.toNat) * 2 ^ s.t.toNat := by rw [← pow_add]; congr 1; have := s.t.isLt; omega
  have hpw : pendingWeight s = 2 ^ (27 - s.t.toNat) * intervalUnit s := by
    unfold intervalUnit; rw [hp]; field_simp
  obtain ⟨n, hn⟩ : ∃ n : Nat, codeValue 1 (messageBytes s) = n * pendingWeight s := by
    by_cases h : s.L < 0
    · exact ⟨0, by rw [messageBytes_first h]; simp [codeValue]⟩
    · rw [pendingWeight_later h]; exact (codeValue_multiple 1 _).1
  refine ⟨n * 2 ^ (27 - s.t.toNat) + s.Tr.toNat * 2 ^ (27 - s.t.toNat) + s.C.toNat, ?_⟩
  unfold intervalLow
  rw [hn]
  have hC : pendingWeight s * (s.C.toNat * 2 ^ s.t.toNat / 2 ^ 27) = s.C.toNat * intervalUnit s := by unfold intervalUnit; ring
  rw [mul_add, hC]
  push_cast
  linear_combination (n + s.Tr.toNat : Rat) * hpw

theorem le_of_multiples {a b w : Rat} {M N : Nat} (hw : 0 < w) (ha : a = M * w) (hb : b = N * w) (h : a < b + w) : a ≤ b := by
  have h1 : (M : Rat) * w < (N + 1) * w := by rw [← ha]; linarith
  have h2 := lt_of_mul_lt_mul_right h1 hw.le
  have h3 : M ≤ N := by have : M < N + 1 := by exact_mod_cast h2
                        omega
  rw [ha, hb]
  exact mul_le_mul_of_nonneg_right (by exact_mod_cast h3) hw.le

/-- Encoder and decoder of the final bytes `F` between two symbols: one interval, one set of contexts. -/
structure Together (F : Buffer) (s d : State) : Prop where
  mirrors : Mirrors F (intervalLow s) (intervalUnit s) d
  width : d.A = s.A
  ctx : d.ctx = s.ctx
  begun : 1 ≤ d.L ∨ d.L = F.length

theorem symbolRead_eq {A p : BitVec 16} {mps x : Bit} {C : Word} (h : windowReaches C p = takesUpper A p mps x) :
    symbolRead A p mps C = x := by
  unfold symbolRead
  rw [h]; unfold takesUpper
  clear h
  generalize decide (p ≤ A - p) = q
  revert mps x q; decide

/-- The window decides as the encoder did (R103, R100): the final bytes lie in the sub-interval the symbol took, and no
byte the decoder has not read can lift what it knows over its lower end. -/
theorem Together.reaches {F G b : Buffer} {p : BitVec 16} {mps x : Bit} {cx : Option Nat} {s u d : State} (h : Together G s d)
    (hF : G <+: F) (hs : EncodeInv s) (hu : EncodeInv u) (hbu : installed u = some b) (hp2 : p.toNat ≤ 0x7FFF)
    (hS : paddedValue G ≤ intervalLow s + s.A.toNat * intervalUnit s) (hsnd : Sound u F (paddedValue G))
    (hlow : intervalLow u = intervalLow (encUpdate p mps x cx s))
    (hwid : u.A.toNat * intervalUnit u = (encUpdate p mps x cx s).A.toNat * intervalUnit (encUpdate p mps x cx s))
    {j : Nat} (hj : intervalUnit u = intervalUnit s / 2 ^ j) (hj15 : j ≤ 15) (htu : j = 0 ∨ u.t.toNat ≤ 11) :
    windowReaches d.C p = takesUpper s.A p mps x := by
  have hn := encUpdate_law hp2 mps x cx s
  obtain ⟨hup, hdown⟩ := hn.interval hs hp2
  obtain ⟨k, T, w, r1, r2, r3, ⟨M, r4⟩, r5, r6, r7⟩ := h.mirrors.read
  have hunit := intervalUnit_pos s
  have hC := h.mirrors.code_lt hS
  have hA := s.A.isLt
  have hiff : windowReaches d.C p = true ↔ intervalLow s + p.toNat * intervalUnit s ≤ T := by
    have h1 : windowReaches d.C p = true ↔ p.toNat * 2 ^ 8 ≤ d.C.toNat := by
      unfold windowReaches
      rw [decide_eq_true_iff, BitVec.le_def, codeWindow_toNat]; omega
    have h2 : (p.toNat * 2 ^ 8 ≤ d.C.toNat) ↔ (p.toNat : Rat) * 2 ^ 8 * intervalUnit s ≤ d.C.toNat * intervalUnit s := by
      rw [mul_le_mul_iff_left₀ hunit]; exact_mod_cast Iff.rfl
    rw [h1, h2, r6]
    constructor <;> intro h <;> linarith
  cases ht : takesUpper s.A p mps x with
  | false =>
    have h1 := hsnd.high
    rw [hlow, hwid, (hdown ht).1, (hdown ht).2] at h1
    have h2 := r7.lt r3
    by_contra hc
    have := hiff.1 (by simpa using hc)
    linarith
  | true =>
    have h1 := hsnd.low
    rw [hlow, (hup ht).1] at h1
    rw [hiff]
    obtain ⟨N, hN⟩ := intervalLow_multiple s
    have hmul : intervalLow s + p.toNat * intervalUnit s = ((N + p.toNat) * 2 ^ d.t.toNat : Nat) * w := by
      rw [hN, r5]; push_cast; ring
    refine le_of_multiples r3 hmul r4 ?_
    by_cases hk : k = G.length
    · subst hk; rw [r7.end]; exact h1
    · have hk1 : 1 ≤ k := by have := h.begun; omega
      obtain ⟨q1, q2, -⟩ := r7.resolve_right fun q => hk q.1
      have hlt : k - 1 < G.length := by omega
      have htake := take_succ_concat hlt
      rw [show k - 1 + 1 = k by omega] at htake
      rw [htake, codeValue_concat] at q1
      rw [htake, lastWeight_concat] at q2
      have hsplit : F = G.take (k - 1) ++ G[k - 1] :: F.drop k := by
        obtain ⟨r, rfl⟩ := hF
        have h2 : (G ++ r).take k = G.take k := List.take_append_of_le_length (by omega)
        conv_lhs => rw [← List.take_append_drop k (G ++ r)]
        rw [h2, htake, List.append_assoc]; rfl
      have hlen : (G.take (k - 1)).length = k - 1 := by simp; omega
      have hpast : u.L < (G.take (k - 1)).length := by
        by_contra hc
        rw [hlen] at hc
        have hmb := messageBytes_length hu hbu
        have hpre : G.take (k - 1) <+: messageBytes u := by
          obtain ⟨q, T', E, -, hF', -⟩ := hsnd.run
          refine List.prefix_of_prefix_length_le ⟨_, hsplit.symm⟩ (hF' ▸ List.prefix_append _ _) ?_
          rw [hlen, hmb]; omega
        have hpw : pendingWeight u ≤ w := by
          rw [pendingWeight_later (by omega), q2]; exact weightAfter_prefix hpre
        have hexp : u.t.toNat + j ≤ 26 := by have := hu.countHigh; omega
        have h26 : (2 : Rat) ^ (u.t.toNat + j) ≤ 2 ^ 26 := pow_le_pow_right₀ (by norm_num) hexp
        have hone : (1 : Rat) ≤ 2 ^ d.t.toNat := one_le_pow₀ (by norm_num)
        have heq : pendingWeight u * 2 ^ (u.t.toNat + j) = w * 2 ^ d.t.toNat * 2 ^ 27 := by
          have := hj
          rw [r5] at this
          unfold intervalUnit at this
          rw [div_eq_div_iff (by positivity) (by positivity)] at this
          rw [pow_add]; linarith
        have hpos := pendingWeight_pos u
        have hc1 : pendingWeight u * 2 ^ (u.t.toNat + j) ≤ w * 2 ^ 26 := by
          have a1 := mul_le_mul_of_nonneg_left h26 hpos.le
          have a2 := mul_le_mul_of_nonneg_right hpw (show (0 : Rat) ≤ 2 ^ 26 by positivity)
          linarith
        have hc2 : w * 2 ^ 27 ≤ w * 2 ^ d.t.toNat * 2 ^ 27 := by
          have := mul_le_mul_of_nonneg_left hone r3.le
          have := mul_le_mul_of_nonneg_right this (show (0 : Rat) ≤ 2 ^ 27 by positivity)
          linarith
        have : w * 2 ^ 26 < w * 2 ^ 27 := mul_lt_mul_of_pos_left (by norm_num) r3
        linarith
      have := hsnd.ahead hu hbu (G.take (k - 1)) G[k - 1] (F.drop k) hsplit hpast
      rw [hlow, (hup ht).1] at this
      rw [q1, q2]; linarith

/-- A decoder step reads the symbol the encoder step coded, and the two are together again. -/
theorem Together.step {F G b b' e : Buffer} {p : BitVec 16} {mps x : Bit} {cx : Option Nat} {s u d : State} (h : Together G s d)
    (hF : G <+: F) (hm : MarkerFree G) (hlw : G.length ≤ positionMax d.lw) (hs : EncodeInv s) (hu : EncodeInv u)
    (hb : installed s = some b) (hbu : installed u = some b') (hp1 : 1 ≤ p.toNat) (hp2 : p.toNat ≤ 0x7FFF)
    (hstep : encStep p mps x cx s = .done () u) (hr : EncodeRun (encUpdate p mps x cx s) u b e)
    (hsnd : Sound u F (paddedValue G)) :
    ∃ v, decStep p mps cx d = .done x v ∧ Together G u v ∧ ReadFrame d v := by
  have hn := encUpdate_law hp2 mps x cx s
  have hl := decUpdate_law hp2 mps cx d
  obtain ⟨hup, hdown⟩ := hn.interval hs hp2
  have hpos : -1 ≤ (encUpdate p mps x cx s).L := by rw [hn.position]; exact hs.position
  have happ : (encUpdate p mps x cx s).L ≤ b.length := by rw [hn.position]; exact hs.appended b hb
  obtain ⟨hlow, hwid⟩ := hr.interval hpos happ (hn.installed.trans hb)
  have hback := hsnd.back hs hb hp2 hn hr
  obtain ⟨k, hk1, hk2, hk3⟩ := renormEnc_shifts renormFuel (encUpdate p mps x cx s) u (by rw [hn.count]; exact hs.countLow)
    (by rw [hn.count]; exact hs.countHigh) hstep
  have hun : intervalUnit (encUpdate p mps x cx s) = intervalUnit s := by
    have hmb : messageBytes (encUpdate p mps x cx s) = messageBytes s := by
      unfold messageBytes; rw [hn.installed, hn.position]
    have hw : pendingWeight (encUpdate p mps x cx s) = pendingWeight s := by unfold pendingWeight; rw [hmb, hn.position]
    unfold intervalUnit; rw [hw, hn.count]
  obtain ⟨hcod, -⟩ := hn.coding hs hp1 hp2
  have hA1 := hcod.positive
  have huA := u.A.isLt
  have hk15 : k ≤ 15 := by
    by_contra hc
    have h2 : 2 ^ 16 ≤ 2 ^ k := Nat.pow_le_pow_right (by norm_num) (by omega)
    have := Nat.mul_le_mul hA1 h2
    omega
  have hunit : intervalUnit u = intervalUnit s / 2 ^ k := by
    have hA1' : (0 : Rat) < (encUpdate p mps x cx s).A.toNat := by exact_mod_cast hA1
    rw [hk1, hun] at hwid
    push_cast at hwid
    rw [eq_div_iff (by positivity)]
    have : ((encUpdate p mps x cx s).A.toNat : Rat) * (intervalUnit u * 2 ^ k) = (encUpdate p mps x cx s).A.toNat * intervalUnit s := by
      linarith
    exact mul_left_cancel₀ hA1'.ne' this
  have hreach := h.reaches hF hs hu hbu hp2 hback.high hsnd hlow hwid hunit hk15 hk2
  have hsym : (decUpdate p mps cx d).1 = x := by
    rw [hl.symbol, h.width]; exact symbolRead_eq hreach
  have hA : (decUpdate p mps cx d).2.A = (encUpdate p mps x cx s).A := by
    cases ht : takesUpper s.A p mps x with
    | true => rw [(hn.upper ht).1, (hl.reached (hreach.trans ht)).1, h.width]
    | false => rw [(hn.lower ht).1, (hl.below (hreach.trans ht)).1]
  have hctx : (decUpdate p mps cx d).2.ctx = (encUpdate p mps x cx s).ctx := by
    have hc : ∀ cx, (mpsTransition cx d).ctx = (mpsTransition cx s).ctx ∧ (lpsTransition cx d).ctx = (lpsTransition cx s).ctx := by
      intro cx; cases cx <;> simp [mpsTransition, lpsTransition, h.ctx]
    rw [hn.ctx, hl.ctx, hsym, h.width, (hc cx).1, (hc cx).2, h.ctx]
  have hmir : Mirrors G (intervalLow u) (intervalUnit s) (decUpdate p mps cx d).2 := by
    obtain ⟨k, T, w, r1, r2, r3, r4, r5, r6, r7⟩ := h.mirrors.read
    refine ⟨hl.frame.installed.trans h.mirrors.stream, by rw [hl.count]; exact h.mirrors.count, k, T, w,
      by rw [hl.position]; exact r1, r2, r3, r4, by rw [hl.count]; exact r5, ?_, by rw [hl.tr]; exact r7⟩
    rw [hlow]
    cases ht : takesUpper s.A p mps x with
    | false => rw [(hdown ht).1, (hl.below (hreach.trans ht)).2]; exact r6
    | true =>
      rw [(hup ht).1, (hl.reached (hreach.trans ht)).2]
      have hle : p.toNat * 2 ^ 8 ≤ d.C.toNat := by
        have := hreach.trans ht
        unfold windowReaches at this
        rw [decide_eq_true_iff, BitVec.le_def, codeWindow_toNat] at this; omega
      have hsub : (d.C - (probWide p <<< 8)).toNat = d.C.toNat - p.toNat * 2 ^ 8 := by
        have h8 : (probWide p <<< 8).toNat = p.toNat * 2 ^ 8 := by
          rw [BitVec.toNat_shiftLeft, probWide_toNat, Nat.shiftLeft_eq]; omega
        have := d.C.isLt
        rw [BitVec.toNat_sub, h8]; omega
      rw [hsub, Nat.cast_sub hle, sub_mul, r6]; push_cast; ring
  have hSu : paddedValue G ≤ intervalLow u + (decUpdate p mps cx d).2.A.toNat * intervalUnit s := by
    rw [hA, ← hun, ← hwid]; exact hsnd.high
  obtain ⟨v, j, g1, g2, g3, g4, g5, g6, g7⟩ := hmir.renorm hm 15 renormFuel _ _ (by unfold renormFuel; omega)
    (by rw [hl.frame.lw]; exact hlw) hSu (by rw [hA]; exact hA1) (by rw [hA]; omega)
  have hvA := v.A.isLt
  have hjk : j = k := by
    rw [hA] at g3
    exact shifts_unique (A := (encUpdate p mps x cx s).A.toNat) (by omega) (by omega) (by omega) (by omega)
  subst hjk
  refine ⟨v, ?_, ⟨by rw [hunit]; exact g2, ?_, g5.trans (hctx.trans hr.ctx.symm), ?_⟩, hl.frame.trans g7⟩
  · unfold decStep; rw [g1, bind_done, hsym]
  · apply BitVec.eq_of_toNat_eq; rw [g3, hA, hk1]
  · have := h.begun
    have := hl.position
    obtain ⟨q, -, -, q1, q2, -⟩ := g2.read
    omega

/-! ### An optimal flush (R201) -/

/-- The message that begins the stream: its bytes are the stream's. -/
theorem messageBytes_whole {s : State} {b : Buffer} (hb : installed s = some b) (h : b.length = s.L.toNat) :
    messageBytes s = b := by
  rw [messageBytes_some hb, ← h]; simp

/-- What an optimal flush leaves (R201): an easy flush, the tail cut to what `min_flush` and then `post_trim` answer. -/
theorem optimalFlush_point {s w : State} {b d : Buffer} {m : Nat} (hb : installed s = some b) (hu : easyFlush s = .done () w)
    (h : Flushed s w b d m) (hd : d.length ≤ 3) (hs : EncodeInv s) :
    ∃ k n, minFlush (snapshot b.length s) w = .done k w ∧ k ≤ d.length ∧ postTrim (b.length + k) w = .done n w ∧
      n ≤ b.length + k ∧ optimalFlush s = .done () (setInstalled ((b ++ d).take n) w) ∧
      (NoMarker s → 0 ≤ s.L ∨ b = [] → InInterval s (messageBytes s ++ d.take k) ∧
        ∀ j, j < k → (j = 0 → (messageBytes s).getLast? ≠ some 0xFF) → ¬ InInterval s (messageBytes s ++ d.take j)) ∧
      (NoMarker s → b.length = s.L.toNat → InInterval s ((b ++ d).take n)) := by
  have hc := h.stream
  obtain ⟨k, h1, h2⟩ := minFlush_law (z := snapshot b.length s) hc (by simp [snapshot])
  have h2' : b.length + k ≤ (b ++ d).length := h2
  obtain ⟨n, h3, h4, -⟩ := postTrim_law hc h2'
  have hk : k ≤ d.length := by simpa using h2'
  have hint : NoMarker s → 0 ≤ s.L ∨ b = [] → InInterval s (messageBytes s ++ d.take k) ∧
      ∀ j, j < k → (j = 0 → (messageBytes s).getLast? ≠ some 0xFF) → ¬ InInterval s (messageBytes s ++ d.take j) := by
    intro hm hcase
    obtain ⟨nb, g1, -, g3, g4⟩ := minFlush_interval h hd hs hm hcase
    rw [h1] at g1
    cases g1
    exact ⟨g3, g4⟩
  refine ⟨k, n, h1, hk, h3, h4, ?_, hint, fun hm hL => ?_⟩
  · unfold optimalFlush
    rw [streamLen_some hb, bind_done, hu, bind_done, h1, bind_done, h3, bind_done, streamTrunc_some hc (by omega)]
  · have hcase : 0 ≤ s.L ∨ b = [] := by
      by_cases h0 : 0 ≤ s.L
      · exact .inl h0
      · exact .inr (List.eq_nil_of_length_eq_zero (by omega))
    have hmb := messageBytes_whole hb hL
    obtain ⟨-, -, hmf, -⟩ := h.point hs hm
    rw [hmb] at hmf
    have hp := postTrim_padded hc hmf h2' h3
    have hi := (hint hm hcase).1
    rw [hmb] at hi
    unfold InInterval at hi ⊢
    rw [hp, List.take_length_add_append]; exact hi

/-! ### The termination properties (R204) -/

theorem terminatedStream_eq_some {i : Instr} {s : State} {c : Buffer} : terminatedStream i s = some c ↔
    ∃ u, exec i s = .next u ∧ u.responses = s.responses ++ [responseWord .ok 0] ∧ installed u = some c := by
  unfold terminatedStream
  cases h : exec i s with
  | next u => simp
  | fault f => simp
  | refused r => simp

theorem encodeMessage_eq_some {i : Instr} {msg : List Symbol} {s : State} {c : Buffer} : encodeMessage i msg s = some c ↔
    ∃ u, execAll (.rstenc :: msg.map Symbol.encoding ++ [i]) s = some u ∧
      u.responses = s.responses ++ List.replicate (msg.length + 2) (responseWord .ok 0) ∧ installed u = some c := by
  unfold encodeMessage
  cases h : execAll (.rstenc :: msg.map Symbol.encoding ++ [i]) s with
  | none => simp
  | some u => simp

theorem symbolOf_eq_some {r : Word} {x : Bit} : symbolOf r = some x ↔ r = responseWord .ok (x.setWidth 3) := by
  have hx : x = 0 ∨ x = 1 := by revert x; decide
  unfold symbolOf
  rcases hx with rfl | rfl <;> (repeat' split) <;> (simp_all; try decide)

/-- The responses that give the symbols of `bits`, and no others, are read as `bits`. -/
theorem mapM_symbolOf {rs : List Word} : ∀ {bits : List Bit},
    rs.mapM symbolOf = some bits ↔ rs = bits.map fun x => responseWord .ok (x.setWidth 3) := by
  induction rs with
  | nil => intro bits; cases bits <;> simp
  | cons r rs ih =>
    intro bits
    cases bits with
    | nil => simp [Option.bind_eq_some_iff]
    | cons x bits => simp [Option.bind_eq_some_iff, symbolOf_eq_some, ih]

/-! ### A message from end to end (R109, R204) -/

/-- A command that answers OK with value 0 was admitted, and its rule ran to the end. -/
theorem exec_ok {i : Instr} {s u : State} {v : BitVec 3} (h : exec i s = .next u)
    (hr : u.responses = s.responses ++ [responseWord .ok v]) :
    admission i s = none ∧ ∃ w, rule i s = .done v w ∧ u = respond .ok v w ∧ w.responses = s.responses := by
  rcases exec_next h with ⟨st, h1, rfl⟩ | ⟨ha, x, w, h1, rfl⟩ | ⟨ha, e, w, h1, rfl⟩
  · obtain ⟨rfl, -⟩ := responses_append_injective hr
    exact absurd h1 (by
      unfold admission operandRefusal
      split
      · simp
      · split
        · simp
        · split <;> (try split) <;> simp)
  · have hw := ((rule_frame ha).1 _ _ h1).responses
    have : w.responses ++ [responseWord .ok x] = s.responses ++ [responseWord .ok v] := hr
    rw [hw] at this
    obtain ⟨-, rfl⟩ := responses_append_injective this
    exact ⟨ha, w, h1, rfl, hw⟩
  · have hw := ((rule_frame ha).2 _ _ h1).responses
    have : w.responses ++ [responseWord (errorStatus e) 0] = s.responses ++ [responseWord .ok v] := hr
    rw [hw] at this
    obtain ⟨h2, -⟩ := responses_append_injective this
    cases e <;> cases h2

theorem exec_one {i : Instr} {s u : State} (h : exec i s = .next u) : ∃ r, u.responses = s.responses ++ [r] := by
  obtain ⟨w, st, v, hf, h | h⟩ := exec_frame h <;> rw [h] <;> exact ⟨_, by
    show w.responses ++ _ = _; rw [hf.responses]⟩

theorem execAll_responses {l : List Instr} : ∀ {s u : State}, execAll l s = some u →
    ∃ rs, u.responses = s.responses ++ rs ∧ rs.length = l.length := by
  induction l with
  | nil => intro s u h; cases h; exact ⟨[], by simp, rfl⟩
  | cons i l ih =>
    intro s u h
    unfold execAll at h
    cases he : exec i s with
    | next w =>
      rw [he] at h
      obtain ⟨r, hr⟩ := exec_one he
      obtain ⟨rs, h1, h2⟩ := ih h
      exact ⟨r :: rs, by rw [h1, hr]; simp, by simp [h2]⟩
    | fault f => rw [he] at h; cases h
    | refused f => rw [he] at h; cases h

/-- A decoder reads `bits` where its commands have next states and their responses are OK and give `bits`. -/
theorem decodeMessage_eq_some {msg : List Symbol} {d : State} {bits : List Bit} : decodeMessage msg d = some bits ↔
    ∃ v, execAll (.rstdec :: msg.map Symbol.decoding) d = some v ∧
      v.responses = d.responses ++ responseWord .ok 0 :: bits.map fun x => responseWord .ok (x.setWidth 3) := by
  unfold decodeMessage
  cases h : execAll (.rstdec :: msg.map Symbol.decoding) d with
  | none => simp
  | some v =>
    obtain ⟨rs, hv, hlen⟩ := execAll_responses h
    cases rs with
    | nil => cases hlen
    | cons r rs => simp [hv, mapM_symbolOf]

/-- Of commands that all answer OK, the first does. -/
theorem execAll_cons {i : Instr} {l : List Instr} {s u : State} (h : execAll (i :: l) s = some u)
    (hr : u.responses = s.responses ++ List.replicate (l.length + 1) 0) :
    ∃ w, exec i s = .next w ∧ w.responses = s.responses ++ [0] ∧ execAll l w = some u ∧
      u.responses = w.responses ++ List.replicate l.length 0 := by
  unfold execAll at h
  cases he : exec i s with
  | next w =>
    rw [he] at h
    obtain ⟨r, h1⟩ := exec_one he
    obtain ⟨rs, h2, h3⟩ := execAll_responses h
    rw [h2, h1, List.append_assoc, List.replicate_succ] at hr
    have := List.append_cancel_left hr
    simp only [List.singleton_append, List.cons.injEq] at this
    obtain ⟨rfl, rfl⟩ := this
    exact ⟨w, rfl, h1, h, h2⟩
  | fault f => rw [he] at h; cases h
  | refused f => rw [he] at h; cases h

/-- What holds between the commands of a message encoded into an empty stream. -/
structure Message (s : State) : Prop where
  mode : s.mode = .enc
  inv : EncodeInv s
  clean : NoMarker s
  stream : ∃ b, installed s = some b ∧ b.length = s.L.toNat

/-- The state between two symbols owes its interval to the final bytes: there is no marker in them, and what the encoder
still writes goes on from it. -/
theorem Message.finish {s u : State} {i : Instr} {G : Buffer} (h : Message s) (hi : i = .terme ∨ i = .termo)
    (hu : exec i s = .next u) (hr : u.responses = s.responses ++ [0]) (hG : installed u = some G) :
    MarkerFree G ∧ ∃ F, G <+: F ∧ Sound s F (paddedValue G) := by
  obtain ⟨b, hb, hbL⟩ := h.stream
  have hs := h.inv
  have hm := h.clean
  have hmb := messageBytes_whole hb hbL
  have hrest : ∀ {w d : _} {k : Nat}, Flushed s w b d k → ∀ n, InInterval s ((b ++ d).take n) → G = (b ++ d).take n →
      MarkerFree G ∧ ∃ F, G <+: F ∧ Sound s F (paddedValue G) := by
    intro w d k hf n hint hGn
    obtain ⟨-, -, hmf, e, v, he, hpre⟩ := hf.point hs hm
    obtain ⟨q, T, hq⟩ := he.emitted
    have hpre' : G <+: messageBytes s ++ d := by rw [hGn, hmb]; exact List.take_prefix _ _
    refine ⟨hmf.prefix hpre', _, hpre'.trans hpre, ⟨q, T, _, hq, rfl, he.phantom⟩, ?_, ?_⟩
    · rw [hGn]; exact hint.1
    · rw [hGn]; exact hint.2
  rcases hi with rfl | rfl
  · obtain ⟨-, w, h1, rfl, -⟩ := exec_ok (v := 0) hu hr
    obtain ⟨⟨⟩, x, h2, h3⟩ := bind_eq_done.1 h1
    cases h3
    rcases easyFlush_cases hs hb with ⟨y, d, g1, g2⟩ | ⟨y, g1, -⟩ | ⟨g1, -⟩ <;> rw [h2] at g1 <;> cases g1
    have hx : installed x = some G := hG
    rw [g2.stream] at hx
    have hint := (g2.point hs hm).2.1
    rw [hmb] at hint
    exact hrest g2 (b ++ d).length (by rw [List.take_length]; exact hint) (by rw [List.take_length]; exact (Option.some.inj hx).symm)
  · obtain ⟨-, w, h1, rfl, -⟩ := exec_ok (v := 0) hu hr
    obtain ⟨⟨⟩, x, h2, h3⟩ := bind_eq_done.1 h1
    cases h3
    rcases easyFlush_cases hs hb with ⟨y, d, g1, g2⟩ | ⟨y, g1, -⟩ | ⟨g1, -⟩
    · have hd : d.length ≤ 3 := le_trans g2.short (easyBound_le hs.countLow)
      obtain ⟨k, n, -, -, -, -, q5, -, q7⟩ := optimalFlush_point hb g1 g2 hd hs
      rw [h2] at q5; cases q5
      have hx : installed (setInstalled ((b ++ d).take n) y) = some G := hG
      rw [installed_setInstalled g2.stream] at hx
      exact hrest g2 n (q7 hm hbL) (Option.some.inj hx).symm
    · rw [optimalFlush_raised hb g1] at h2; cases h2
    · rw [optimalFlush_refused hb g1] at h2; cases h2

/-- A symbol's two commands, as the engine sees them: legal operands, and the same ones on both sides. -/
theorem Symbol.rules (m : Symbol) {s w : State} (h : rule m.encoding s = .done 0 w) (ha : admission m.encoding s = none) :
    ∃ (p : BitVec 16) (mps : Bit) (cx : Option Nat), 1 ≤ p.toNat ∧ p.toNat ≤ 0x7FFF ∧ encStep p mps m.bit cx s = .done () w ∧
      ∀ d : State, d.ctx = s.ctx → d.mode = .dec → admission m.decoding d = none ∧
        rule m.decoding d = (decStep p mps cx d).bind fun x s1 => .done (bitValue x) s1 := by
  cases m with
  | context x i =>
    obtain ⟨h1, h2⟩ := admitted_encctx.1 ha
    obtain ⟨⟨⟩, y, h3, h4⟩ := bind_eq_done.1 h
    cases h4
    refine ⟨_, _, _, (stateProb_legal _).1, (stateProb_legal _).2, h3, fun d hd hm => ⟨admitted_decctx.2 ⟨hm, by rw [hd]; exact h2⟩, ?_⟩⟩
    have : contextAt (contextIndex i) d = contextAt (contextIndex i) s := by unfold contextAt; rw [hd]
    show (decStep _ _ _ d).bind _ = _
    rw [this]
  | probability x g p =>
    obtain ⟨h1, h2, h3⟩ := admitted_encprb.1 ha
    obtain ⟨⟨⟩, y, h4, h5⟩ := bind_eq_done.1 h
    cases h5
    exact ⟨p, g, none, h2, h3, h4, fun d _ hm => ⟨admitted_decprb.2 ⟨hm, h2, h3⟩, rfl⟩⟩

theorem Together.congr {F : Buffer} {s u d : State} (h : Together F s d) (hL : u.L = s.L) (hA : u.A = s.A) (hC : u.C = s.C)
    (ht : u.t = s.t) (hT : u.Tr = s.Tr) (hi : installed u = installed s) (hx : u.ctx = s.ctx) : Together F u d := by
  have hm : messageBytes u = messageBytes s := by unfold messageBytes; rw [hi, hL]
  have hw : pendingWeight u = pendingWeight s := by unfold pendingWeight; rw [hm, hL]
  have h1 : intervalLow u = intervalLow s := by unfold intervalLow; rw [hm, hw, hT, hC, ht]
  have h2 : intervalUnit u = intervalUnit s := by unfold intervalUnit; rw [hw, ht]
  exact ⟨by rw [h1, h2]; exact h.mirrors, by rw [hA]; exact h.width, by rw [hx]; exact h.ctx, h.begun⟩

theorem Together.answer {F : Buffer} {s d : State} (h : Together F s d) (st : Status) (v : BitVec 3) :
    Together F s (respond st v d) :=
  ⟨h.mirrors.congr rfl rfl rfl rfl rfl, h.width, h.ctx, h.begun⟩

/-- One symbol of a message: what the final bytes owe to the state after it they owe to the state before it, and a decoder
that stands with the encoder before it reads it and stands with the encoder after it. -/
theorem Message.symbol {s u : State} {m : Symbol} (h : Message s) (hu : exec m.encoding s = .next u)
    (hr : u.responses = s.responses ++ [0]) :
    Message u ∧ ∀ (F G : Buffer), G <+: F → MarkerFree G → Sound u F (paddedValue G) → Sound s F (paddedValue G) ∧
      ∀ d : State, d.mode = .dec → G.length ≤ positionMax d.lw → Together G s d →
        ∃ v, exec m.decoding d = .next v ∧ v.responses = d.responses ++ [responseWord .ok (m.bit.setWidth 3)] ∧
          v.mode = .dec ∧ v.lw = d.lw ∧ Together G u v := by
  obtain ⟨b, hb, hbL⟩ := h.stream
  have hs := h.inv
  obtain ⟨ha, w, h1, rfl, -⟩ := exec_ok (v := 0) hu hr
  obtain ⟨p, mps, cx, p1, p2, hst, hdec⟩ := m.rules h1 ha
  have hn := encUpdate_law p2 mps m.bit cx s
  rcases encStep_cases (mps := mps) (x := m.bit) (cx := cx) hs p1 p2 hb with ⟨y, e, g1, -, hrun, hcod, hA⟩ | ⟨y, g1, -⟩ | ⟨g1, -⟩ <;>
    rw [hst] at g1 <;> cases g1
  have hw := hrun.inv hs hn hb hcod hA
  have hbw := hrun.stream
  have hpw := hrun.position
  rw [hn.position] at hbw hpw
  have hmode : w.mode = .enc := by rw [hrun.frame.mode, hn.frame.mode]; exact h.mode
  have hlen : (b ++ if s.L < 0 then e.drop 1 else e).length = w.L.toNat := by
    have := hs.position
    rw [hpw, List.length_append]
    split
    · simp; omega
    · omega
  refine ⟨⟨hmode, hw.congr rfl rfl rfl rfl rfl rfl, (run_marker p2 hs hb h.clean hrun).congr rfl rfl rfl rfl rfl rfl, _, hbw, hlen⟩,
    fun F G hGF hG hsnd => ?_⟩
  have hsnd' : Sound w F (paddedValue G) := ⟨hsnd.run, hsnd.low, hsnd.high⟩
  refine ⟨hsnd'.back hs hb p2 hn hrun, fun d hd hlw ht => ?_⟩
  obtain ⟨v, g1, g2, g3⟩ := ht.step hGF hG hlw hs hw hb hbw p1 p2 hst hrun hsnd'
  obtain ⟨q1, q2⟩ := hdec d ht.ctx hd
  rw [g1] at q2
  refine ⟨_, exec_of_done q1 q2, ?_, g3.mode.trans hd, g3.lw, ?_⟩
  · show v.responses ++ _ = _; rw [g3.responses]; rfl
  · exact (Together.congr (u := respond .ok 0 w) g2 rfl rfl rfl rfl rfl rfl rfl).answer _ _

/-- A whole message, from any state between its commands. -/
theorem Message.round {i : Instr} {G : Buffer} (hi : i = .terme ∨ i = .termo) (msg : List Symbol) : ∀ {s u : State}, Message s →
    execAll (msg.map Symbol.encoding ++ [i]) s = some u → u.responses = s.responses ++ List.replicate (msg.length + 1) 0 →
    installed u = some G →
    MarkerFree G ∧ ∃ F, G <+: F ∧ Sound s F (paddedValue G) ∧
      ∀ d : State, d.mode = .dec → G.length ≤ positionMax d.lw → Together G s d →
        ∃ v, execAll (msg.map Symbol.decoding) d = some v ∧
          v.responses = d.responses ++ msg.map fun m => responseWord .ok (m.bit.setWidth 3) := by
  induction msg with
  | nil =>
    intro s u h hu hr hG
    obtain ⟨w, h1, h2, h3, -⟩ := execAll_cons (l := []) hu hr
    cases h3
    obtain ⟨g1, F, g2, g3⟩ := h.finish hi h1 h2 hG
    exact ⟨g1, F, g2, g3, fun d _ _ _ => ⟨d, rfl, by simp⟩⟩
  | cons m msg ih =>
    intro s u h hu hr hG
    obtain ⟨w, h1, h2, h3, h4⟩ := execAll_cons (l := msg.map Symbol.encoding ++ [i]) hu (by simpa using hr)
    obtain ⟨hw, hback⟩ := h.symbol h1 h2
    obtain ⟨g1, F, g2, g3, g4⟩ := ih hw h3 (by simpa using h4) hG
    obtain ⟨k1, k2⟩ := hback F G g2 g1 g3
    refine ⟨g1, F, g2, k1, fun d hd hlw ht => ?_⟩
    obtain ⟨v, q1, q2, q3, q4, q5⟩ := k2 d hd hlw ht
    obtain ⟨x, r1, r2⟩ := g4 v q3 (by rw [q4]; exact hlw) q5
    refine ⟨x, ?_, ?_⟩
    · show (match exec m.decoding d with | .next u => _ | .fault _ => _ | .refused _ => _) = _
      rw [q1]; exact r1
    · rw [r2, q2]; simp

/-- The start of a message on both sides (R171, R172). -/
theorem Together.start {G : Buffer} {s v : State} (hL : s.L = -1) (hA : s.A = 0x8000) (hC : s.C = 0) (ht : s.t = 12)
    (hT : s.Tr = 0) (hm : Mirrors G 0 (2 ^ 8 / 2 ^ 15) v) (hv : v.A = 0x8000) (hx : v.ctx = s.ctx)
    (hb : 1 ≤ v.L ∨ v.L = G.length) : Together G s v := by
  have h0 : s.L < 0 := by omega
  have h1 : intervalLow s = 0 := by
    unfold intervalLow; rw [messageBytes_first h0, hT, hC, ht]
    have e1 : ((0 : Byte).toNat : Rat) = 0 := Nat.cast_zero
    have e2 : ((0 : Word).toNat : Rat) = 0 := Nat.cast_zero
    rw [e1, e2]; simp [codeValue]
  have h2 : intervalUnit s = 2 ^ 8 / 2 ^ 15 := by
    unfold intervalUnit; rw [pendingWeight_first h0, ht]
    show (2 : Rat) ^ 8 * 2 ^ 12 / 2 ^ 27 = _; norm_num
  exact ⟨by rw [h1, h2]; exact hm, by rw [hv, hA], hx, hb⟩

end Sys2Proof.Machine
end

