-- ==== Sys2Proof/Laws/Shifts.lean ====
section
/-! SUPPORT. The renormalization loops step by step (R102, R104): k shifts at once where none of them needs a transfer or a
fill, and the transfer that fails. -/

namespace Sys2Proof.Machine

/-- The state after k shifts and nothing else. -/
def shiftBy (k : Nat) (s : State) : State := { s with A := s.A <<< k, C := s.C <<< k, t := s.t - BitVec.ofNat 4 k }

theorem shiftBy_zero (s : State) : shiftBy 0 s = s := by
  unfold shiftBy; simp

theorem shiftBy_succ (k : Nat) (s : State) : shiftBy k (shiftOnce s) = shiftBy (k + 1) s := by
  have hA : s.A <<< 1 <<< k = s.A <<< (k + 1) := by rw [← BitVec.shiftLeft_add, Nat.add_comm]
  have hC : s.C <<< 1 <<< k = s.C <<< (k + 1) := by rw [← BitVec.shiftLeft_add, Nat.add_comm]
  have ht : s.t - 1 - BitVec.ofNat 4 k = s.t - BitVec.ofNat 4 (k + 1) := by
    rw [BitVec.ofNat_add, BitVec.sub_sub, BitVec.add_comm]; rfl
  unfold shiftBy shiftOnce
  simp only [hA, hC, ht]

theorem shiftBy_width {k : Nat} {s : State} (h : s.A.toNat * 2 ^ k < 0x10000) : (shiftBy k s).A.toNat = s.A.toNat * 2 ^ k := by
  show (s.A <<< k).toNat = _
  rw [BitVec.toNat_shiftLeft, Nat.shiftLeft_eq, Nat.mod_eq_of_lt h]

theorem shiftBy_count {k : Nat} {s : State} (h : k ≤ s.t.toNat) : (shiftBy k s).t.toNat = s.t.toNat - k := by
  have := s.t.isLt
  show (s.t - BitVec.ofNat 4 k).toNat = _
  rw [BitVec.toNat_sub, BitVec.toNat_ofNat, Nat.mod_eq_of_lt (show k < 2 ^ 4 by omega)]; omega

theorem half_lt {A k : Nat} (h : A * 2 ^ (k + 1) < 0x10000) : A < 0x8000 := by
  have := Nat.one_le_two_pow (n := k)
  rw [Nat.pow_succ] at h
  nlinarith

/-- The decoder's loop while t lasts (R104). -/
theorem renormDec_shiftBy (fuel k : Nat) : ∀ s : State, k ≤ s.t.toNat → s.A.toNat * 2 ^ k < 0x10000 →
    renormDec (fuel + k) s = renormDec fuel (shiftBy k s) := by
  induction k with
  | zero => intro s _ _; rw [shiftBy_zero]; rfl
  | succ k ih =>
    intro s hk hA
    have hd := half_lt hA
    have hw := shiftOnce_width hd
    have ht := (toNat_pow_half (show 1 ≤ s.t.toNat by omega)).1
    rw [← shiftBy_succ, ← ih (shiftOnce s) (by show k ≤ (s.t - 1).toNat; omega) (by rw [hw]; rw [Nat.pow_succ] at hA; linarith),
      ← Nat.add_assoc]
    conv_lhs => unfold renormDec
    rw [if_pos (by rw [renormDue_iff]; exact hd), if_neg (fun h => by rw [h] at hk; simp at hk), bind_done]

/-- The loop ends where A is large (R104). -/
theorem renormDec_end {fuel : Nat} {s : State} (h : 0x8000 ≤ s.A.toNat) : renormDec (fuel + 1) s = .done () s := by
  unfold renormDec; rw [if_neg]; rw [renormDue_iff]; omega

/-- With t at 0 the next shift fills first (R104). -/
theorem renormDec_fill {fuel : Nat} {s : State} (h : s.A.toNat < 0x8000) (ht : s.t = 0) :
    renormDec (fuel + 1) s = (fillLsb s).bind fun _ s1 => renormDec fuel (shiftOnce s1) := by
  conv_lhs => unfold renormDec
  rw [if_pos (by rw [renormDue_iff]; exact h), if_pos ht]

/-- The encoder's loop while t stays above 0 (R102). -/
theorem renormEnc_shiftBy (fuel k : Nat) : ∀ s : State, k < s.t.toNat → s.A.toNat * 2 ^ k < 0x10000 →
    renormEnc (fuel + k) s = renormEnc fuel (shiftBy k s) := by
  induction k with
  | zero => intro s _ _; rw [shiftBy_zero]; rfl
  | succ k ih =>
    intro s hk hA
    have hd := half_lt hA
    have hw := shiftOnce_width hd
    have ht := (toNat_pow_half (show 1 ≤ s.t.toNat by omega)).1
    rw [← shiftBy_succ, ← ih (shiftOnce s) (by show k < (s.t - 1).toNat; omega) (by rw [hw]; rw [Nat.pow_succ] at hA; linarith),
      ← Nat.add_assoc]
    conv_lhs => unfold renormEnc
    rw [if_pos (by rw [renormDue_iff]; exact hd), if_neg, bind_done]
    intro h
    have : (s.t - 1).toNat = 0 := by show (shiftOnce s).t.toNat = 0; rw [h]; rfl
    omega

/-- The shift that brings t to 0 transfers a byte (R102). -/
theorem renormEnc_transfer {fuel : Nat} {s : State} (h : s.A.toNat < 0x8000) (ht : (shiftOnce s).t = 0) :
    renormEnc (fuel + 1) s = (transferByte (shiftOnce s)).bind fun _ s1 => renormEnc fuel s1 := by
  conv_lhs => unfold renormEnc
  rw [if_pos (by rw [renormDue_iff]; exact h), if_pos ht]

/-- A transfer that cannot append has done its carry step and nothing else (R131, R245). -/
theorem transferByte_full {s : State} {b : Buffer} (hb : installed s = some b) (hf : bufferFull s.cap b.length = true)
    (h : s.Tr = 0xFF ∨ 0 ≤ s.L) : transferByte s = .raised .streamIO (afterCarry s) := by
  unfold transferByte afterCarry
  by_cases hT : s.Tr = 0xFF
  · rw [if_pos hT, memAppend_some hb, if_pos hf, bind_raised, if_neg (fun h => h.1 hT)]
  · have hp : propagateCarry s = if s.Tr ≠ 0xFF ∧ 0x08000000 ≤ s.C then { s with Tr := s.Tr + 1, C := s.C &&& 0x07FFFFFF } else s := by
      unfold propagateCarry carrySet
      have : (~~~maskClearCarry : Word) = 0x07FFFFFF := by decide
      rw [this, show maskCarry = 0x08000000 from rfl]
      by_cases hC : (0x08000000 : Word) ≤ s.C
      · rw [if_pos (decide_eq_true hC), if_pos ⟨hT, hC⟩]
      · rw [if_neg (fun h => hC (of_decide_eq_true h)), if_neg (fun h => hC h.2)]
    have hb' : installed (propagateCarry s) = some b := by
      unfold propagateCarry; split <;> exact hb
    have hc' : (propagateCarry s).cap = s.cap := by unfold propagateCarry; split <;> rfl
    have hL' : (propagateCarry s).L = s.L := by unfold propagateCarry; split <;> rfl
    rw [if_neg hT]
    unfold emitUnlessFirst
    rw [if_pos (by rw [hL']; exact h.resolve_left hT), memAppend_some hb', hc', if_pos hf, bind_raised, hp]

/-- An easy flush begins with a transfer of the shifted register, so it fails as that transfer does (R200). -/
theorem easyFlush_full {s : State} {b : Buffer} (hb : installed s = some b) (hf : bufferFull s.cap b.length = true)
    (h : s.Tr = 0xFF ∨ 0 ≤ s.L) : easyFlush s = .raised .streamIO (afterCarry (shiftByCount s)) := by
  have ht := transferByte_full (s := shiftByCount s) hb hf h
  unfold easyFlush flushFuel flushLoop
  split
  · rw [ht]; rfl
  · rw [bind_done, ht]; rfl

@[simp] theorem afterCarry_responses (s : State) : (afterCarry s).responses = s.responses := by unfold afterCarry; split <;> rfl
@[simp] theorem afterCarry_ctx (s : State) : (afterCarry s).ctx = s.ctx := by unfold afterCarry; split <;> rfl

/-! ### The entry of a context (R152, R153, R155) -/

theorem contextAt_of_some {s : State} {c : BitVec 16} {e : Context} (h : s.ctx[c.toNat]? = some e) :
    c.toNat < s.ctx.length ∧ contextAt c.toNat s = e := by
  obtain ⟨h1, h2⟩ := List.getElem?_eq_some_iff.1 h
  exact ⟨h1, by rw [contextAt_eq h1, h2]⟩

/-- The transition that runs writes the adapted entry. -/
theorem transition_adapted {s : State} {n : Nat} {e : Context} (h : s.ctx[n]? = some e) (A p : BitVec 16) (x : Bit) :
    (if x = e.mps then (if renormDue (A - p) then (mpsTransition (some n) s).ctx else s.ctx) else (lpsTransition (some n) s).ctx) =
      s.ctx.set n (e.adapted A p x) := by
  obtain ⟨h1, h2⟩ := List.getElem?_eq_some_iff.1 h
  unfold Context.adapted mpsTransition lpsTransition
  simp only
  rw [modify_eq_set h1, modify_eq_set h1, h2]
  split
  · split
    · rfl
    · rw [← h2]; simp
  · rfl

end Sys2Proof.Machine
end

