-- ==== Sys2Proof/Laws/Window.lean ====
section
/-! SUPPORT. What a decoder step makes of the registers however many fills its shifts need (R103, R104, R133): the code window
with all that lies ahead of it, and the place in the stream. -/

namespace Sys2Proof.Machine

/-! ### The code window whatever is read (R103, R104, R133) -/

theorem valueAhead_some {s : State} {b : Buffer} (hb : installed s = some b) :
    valueAhead s = paddedValue (s.Tr :: b.drop s.L.toNat) - s.Tr.toNat := by unfold valueAhead; rw [hb]

theorem valueAhead_end {s : State} {b : Buffer} (hb : installed s = some b) (h : s.L = b.length) : valueAhead s = 1 := by
  rw [valueAhead_some hb, List.drop_eq_nil_of_le (by omega)]
  simp [paddedValue, codeValue, lastWeight, weightAfter]

theorem lastWeight_cons (v a : Byte) (b : Buffer) : lastWeight (v :: a :: b) = nextWeight 1 v * lastWeight (a :: b) := by
  unfold lastWeight
  rw [if_neg (by simp), if_neg (by simp), List.dropLast_cons_of_ne_nil (by simp)]
  show weightAfter (nextWeight 1 v) _ = _
  rw [← weightAfter_mul, mul_one]

theorem paddedValue_cons (v a : Byte) (b : Buffer) :
    paddedValue (v :: a :: b) = v.toNat + nextWeight 1 v * paddedValue (a :: b) := by
  unfold paddedValue
  rw [lastWeight_cons]
  simp only [codeValue]
  have := codeValue_mul (nextWeight 1 v) 1 (a :: b)
  simp only [codeValue, mul_one] at this ⊢
  rw [this]; ring

/-- A fill moves a byte from what lies ahead into the code register, and the window stays what it is. -/
theorem FillLaw.window {s u : State} {b : Buffer} (h : FillLaw s u b) (hb : installed s = some b) (ht : s.t.toNat = 0) :
    ∃ m : Int, windowValue u = windowValue s - m * 2 ^ 24 := by
  have hbu := h.readFrame.installed.trans hb
  cases h with
  | pad h hu =>
    have hLu : u.L = b.length := by rw [hu]; exact h
    have htu : u.t.toNat = 8 := by rw [hu]; rfl
    have hC : u.C.toNat = (s.C.toNat + 255) % 2 ^ 32 := by rw [hu]; exact BitVec.toNat_add _ _
    have hC' : (u.C.toNat : Rat) = s.C.toNat + 255 - ((s.C.toNat + 255) / 2 ^ 32 : Nat) * 2 ^ 32 := by
      have := Nat.div_add_mod (s.C.toNat + 255) (2 ^ 32)
      rw [← hC] at this
      have : ((2 ^ 32 * ((s.C.toNat + 255) / 2 ^ 32) + u.C.toNat : Nat) : Rat) = (s.C.toNat + 255 : Nat) := by exact_mod_cast this
      push_cast at this ⊢; linarith
    generalize (s.C.toNat + 255) / 2 ^ 32 = q at hC'
    refine ⟨(q : Nat), ?_⟩
    unfold windowValue
    rw [valueAhead_end hbu hLu, valueAhead_end hb h, htu, ht, hC']; push_cast; ring
  | data n hn hlt hm hu =>
    have hTu : u.Tr = b[n] := by rw [hu]; rfl
    have hLu : u.L.toNat = n + 1 := by rw [hu]; show (s.L + 1).toNat = _; omega
    have htu : u.t.toNat = if s.Tr = 0xFF then 7 else 8 := by
      rw [hu]; show (if s.Tr = 0xFF then (7 : BitVec 4) else 8).toNat = _
      split <;> rfl
    have hw : nextWeight 1 s.Tr = 1 / 2 ^ u.t.toNat := by unfold nextWeight; rw [htu]; split <;> rfl
    have hC : u.C.toNat = (s.C.toNat + (b[n]).toNat * 2 ^ (8 - u.t.toNat)) % 2 ^ 32 := by
      have hv := (b[n]).isLt
      rw [hu]; show (s.C + (byteWide b[n] <<< _)).toNat = _
      rw [BitVec.toNat_add, BitVec.toNat_shiftLeft, byteWide_toNat, Nat.shiftLeft_eq]
      rw [hu] at htu
      simp only [addByte_t] at htu ⊢
      generalize (bumpPosition (acceptByte b[n] (startFill s))).t.toNat = t at htu ⊢
      split at htu <;> subst htu <;> norm_num
    generalize hx : s.C.toNat + (b[n]).toNat * 2 ^ (8 - u.t.toNat) = x at hC
    have hC' : (u.C.toNat : Rat) = s.C.toNat + (b[n]).toNat * 2 ^ (8 - u.t.toNat) - (x / 2 ^ 32 : Nat) * 2 ^ 32 := by
      have := Nat.div_add_mod x (2 ^ 32)
      rw [← hC] at this
      have h1 : ((2 ^ 32 * (x / 2 ^ 32) + u.C.toNat : Nat) : Rat) = (x : Rat) := by exact_mod_cast this
      have h2 : (x : Rat) = s.C.toNat + (b[n]).toNat * 2 ^ (8 - u.t.toNat) := by rw [← hx]; push_cast; rfl
      rw [h2] at h1; push_cast at h1 ⊢; linarith
    have hpow : (2 : Rat) ^ (8 - u.t.toNat) * 2 ^ u.t.toNat = 2 ^ 8 := by
      rw [← pow_add]; congr 1; rw [htu]; split <;> rfl
    have hdrop : b.drop s.L.toNat = b[n] :: b.drop (n + 1) := by
      rw [show s.L.toNat = n by omega]; exact List.drop_eq_getElem_cons hlt
    refine ⟨(x / 2 ^ 32 : Nat), ?_⟩
    unfold windowValue
    rw [valueAhead_some hbu, valueAhead_some hb, hdrop, paddedValue_cons, hLu, hTu, hw, ht, hC']
    have h2 : (2 : Rat) ^ u.t.toNat ≠ 0 := by positivity
    field_simp
    linear_combination ((b[n]).toNat : Rat) * hpow

/-- What stands between the bits read and the bits asked for. -/
theorem FillLaw.bits {s u : State} {b : Buffer} (h : FillLaw s u b) (hr : TrIsLastRead s b) :
    TrIsLastRead u b ∧ ∃ f : Nat, (u.L < b.length → f = 0) ∧
      lastWeight (b.take u.L.toNat) * 2 ^ u.t.toNat = lastWeight (b.take s.L.toNat) * 2 ^ (8 * f) := by
  unfold TrIsLastRead at *
  cases h with
  | pad h hu =>
    have hLu : u.L = s.L := by rw [hu]; rfl
    have hTu : u.Tr = s.Tr := by rw [hu]; rfl
    have htu : u.t.toNat = 8 := by rw [hu]; rfl
    exact ⟨by rw [hTu, hLu]; exact hr, 1, fun h' => by omega, by rw [hLu, htu]⟩
  | data n hn hlt hm hu =>
    have hTu : u.Tr = b[n] := by rw [hu]; rfl
    have hLu : u.L.toNat = n + 1 := by rw [hu]; show (s.L + 1).toNat = _; omega
    have htu : u.t.toNat = if s.Tr = 0xFF then 7 else 8 := by
      rw [hu]; show (if s.Tr = 0xFF then (7 : BitVec 4) else 8).toNat = _
      split <;> rfl
    have hs : s.L.toNat = n := by omega
    rw [hs] at hr ⊢
    rw [hLu, hTu, take_succ_concat hlt, List.getLastD_concat, lastWeight_concat]
    refine ⟨rfl, 0, fun _ => rfl, ?_⟩
    rw [htu, hr]
    rcases List.eq_nil_or_concat' (b.take n) with h0 | ⟨a, v, h0⟩
    · rw [h0, lastWeight_nil]
      rw [if_neg (by decide)]; simp [weightAfter]
    · rw [h0, List.getLastD_concat, lastWeight_concat, weightAfter_concat]
      unfold nextWeight; split <;> (field_simp; norm_num)

/-- A shift doubles the window and asks for one bit more. -/
theorem shiftOnce_window {s : State} {b : Buffer} (hb : installed s = some b) (ht : 1 ≤ s.t.toNat) :
    ∃ m : Int, windowValue (shiftOnce s) = 2 * windowValue s - m * 2 ^ 24 := by
  have hv : valueAhead (shiftOnce s) = valueAhead s := by
    rw [valueAhead_some hb, valueAhead_some (s := shiftOnce s) hb]; rfl
  have hC : (shiftOnce s).C.toNat = (2 * s.C.toNat) % 2 ^ 32 := by
    rw [shiftOnce_C, BitVec.toNat_shiftLeft, Nat.shiftLeft_eq]; congr 1; ring
  have hC' : ((shiftOnce s).C.toNat : Rat) = 2 * s.C.toNat - (2 * s.C.toNat / 2 ^ 32 : Nat) * 2 ^ 32 := by
    have := Nat.div_add_mod (2 * s.C.toNat) (2 ^ 32)
    rw [← hC] at this
    have h1 : ((2 ^ 32 * (2 * s.C.toNat / 2 ^ 32) + (shiftOnce s).C.toNat : Nat) : Rat) = (2 * s.C.toNat : Nat) := by exact_mod_cast this
    push_cast at h1 ⊢; linarith
  have hp : (2 : Rat) * 2 ^ (shiftOnce s).t.toNat = 2 ^ s.t.toNat := by
    have := (toNat_pow_half ht).2; exact_mod_cast this
  generalize 2 * s.C.toNat / 2 ^ 32 = q at hC'
  refine ⟨(q : Nat), ?_⟩
  unfold windowValue
  rw [hv, hC', ← hp]
  field_simp
  push_cast; ring

/-- What the decoder's loop makes of A, the window and the place in the stream (R104). -/
structure Shifted (b : Buffer) (j : Nat) (s u : State) : Prop where
  width : u.A.toNat = s.A.toNat * 2 ^ j
  window : ∃ m : Int, windowValue u = windowValue s * 2 ^ j - m * 2 ^ 24
  bits : TrIsLastRead s b → TrIsLastRead u b ∧ ∃ f : Nat, (u.L < b.length → f = 0) ∧
    lastWeight (b.take u.L.toNat) * 2 ^ (u.t.toNat + j) = lastWeight (b.take s.L.toNat) * 2 ^ (s.t.toNat + 8 * f)
  position : s.L ≤ u.L

theorem renormDec_shifted (fuel : Nat) : ∀ (s u : State) (b : Buffer), Reading s b → renormDec fuel s = .done () u →
    ∃ j, Shifted b j s u := by
  induction fuel with
  | zero => intro s u b _ h; cases h
  | succ fuel ih =>
    intro s u b hs h
    unfold renormDec at h
    split at h
    swap
    · cases h
      exact ⟨0, by simp, ⟨0, by simp⟩, fun h => ⟨h, 0, fun _ => rfl, by simp⟩, le_refl _⟩
    · rename_i hd
      rw [renormDue_iff] at hd
      obtain ⟨⟨⟩, v, hv, h⟩ := bind_eq_done.1 h
      -- before the shift
      have hpre : Reading v b ∧ 1 ≤ v.t.toNat ∧ v.A = s.A ∧ s.L ≤ v.L ∧ (∃ m : Int, windowValue v = windowValue s - m * 2 ^ 24) ∧
          (TrIsLastRead s b → TrIsLastRead v b ∧ ∃ f : Nat, (v.L < b.length → f = 0) ∧
            lastWeight (b.take v.L.toNat) * 2 ^ v.t.toNat = lastWeight (b.take s.L.toNat) * 2 ^ (s.t.toNat + 8 * f)) := by
        split at hv
        · rename_i ht
          have ht0 : s.t.toNat = 0 := by rw [ht]; rfl
          rcases fillLsb_cases hs.stream with ⟨x, h1, h2⟩ | ⟨h1, -⟩ | ⟨h1, -⟩ | ⟨h1, -⟩ <;> rw [hv] at h1 <;> cases h1
          exact ⟨h2.reading hs, by rcases h2.count with h | h <;> rw [h] <;> decide, h2.width, h2.position.1,
            h2.window hs.stream ht0, fun hr => by simp only [ht0, zero_add]; exact h2.bits hr⟩
        · rename_i ht
          cases hv
          exact ⟨hs, Nat.one_le_iff_ne_zero.2 fun h => ht (BitVec.eq_of_toNat_eq (by simpa using h)), rfl, le_refl _, ⟨0, by simp⟩,
            fun hr => ⟨hr, 0, fun _ => rfl, by simp⟩⟩
      obtain ⟨hv1, hv2, hv3, hv4, ⟨m, hv5⟩, hv6⟩ := hpre
      have ht' := (toNat_pow_half hv2).1
      obtain ⟨m', hm'⟩ := shiftOnce_window hv1.stream hv2
      have hr : Reading (shiftOnce v) b :=
        ⟨hv1.stream, by show (v.t - 1).toNat ≤ 8; have := hv1.count; omega, hv1.positionLow, hv1.positionHigh⟩
      obtain ⟨j, g1, ⟨k, g2⟩, g3, g4⟩ := ih _ _ _ hr h
      refine ⟨j + 1, ?_, ⟨2 * m * 2 ^ j + m' * 2 ^ j + k, ?_⟩, fun hT => ?_, le_trans hv4 g4⟩
      · rw [g1, shiftOnce_width (by rw [hv3]; exact hd), hv3, pow_succ]; ring
      · rw [g2, hm', hv5]; push_cast; ring
      · obtain ⟨q1, f, q2, q3⟩ := hv6 hT
        obtain ⟨r1, f', r2, r3⟩ := g3 q1
        have hL : (shiftOnce v).L = v.L := rfl
        have htv : v.t.toNat = (shiftOnce v).t.toNat + 1 := ht'.symm
        rw [htv] at q3
        rw [hL] at r3 g4
        refine ⟨r1, f + f', fun hlt => by rw [r2 hlt, q2 (by omega)], ?_⟩
        have e1 : (2 : Rat) ^ (u.t.toNat + (j + 1)) = 2 ^ (u.t.toNat + j) * 2 := by rw [← add_assoc, pow_succ]
        have e2 : (2 : Rat) ^ (s.t.toNat + 8 * (f + f')) = 2 ^ (s.t.toNat + 8 * f) * 2 ^ (8 * f') := by
          rw [← pow_add]; congr 1; ring
        have e3 : (2 : Rat) ^ ((shiftOnce v).t.toNat + 8 * f') = 2 ^ (shiftOnce v).t.toNat * 2 ^ (8 * f') := pow_add _ _ _
        rw [pow_succ] at q3
        rw [e3] at r3
        rw [e1, e2]
        linear_combination 2 * r3 + (2 : Rat) ^ (8 * f') * q3

/-- A decoder step, whatever it reads (R103). -/
theorem decStep_decoded {p : BitVec 16} {mps x : Bit} {cx : Option Nat} {s u : State} {b : Buffer} (hs : DecodeInv s)
    (hp2 : p.toNat ≤ 0x7FFF) (hb : installed s = some b) (h : decStep p mps cx s = .done x u) : ∃ j, Decoded p b j s u := by
  have hl := decUpdate_law hp2 mps cx s
  have hA := hs.interval
  have hr : Reading (decUpdate p mps cx s).2 b :=
    ⟨hl.frame.installed.trans hb, by rw [hl.count]; exact hs.count, by rw [hl.position]; exact hs.positionLow,
      by rw [hl.position]; exact hs.positionHigh b hb⟩
  obtain ⟨⟨⟩, w, h1, h2⟩ := bind_eq_done.1 h
  cases h2
  obtain ⟨j, g1, ⟨m, g2⟩, g3, -⟩ := renormDec_shifted _ _ _ _ hr h1
  have hahead : valueAhead (decUpdate p mps cx s).2 = valueAhead s := by
    rw [valueAhead_some hr.stream, valueAhead_some hb, hl.tr, hl.position]
  have hT : TrIsLastRead s b → TrIsLastRead (decUpdate p mps cx s).2 b := by
    unfold TrIsLastRead; rw [hl.tr, hl.position]; exact id
  refine ⟨j, ?_, ?_, fun ht => ?_⟩
  · rw [g1]
    cases hw : windowReaches s.C p with
    | true => rw [(hl.reached hw).1, sub_toNat (by omega)]; simp
    | false => rw [(hl.below hw).1]; simp
  · refine ⟨m, ?_⟩
    rw [g2]
    unfold windowValue
    rw [hahead, hl.count]
    cases hw : windowReaches s.C p with
    | false => rw [(hl.below hw).2]; simp
    | true =>
      have hle : p.toNat * 2 ^ 8 ≤ s.C.toNat := by
        unfold windowReaches at hw
        rw [decide_eq_true_iff, BitVec.le_def, codeWindow_toNat] at hw; omega
      have hsub : (s.C - (probWide p <<< 8)).toNat = s.C.toNat - p.toNat * 2 ^ 8 := by
        have h8 : (probWide p <<< 8).toNat = p.toNat * 2 ^ 8 := by
          rw [BitVec.toNat_shiftLeft, probWide_toNat, Nat.shiftLeft_eq]; omega
        have := s.C.isLt
        rw [BitVec.toNat_sub, h8]; omega
      rw [(hl.reached hw).2, hsub, Nat.cast_sub hle, if_pos rfl]; push_cast; ring
  · have := g3 (hT ht)
    rw [hl.position, hl.count] at this
    exact this

end Sys2Proof.Machine
end

