-- ==== Sys2Proof/Tests/Slice0.lean ====
section
/-! SUPPORT. Tests, their expected results from 95_test_vectors.md (named by its vector ids and programs) or from the
encoding tables of 30_encoding.md, and for every obligation with hypotheses the states and operands that meet them. -/

namespace Sys2Proof.Tests

open Sys2Proof Sys2Proof.Machine

/-! ### Helpers -/

/-- The next state, where there is one. -/
def nextOf (o : Host.Outcome State Fault Refusal) : Option State :=
  match o with
  | .next s => some s
  | .fault _ => none
  | .refused _ => none

/-- A block encoding into buffer 0, with one context in the state and sense given. -/
def writing (b : Buffer) (A : BitVec 16) (C : Word) (t : BitVec 4) (T : Byte) (L : Int) (e : Context := ⟨0, 0⟩) : State :=
  { State.reset with A := A, C := C, t := t, Tr := T, L := L, ctx := [e], mode := .enc, cur := some 0, sm := [b, []] }

/-- A block decoding buffer 0, with one context in the state and sense given. -/
def reading (b : Buffer) (A : BitVec 16) (C : Word) (t : BitVec 4) (T : Byte) (L : Int) (e : Context := ⟨0, 0⟩) : State :=
  { writing b A C t T L e with mode := .dec }

/-- Right after CHSTR.Z 0 and RSTENC: the start state of 95_test_vectors.md, section 2.1. -/
def fresh : State := writing [] 0x8000 0 12 0 (-1)

/-- The start state of V-ENC-10 and V-ENC-11. -/
def midway : State := writing [1, 2, 3] 0xE000 0x1000 5 0x11 3

/-- The start state of V-DEC-4. -/
def nearEnd : State := reading [1, 2, 3] 0x8100 0x00010000 5 0 2

/-- The state of program P8 before its symbol 27: the buffer is full. -/
def fullBuffer : State := { writing [0x15] 0xA802 0x01000000 1 0x80 1 ⟨14, 0⟩ with cap := some 1 }

/-- The state of V-DEC-8: a marker ahead. -/
def markerAhead : State := reading [0xFF, 0x90, 0x00] 0x8000 0x00100000 0 0xFF 1

/-- The five registers, written `A C t Tr L` as the vectors write them. -/
structure Regs where
  A : BitVec 16
  C : Word
  t : BitVec 4
  Tr : Byte
  L : Int
  deriving DecidableEq, Repr

/-- The five registers of a state. -/
def regs (s : State) : Regs := ⟨s.A, s.C, s.t, s.Tr, s.L⟩

theorem all_installed {s : State} {b : Buffer} {P : Buffer → Prop} (h : installed s = some b) (hp : P b) :
    ∀ c, installed s = some c → P c := by
  intro c hc; rw [h] at hc; cases hc; exact hp

/-! ### Decoding: one word per row, written out from R72 -/

theorem test_decode_control :
    decode 0b0001_000_0_0000000_0_0000000000000000 = .ok .reset ∧
    decode 0b0010_000_0_0000000_0_0000000000000000 = .ok .rstenc ∧
    decode 0b0011_000_0_0000000_0_0000000000000000 = .ok .rstdec := by decide

theorem test_decode_context :
    decode 0b0100_000_1_0000000_0_1000000000000001 = .ok (.encctx 1 0x8001) ∧
    decode 0b0101_000_0_0000000_0_0100000000000011 = .ok (.decctx 0x4003) := by decide

theorem test_decode_probability :
    decode 0b0110_000_1_0000000_1_0010000000000000 = .ok (.encprb 1 1 0x2000) ∧
    decode 0b0111_000_0_0000000_1_0000000000000100 = .ok (.decprb 1 4) := by decide

theorem test_decode_termination :
    decode 0b1000_000_0_0000000_0_0000000000000000 = .ok .terme ∧
    decode 0b1001_000_0_0000000_0_0000000000000000 = .ok .termo ∧
    decode 0b1010_000_0_0000000_0_0000000000000000 = .ok .remb := by decide

theorem test_decode_stream :
    decode 0b1011_000_0_0000000_0_0000000000000101 = .ok (.chstr 0 5) ∧
    decode 0b1011_000_0_0000000_1_1111111111111111 = .ok (.chstr 1 0xFFFF) := by decide

/-- R75, one word per check. -/
theorem test_decode_illegal :
    decode 0x00000000 = .error .unusedOpcode ∧ decode 0xC0000000 = .error .unusedOpcode ∧
    decode 0xD0000000 = .error .unusedOpcode ∧ decode 0xE0000000 = .error .unusedOpcode ∧
    decode 0xFFFFFFFF = .error .unusedOpcode ∧ decode 0x42000000 = .error .reservedBits27to25 ∧
    decode 0x60020000 = .error .reservedBits23to17 ∧ decode 0x51000000 = .error .strayX ∧
    decode 0x40010000 = .error .strayG ∧ decode 0x10000001 = .error .strayImm := by decide

theorem test_table_word : decodeTableWord 32 0x61012000 = some (.encprb 1 1 0x2000) ∧ decodeTableWord 32 0 = none := by
  decide

/-! ### WellFormed: each check refuses an ill-formed term -/

theorem smoke_wellFormed_opcode : wordWellFormed 0x00000000 = false ∧ wordWellFormed 0xC0000000 = false ∧
    wordWellFormed 0xF0000000 = false := by decide
theorem smoke_wellFormed_rsv1 : wordWellFormed 0x52000000 = false ∧ wordWellFormed 0x48000000 = false := by decide
theorem smoke_wellFormed_rsv2 : wordWellFormed 0x40800000 = false ∧ wordWellFormed 0xB0020000 = false := by decide
theorem smoke_wellFormed_x : wordWellFormed 0x71000000 = false ∧ wordWellFormed 0xB1000000 = false := by decide
theorem smoke_wellFormed_g : wordWellFormed 0x50010000 = false ∧ wordWellFormed 0x20010000 = false := by decide
theorem smoke_wellFormed_imm : wordWellFormed 0x80000001 = false ∧ wordWellFormed 0xA0008000 = false := by decide
theorem smoke_wellFormed_good : wordWellFormed 0x4100FFFF = true ∧ wordWellFormed 0x61018000 = true := by decide

theorem smoke_source_x : (SourceLine.encctx 2 0).wellFormed = false ∧ (SourceLine.encprb 2 0).wellFormed = false := by decide
theorem smoke_source_context : (SourceLine.encctx 0 0x10000).wellFormed = false ∧
    (SourceLine.decctx 0x10000).wellFormed = false := by decide
theorem smoke_source_probability : (SourceLine.encprb 0 0x10000).wellFormed = false ∧
    (SourceLine.encprb 0 (-0x10000)).wellFormed = false ∧ (SourceLine.decprb 0x10000).wellFormed = false ∧
    (SourceLine.decprb (-0x10000)).wellFormed = false := by decide
theorem smoke_source_handle : (SourceLine.chstr 0x10000).wellFormed = false ∧
    (SourceLine.chstrZ 0x10000).wellFormed = false := by decide

/-! ### One step of each command -/

/-- P7 command 19. -/
theorem test_reset : (nextOf (exec .reset (writing [] 0xA7FC 0 8 2 1 ⟨1, 1⟩))).map State.ctx = some [⟨0, 0⟩] := by
  decide +kernel

/-- V-CMD-2, from any registers. -/
theorem test_rstenc : (nextOf (exec .rstenc (reading [7] 0xFFFE 5 3 9 1))).map (fun u => (regs u, u.mode)) =
    some (⟨0x8000, 0, 12, 0, -1⟩, .enc) := by decide +kernel

/-- V-RSTD-6. -/
theorem test_rstdec : (nextOf (exec .rstdec (writing [0xFF, 0x8F, 0, 0] 0xFFFE 5 3 9 1))).map (fun u => (regs u, u.mode)) =
    some (⟨0x8000, 0x00800F00, 0, 0x8F, 2⟩, .dec) := by decide +kernel

/-- V-RSTD-9: A is not written. -/
theorem test_rstdec_marker : (nextOf (exec .rstdec (writing [0xFF, 0x90, 0] 0xA7FC 5 3 9 1))).map
    (fun u => (regs u, u.mode, u.responses)) = some (⟨0xA7FC, 0x0000FFFF, 8, 0xFF, 1⟩, .idle, [0x10000000]) := by
  decide +kernel

/-- P6 step 6: an LPS with exchange and switch. -/
theorem test_encctx : (nextOf (exec (.encctx 1 0) (writing [] 0x8A03 0x000D5641 5 0 (-1) ⟨14, 0⟩))).map
    (fun u => (regs u, u.ctx)) = some (⟨0xD008, 0x0036B108, 3, 0, -1⟩, [⟨14, 1⟩]) := by decide +kernel

/-- V-ENC-13: two transfers in one command. -/
theorem test_encctx_two_transfers : (nextOf (exec (.encctx 1 0) (writing [] 0xFFF2 0x0157040E 2 0 (-1) ⟨42, 0⟩))).map
    (fun u => (regs u, u.ctx, u.sm)) = some (⟨0xA800, 0x00007000, 7, 0x82, 1⟩, [⟨40, 0⟩], [[0xAB], []]) := by
  decide +kernel

/-- V-ENC-11. -/
theorem test_encprb : (nextOf (exec (.encprb 1 0 0x0221) midway)).map (fun u => (regs u, u.sm)) =
    some (⟨0x8840, 0x00040000, 7, 0, 4⟩, [[1, 2, 3, 0x11], []]) := by decide +kernel

/-- V-ENC-7: fifteen shifts, the phantom byte. -/
theorem test_encprb_phantom : (nextOf (exec (.encprb 1 0 0x7FFF) fresh)).map (fun u => (regs u, u.sm)) =
    some (⟨0x8000, 0x003F8000, 5, 0xFF, 0⟩, [[], []]) := by decide +kernel

/-- P6 decode 2: a fill with seven data bits after a 0xFF. -/
theorem test_decctx : (nextOf (exec (.decctx 0) (reading [0x36, 0xFF, 0x82] 0xAC02 0x0036FF00 0 0xFF 2 ⟨1, 0⟩))).map
    (fun u => (regs u, u.ctx, u.responses)) = some (⟨0xF002, 0x0005FE08, 6, 0x82, 3⟩, [⟨2, 0⟩], [0]) := by decide +kernel

/-- V-DEC-9, decode 18: bit 31 of C falls off. -/
theorem test_decctx_wrap : (nextOf (exec (.decctx 0) (reading [0xFF, 0x8F, 0, 0] 0xA420 0x20024000 6 0 4 ⟨29, 1⟩))).map
    (fun u => (regs u, u.ctx, u.responses)) = some (⟨0x8808, 0x00120000, 3, 0, 4⟩, [⟨27, 1⟩], [0]) := by decide +kernel

/-- V-DEC-4. -/
theorem test_decprb : (nextOf (exec (.decprb 0 0x0221) nearEnd)).map (fun u => (regs u, u.responses)) =
    some (⟨0x8840, 0x00400006, 7, 3, 3⟩, [1]) := by decide +kernel

/-- V-DEC-8: the state as left by the marker. -/
theorem test_decprb_marker : (nextOf (exec (.decprb 0 0x5601) markerAhead)).map (fun u => (regs u, u.mode, u.responses)) =
    some (⟨0x5601, 0x001000FF, 8, 0xFF, 1⟩, .idle, [0x10000000]) := by decide +kernel

/-- P6, TERME: a carry through a pending 0xFF. -/
theorem test_terme : (nextOf (exec .terme (writing [0x36] 0xA402 0x00104B12 7 0xFF 1))).map (fun u => (regs u, u.sm, u.mode)) =
    some (⟨0xA402, 0x00048000, 8, 0x58, 3⟩, [[0x36, 0xFF, 0x82], []], .idle) := by decide +kernel

/-- P5, TERMO: the pair `FF 7F` is trimmed. -/
theorem test_termo : (nextOf (exec .termo (writing [0xFF] 0xFB54 0x000F04AC 7 0x7F 1))).map (fun u => (regs u, u.sm, u.mode)) =
    some (⟨0xFB54, 0x00060000, 8, 0x4A, 3⟩, [[], []], .idle) := by decide +kernel

/-- Scenario 2, TERMO: the first-byte adjustment of `min_flush`. -/
theorem test_termo_first : (nextOf (exec .termo (writing [] 0xC9D7 0x0009F649 7 0 (-1)))).map (fun u => (regs u, u.sm)) =
    some (⟨0xC9D7, 0x00048000, 8, 0x64, 1⟩, [[0x9F], []]) := by decide +kernel

/-- V-CMD-4, both sides of the bound. -/
theorem test_remb : (nextOf (exec .remb (writing [] 0x8000 0 5 0 0))).map State.responses = some [4] ∧
    (nextOf (exec .remb (writing [] 0x8000 0 4 0 0))).map State.responses = some [5] := by decide +kernel

/-- P7 command 5, and CHSTR without `.Z`, which keeps the buffer. -/
theorem test_chstr : (nextOf (exec (.chstr 1 0) midway)).map (fun u => (u.sm, u.mode, u.cur)) = some ([[], []], .idle, some 0) ∧
    (nextOf (exec (.chstr 0 1) midway)).map (fun u => (u.sm, u.mode, u.cur)) = some ([[1, 2, 3], []], .idle, some 1) := by
  decide +kernel

/-- P8 symbol 27: the state as left by a full buffer. -/
theorem test_stream_io : (nextOf (exec (.encctx 0 0) fullBuffer)).map (fun u => (regs u, u.ctx, u.mode, u.responses)) =
    some (⟨0xAC02, 0x02000000, 0, 0x80, 1⟩, [⟨15, 0⟩], .idle, [0x20000000]) := by decide +kernel

/-- A placed word is the very next thing the block executes, also right after reset. -/
theorem test_withFetchWord : (nextOf (step (State.reset.withFetchWord 32 0xB0010001))).map (fun u => (u.cur, u.responses)) =
    some (some 1, [0]) := by decide +kernel

/-- R204 T3 and R109 on the one-symbol message of 95_test_vectors.md section 2.7 and of P7: `AC` under TERME, nothing
under TERMO, and either decodes to the symbol 1. -/
theorem test_round_trip_terme : encodeMessage .terme [.context 1 0] fresh = some [0xAC] ∧
    decodeMessage [.context 1 0] (reading [0xAC] 0 0 0 0 0) = some [1] := by decide +kernel

theorem test_round_trip_termo : encodeMessage .termo [.context 1 0] fresh = some [] ∧
    decodeMessage [.context 1 0] (reading [] 0 0 0 0 0) = some [1] := by decide +kernel

/-- R230's rows "0.9999 and above" and "0.0001 and below", at the infinities (log entry 21), and 93 U16 on NaN. -/
theorem test_prob0_input : prob0ToMqInput exactEvaluation .plusInfinity = some 4 ∧
    prob0ToMqInput exactEvaluation .minusInfinity = some (-4) ∧ prob0ToMqInput exactEvaluation .notANumber = none := by
  decide +kernel

/-- R80: OPENENC runs in three steps. -/
theorem test_openenc : ((nextOf (step { midway with host := [(Pseudo.openenc 1).move] })).bind fun s1 =>
    (nextOf (step s1)).bind fun s2 => nextOf (step s2)).map (fun u => (u.cur, u.mode, u.responses)) =
    some (some 1, .enc, [0, 0, 0]) := by decide +kernel

/-- P7 commands 2, 3 and 7: a restart without a stream, a handle beyond the store, a context beyond N. -/
theorem test_refusals : (nextOf (exec .rstenc State.reset)).map State.responses = some [0x70000000] ∧
    (nextOf (exec (.chstr 0 5) State.reset)).map State.responses = some [0x70000000] ∧
    (nextOf (exec (.encctx 0 1) fresh)).map State.responses = some [0x30000000] := by decide +kernel

/-! ### States that meet the invariants -/

theorem fresh_encodeInv : EncodeInv fresh :=
  ⟨by decide, by decide, by decide, by decide, all_installed (b := []) rfl (by decide), by decide +kernel,
    fun _ => by decide +kernel⟩

theorem midway_encodeInv : EncodeInv midway :=
  ⟨by decide, by decide, by decide, by decide, all_installed (b := [1, 2, 3]) rfl (by decide), by decide +kernel,
    fun h => absurd h (by decide)⟩

theorem nearEnd_decodeInv : DecodeInv nearEnd :=
  ⟨by decide, by decide, by decide, all_installed (b := [1, 2, 3]) rfl (by decide)⟩

theorem fullBuffer_encodeInv : EncodeInv fullBuffer :=
  ⟨by decide, by decide, by decide, by decide, all_installed (b := [0x15]) rfl (by decide), by decide +kernel,
    fun h => absurd h (by decide)⟩

theorem markerAhead_decodeInv : DecodeInv markerAhead :=
  ⟨by decide, by decide, by decide, all_installed (b := [0xFF, 0x90, 0x00]) rfl (by decide)⟩

/-- The invariant of a state with one context and buffer 0 installed, from the invariant of its mode. -/
theorem blockInv_of {s : State} {e : Context} {b : Buffer} (hx : s.ctx = [e]) (he : e.state ≠ 46) (hc : s.cur = some 0)
    (hs : s.sm = [b, []]) (hw : 2 ≤ s.lw) (hf : withinCapacity s.cap b.length = true)
    (hL : -positionMax s.lw - 1 ≤ s.L ∧ s.L ≤ positionMax s.lw) (h1 : s.mode = .enc → EncodeInv s)
    (h2 : s.mode = .dec → DecodeInv s) : BlockInv s where
  contexts := by rw [hx]; simp
  width := hw
  store := by
    rw [hs]; unfold Memory.wf; unfold withinCapacity at hf
    cases hcap : s.cap <;> simp_all
  handle := by rw [hc, hs]; intro h hh; cases hh; simp
  stream := by rw [hc]; intro _ h; cases h
  positionLow := hL.1
  positionHigh := hL.2
  adapting := by rw [hx]; intro f hf; simp at hf; rw [hf]; exact he
  encode := h1
  decode := h2

theorem fresh_inv : BlockInv fresh :=
  blockInv_of (e := ⟨0, 0⟩) (b := []) rfl (by decide) rfl rfl (by decide) (by decide) (by decide) (fun _ => fresh_encodeInv)
    (fun h => by cases h)

theorem midway_inv : BlockInv midway :=
  blockInv_of (e := ⟨0, 0⟩) (b := [1, 2, 3]) rfl (by decide) rfl rfl (by decide) (by decide) (by decide)
    (fun _ => midway_encodeInv) (fun h => by cases h)

theorem nearEnd_inv : BlockInv nearEnd :=
  blockInv_of (e := ⟨0, 0⟩) (b := [1, 2, 3]) rfl (by decide) rfl rfl (by decide) (by decide) (by decide) (fun h => by cases h)
    (fun _ => nearEnd_decodeInv)

theorem fullBuffer_inv : BlockInv fullBuffer :=
  blockInv_of (e := ⟨14, 0⟩) (b := [0x15]) rfl (by decide) rfl rfl (by decide) (by decide) (by decide)
    (fun _ => fullBuffer_encodeInv) (fun h => by cases h)

theorem markerAhead_inv : BlockInv markerAhead :=
  blockInv_of (e := ⟨0, 0⟩) (b := [0xFF, 0x90, 0x00]) rfl (by decide) rfl rfl (by decide) (by decide) (by decide) (fun h => by cases h)
    (fun _ => markerAhead_decodeInv)

theorem fresh_room : RoomFor 3 fresh ∧ PositionRoom 3 fresh :=
  ⟨⟨[], rfl, fun c h => by cases h⟩, by unfold PositionRoom; decide +kernel⟩

theorem midway_room : RoomFor 3 midway ∧ PositionRoom 3 midway :=
  ⟨⟨[1, 2, 3], rfl, fun c h => by cases h⟩, by unfold PositionRoom; decide +kernel⟩

/-- The least capacity and the least position that leave room for three. -/
theorem tight_room : RoomFor 3 { midway with cap := some 6 } ∧ PositionRoom 3 { midway with lw := 4 } := by
  refine ⟨⟨[1, 2, 3], rfl, fun c h => ?_⟩, by unfold PositionRoom; decide +kernel⟩
  cases h; decide

/-- The state of program P5 before its termination: a `0xFF` written last. -/
def afterFF : State := writing [0xFF] 0xFB54 0x000F04AC 7 0x7F 1

theorem afterFF_encodeInv : EncodeInv afterFF :=
  ⟨by decide, by decide, by decide, by decide, all_installed (b := [0xFF]) rfl (by decide), by decide +kernel,
    fun h => absurd h (by decide)⟩

theorem afterFF_inv : BlockInv afterFF :=
  blockInv_of (e := ⟨0, 0⟩) (b := [0xFF]) rfl (by decide) rfl rfl (by decide) (by decide) (by decide)
    (fun _ => afterFF_encodeInv) (fun h => by cases h)

theorem markerFree_pair (a b : Byte) (h : a = 0xFF → b ≤ 0x8F) : MarkerFree [a, b] := by
  intro i v hi hv
  match i with
  | 0 => simp at hi hv; rw [← hv]; exact h hi
  | 1 => simp at hv
  | n + 2 => simp at hv

theorem markerFree_single (a : Byte) : MarkerFree [a] := by
  intro i v hi hv
  match i with
  | 0 => simp at hv
  | n + 1 => simp at hv

theorem afterFF_noMarker : NoMarker afterFF := ⟨markerFree_single 0xFF, fun _ => by decide +kernel⟩

theorem markerFree_of {b : Buffer} (h : 0xFF ∉ b) : MarkerFree b := fun _ _ hi _ => absurd (List.mem_of_getElem? hi) h

theorem midway_noMarker : NoMarker midway := ⟨markerFree_of (b := [1, 2, 3]) (by decide), fun h => by cases h⟩

theorem fresh_noMarker : NoMarker fresh := ⟨markerFree_of (b := []) (by decide), fun h => by cases h⟩

/-- A block decoding `FF 8F`, the greatest byte that is no marker still ahead. -/
def cleanEdge : State := { reading [0xFF, 0x8F] 0x8000 0x00100000 0 0xFF 1 with lw := 3 }

theorem cleanEdge_decodeInv : DecodeInv cleanEdge :=
  ⟨by decide, by decide, by decide, all_installed (b := [0xFF, 0x8F]) rfl (by decide)⟩

theorem cleanEdge_clean : CleanAhead cleanEdge :=
  all_installed (b := [0xFF, 0x8F]) rfl ⟨markerFree_pair _ _ (by decide), fun _ v hv => by
    have : v = 0x8F := by
      have h : ([0xFF, 0x8F] : Buffer)[1]? = some v := hv
      simpa using h.symm
    rw [this]; decide⟩

/-! ### For every obligation with hypotheses, values that meet them -/

theorem witness_DecodeInvertsEncode :
    [Instr.reset, .rstenc, .rstdec, .encctx 1 0xFFFF, .decctx 0xFFFF, .encprb 1 1 0xFFFF, .decprb 1 0xFFFF, .terme, .termo,
      .remb, .chstr 1 0xFFFF].all Instr.wellFormed = true := by decide

theorem witness_EncodeInvertsDecode : decode 0x6101FFFF = .ok (.encprb 1 1 0xFFFF) ∧ decode 0xA0000000 = .ok .remb := by decide

theorem witness_IllegalWordsAreAnswered : (∃ e, decode 0xC0000000 = .error e) ∧ (∃ e, decode 0x4E000000 = .error e) ∧
    (∃ e, decode 0x40FE0000 = .error e) ∧ (∃ e, decode 0xB1000000 = .error e) ∧ (∃ e, decode 0x50010000 = .error e) ∧
    (∃ e, decode 0x8000FFFF = .error e) :=
  ⟨⟨_, rfl⟩, ⟨_, rfl⟩, ⟨_, rfl⟩, ⟨_, rfl⟩, ⟨_, rfl⟩, ⟨_, rfl⟩⟩

theorem witness_OpcodeRowsDecideDecoding : opcodeRows.all (fun r => r.hits r.pattern) = true ∧
    opcodeRows.all (fun r => !r.hits 0x10000001) = true := by decide

/-- R79's own example words are in P1 and P3. -/
theorem witness_SourceFormWords : (encode (SourceLine.encctx 1 0xFFFF).command).toNat = 0x4100FFFF ∧
    (encode (SourceLine.decctx 0xFFFF).command).toNat = 0x5000FFFF ∧
    (encode (SourceLine.encprb 1 (-65535)).command).toNat = 0x6101FFFF ∧
    (encode (SourceLine.encprb 0 0).command).toNat = 0x60000000 ∧
    (encode (SourceLine.decprb 65535).command).toNat = 0x7000FFFF ∧
    (encode (SourceLine.chstr 0xFFFF).command).toNat = 0xB000FFFF ∧
    (encode (SourceLine.chstrZ 0xFFFF).command).toNat = 0xB001FFFF := by decide

theorem witness_ProbabilitySignAndMagnitude : (65535 : Int).natAbs ≤ 0xFFFF ∧ (-65535 : Int).natAbs ≤ 0xFFFF ∧
    (0 : Int).natAbs ≤ 0xFFFF ∧ (-1 : Int) < 0 := by decide

theorem witness_StepRunsDecodedCommand :
    ({ midway with host := [.issue 0x61000221] } : State).host = .issue 0x61000221 :: [] ∧
    decode 0x61000221 = .ok (.encprb 1 0 0x221) := by decide

theorem witness_SequencesStopAtRefusal :
    ({ midway with host := [.sequence []] } : State).host = .sequence [] :: [] ∧
    ({ midway with host := [.sequence [0xA0000000, 0x80000000]] } : State).host = .sequence (0xA0000000 :: [0x80000000]) :: [] ∧
    nextOf (takeCommand 0xA0000000 midway) = some (answerOnly (responseWord .ok 4) midway) ∧
    nextOf (takeCommand 0x50000000 midway) = some (answerOnly (responseWord .badSequence 0) midway) := by decide +kernel

theorem witness_HostTouchesOnlyFreeBuffers :
    isInstalled 1 midway = false ∧ midway.sm[1]? = some [] ∧ editBuffer (.append [7]) [] = some [7] ∧
    editBuffer (.write 1 9) [5, 6] = some [5, 9] ∧ editBuffer (.truncate 2) [5, 6] = some [5, 6] ∧
    withinCapacity (some 1) 1 = true ∧ isInstalled 0 midway = true ∧
    (nextOf (step { midway with host := [.edit 1 (.append [7])] })).isSome = true ∧
    (nextOf (step { midway with host := [.read 1] })).isSome = true := by decide +kernel

theorem witness_RefusalsChangeNothing : State.reset.mode ≠ .enc ∧ State.reset.mode ≠ .dec ∧ State.reset.cur = none ∧
    State.reset.sm.length ≤ (2 : BitVec 16).toNat ∧ (midway.mode = .enc ∧ midway.ctx.length ≤ (1 : BitVec 16).toNat) ∧
    (nearEnd.mode = .dec ∧ nearEnd.ctx.length ≤ (1 : BitVec 16).toNat) ∧ (0 : BitVec 16).toNat = 0 ∧
    0x7FFF < (0x8000 : BitVec 16).toNat := by decide

theorem witness_OneResponseWord : (nextOf (takeCommand 0x50000000 nearEnd)).isSome = true ∧
    (nextOf (takeCommand 0x70007FFF nearEnd)).isSome = true ∧ (nextOf (takeCommand 0xA0000000 midway)).isSome = true ∧
    (nextOf (takeCommand 0x40000000 fullBuffer)).isSome = true := by decide +kernel

theorem witness_ModeTransitions :
    (nextOf (exec .rstenc midway)).map State.responses = some [responseWord .ok 0] ∧
    (nextOf (exec (.decprb 0 0x5601) markerAhead)).map State.responses = some [responseWord .invalidMarker 0] ∧
    (nextOf (exec (.encctx 0 0) fullBuffer)).map State.responses = some [responseWord .streamIO 0] ∧
    (nextOf (exec (.decctx 0) midway)).map State.responses = some [responseWord .badSequence 0] := by decide +kernel

theorem witness_RstencStartsMessage : nearEnd.cur ≠ none ∧ State.reset.cur = none := by decide

theorem witness_RstdecByFirstBytes : installed (reading [] 0 0 0 0 0) = some [] ∧ installed (reading [0xFF] 0 0 0 0 0) = some [0xFF] ∧
    (installed (reading [0xFE, 0xFF] 0 0 0 0 0) = some (0xFE :: 0xFF :: []) ∧ (0xFE : Byte) ≠ 0xFF) ∧
    (installed cleanEdge = some (0xFF :: 0x8F :: []) ∧ (0x8F : Byte) ≤ 0x8F) ∧
    (installed markerAhead = some (0xFF :: 0x90 :: [0]) ∧ (0x8F : Byte) < 0x90) ∧ 2 ≤ positionMax cleanEdge.lw ∧
    2 ≤ positionMax markerAhead.lw := by decide +kernel

theorem witness_RembAnswers : (midway.mode = .enc ∧ 5 ≤ midway.t.toNat ∧ midway.t.toNat ≤ 12) ∧
    (fresh.mode = .enc ∧ 5 ≤ fresh.t.toNat ∧ fresh.t.toNat ≤ 12) ∧
    (fullBuffer.mode = .enc ∧ 1 ≤ fullBuffer.t.toNat ∧ fullBuffer.t.toNat ≤ 4) ∧
    (4 : BitVec 4).toNat ≤ 4 ∧ nearEnd.mode ≠ .enc := by decide

theorem witness_ChstrInstalls : (1 : BitVec 16).toNat < midway.sm.length ∧ midway.sm.length ≤ (2 : BitVec 16).toNat := by decide

/-- k at both ends of its range, on each path of both commands. -/
theorem witness_EncodeWithoutTransfer : (midway.mode = .enc ∧ 0x8000 ≤ midway.A.toNat ∧ 0 < midway.t.toNat ∧
      takesUpper midway.A 0x221 0 0 = true ∧ 0x8000 ≤ (midway.A - 0x221).toNat * 2 ^ 0 ∧ (midway.A - 0x221).toNat * 2 ^ 0 < 0x10000) ∧
    (fresh.mode = .enc ∧ 0x8000 ≤ fresh.A.toNat ∧ 11 < fresh.t.toNat ∧
      takesUpper fresh.A 0x10 0 1 = false ∧ 0x8000 ≤ (0x10 : BitVec 16).toNat * 2 ^ 11 ∧ (0x10 : BitVec 16).toNat * 2 ^ 11 < 0x10000) ∧
    (fresh.ctx[(0 : BitVec 16).toNat]? = some ⟨0, 0⟩ ∧ stateProb 0 = 0x5601 ∧ takesUpper fresh.A 0x5601 0 1 = true ∧
      0x8000 ≤ (fresh.A - 0x5601).toNat * 2 ^ 2 ∧ (fresh.A - 0x5601).toNat * 2 ^ 2 < 0x10000 ∧
      takesUpper fresh.A 0x5601 0 0 = false ∧ 0x8000 ≤ (0x5601 : BitVec 16).toNat * 2 ^ 1 ∧
      (0x5601 : BitVec 16).toNat * 2 ^ 1 < 0x10000) := by decide +kernel

theorem witness_EncctxCompletes : fresh.mode = .enc ∧ (0 : BitVec 16).toNat < fresh.ctx.length ∧ EncodeInv fresh ∧
    installed fresh = some [] ∧ RoomFor 3 fresh ∧ PositionRoom 3 fresh :=
  ⟨rfl, by decide, fresh_encodeInv, rfl, fresh_room⟩

theorem witness_EncprbCompletes : midway.mode = .enc ∧ 1 ≤ (1 : BitVec 16).toNat ∧ (0x7FFF : BitVec 16).toNat ≤ 0x7FFF ∧
    EncodeInv midway ∧ installed midway = some [1, 2, 3] ∧ RoomFor 3 midway ∧ PositionRoom 3 midway :=
  ⟨rfl, by decide, by decide, midway_encodeInv, rfl, midway_room⟩

theorem witness_IntervalNarrows : fresh.mode = .enc ∧ EncodeInv fresh ∧ installed fresh ≠ none ∧
    (nextOf (exec (.encprb 1 0 0x7FFF) fresh)).map State.mode = some .enc ∧ takesUpper fresh.A 0x7FFF 0 1 = true ∧
    (nextOf (exec (.encprb 1 0 1) fresh)).map State.mode = some .enc ∧ takesUpper fresh.A 1 0 1 = false ∧
    fresh.ctx[(0 : BitVec 16).toNat]? = some ⟨0, 0⟩ ∧ stateProb 0 = 0x5601 ∧
    (nextOf (exec (.encctx 1 0) fresh)).map State.mode = some .enc ∧ takesUpper fresh.A 0x5601 0 1 = true ∧
    (nextOf (exec (.encctx 0 0) fresh)).map State.mode = some .enc ∧ takesUpper fresh.A 0x5601 0 0 = false :=
  ⟨rfl, fresh_encodeInv, by decide, by decide +kernel⟩

/-- Also where renormalization raises: the full buffer and the marker. -/
theorem witness_ContextsAdapt : (fullBuffer.mode = .enc ∧ fullBuffer.ctx[(0 : BitVec 16).toNat]? = some ⟨14, 0⟩ ∧
      (nextOf (exec (.encctx 0 0) fullBuffer)).isSome = true) ∧
    (markerAhead.mode = .dec ∧ markerAhead.ctx[(0 : BitVec 16).toNat]? = some ⟨0, 0⟩ ∧
      (nextOf (exec (.decctx 0) markerAhead)).isSome = true) ∧
    (nextOf (exec (.encprb 1 1 0x7FFF) midway)).isSome = true ∧ (nextOf (exec (.decprb 1 0x7FFF) nearEnd)).isSome = true := by
  decide +kernel

theorem witness_EncodeFrame : installed midway = some [1, 2, 3] ∧ (nextOf (exec (.encctx 1 0) midway)).isSome = true ∧
    (nextOf (exec (.encprb 1 0 0x221) midway)).isSome = true ∧ ¬ (isInstalled 0 midway = true ∧ [1, 2, 3].length ≤ 2) := by
  decide +kernel

theorem witness_DecodeWithoutFill : (nearEnd.mode = .dec ∧ 0x8000 ≤ nearEnd.A.toNat ∧ 0 ≤ nearEnd.t.toNat ∧
      windowReaches nearEnd.C 1 = true ∧ 0x8000 ≤ (nearEnd.A - 1).toNat * 2 ^ 0 ∧ (nearEnd.A - 1).toNat * 2 ^ 0 < 0x10000) ∧
    (5 ≤ nearEnd.t.toNat ∧ windowReaches nearEnd.C 0x400 = false ∧ 0x8000 ≤ (0x400 : BitVec 16).toNat * 2 ^ 5 ∧
      (0x400 : BitVec 16).toNat * 2 ^ 5 < 0x10000) ∧
    (nearEnd.ctx[(0 : BitVec 16).toNat]? = some ⟨0, 0⟩ ∧ stateProb 0 = 0x5601 ∧ windowReaches nearEnd.C 0x5601 = false ∧
      0x8000 ≤ (0x5601 : BitVec 16).toNat * 2 ^ 1 ∧ (0x5601 : BitVec 16).toNat * 2 ^ 1 < 0x10000) ∧
    (windowReaches 0x00600000 0x5601 = true ∧ 0x8000 ≤ ((0x8000 : BitVec 16) - 0x5601).toNat * 2 ^ 2 ∧
      ((0x8000 : BitVec 16) - 0x5601).toNat * 2 ^ 2 < 0x10000) := by decide +kernel

/-- Both ways through the comparison, and both sides of the end of the stream: DECCTX reads the last byte of `FF 8F`, a
DECPRB with one shift leaves `FF 8F 00` before its end. -/
theorem witness_Decoded : TrIsLastRead cleanEdge [0xFF, 0x8F] ∧ windowReaches cleanEdge.C 0x5601 = false ∧
    windowReaches cleanEdge.C 1 = true ∧ (nextOf (exec (.decctx 0) cleanEdge)).map State.L = some 2 ∧
    (nextOf (exec (.decprb 0 0x5601) { cleanEdge with sm := [[0xFF, 0x8F, 0], []] })).map State.L = some 2 := by
  refine ⟨by unfold TrIsLastRead; decide +kernel, by decide +kernel⟩

theorem witness_DecctxCompletes : cleanEdge.mode = .dec ∧ cleanEdge.ctx[(0 : BitVec 16).toNat]? = some ⟨0, 0⟩ ∧
    DecodeInv cleanEdge ∧ installed cleanEdge = some [0xFF, 0x8F] ∧ ([0xFF, 0x8F] : Buffer).length ≤ positionMax cleanEdge.lw ∧
    CleanAhead cleanEdge :=
  ⟨rfl, rfl, cleanEdge_decodeInv, rfl, by decide +kernel, cleanEdge_clean⟩

theorem witness_DecprbCompletes : cleanEdge.mode = .dec ∧ 1 ≤ (1 : BitVec 16).toNat ∧ (0x7FFF : BitVec 16).toNat ≤ 0x7FFF ∧
    DecodeInv cleanEdge ∧ installed cleanEdge = some [0xFF, 0x8F] ∧ ([0xFF, 0x8F] : Buffer).length ≤ positionMax cleanEdge.lw ∧
    CleanAhead cleanEdge :=
  ⟨rfl, by decide, by decide, cleanEdge_decodeInv, rfl, by decide +kernel, cleanEdge_clean⟩

/-- The fewest shifts that fill and the most that one fill serves, on each path of both commands: a byte after `0xFF` with
seven bits, a byte of ones past the end with eight. -/
theorem witness_DecodeWithOneFill : (cleanEdge.mode = .dec ∧ 0x8000 ≤ cleanEdge.A.toNat ∧ cleanEdge.t.toNat < 1 ∧
      cleanEdge.ctx[(0 : BitVec 16).toNat]? = some ⟨0, 0⟩ ∧ stateProb 0 = 0x5601 ∧
      windowReaches cleanEdge.C 0x5601 = false ∧ 0x8000 ≤ (0x5601 : BitVec 16).toNat * 2 ^ 1 ∧ (0x5601 : BitVec 16).toNat * 2 ^ 1 < 0x10000 ∧
      fillLsb { cleanEdge with C := cleanEdge.C <<< cleanEdge.t.toNat } =
        .done () { cleanEdge with C := 0x0010011E, t := 7, Tr := 0x8F, L := 2 }) ∧
    (7 ≤ cleanEdge.t.toNat + (7 : BitVec 4).toNat ∧ windowReaches 0x00020000 0x201 = false ∧
      0x8000 ≤ (0x201 : BitVec 16).toNat * 2 ^ 6 ∧ (0x201 : BitVec 16).toNat * 2 ^ 6 < 0x10000) ∧
    (windowReaches (0x007FFF00 : Word) 0x5601 = true ∧ 0x8000 ≤ ((0x8000 : BitVec 16) - 0x5601).toNat * 2 ^ 2 ∧
      ((0x8000 : BitVec 16) - 0x5601).toNat * 2 ^ 2 < 0x10000 ∧
      fillLsb { reading [] 0x8000 0x007FFF00 0 0 0 with C := 0x0029FE00 } =
        .done () { reading [] 0x8000 0x007FFF00 0 0 0 with C := 0x0029FEFF, t := 8 }) ∧
    (8 ≤ (0 : BitVec 4).toNat + (8 : BitVec 4).toNat ∧ windowReaches (0x007FFF00 : Word) 0x7F80 = true ∧
      0x8000 ≤ ((0x8000 : BitVec 16) - 0x7F80).toNat * 2 ^ 8 ∧ ((0x8000 : BitVec 16) - 0x7F80).toNat * 2 ^ 8 < 0x10000 ∧
      fillLsb { reading [] 0x8000 0x007FFF00 0 0 0 with C := 0x00007F00 } =
        .done () { reading [] 0x8000 0x007FFF00 0 0 0 with C := 0x00007FFF, t := 8 }) := by
  refine ⟨⟨by decide +kernel, by decide +kernel, by decide +kernel, by decide +kernel, by decide +kernel, by decide +kernel,
    by decide +kernel, by decide +kernel, ?_⟩, by decide +kernel, ⟨by decide +kernel, by decide +kernel, by decide +kernel, ?_⟩,
    by decide +kernel, by decide +kernel, by decide +kernel, by decide +kernel, ?_⟩
  all_goals rfl

theorem witness_DecodeFrame : (nextOf (exec .rstdec markerAhead)).isSome = true ∧ (nextOf (exec (.decctx 0) nearEnd)).isSome = true ∧
    (nextOf (exec (.decprb 0 0x5601) markerAhead)).isSome = true := by decide +kernel

theorem witness_DecoderMirrorsEncoder : (0x7FFF : BitVec 16).toNat ≤ 0x7FFF ∧ fresh.A = markerAhead.A ∧
    fresh.ctx = markerAhead.ctx ∧ windowReaches markerAhead.C 0x1000 = true ∧ windowReaches markerAhead.C 0x7FFF = false := by
  decide

theorem witness_ExchangeHelperAgrees : (0x7FFF : BitVec 16).toNat ≤ 0x7FFF ∧ (0 : BitVec 16).toNat ≤ 0x7FFF := by decide

/-- V-XFER-4, V-XFER-3, V-XFER-2 with C at the least carry, V-XFER-1, and the same with the buffer full. -/
theorem witness_TransferByteCases : installed midway = some [1, 2, 3] ∧ midway.L < positionMax midway.lw ∧
    bufferFull midway.cap 3 = false ∧ bufferFull (some 3) 3 = true ∧ 0 ≤ midway.L ∧ fresh.L < 0 ∧
    (0x08000000 ≤ (0x08000000 : Word) ∧ (0xFE : Byte) + 1 = 0xFF ∧ (0x12 : Byte) + 1 ≠ 0xFF) ∧
    ((0x07FFFFFF : Word) < 0x08000000 ∧ (0x12 : Byte) ≠ 0xFF) := by decide +kernel

/-- V-FILL-3, V-FILL-4, V-FILL-2, V-FILL-6, and L one beyond the end. -/
theorem witness_FillLsbCases : installed (reading [1, 2, 3] 0x8000 0 0 0 3) = some [1, 2, 3] ∧
    ((reading [1, 2, 3] 0x8000 0 0 0 3).L = ([1, 2, 3] : Buffer).length) ∧
    (markerAhead.L = (1 : Nat) ∧ ([0xFF, 0x90, 0] : Buffer)[1]? = some 0x90 ∧ markerAhead.Tr = 0xFF ∧ (0x8F : Byte) < 0x90) ∧
    (cleanEdge.L = (1 : Nat) ∧ ([0xFF, 0x8F] : Buffer)[1]? = some 0x8F ∧ cleanEdge.Tr = 0xFF ∧ (0x8F : Byte) ≤ 0x8F ∧
      cleanEdge.L < positionMax cleanEdge.lw) ∧
    (nearEnd.L = (2 : Nat) ∧ ([1, 2, 3] : Buffer)[2]? = some 3 ∧ nearEnd.Tr ≠ 0xFF ∧ nearEnd.L < positionMax nearEnd.lw) ∧
    ((([1, 2, 3] : Buffer).length : Int) < (reading [1, 2, 3] 0x8000 0 0 0 4).L) := by decide +kernel

theorem witness_TablesAreClosed : (∀ e ∈ fullBuffer.ctx, e.state ≠ 46) ∧ (nextOf (exec (.encctx 0 0) fullBuffer)).isSome = true ∧
    stateSwitch 14 = 1 ∧ (45 : Fin 47) ≠ 46 := by decide +kernel

theorem witness_TermeCompletes : (fresh.mode = .enc ∧ EncodeInv fresh ∧ installed fresh = some [] ∧ RoomFor 3 fresh ∧
      PositionRoom 3 fresh ∧ NoMarker fresh) ∧ (afterFF.mode = .enc ∧ EncodeInv afterFF ∧ NoMarker afterFF) :=
  ⟨⟨rfl, fresh_encodeInv, rfl, fresh_room.1, fresh_room.2, fresh_noMarker⟩, rfl, afterFF_encodeInv, afterFF_noMarker⟩

/-- A message that begins the stream, before its first byte and after three, where `min_flush` keeps two; and one after a
`0xFF`. -/
theorem witness_TermoKeepsPrefixOfTerme : (midway.mode = .enc ∧ EncodeInv midway ∧ installed midway = some [1, 2, 3] ∧
      RoomFor 3 midway ∧ PositionRoom 3 midway ∧ NoMarker midway ∧ 0 ≤ midway.L ∧ ([1, 2, 3] : Buffer).length = midway.L.toNat ∧
      (messageBytes midway).getLast? ≠ some 0xFF ∧
      (nextOf (exec .termo midway)).bind installed = some [1, 2, 3, 0x11, 0]) ∧
    (installed fresh = some [] ∧ NoMarker fresh ∧ ([] : Buffer).length = fresh.L.toNat) ∧
    (NoMarker afterFF ∧ 0 ≤ afterFF.L ∧ (messageBytes afterFF).getLast? = some 0xFF) :=
  ⟨⟨rfl, midway_encodeInv, rfl, midway_room.1, midway_room.2, midway_noMarker, by decide +kernel⟩,
    ⟨rfl, fresh_noMarker, rfl⟩, afterFF_noMarker, by decide +kernel⟩

/-- P5: TERME leaves `FF 7F F0`, TERMO the empty stream. -/
theorem witness_TermoTrims : afterFF.mode = .enc ∧ EncodeInv afterFF ∧ NoMarker afterFF ∧ installed afterFF = some [0xFF] ∧
    ([0xFF] : Buffer).length = afterFF.L.toNat ∧
    terminatedStream .termo afterFF = some [] ∧ terminatedStream .terme afterFF = some [0xFF, 0x7F, 0xF0] :=
  ⟨rfl, afterFF_encodeInv, afterFF_noMarker, by decide +kernel⟩

theorem witness_TerminationFrame : BlockInv afterFF ∧ installed afterFF = some [0xFF] ∧
    (nextOf (exec .terme afterFF)).isSome = true ∧ (nextOf (exec .termo afterFF)).isSome = true ∧
    isInstalled 1 afterFF = false ∧ isInstalled 0 afterFF = true ∧ 0 < ([0xFF] : Buffer).length :=
  ⟨afterFF_inv, by decide +kernel⟩

/-- The least capacity that holds what REMB answers. -/
theorem witness_RembReservesEnough :
    midway.mode = .enc ∧ EncodeInv { midway with cap := some 7 } ∧ PositionRoom 3 { midway with cap := some 7 } ∧
    installed { midway with cap := some 7 } = some [1, 2, 3] ∧
    nextOf (exec .remb { midway with cap := some 7 }) = some (answerOnly (responseWord .ok 4) { midway with cap := some 7 }) ∧
    RoomFor (4 : BitVec 3).toNat { midway with cap := some 7 } := by
  refine ⟨rfl, ⟨by decide, by decide, by decide, by decide, all_installed (b := [1, 2, 3]) rfl (by decide), by decide +kernel,
    fun h => absurd h (by decide)⟩, by unfold PositionRoom; decide +kernel, rfl, by decide +kernel, ⟨[1, 2, 3], rfl, fun c h => ?_⟩⟩
  cases h; decide

/-- A message of one symbol under a context and one under a probability, and the least LW that reaches its end. -/
theorem witness_RoundTrip : installed fresh = some [] ∧
    encodeMessage .terme [.context 1 0, .probability 0 1 0x2000] fresh = some [0xAC] ∧
    (encodeMessage .termo [.context 1 0, .probability 0 1 0x2000] fresh).isSome = true ∧
    installed { reading [0xAC] 0 0 0 0 0 with lw := 2 } = some [0xAC] ∧
    (reading [0xAC] 0 0 0 0 0).ctx = fresh.ctx ∧ (([0xAC] : Buffer).length : Int) ≤ positionMax 2 := by decide +kernel

theorem witness_InvAfterPowerOn : (⟨65536, 1, some 0, 2⟩ : Config.Params).legal = true ∧ ([[]] : Memory).length = 1 ∧
    Memory.wf (some 0) [[]] = true := by decide

theorem witness_EveryStepKeepsInv : BlockInv { midway with host := [.issue 0x61000221] } ∧
    (nextOf (step { midway with host := [.issue 0x61000221] })).isSome = true := by
  refine ⟨blockInv_of (e := ⟨0, 0⟩) (b := [1, 2, 3]) rfl (by decide) rfl rfl (by decide) (by decide) (by decide) (fun _ => ?_)
    (fun h => by cases h), by decide +kernel⟩
  exact ⟨by decide, by decide, by decide, by decide, all_installed (b := [1, 2, 3]) rfl (by decide), by decide +kernel,
    fun h => absurd h (by decide)⟩

theorem witness_BlockAlwaysAnswers : BlockInv midway ∧
    ∀ b, installed midway = some b → (b.length : Int) + 3 ≤ positionMax midway.lw :=
  ⟨midway_inv, all_installed (b := [1, 2, 3]) rfl (by decide +kernel)⟩

theorem witness_EncoderWritesNoMarker : BlockInv afterFF ∧ afterFF.mode = .enc ∧ NoMarker afterFF ∧
    (nextOf (exec (.encprb 1 0 0x7FFF) afterFF)).map State.mode = some .enc ∧
    (nextOf (exec .rstenc afterFF)).map (fun u => (u.mode, u.L)) = some (.enc, -1) :=
  ⟨afterFF_inv, rfl, afterFF_noMarker, by decide +kernel⟩

theorem witness_TerminatedMessageHoldsNoMarker : BlockInv afterFF ∧ afterFF.mode = .enc ∧ NoMarker afterFF ∧
    (nextOf (exec .terme afterFF)).map State.responses = some (afterFF.responses ++ [0]) ∧
    (nextOf (exec .termo afterFF)).map State.responses = some (afterFF.responses ++ [0]) ∧ installed afterFF = some [0xFF] ∧
    (nextOf (exec .terme afterFF)).map installed = some (some [0xFF, 0x7F, 0xF0]) :=
  ⟨afterFF_inv, rfl, afterFF_noMarker, by decide +kernel⟩

theorem witness_ParametersNeverChange : (nextOf (step { midway with host := [.sequence [0x80000000]] })).isSome = true ∧
    (nextOf (step State.reset)).isSome = true := by decide +kernel

theorem witness_HandleAndPositionMove : (nextOf (exec (.chstr 0 1) midway)).map State.cur = some (some 1) ∧
    midway.cur ≠ some 1 ∧ (nextOf (exec .terme midway)).isSome = true := by decide +kernel

theorem witness_NoByteIsRewritten : (nextOf (exec .termo midway)).isSome = true ∧ midway.sm[0]? = some [1, 2, 3] := by
  decide +kernel

theorem witness_OnlyInstalledBufferChanges : (nextOf (exec (.chstr 1 0) midway)).isSome = true ∧ isInstalled 1 midway = false ∧
    (0 : BitVec 16).toNat ≠ 1 := by decide +kernel

/-- Also with the greatest number of shifts before the fill. -/
theorem witness_InvalidMarkerCondition : BlockInv markerAhead ∧
    (nextOf (exec (.decprb 0 0x5601) markerAhead)).map State.responses = some (markerAhead.responses ++ [0x10000000]) ∧
    (nextOf (exec .rstdec markerAhead)).map State.responses = some (markerAhead.responses ++ [0x10000000]) ∧
    (markerAhead.mode = .dec ∧ 0x8000 ≤ markerAhead.A.toNat ∧ installed markerAhead = some [0xFF, 0x90, 0] ∧
      markerAhead.L = (1 : Nat) ∧ ([0xFF, 0x90, 0] : Buffer)[1]? = some 0x90 ∧ (0x8F : Byte) < 0x90 ∧ markerAhead.Tr = 0xFF) ∧
    (windowReaches markerAhead.C 0x1001 = false ∧ (0x1001 : BitVec 16).toNat * 2 ^ markerAhead.t.toNat < 0x8000 ∧
      windowReaches markerAhead.C 1 = true ∧ (markerAhead.A - 1).toNat * 2 ^ markerAhead.t.toNat < 0x8000) ∧
    (markerAhead.ctx[(0 : BitVec 16).toNat]? = some ⟨0, 0⟩ ∧ stateProb 0 = 0x5601 ∧ windowReaches markerAhead.C 0x5601 = false ∧
      (0x5601 : BitVec 16).toNat * 2 ^ markerAhead.t.toNat < 0x8000) ∧
    (1 : BitVec 16).toNat * 2 ^ (8 : BitVec 4).toNat < 0x8000 :=
  ⟨markerAhead_inv, by decide +kernel⟩

/-- Also with a pending `0xFF` at L = -1, and with the carry set. -/
theorem witness_StreamIOCondition : BlockInv fullBuffer ∧
    (nextOf (exec (.encctx 0 0) fullBuffer)).map State.responses = some (fullBuffer.responses ++ [0x20000000]) ∧
    (nextOf (exec .terme fullBuffer)).map State.responses = some (fullBuffer.responses ++ [0x20000000]) ∧
    (fullBuffer.mode = .enc ∧ installed fullBuffer = some [0x15] ∧ fullBuffer.cap = some ([0x15] : Buffer).length ∧
      0 ≤ fullBuffer.L ∧ 0x8000 ≤ fullBuffer.A.toNat ∧ 1 ≤ fullBuffer.t.toNat) ∧
    (takesUpper fullBuffer.A 0x5601 0 0 = false ∧ (0x5601 : BitVec 16).toNat * 2 ^ (fullBuffer.t.toNat - 1) < 0x8000 ∧
      takesUpper fullBuffer.A 0x5601 0 1 = true ∧ (fullBuffer.A - 0x5601).toNat * 2 ^ (fullBuffer.t.toNat - 1) < 0x8000) ∧
    (fullBuffer.ctx[(0 : BitVec 16).toNat]? = some ⟨14, 0⟩ ∧ stateProb 14 = 0x5601) ∧
    (writing [] 0x8000 0 1 0xFF (-1)).Tr = 0xFF ∧ (0x08000000 : Word) ≤ 0x04000000 <<< (1 : BitVec 4).toNat :=
  ⟨fullBuffer_inv, by decide +kernel⟩

theorem witness_DeadRegistersAreNeverRead : Alike State.reset { State.reset with A := 1, C := 2, t := 3, Tr := 4, L := 5 } :=
  ⟨rfl, rfl, rfl, rfl, rfl, rfl, rfl, rfl, fun h => absurd rfl h⟩

theorem witness_RestartForgetsThePast : midway.cur ≠ none ∧ (nextOf (exec .rstdec midway)).map State.mode = some .dec ∧
    markerAhead.cur ≠ none ∧ (nextOf (exec .rstdec markerAhead)).map State.mode = some .idle := by decide +kernel

theorem witness_ResetAndRestartCommute : midway.cur ≠ none ∧
    ((nextOf (exec .reset midway)).bind fun a => nextOf (exec .rstdec a)).map State.mode = some .dec ∧
    ((nextOf (exec .rstdec midway)).bind fun c => nextOf (exec .reset c)).isSome = true := by decide +kernel

theorem witness_OpenencBringsUp :
    ({ midway with host := [(Pseudo.openenc 1).move] } : State).host = (Pseudo.openenc 1).move :: [] ∧
    (1 : BitVec 16).toNat < midway.sm.length := by decide

theorem witness_Prob0ToMqValues : (9999 / 10000 : Rat) ≤ 9999 / 10000 ∧ (1 / 10000 : Rat) ≤ 1 / 10000 := by norm_num

theorem witness_Prob0ToMqRange : (1 / 2 : Rat) ≤ 1 / 2 ∧ (0 : Rat) < 1 / 2 ∧ prob0ToMq (1 / 2) = 21845 ∧ prob0ToMq 0 = -4 := by
  refine ⟨by norm_num, by norm_num, by decide +kernel, by decide +kernel⟩

theorem witness_MqToProb0UndoesFloor : (0 : Int) < 1 ∧ (0 : Int) ≤ 0 ∧ (1 / 2 : Rat) ≤ 9999 / 10000 ∧
    (1 / 10000 : Rat) ≤ 1 / 10000 ∧ (1 / 10000 : Rat) < 1 / 2 := by norm_num

/-- An evaluation one unit off everywhere: the least and the greatest operand are still legal, and a message of it runs. -/
def oneUnitOff : Config.HostEvaluation :=
  ⟨fun p => if prob0ToMq p < 0 then prob0ToMq p - 1 else prob0ToMq p + 1, fun q => mqToProb0 q + 3 / 131072⟩

theorem oneUnitOff_half : encodeProb0 oneUnitOff 1 (1 / 2) = .encprb 1 0 21846 := by
  have h : oneUnitOff.prob0ToMq (1 / 2) = 21846 := by
    show (if prob0ToMq (1 / 2) < 0 then prob0ToMq (1 / 2) - 1 else prob0ToMq (1 / 2) + 1) = 21846
    have : prob0ToMq (1 / 2) = 21845 := by decide +kernel
    rw [this]; rfl
  unfold encodeProb0; rw [h]; rfl

theorem witness_HostEvaluationIsOpen : LegalEvaluation oneUnitOff ∧
    (execAll (.rstenc :: [((1 : Bit), (1 / 2 : Rat))].map (fun m => encodeProb0 oneUnitOff m.1 m.2) ++ [.terme]) fresh).map
      (fun u => (u.responses, installed u)) = some ([0, 0, 0], some [0xAA]) ∧
    installed (reading [0xAA] 0 0 0 0 0) = some [0xAA] ∧ (reading [0xAA] 0 0 0 0 0).ctx = fresh.ctx ∧
    (([0xAA] : Buffer).length : Int) ≤ positionMax 32 := by
  refine ⟨⟨fun p => ?_, fun p => ?_, fun p => ?_, fun q => ?_⟩, ?_, by decide +kernel⟩
  rotate_right
  · rw [List.map_singleton, oneUnitOff_half]; decide +kernel
  · show signOf (if prob0ToMq p < 0 then _ else _) = _
    unfold signOf; split <;> rename_i h
    · rw [if_pos (by omega)]
    · rw [if_neg (by omega)]
  · show (if prob0ToMq p < 0 then _ else _ : Int).natAbs ≤ _
    split <;> omega
  · show _ ≤ (if prob0ToMq p < 0 then _ else _ : Int).natAbs + 1
    split <;> omega
  · show |mqToProb0 q + 3 / 131072 - mqToProb0 q| ≤ _
    rw [add_sub_cancel_left]; norm_num

end Sys2Proof.Tests
end

/-! ## The step of block and host: what each move can do, and the parameters it keeps (R8, R270, R289) -/

namespace Sys2Proof.Machine

/-! ### What a move of the host can do -/

/-- Issuing a sequence does nothing when no word is left; else the block takes the first word, and the rest waits only
behind a response OK (R80). -/
theorem issueSequence_next {ws : List Word} {s u : State} (hu : issueSequence ws s = .next u) :
    (ws = [] ∧ u = s) ∨ ∃ w rest v, ws = w :: rest ∧ takeCommand w s = .next v ∧
      u = if lastResponseOk v then { v with host := .sequence rest :: v.host } else v := by
  cases ws with
  | nil => cases hu; exact .inl ⟨rfl, rfl⟩
  | cons w rest =>
    unfold issueSequence at hu
    dsimp only at hu
    split at hu
    case h_1 v hv => cases hu; exact .inr ⟨w, rest, v, rfl, hv, rfl⟩
    all_goals cases hu

/-- A move on a buffer is made only when the buffer exists and is not installed (R289). -/
theorem onFreeBuffer_next {sid : Nat} {s u : State} {k : Buffer → Host.Outcome State Fault Refusal}
    (hu : onFreeBuffer sid s k = .next u) : isInstalled sid s = false ∧ ∃ b, s.sm[sid]? = some b ∧ k b = .next u := by
  unfold onFreeBuffer at hu
  split at hu
  · cases hu
  · rename_i hfree
    split at hu
    · cases hu
    · rename_i b hb; exact ⟨by simpa using hfree, b, hb, hu⟩

/-- A host read changes nothing (R289). -/
theorem hostRead_next {sid : Nat} {s u : State} (hu : hostRead sid s = .next u) : u = s := by
  obtain ⟨-, b, -, hk⟩ := onFreeBuffer_next hu
  cases hk; rfl

/-- A host edit replaces one buffer that is not installed by contents within `CAP`, and nothing else (R289, R50). -/
theorem hostEdit_next {sid : Nat} {e : BufferEdit} {s u : State} (hu : hostEdit sid e s = .next u) :
    isInstalled sid s = false ∧ ∃ b c, s.sm[sid]? = some b ∧ editBuffer e b = some c ∧
      withinCapacity s.cap c.length = true ∧ u = { s with sm := s.sm.set sid c } := by
  obtain ⟨hfree, b, hb, hk⟩ := onFreeBuffer_next hu
  split at hk
  · cases hk
  · rename_i c hc
    split at hk
    · rename_i hcap; cases hk; exact ⟨hfree, b, c, hb, hc, hcap, rfl⟩
    · cases hk

/-- A step does nothing when the host has no move left, and else is the host's next move (R247, R289). -/
theorem step_next {s u : State} (hu : step s = .next u) :
    (s.host = [] ∧ u = s) ∨ ∃ m rest, s.host = m :: rest ∧ hostMove m { s with host := rest } = .next u := by
  unfold step nextMove at hu
  split at hu
  · rename_i hh; cases hu; exact .inl ⟨hh, rfl⟩
  · rename_i m rest hh; exact .inr ⟨m, rest, hh, hu⟩

/-! ### The construction parameters -/

/-- `u` has the construction parameters of `s`: N, NSID, CAP and LW (R8). -/
structure SameParameters (s u : State) : Prop where
  contexts : u.ctx.length = s.ctx.length
  buffers : u.sm.length = s.sm.length
  capacity : u.cap = s.cap
  positionWidth : u.lw = s.lw

theorem SameParameters.refl (s : State) : SameParameters s s := ⟨rfl, rfl, rfl, rfl⟩

theorem takeCommand_sameParameters {w : Word} {s u : State} (hu : takeCommand w s = .next u) : SameParameters s u := by
  obtain ⟨hctx, hsm, hcap, hlw, -⟩ := take_frame hu
  exact ⟨hctx, hsm, hcap, hlw⟩

theorem issueSequence_sameParameters {ws : List Word} {s u : State} (hu : issueSequence ws s = .next u) :
    SameParameters s u := by
  obtain ⟨-, rfl⟩ | ⟨w, rest, v, -, hv, rfl⟩ := issueSequence_next hu
  · exact .refl u
  · obtain ⟨hctx, hsm, hcap, hlw⟩ := takeCommand_sameParameters hv
    split <;> exact ⟨hctx, hsm, hcap, hlw⟩

theorem hostEdit_sameParameters {sid : Nat} {e : BufferEdit} {s u : State} (hu : hostEdit sid e s = .next u) :
    SameParameters s u := by
  obtain ⟨-, b, c, -, -, -, rfl⟩ := hostEdit_next hu
  exact ⟨rfl, List.length_set, rfl, rfl⟩

theorem hostMove_sameParameters {m : HostMove} {s u : State} (hu : hostMove m s = .next u) : SameParameters s u := by
  cases m with
  | issue w => exact takeCommand_sameParameters hu
  | sequence ws => exact issueSequence_sameParameters hu
  | read sid => exact hostRead_next hu ▸ .refl s
  | edit sid e => exact hostEdit_sameParameters hu

theorem step_sameParameters {s u : State} (hu : step s = .next u) : SameParameters s u := by
  obtain ⟨-, rfl⟩ | ⟨m, rest, -, hm⟩ := step_next hu
  · exact .refl u
  · obtain ⟨hctx, hsm, hcap, hlw⟩ := hostMove_sameParameters hm
    exact ⟨hctx, hsm, hcap, hlw⟩

/-- Settles O44: each move of the host keeps N, NSID, CAP and LW, a command by its frame and an edit because it replaces
one buffer of the store. -/
theorem parametersNeverChange : Obligations.ParametersNeverChange := by
  intro s u hu
  obtain ⟨hctx, hsm, hcap, hlw⟩ := step_sameParameters hu
  exact ⟨hctx, hsm, hcap, hlw⟩

end Sys2Proof.Machine

/-! ## What every command keeps of the handle and the position (R30, R26) -/

namespace Sys2Proof.Machine

/-- Settles O45: both are in the frame of every command; the response and the change to IDLE touch neither. -/
theorem handleAndPositionMove : Obligations.HandleAndPositionMove := by
  intro i s u hu
  obtain ⟨w, st, v, hf, rfl | rfl⟩ := exec_frame hu <;> exact ⟨hf.cur, hf.pos⟩

end Sys2Proof.Machine

/-! ## The invariant of block and host (R31, R33): every move of the host keeps it -/

namespace Sys2Proof.Machine

/-! ### The rules without a micro-operation that can fail, and RSTDEC -/

theorem one_le_positionMax {lw : Nat} (h : 2 ≤ lw) : 1 ≤ positionMax lw := by
  have hpow : (2 : Int) ^ 1 ≤ 2 ^ (lw - 1) := pow_le_pow_right₀ (by norm_num) (by omega)
  unfold positionMax; omega

/-- RESET keeps the invariant: the cleared contexts are in state 0, everything else is untouched (R170). -/
theorem clearContexts_inv {s : State} (h : BlockInv s) : BlockInv (clearContexts s) :=
  inv_coding h (by simp) rfl rfl h.stream rfl (h.held.congr rfl rfl rfl rfl) (.inl (le_refl _))
    (fun e he => by obtain ⟨-, -, rfl⟩ := List.mem_map.1 he; decide)
    (fun hm => (h.encode hm).congr rfl rfl rfl rfl rfl rfl) (fun hm => (h.decode hm).congr rfl rfl rfl rfl)

/-- At the start of a message the interval reaches to `2^27` exactly (R171, R33). -/
theorem startEncoding_encodeInv (s : State) : EncodeInv (startEncoding s) where
  interval := le_refl _
  countLow := by simp
  countHigh := by simp
  position := le_refl _
  appended := fun b _ => by simp only [startEncoding_L]; omega
  top := by simp [intervalTop]
  first := fun _ => by simp [intervalTop]

theorem startEncoding_inv {s : State} (h : BlockInv s) (hcur : s.cur ≠ none) : BlockInv (startEncoding s) :=
  have hmax := one_le_positionMax h.width
  inv_coding h rfl rfl rfl (fun _ => hcur) rfl ⟨h.store, by simp only [startEncoding_L, startEncoding_lw]; omega⟩
    (.inr (le_refl _)) h.adapting (fun _ => startEncoding_encodeInv s) (fun hm => by cases hm)

/-- A handle names a buffer of the store (R30). -/
theorem installed_of_cur {s : State} (h : BlockInv s) (hcur : s.cur ≠ none) : ∃ b, installed s = some b := by
  obtain ⟨hd, hhd⟩ := Option.ne_none_iff_exists'.1 hcur
  exact ⟨_, installed_eq_some.2 ⟨hd, hhd, List.getElem?_eq_getElem (h.handle hd hhd)⟩⟩

/-- RSTDEC's rule leaves a block that meets the invariant, decoding or about to report its marker (R172, R245). -/
theorem startDecoding_inv {s : State} (h : BlockInv s) (hcur : s.cur ≠ none) :
    (∀ u, startDecoding s = .done () u → BlockInv u) ∧
    (∀ e u, startDecoding s = .raised e u → BlockInv (toIdle u)) := by
  obtain ⟨b, hb⟩ := installed_of_cur h hcur
  have hheld := startDecoding_held h.store h.width
  have hreads := startDecoding_reads s
  rcases startDecoding_cases hb with ⟨v, hv, hdec, -⟩ | ⟨v, hv, -, hlow, -⟩ | ⟨hv, -⟩ <;> rw [hv]
  · obtain ⟨hf, hctx⟩ := hreads.1 _ _ hv
    refine ⟨fun u hu => ?_, nofun⟩
    cases hu
    exact inv_coding h hf.ctxLength hf.cur (congrArg _ hf.sm) (fun _ => hf.cur ▸ hcur) hf.lw (hheld.1 _ _ hv)
      (.inr (by have := hdec.positionLow; omega)) (hctx ▸ h.adapting) (fun hm => by rw [hf.mode] at hm; cases hm)
      (fun _ => hdec)
  · obtain ⟨hf, hctx⟩ := hreads.2 _ _ hv
    refine ⟨nofun, fun e u hu => ?_⟩
    cases hu
    have hmax := one_le_positionMax h.width
    exact inv_idle h hf.ctxLength rfl (by simpa only [toIdle_cur, toIdle_sm, hf.cur, hf.sm] using h.handle) hf.lw
      ((hheld.2 _ _ hv).congr rfl rfl rfl rfl) (by simp only [toIdle_L]; omega) (hctx ▸ h.adapting)
  · exact ⟨nofun, nofun⟩

/-- CHSTR leaves a block IDLE, its new handle below NSID (R178, R180). -/
theorem installed_anew_inv {s : State} (h : BlockInv s) {sid : BitVec 16} (hsid : sid.toNat < s.sm.length) (z : Bit) :
    BlockInv { s with cur := some sid, sm := if z = 1 then s.sm.set sid.toNat [] else s.sm, mode := .idle } := by
  have hempty : withinCapacity s.cap ([] : Buffer).length = true := by unfold withinCapacity; split <;> simp
  refine inv_idle h rfl rfl (fun g hg => ?_) rfl ⟨?_, h.positionHigh⟩ h.positionLow h.adapting
  · cases hg
    dsimp only
    split
    · rwa [List.length_set]
    · exact hsid
  · dsimp only
    split
    · exact memory_wf_set h.store _ hempty
    · exact h.store

/-! ### The rule of every command, and how it is concluded -/

theorem inv_refuseWith {s : State} (h : BlockInv s) (st : Status) : BlockInv (refuseWith st s) := inv_respond h

/-- The command whose rule is `m` and then the pure update `f` keeps the invariant, if `m` with `f` does and if the block
that `m` leaves by an error meets it once it is IDLE (R240, R245). -/
theorem conclude_bind_inv {α : Type} {m : Micro α} {k : α → BitVec 3} {f : State → State} {u : State}
    (hm : (∀ a w, m = .done a w → BlockInv (f w)) ∧ (∀ e w, m = .raised e w → BlockInv (toIdle w)))
    (hu : conclude (m.bind fun a w => .done (k a) (f w)) = .next u) : BlockInv u := by
  obtain ⟨hdone, hraised⟩ := hm
  cases m with
  | done a w => cases hu; exact inv_respond (hdone a w rfl)
  | raised e w => cases hu; exact inv_respond (hraised e w rfl)
  | stuck f => cases hu
  | refused r => cases hu

/-- An encoder step concluded as ENCCTX and ENCPRB do, with value 0, keeps the invariant (R173, R175). -/
theorem encStep_concluded_inv {s u : State} {p : BitVec 16} {mps x : Bit} {cx : Option Nat} (h : BlockInv s)
    (hmode : s.mode = .enc) (h1 : 1 ≤ p.toNat) (h2 : p.toNat ≤ 0x7FFF)
    (hu : conclude ((encStep p mps x cx s).bind fun _ w => .done 0 w) = .next u) : BlockInv u := by
  obtain ⟨hdone, hraised⟩ := encStep_inv (mps := mps) (x := x) (cx := cx) h hmode h1 h2
  exact conclude_bind_inv (f := id) ⟨fun _ w hw => (hdone w hw).1, hraised⟩ hu

/-- A decoder step concluded as DECCTX and DECPRB do, with its symbol as the value, keeps the invariant (R174, R176). -/
theorem decStep_concluded_inv {s u : State} {p : BitVec 16} {mps : Bit} {cx : Option Nat} (h : BlockInv s)
    (hmode : s.mode = .dec) (h1 : 1 ≤ p.toNat) (h2 : p.toNat ≤ 0x7FFF)
    (hu : conclude ((decStep p mps cx s).bind fun y w => .done (bitValue y) w) = .next u) : BlockInv u := by
  obtain ⟨hdone, hraised⟩ := decStep_inv (mps := mps) (cx := cx) h hmode h1 h2
  exact conclude_bind_inv (f := id) ⟨fun y w hw => (hdone y w hw).1, hraised⟩ hu

/-- An admitted command keeps the invariant. -/
theorem concluded_rule_inv {i : Instr} {s u : State} (h : BlockInv s) (ha : admission i s = none)
    (hu : conclude (rule i s) = .next u) : BlockInv u := by
  cases i with
  | reset => cases hu; exact inv_respond (clearContexts_inv h)
  | rstenc => cases hu; exact inv_respond (startEncoding_inv h ((admitted_restart (.inl rfl)).1 ha))
  | rstdec =>
    obtain ⟨hdone, hraised⟩ := startDecoding_inv h ((admitted_restart (.inr rfl)).1 ha)
    exact conclude_bind_inv (f := id) ⟨fun _ => hdone, hraised⟩ hu
  | encctx x c =>
    obtain ⟨hlow, hhigh⟩ := stateProb_legal (contextAt (contextIndex c) s).state
    exact encStep_concluded_inv h (admitted_encctx.1 ha).1 hlow hhigh hu
  | decctx c =>
    obtain ⟨hlow, hhigh⟩ := stateProb_legal (contextAt (contextIndex c) s).state
    exact decStep_concluded_inv h (admitted_decctx.1 ha).1 hlow hhigh hu
  | encprb x g p =>
    obtain ⟨hmode, hlow, hhigh⟩ := admitted_encprb.1 ha
    exact encStep_concluded_inv h hmode hlow hhigh hu
  | decprb g p =>
    obtain ⟨hmode, hlow, hhigh⟩ := admitted_decprb.1 ha
    exact decStep_concluded_inv h hmode hlow hhigh hu
  | terme =>
    obtain ⟨hdone, hraised⟩ := flush_inv h (easyFlush_frame s) (easyFlush_held h.held)
    exact conclude_bind_inv (f := toIdle) ⟨fun _ => hdone, hraised⟩ hu
  | termo =>
    obtain ⟨hdone, hraised⟩ := flush_inv h (optimalFlush_frame s) (optimalFlush_held h.held)
    exact conclude_bind_inv (f := toIdle) ⟨fun _ => hdone, hraised⟩ hu
  | remb => cases hu; exact inv_respond h
  | chstr z sid =>
    have hsid := admitted_chstr.1 ha
    rw [rule, changeStream_done hsid] at hu
    cases hu
    exact inv_respond (installed_anew_inv h hsid z)

/-! ### Every move of the host -/

theorem exec_inv {i : Instr} {s u : State} (h : BlockInv s) (hu : exec i s = .next u) : BlockInv u := by
  cases ha : admission i s with
  | some st => rw [exec_refused_by ha] at hu; cases hu; exact inv_refuseWith h st
  | none => rw [exec_eq, guarded_admitted ha] at hu; exact concluded_rule_inv h ha hu

theorem takeCommand_inv {w : Word} {s u : State} (h : BlockInv s) (hu : takeCommand w s = .next u) : BlockInv u := by
  unfold takeCommand at hu
  split at hu
  · exact exec_inv h hu
  · cases hu; exact inv_refuseWith h _

theorem issueSequence_inv {ws : List Word} {s u : State} (h : BlockInv s) (hu : issueSequence ws s = .next u) :
    BlockInv u := by
  obtain ⟨-, rfl⟩ | ⟨w, rest, v, -, hv, rfl⟩ := issueSequence_next hu
  · exact h
  · have hinv := takeCommand_inv h hv
    split
    · exact inv_host hinv
    · exact hinv

/-- Replacing a buffer that is not installed leaves the installed one. -/
theorem installed_of_free_set {sid : Nat} {s : State} (hfree : isInstalled sid s = false) (c : Buffer) :
    installed { s with sm := s.sm.set sid c } = installed s := by
  unfold isInstalled at hfree
  unfold installed
  dsimp only
  split
  · rfl
  · rename_i hd hcur
    have hne : sid ≠ hd.toNat := by rintro rfl; simp [hcur] at hfree
    exact List.getElem?_set_ne hne

/-- A host edit keeps the invariant: it reaches neither the registers nor the installed buffer (R289). -/
theorem hostEdit_inv {sid : Nat} {e : BufferEdit} {s u : State} (h : BlockInv s) (hu : hostEdit sid e s = .next u) :
    BlockInv u := by
  have hwf := hostEdit_wf h.store hu
  obtain ⟨hfree, b, c, -, -, -, rfl⟩ := hostEdit_next hu
  have hi := installed_of_free_set hfree c
  exact inv_coding h rfl rfl List.length_set h.stream rfl ⟨hwf, h.positionHigh⟩ (.inl (le_refl _)) h.adapting
    (fun hm => (h.encode hm).congr rfl rfl rfl rfl rfl hi) (fun hm => (h.decode hm).congr rfl rfl rfl hi)

theorem hostMove_inv {m : HostMove} {s u : State} (h : BlockInv s) (hu : hostMove m s = .next u) : BlockInv u := by
  cases m with
  | issue w => exact takeCommand_inv h hu
  | sequence ws => exact issueSequence_inv h hu
  | read sid => exact hostRead_next hu ▸ h
  | edit sid e => exact hostEdit_inv h hu

theorem step_inv {s u : State} (h : BlockInv s) (hu : step s = .next u) : BlockInv u := by
  obtain ⟨-, rfl⟩ | ⟨m, rest, -, hm⟩ := step_next hu
  · exact h
  · exact hostMove_inv (inv_host h) hm

/-- Settles O40: a step is a move of the host; a command keeps the invariant by what its rule leaves behind, an edit
because it reaches a buffer that is not installed. -/
theorem everyStepKeepsInv : Obligations.EveryStepKeepsInv := fun _ _ => step_inv

end Sys2Proof.Machine

/-! ## States that differ only in dead registers (R38, R270, R282): a two-run invariant -/

namespace Sys2Proof.Machine

/-! ### The relation on states and on outcomes -/

theorem Alike.refl (s : State) : Alike s s := ⟨rfl, rfl, rfl, rfl, rfl, rfl, rfl, rfl, fun _ => rfl⟩

theorem Alike.respond {s u : State} (h : Alike s u) (st : Status) (v : BitVec 3) :
    Alike (respond st v s) (Machine.respond st v u) :=
  ⟨h.ctx, h.mode, h.cur, h.sm, h.cap, h.lw, by simp only [respond_responses, h.responses], h.host,
    fun hm => by rw [h.live hm]⟩

theorem Alike.clearContexts {s u : State} (h : Alike s u) : Alike (clearContexts s) (Machine.clearContexts u) :=
  ⟨by simp only [clearContexts_ctx, h.ctx], h.mode, h.cur, h.sm, h.cap, h.lw, h.responses, h.host,
    fun hm => by rw [h.live hm]⟩

theorem Alike.withHost {s u : State} (h : Alike s u) (moves : List HostMove) :
    Alike { s with host := moves } { u with host := moves } :=
  ⟨h.ctx, h.mode, h.cur, h.sm, h.cap, h.lw, h.responses, rfl, fun hm => by rw [h.live hm]⟩

theorem Alike.withStore {s u : State} (h : Alike s u) (sm : Memory) :
    Alike { s with sm := sm } { u with sm := sm } :=
  ⟨h.ctx, h.mode, h.cur, rfl, h.cap, h.lw, h.responses, h.host, fun hm => by rw [h.live hm]⟩

/-- Two outcomes of the same kind: alike next states, or the same stop. -/
inductive AlikeOutcome : Host.Outcome State Fault Refusal → Host.Outcome State Fault Refusal → Prop where
  | next {s u : State} (h : Alike s u) : AlikeOutcome (.next s) (.next u)
  | fault (f : Fault) : AlikeOutcome (.fault f) (.fault f)
  | refused (r : Refusal) : AlikeOutcome (.refused r) (.refused r)

theorem AlikeOutcome.refl (o : Host.Outcome State Fault Refusal) : AlikeOutcome o o := by
  cases o with
  | next s => exact .next (.refl s)
  | fault f => exact .fault f
  | refused r => exact .refused r

/-! ### Commands in mode IDLE -/

/-- The admission check reads none of A, C, t, Tr and L (R180). -/
theorem Alike.admission_eq {s u : State} (h : Alike s u) (i : Instr) : admission i s = admission i u := by
  have hmode : modeAdmits i s = modeAdmits i u := by unfold modeAdmits; rw [h.mode]
  have hstream : streamAdmits i s = streamAdmits i u := by unfold streamAdmits; rw [h.cur, h.sm]
  have hoperand : operandRefusal i s = operandRefusal i u := by unfold operandRefusal; rw [h.ctx]
  unfold admission; rw [hmode, hstream, hoperand]

/-- In mode IDLE only the commands that need no mode are admitted (R180). -/
theorem modeNeeded_of_admitted_idle {i : Instr} {s : State} (hidle : s.mode = .idle) (ha : admission i s = none) :
    modeNeeded i = none := by
  have hnever : modeNeeded i ≠ some .idle := by cases i <;> simp [modeNeeded]
  cases hn : modeNeeded i with
  | none => rfl
  | some m =>
    have hne : s.mode ≠ m := fun hm => hnever (by rw [hn, ← hm, hidle])
    rw [refused_by_mode hn hne] at ha; cases ha

/-- RSTENC overwrites all five registers (R171). -/
theorem Alike.startEncoding_eq {s u : State} (h : Alike s u) : startEncoding s = startEncoding u := by
  unfold startEncoding
  rw [h.ctx, h.cur, h.sm, h.cap, h.lw, h.responses, h.host]

/-- Alike states are one state with other values in the five registers. -/
theorem Alike.eq_update {s u : State} (h : Alike s u) :
    u = { s with A := u.A, C := u.C, t := u.t, Tr := u.Tr, L := u.L } := by
  rw [h.ctx, h.mode, h.cur, h.sm, h.cap, h.lw, h.responses, h.host]

/-- RSTDEC overwrites the five registers before it reads them; where it meets a marker, only A is left of the old ones
(R172, R245). -/
theorem rstdec_rule_alike {s u : State} (h : Alike s u) :
    AlikeOutcome (conclude (rule .rstdec s)) (conclude (rule .rstdec u)) := by
  obtain ⟨hdone, hraised⟩ := startDecoding_reads s
  have hu : startDecoding u = startDecoding { s with
      A := u.A, C := u.C, t := u.t, Tr := u.Tr, L := u.L, mode := s.mode, ctx := s.ctx, responses := s.responses } :=
    congrArg _ h.eq_update
  unfold rule
  dsimp only
  rw [hu]
  rcases startDecoding_ignores u.A u.C u.t u.Tr u.L s.mode s.ctx s.responses s with
    ⟨v, hs, hu⟩ | ⟨e, v, hs, hu⟩ | ⟨r, hs, hu⟩ <;> rw [hs, hu]
  · obtain ⟨hf, hctx⟩ := hdone _ _ hs
    rw [← hctx, show s.responses = v.responses from hf.responses.symm]
    exact .refl _
  · obtain ⟨hf, hctx⟩ := hraised _ _ hs
    exact .next ⟨hctx, rfl, rfl, rfl, rfl, rfl, congrArg (· ++ _) hf.responses, rfl, fun hm => absurd rfl hm⟩
  · exact .refused r

/-- CHSTR neither reads nor writes the five registers (R178). -/
theorem chstr_rule_alike {s u : State} (h : Alike s u) {z : Bit} {sid : BitVec 16} (hsid : sid.toNat < s.sm.length) :
    AlikeOutcome (conclude (rule (.chstr z sid) s)) (conclude (rule (.chstr z sid) u)) := by
  unfold rule
  dsimp only
  rw [changeStream_done hsid, changeStream_done (h.sm ▸ hsid)]
  refine .next (Alike.respond ?_ _ _)
  exact ⟨h.ctx, rfl, rfl, by simp only [h.sm], h.cap, h.lw, h.responses, h.host, fun hm => absurd rfl hm⟩

theorem idle_rule_alike {i : Instr} {s u : State} (h : Alike s u) (hidle : s.mode = .idle) (ha : admission i s = none) :
    AlikeOutcome (conclude (rule i s)) (conclude (rule i u)) := by
  have hneeded := modeNeeded_of_admitted_idle hidle ha
  cases i with
  | reset => exact .next (h.clearContexts.respond _ _)
  | rstenc => rw [rule, h.startEncoding_eq]; exact .refl _
  | rstdec => exact rstdec_rule_alike h
  | chstr z sid => exact chstr_rule_alike h (admitted_chstr.1 ha)
  | encctx | decctx | encprb | decprb | terme | termo | remb => cases hneeded

/-! ### Every move of the host -/

theorem exec_alike {s u : State} (h : Alike s u) (i : Instr) : AlikeOutcome (exec i s) (exec i u) := by
  by_cases hidle : s.mode = .idle
  · cases ha : admission i s with
    | some st =>
      rw [exec_refused_by ha, exec_refused_by ((h.admission_eq i).symm.trans ha)]
      exact .next (h.respond _ _)
    | none =>
      rw [exec_eq, exec_eq, guarded_admitted ha, guarded_admitted ((h.admission_eq i).symm.trans ha)]
      exact idle_rule_alike h hidle ha
  · rw [h.live hidle]; exact .refl _

theorem takeCommand_alike {s u : State} (h : Alike s u) (w : Word) :
    AlikeOutcome (takeCommand w s) (takeCommand w u) := by
  unfold takeCommand
  split
  · exact exec_alike h _
  · exact .next (h.respond _ _)

theorem Alike.lastResponseOk_eq {s u : State} (h : Alike s u) : lastResponseOk s = lastResponseOk u := by
  unfold lastResponseOk; rw [h.responses]

theorem issueSequence_alike {s u : State} (h : Alike s u) (ws : List Word) :
    AlikeOutcome (issueSequence ws s) (issueSequence ws u) := by
  cases ws with
  | nil => exact .next h
  | cons w rest =>
    have hw := takeCommand_alike h w
    unfold issueSequence
    dsimp only
    generalize takeCommand w s = x, takeCommand w u = y at hw
    cases hw with
    | next hn =>
      refine .next ?_
      rw [hn.lastResponseOk_eq, hn.host]
      split
      · exact hn.withHost _
      · exact hn
    | fault f => exact .fault f
    | refused r => exact .refused r

theorem Alike.isInstalled_eq {s u : State} (h : Alike s u) (sid : Nat) : isInstalled sid s = isInstalled sid u :=
  isInstalled_congr h.cur sid

theorem onFreeBuffer_alike {s u : State} (h : Alike s u) (sid : Nat) {k l : Buffer → Host.Outcome State Fault Refusal}
    (hkl : ∀ b, AlikeOutcome (k b) (l b)) : AlikeOutcome (onFreeBuffer sid s k) (onFreeBuffer sid u l) := by
  unfold onFreeBuffer
  rw [h.isInstalled_eq, h.sm]
  split
  · exact .refused _
  · split
    · exact .refused _
    · exact hkl _

theorem hostEdit_alike {s u : State} (h : Alike s u) (sid : Nat) (e : BufferEdit) :
    AlikeOutcome (hostEdit sid e s) (hostEdit sid e u) := by
  refine onFreeBuffer_alike h sid fun b => ?_
  split
  · exact .refused _
  · rw [show withinCapacity s.cap = withinCapacity u.cap by rw [h.cap], h.sm]
    split
    · exact .next (h.withStore _)
    · exact .refused _

theorem hostMove_alike {s u : State} (h : Alike s u) (m : HostMove) : AlikeOutcome (hostMove m s) (hostMove m u) := by
  cases m with
  | issue w => exact takeCommand_alike h w
  | sequence ws => exact issueSequence_alike h ws
  | read sid => exact onFreeBuffer_alike h sid fun _ => .next h
  | edit sid e => exact hostEdit_alike h sid e

theorem step_alike {s u : State} (h : Alike s u) : AlikeOutcome (step s) (step u) := by
  unfold step nextMove
  rw [h.host]
  split
  · exact .next h
  · exact hostMove_alike (h.withHost _) _

/-- The host sees none of the five registers (R290). -/
theorem Alike.observation_eq {s u : State} (h : Alike s u) : observation s = observation u := by
  have hfree : ∀ sid, isInstalled sid s = isInstalled sid u := h.isInstalled_eq
  unfold observation freeBuffers
  simp only [h.responses, h.sm, hfree]

/-- Settles O50: being alike is kept by every move of the host. Outside IDLE the states are equal; in IDLE only RESET, the
restarts and CHSTR are admitted, and of them the restarts alone use the five registers, each of which
they write before they read it. -/
theorem deadRegistersAreNeverRead : Obligations.DeadRegistersAreNeverRead := by
  intro s u h
  have hstep := step_alike h
  refine ⟨h.observation_eq, ?_⟩
  generalize step s = x, step u = y at hstep
  cases hstep with
  | next hn =>
    refine ⟨fun s1 hs => ?_, nofun, nofun⟩
    cases hs
    exact ⟨_, rfl, hn⟩
  | fault f => exact ⟨nofun, fun _ => id, nofun⟩
  | refused r => exact ⟨nofun, nofun, fun _ => id⟩

end Sys2Proof.Machine

/-! ## The stream store: no byte is rewritten, and only the buffer a command reaches changes (R50, R57, R62, R63) -/

namespace Sys2Proof.Machine

/-- The store after a command is the one its rule leaves, since the response and the change to IDLE that may follow the
rule do not touch it (R76, R245). -/
theorem exec_store {i : Instr} {s u : State} (hu : exec i s = .next u) : ∃ w, CommandFrame i s w ∧ u.sm = w.sm := by
  obtain ⟨w, st, v, hf, rfl | rfl⟩ := exec_frame hu
  · exact ⟨w, hf, respond_sm st v w⟩
  · exact ⟨w, hf, (respond_sm st v (toIdle w)).trans (toIdle_sm w)⟩

/-- Settles O46: a coding command appends to the installed buffer, a termination also cuts it, CHSTR.Z empties it, and no
other buffer is reached; all of it is in the frame of every rule. -/
theorem noByteIsRewritten : Obligations.NoByteIsRewritten := by
  intro i s u sid b hu hb
  obtain ⟨w, hf, hsm⟩ := exec_store hu
  rw [hsm]
  exact hf.bytes sid b hb

/-- Settles O47: the rules write through the installed handle, which only CHSTR moves, and CHSTR writes only with z = 1. -/
theorem onlyInstalledBufferChanges : Obligations.OnlyInstalledBufferChanges := by
  intro i s u sid hu hfree hoperand
  obtain ⟨w, hf, hsm⟩ := exec_store hu
  rw [hsm]
  exact hf.only sid hfree hoperand

end Sys2Proof.Machine

/-! ## The opcode map by fields, and decoder and encoder as inverses (R72, R74, R75, R81) -/

namespace Sys2Proof

/-! ### Words and their fields -/

theorem fieldOp_and (v w : Word) : fieldOp (v &&& w) = fieldOp v &&& fieldOp w := BitVec.extractLsb'_and
theorem fieldRsv1_and (v w : Word) : fieldRsv1 (v &&& w) = fieldRsv1 v &&& fieldRsv1 w := BitVec.extractLsb'_and
theorem fieldX_and (v w : Word) : fieldX (v &&& w) = fieldX v &&& fieldX w := BitVec.extractLsb'_and
theorem fieldRsv2_and (v w : Word) : fieldRsv2 (v &&& w) = fieldRsv2 v &&& fieldRsv2 w := BitVec.extractLsb'_and
theorem fieldG_and (v w : Word) : fieldG (v &&& w) = fieldG v &&& fieldG w := BitVec.extractLsb'_and
theorem fieldImm_and (v w : Word) : fieldImm (v &&& w) = fieldImm v &&& fieldImm w := BitVec.extractLsb'_and

/-- The six fields cover the word (R71). -/
theorem word_eq_iff_fields {v w : Word} : v = w ↔ fieldOp v = fieldOp w ∧ fieldRsv1 v = fieldRsv1 w ∧
    fieldX v = fieldX w ∧ fieldRsv2 v = fieldRsv2 w ∧ fieldG v = fieldG w ∧ fieldImm v = fieldImm w := by
  have concat (u : Word) : u = fieldOp u ++ fieldRsv1 u ++ fieldX u ++ fieldRsv2 u ++ fieldG u ++ fieldImm u := by
    unfold fieldOp fieldRsv1 fieldX fieldRsv2 fieldG fieldImm
    iterate 5 rw [BitVec.extractLsb'_append_extractLsb'_eq_extractLsb' (by rfl)]
    exact BitVec.extractLsb'_eq_self.symm
  refine ⟨fun h => h ▸ ⟨rfl, rfl, rfl, rfl, rfl, rfl⟩, fun ⟨hop, hr1, hx, hr2, hg, himm⟩ => ?_⟩
  rw [concat v, concat w, hop, hr1, hx, hr2, hg, himm]

section EncodedFields
variable (op : BitVec 4) (x g : Bit) (c : BitVec 16)

@[simp] theorem fieldOp_headBits : fieldOp (headBits op x g ++ c) = op := (encoded_fields op x g c).1
@[simp] theorem fieldRsv1_headBits : fieldRsv1 (headBits op x g ++ c) = 0 := (encoded_fields op x g c).2.1
@[simp] theorem fieldX_headBits : fieldX (headBits op x g ++ c) = x := (encoded_fields op x g c).2.2.1
@[simp] theorem fieldRsv2_headBits : fieldRsv2 (headBits op x g ++ c) = 0 := (encoded_fields op x g c).2.2.2.1
@[simp] theorem fieldG_headBits : fieldG (headBits op x g ++ c) = g := (encoded_fields op x g c).2.2.2.2.1
@[simp] theorem fieldImm_headBits : fieldImm (headBits op x g ++ c) = c := fieldImm_append _ c

end EncodedFields

/-- The five checks of R75 on a word. -/
theorem wordWellFormed_iff {w : Word} : wordWellFormed w = true ↔ opUsed (fieldOp w) = true ∧ fieldRsv1 w = 0 ∧
    fieldRsv2 w = 0 ∧ (opHasX (fieldOp w) = true ∨ fieldX w = 0) ∧ (opHasG (fieldOp w) = true ∨ fieldG w = 0) ∧
    (opHasImm (fieldOp w) = true ∨ fieldImm w = 0) := by
  unfold wordWellFormed
  simp only [Bool.and_eq_true, Bool.or_eq_true, beq_iff_eq, and_assoc]

/-! ### The rows of the opcode map -/

/-- The opcode a row stands for. -/
def OpcodeRow.op (r : OpcodeRow) : BitVec 4 := fieldOp r.pattern

/-- A field of a mask: every bit is compared, or, where it is an operand of the command, none. -/
def maskField (operand : Bool) (n : Nat) : BitVec n := if operand then 0 else BitVec.allOnes n

/-- Every row compares the opcode and all fields that are no operand of it with a pattern that is its opcode and zeros
(R74). -/
theorem row_fields {r : OpcodeRow} (hr : r ∈ opcodeRows) :
    (fieldOp r.mask = maskField false 4 ∧ fieldRsv1 r.mask = maskField false 3 ∧ fieldX r.mask = maskField (opHasX r.op) 1 ∧
      fieldRsv2 r.mask = maskField false 7 ∧ fieldG r.mask = maskField (opHasG r.op) 1 ∧
      fieldImm r.mask = maskField (opHasImm r.op) 16) ∧
    opUsed r.op = true ∧ r.pattern = headBits r.op 0 0 ++ (0 : BitVec 16) := by
  revert r; decide

/-- A masked comparison with zero asks nothing of an operand and that any other field be zero. -/
theorem and_maskField_eq_zero {operand : Bool} {n : Nat} {a : BitVec n} :
    a &&& maskField operand n = 0 ↔ operand = true ∨ a = 0 := by
  cases operand <;> simp [maskField]

/-- A row matches the well-formed words with its opcode: the two formulations of R74 and R75 agree. -/
theorem hits_iff {r : OpcodeRow} (hr : r ∈ opcodeRows) (w : Word) :
    r.hits w = true ↔ fieldOp w = r.op ∧ wordWellFormed w = true := by
  obtain ⟨⟨hop, hr1, hx, hr2, hg, himm⟩, hused, hpat⟩ := row_fields hr
  have hopw : fieldOp w &&& maskField false 4 = fieldOp w := BitVec.and_allOnes
  unfold OpcodeRow.hits
  rw [beq_iff_eq, word_eq_iff_fields, fieldOp_and, fieldRsv1_and, fieldX_and, fieldRsv2_and, fieldG_and, fieldImm_and,
    hop, hr1, hx, hr2, hg, himm, hpat, fieldOp_headBits, fieldRsv1_headBits, fieldX_headBits, fieldRsv2_headBits,
    fieldG_headBits, fieldImm_headBits, hopw, wordWellFormed_iff]
  simp only [and_maskField_eq_zero, Bool.false_eq_true, false_or]
  constructor
  · rintro ⟨hw, h1, h2, h3, h4, h5⟩
    exact ⟨hw, hw ▸ hused, h1, h3, hw ▸ h2, hw ▸ h4, hw ▸ h5⟩
  · rintro ⟨hw, -, h1, h3, h2, h4, h5⟩
    exact ⟨hw, h1, hw ▸ h2, h3, hw ▸ h4, hw ▸ h5⟩

/-- No two rows have one opcode. -/
theorem row_eq_of_op {r q : OpcodeRow} (hr : r ∈ opcodeRows) (hq : q ∈ opcodeRows) (h : r.op = q.op) : r = q :=
  List.inj_on_of_nodup_map (f := OpcodeRow.op) (by decide) hr hq h

/-- At most one row matches a word (R74). -/
theorem row_eq_of_hits {r q : OpcodeRow} {w : Word} (hr : r ∈ opcodeRows) (hq : q ∈ opcodeRows) (hrw : r.hits w = true)
    (hqw : q.hits w = true) : r = q :=
  row_eq_of_op hr hq (((hits_iff hr w).1 hrw).1.symm.trans ((hits_iff hq w).1 hqw).1)

/-- Every opcode in use has a row. -/
theorem exists_row_of_opUsed {op : BitVec 4} (h : opUsed op = true) : ∃ r ∈ opcodeRows, r.op = op := by
  revert op; decide

/-! ### What the decoder answers -/

/-- The row that matches decides (R81). -/
theorem decode_of_hits {r : OpcodeRow} {w : Word} (hr : r ∈ opcodeRows) (hw : r.hits w = true) :
    decode w = .ok (r.read w) := by
  unfold decode
  split
  · rename_i q hq
    rw [row_eq_of_hits (List.mem_of_find?_eq_some hq) hr (List.find?_some (p := fun r : OpcodeRow => r.hits w) hq) hw]
  · rename_i hnone
    exact absurd hw (List.find?_eq_none.1 hnone r hr)

theorem decode_of_no_hit {w : Word} (h : ∀ r ∈ opcodeRows, r.hits w = false) : decode w = .error (whyIllegal w) := by
  unfold decode
  rw [List.find?_eq_none.2 fun r hr => by simp [h r hr]]

/-- The command with this opcode and these operands (R72); RESET stands in for the five opcodes not in use. -/
def commandOf (op : BitVec 4) (x g : Bit) (c : BitVec 16) : Instr :=
  match op.toNat with
  | 0x2 => .rstenc
  | 0x3 => .rstdec
  | 0x4 => .encctx x c
  | 0x5 => .decctx c
  | 0x6 => .encprb x g c
  | 0x7 => .decprb g c
  | 0x8 => .terme
  | 0x9 => .termo
  | 0xA => .remb
  | 0xB => .chstr g c
  | _ => .reset

theorem read_eq_commandOf {r : OpcodeRow} (hr : r ∈ opcodeRows) (w : Word) :
    r.read w = commandOf r.op (fieldX w) (fieldG w) (fieldImm w) := by
  revert r
  simp only [opcodeRows, List.forall_mem_cons]
  exact ⟨rfl, rfl, rfl, rfl, rfl, rfl, rfl, rfl, rfl, rfl, rfl, nofun⟩

/-- A well-formed word is the command of its fields (R72, R81). -/
theorem decode_of_wellFormed {w : Word} (h : wordWellFormed w = true) :
    decode w = .ok (commandOf (fieldOp w) (fieldX w) (fieldG w) (fieldImm w)) := by
  obtain ⟨r, hr, hop⟩ := exists_row_of_opUsed (wordWellFormed_iff.1 h).1
  rw [decode_of_hits hr ((hits_iff hr w).2 ⟨hop.symm, h⟩), read_eq_commandOf hr, hop]

/-- Any other word matches no row (R75). -/
theorem decode_of_illFormed {w : Word} (h : wordWellFormed w = false) : decode w = .error (whyIllegal w) :=
  decode_of_no_hit fun _ hr => Bool.eq_false_iff.2 fun hw => Bool.eq_false_iff.1 h ((hits_iff hr w).1 hw).2

/-- A word is rejected exactly when it is not well formed (R75). -/
theorem decode_error_iff {w : Word} : (∃ e, decode w = .error e) ↔ wordWellFormed w = false := by
  cases hwf : wordWellFormed w with
  | false => exact iff_of_true ⟨_, decode_of_illFormed hwf⟩ rfl
  | true => simp [decode_of_wellFormed hwf]

/-! ### The encoder -/

theorem encode_wordWellFormed (i : Instr) : wordWellFormed (encode i) = true := by
  cases i with
  | reset => exact Laws.WordShape.reset.1
  | rstenc => exact Laws.WordShape.rstenc.1
  | rstdec => exact Laws.WordShape.rstdec.1
  | encctx x c => exact (Laws.WordShape.encctx x c).1
  | decctx c => exact (Laws.WordShape.decctx c).1
  | encprb x g p => exact (Laws.WordShape.encprb x g p).1
  | decprb g p => exact (Laws.WordShape.decprb g p).1
  | terme => exact Laws.WordShape.terme.1
  | termo => exact Laws.WordShape.termo.1
  | remb => exact Laws.WordShape.remb.1
  | chstr z sid => exact (Laws.WordShape.chstr z sid).1

/-- A word built by the encoder is the command of the fields it is built from, provided it is one at all. -/
theorem decode_headBits {op : BitVec 4} {x g : Bit} {c : BitVec 16}
    (h : wordWellFormed (headBits op x g ++ c) = true) : decode (headBits op x g ++ c) = .ok (commandOf op x g c) := by
  rw [decode_of_wellFormed h, fieldOp_headBits, fieldX_headBits, fieldG_headBits, fieldImm_headBits]

theorem decode_encode (i : Instr) : decode (encode i) = .ok i := by
  have hwf := encode_wordWellFormed i
  cases i <;> exact decode_headBits hwf

/-- Settles O1: the word of a command is well formed, so the row of its opcode decides, and that row reads back the fields
the encoder wrote. -/
theorem decodeInvertsEncode : Obligations.DecodeInvertsEncode := fun i _ => decode_encode i

/-- The word of a command given by its fields: those of them that are its operands. -/
theorem encode_commandOf {op : BitVec 4} (hop : opUsed op = true) (x g : Bit) (c : BitVec 16) :
    encode (commandOf op x g c) =
      headBits op (if opHasX op then x else 0) (if opHasG op then g else 0) ++ (if opHasImm op then c else 0) := by
  have hrows : ∀ r ∈ opcodeRows, encode (commandOf r.op x g c) =
      headBits r.op (if opHasX r.op then x else 0) (if opHasG r.op then g else 0) ++ (if opHasImm r.op then c else 0) := by
    simp only [opcodeRows, List.forall_mem_cons]
    exact ⟨rfl, rfl, rfl, rfl, rfl, rfl, rfl, rfl, rfl, rfl, rfl, nofun⟩
  obtain ⟨r, hr, rfl⟩ := exists_row_of_opUsed hop
  exact hrows r hr

/-- A field that is zero where it is no operand is its operand part. -/
theorem operand_part {n : Nat} {b : Bool} {a : BitVec n} (h : b = true ∨ a = 0) : (if b then a else 0) = a := by
  rcases h with rfl | rfl <;> simp

/-- Settles O2: of a word that decodes every field but the opcode and the operands is zero, and those the encoder writes
back. -/
theorem encodeInvertsDecode : Obligations.EncodeInvertsDecode := by
  intro w i h
  cases hwf : wordWellFormed w with
  | false => rw [decode_of_illFormed hwf] at h; cases h
  | true =>
    obtain ⟨hop, hr1, hr2, hx, hg, himm⟩ := wordWellFormed_iff.1 hwf
    rw [decode_of_wellFormed hwf] at h
    cases h
    rw [encode_commandOf hop, operand_part hx, operand_part hg, operand_part himm, word_eq_iff_fields]
    simp [hr1, hr2]

/-- Settles O4: the opcode alone tells the rows apart, so the row that matches is the one the decoder finds. -/
theorem opcodeRowsDecideDecoding : Obligations.OpcodeRowsDecideDecoding :=
  ⟨fun _ _ _ hr hq hrw hqw => congrArg _ (row_eq_of_hits hr hq hrw hqw), fun _ _ => decode_of_hits,
    fun _ h => ⟨_, decode_of_no_hit h⟩⟩

/-- Settles O5: each word is that of the encoder for its command, which the decoder reads back. -/
theorem sampleWordsDecode : Obligations.SampleWordsDecode :=
  ⟨decode_encode .reset, decode_encode (.encctx 1 0), decode_encode (.decctx 3), decode_encode (.encprb 0 1 8192),
    decode_encode (.decprb 0 21845), decode_encode .terme, decode_encode (.chstr 1 2)⟩

end Sys2Proof

/-! ## Illegal words and the words of the source form (R75, R79, R73) -/

namespace Sys2Proof

/-! ### What R75 lists -/

theorem opUsed_eq_false_iff {op : BitVec 4} :
    opUsed op = false ↔ op = 0x0 ∨ op = 0xC ∨ op = 0xD ∨ op = 0xE ∨ op = 0xF := by
  revert op; decide

theorem strayX_iff {op : BitVec 4} {x : Bit} :
    ¬ (opHasX op = true ∨ x = 0) ↔ x = 1 ∧ op ≠ 0x4 ∧ op ≠ 0x6 := by
  revert op x; decide

theorem strayG_iff {op : BitVec 4} {g : Bit} :
    ¬ (opHasG op = true ∨ g = 0) ↔ g = 1 ∧ op ≠ 0x6 ∧ op ≠ 0x7 ∧ op ≠ 0xB := by
  revert op g; decide

/-- The opcodes in use without the operand `imm` are those of format F0 (R72). -/
theorem opHasImm_eq_false_iff {op : BitVec 4} (h : opUsed op = true) :
    opHasImm op = false ↔ op = 0x1 ∨ op = 0x2 ∨ op = 0x3 ∨ op = 0x8 ∨ op = 0x9 ∨ op = 0xA := by
  revert op; decide

theorem strayImm_iff {op : BitVec 4} (h : opUsed op = true) {c : BitVec 16} :
    ¬ (opHasImm op = true ∨ c = 0) ↔
      c ≠ 0 ∧ (op = 0x1 ∨ op = 0x2 ∨ op = 0x3 ∨ op = 0x8 ∨ op = 0x9 ∨ op = 0xA) := by
  rw [not_or, and_comm, Bool.not_eq_true, opHasImm_eq_false_iff h]

/-- The list of R75, with "not well formed" for it. -/
theorem wordWellFormed_eq_false_iff {w : Word} : wordWellFormed w = false ↔
    (fieldOp w = 0x0 ∨ fieldOp w = 0xC ∨ fieldOp w = 0xD ∨ fieldOp w = 0xE ∨ fieldOp w = 0xF) ∨
    fieldRsv1 w ≠ 0 ∨ fieldRsv2 w ≠ 0 ∨
    (fieldX w = 1 ∧ fieldOp w ≠ 0x4 ∧ fieldOp w ≠ 0x6) ∨
    (fieldG w = 1 ∧ fieldOp w ≠ 0x6 ∧ fieldOp w ≠ 0x7 ∧ fieldOp w ≠ 0xB) ∨
    (fieldImm w ≠ 0 ∧ (fieldOp w = 0x1 ∨ fieldOp w = 0x2 ∨ fieldOp w = 0x3 ∨ fieldOp w = 0x8 ∨ fieldOp w = 0x9 ∨
      fieldOp w = 0xA)) := by
  cases hop : opUsed (fieldOp w) with
  | false =>
    refine iff_of_true (Bool.eq_false_iff.2 fun hw => ?_) (.inl (opUsed_eq_false_iff.1 hop))
    exact Bool.eq_false_iff.1 hop (wordWellFormed_iff.1 hw).1
  | true =>
    rw [← Bool.not_eq_true, wordWellFormed_iff, ← opUsed_eq_false_iff, ← strayX_iff, ← strayG_iff, ← strayImm_iff hop, hop]
    simp only [not_and_or, not_true_eq_false, false_or, Bool.true_eq_false]

/-! ### Words as numbers -/

/-- An encoded word as the sum of its fields (R71). -/
theorem headBits_toNat (op : BitVec 4) (x g : Bit) (c : BitVec 16) : (headBits op x g ++ c : Word).toNat =
    op.toNat * 2 ^ 28 + x.toNat * 2 ^ 24 + g.toNat * 2 ^ 16 + c.toNat := by
  have hhead : (headBits op x g).toNat = op.toNat * 2 ^ 12 + x.toNat * 2 ^ 8 + g.toNat := by revert op x g; decide
  rw [BitVec.toNat_append, ← Nat.shiftLeft_add_eq_or_of_lt c.isLt, Nat.shiftLeft_eq, hhead]
  omega

theorem ofNat_toNat_of_le {n k : Nat} (h : k ≤ 2 ^ n - 1) : (BitVec.ofNat n k).toNat = k :=
  (BitVec.toNat_ofNat ..).trans (Nat.mod_eq_of_lt (by have := Nat.two_pow_pos n; omega))

end Sys2Proof

namespace Sys2Proof.Machine

theorem takeCommand_illegal {w : Word} (h : ∃ e, decode w = .error e) (s : State) :
    takeCommand w s = .next (refuseWith .illegalCommand s) := by
  obtain ⟨e, he⟩ := h
  unfold takeCommand; rw [he]

theorem takeCommand_of_decode {w : Word} {i : Instr} (h : decode w = .ok i) (s : State) : takeCommand w s = exec i s := by
  unfold takeCommand; rw [h]

/-- Settles O3: the decoder rejects the words that are not well formed, and these are the ones R75 lists. -/
theorem illegalWordsAreAnswered : Obligations.IllegalWordsAreAnswered :=
  ⟨fun _ => decode_error_iff.trans wordWellFormed_eq_false_iff, fun _ s h => takeCommand_illegal h s,
    decode_error_iff.2 (by decide), decode_error_iff.2 (by decide)⟩

/-! ### The source form -/

theorem signOf_toNat (q : Int) : (signOf q).toNat * 2 ^ 16 = if q < 0 then 2 ^ 16 else 0 := by
  unfold signOf; split <;> rfl

theorem magnitudeOf_toNat {q : Int} (h : q.natAbs ≤ 0xFFFF) : (magnitudeOf q).toNat = q.natAbs := ofNat_toNat_of_le h

/-- Settles O6: every one of the words is a sum of fields, and an operand in its range is its own field. -/
theorem sourceFormWords : Obligations.SourceFormWords := by
  refine ⟨fun x c hx hc => (headBits_toNat ..).trans ?_, fun c hc => (headBits_toNat ..).trans ?_,
    fun x q hx hq => (headBits_toNat ..).trans ?_, fun q hq => (headBits_toNat ..).trans ?_,
    fun sid hs => (headBits_toNat ..).trans ?_, fun sid hs => (headBits_toNat ..).trans ?_⟩
  · rw [ofNat_toNat_of_le hx, ofNat_toNat_of_le hc]; simp
  · rw [ofNat_toNat_of_le hc]; simp
  · rw [ofNat_toNat_of_le hx, signOf_toNat, magnitudeOf_toNat hq]; simp
  · rw [signOf_toNat, magnitudeOf_toNat hq]; simp
  · rw [ofNat_toNat_of_le hs]; simp
  · rw [ofNat_toNat_of_le hs]; simp

/-- Settles O7: the sign field says which of the two readings of the magnitude is meant. -/
theorem probabilitySignAndMagnitude : Obligations.ProbabilitySignAndMagnitude := by
  refine ⟨fun q hq => ⟨?_, ?_, magnitudeOf_toNat hq⟩, fun p => ⟨rfl, rfl⟩⟩
  · unfold prob0Of signOf
    rw [magnitudeOf_toNat hq]
    by_cases hneg : q < 0
    · rw [if_pos hneg, if_pos rfl]; omega
    · rw [if_neg hneg, if_neg (by decide)]; omega
  · unfold signOf
    by_cases hneg : q < 0 <;> simp [hneg]

end Sys2Proof.Machine

/-! ## The host's command words: one response each, and the sequences of R80 -/

namespace Sys2Proof.Machine

/-! ### The response word (R76, R77) -/

@[simp] theorem responseWord_status (st : Status) (v : BitVec 3) : (responseWord st v).extractLsb' 28 4 = statusCode st := by
  revert v; cases st <;> decide

@[simp] theorem responseWord_value (st : Status) (v : BitVec 3) : (responseWord st v).extractLsb' 0 3 = v := by
  revert v; cases st <;> decide

@[simp] theorem responseWord_reserved (st : Status) (v : BitVec 3) : (responseWord st v).extractLsb' 3 25 = 0 := by
  revert v; cases st <;> decide

theorem statusCode_le (st : Status) : (statusCode st).toNat ≤ 7 := by cases st <;> decide

theorem statusCode_eq_zero_iff {st : Status} : statusCode st = 0 ↔ st = .ok := by cases st <;> decide

theorem errorStatus_ne_ok (e : ExecError) : errorStatus e ≠ .ok := by cases e <;> decide

/-- A refusal never says OK (R243). -/
theorem admission_ne_ok {i : Instr} {s : State} : admission i s ≠ some .ok := fun h => by
  rcases adm_cases h with h | h | h | h <;> cases h

/-- The value an OK response to `i` carries when the command is taken in `s` (R76). -/
def OkValue (i : Instr) (s : State) (v : BitVec 3) : Prop :=
  match i with
  | .decctx c =>
      v.toNat = (symbolRead s.A (stateProb (contextAt c.toNat s).state) (contextAt c.toNat s).mps s.C).toNat
  | .decprb g p => v.toNat = (symbolRead s.A p g s.C).toNat
  | .remb => v = 4 ∨ v = 5
  | .reset | .rstenc | .rstdec | .encctx _ _ | .encprb _ _ _ | .terme | .termo | .chstr _ _ => v = 0

theorem bitValue_toNat (x : Bit) : (bitValue x).toNat = x.toNat := by revert x; decide

theorem remainingBytes_eq (t : BitVec 4) : remainingBytes t = 4 ∨ remainingBytes t = 5 := by
  unfold remainingBytes; split
  · exact .inl rfl
  · exact .inr rfl

/-- A rule that answers after a micro-operation with a value of its own. -/
theorem bind_value {α : Type} {m : Micro α} {k : α → BitVec 3} {f : State → State} {v : BitVec 3} {w : State}
    (h : (m.bind fun a s1 => .done (k a) (f s1)) = .done v w) : ∃ a s1, m = .done a s1 ∧ v = k a := by
  obtain ⟨a, s1, hm, hk⟩ := bind_eq_done.1 h
  cases hk
  exact ⟨a, s1, hm, rfl⟩

/-- `dec_step` answers the symbol whose sub-interval the window lies in (R103). -/
theorem decStep_symbol {p : BitVec 16} (hp : p.toNat ≤ 0x7FFF) {mps x : Bit} {cx : Option Nat} {s u : State}
    (h : decStep p mps cx s = .done x u) : x = symbolRead s.A p mps s.C := by
  obtain ⟨-, w, -, hx⟩ := bind_eq_done.1 h
  cases hx
  exact (decUpdate_law hp mps cx s).symbol

/-- A rule concluded as DECCTX and DECPRB do answers that symbol. -/
theorem decStep_concluded_value {p : BitVec 16} (hp : p.toNat ≤ 0x7FFF) {mps : Bit} {cx : Option Nat} {s w : State}
    {v : BitVec 3} (h : ((decStep p mps cx s).bind fun x s1 => .done (bitValue x) s1) = .done v w) :
    v.toNat = (symbolRead s.A p mps s.C).toNat := by
  obtain ⟨x, u, hx, rfl⟩ := bind_value (f := id) h
  rw [bitValue_toNat, decStep_symbol hp hx]

theorem rule_okValue {i : Instr} {s w : State} {v : BitVec 3} (ha : admission i s = none) (h : rule i s = .done v w) :
    OkValue i s v := by
  cases i with
  | reset => cases h; exact rfl
  | rstenc => cases h; exact rfl
  | rstdec => obtain ⟨-, -, -, hv⟩ := bind_value (f := id) h; exact hv
  | encctx x c => obtain ⟨-, -, -, hv⟩ := bind_value (f := id) h; exact hv
  | decctx c => exact decStep_concluded_value (stateProb_legal _).2 h
  | encprb x g p => obtain ⟨-, -, -, hv⟩ := bind_value (f := id) h; exact hv
  | decprb g p => exact decStep_concluded_value (admitted_decprb.1 ha).2.2 h
  | terme => obtain ⟨-, -, -, hv⟩ := bind_value h; exact hv
  | termo => obtain ⟨-, -, -, hv⟩ := bind_value h; exact hv
  | remb => cases h; exact remainingBytes_eq s.t
  | chstr z sid => obtain ⟨-, -, -, hv⟩ := bind_value (f := id) h; exact hv

/-- A command that answers gives one response word: with status OK its value, with any other status 0 (R76). -/
theorem exec_response {i : Instr} {s u : State} (hu : exec i s = .next u) : ∃ st v,
    u.responses = s.responses ++ [responseWord st v] ∧ (st ≠ .ok → v = 0) ∧ (st = .ok → OkValue i s v) := by
  rcases exec_status hu with ⟨st, ha, rfl⟩ | ⟨ha, v, w, hr, rfl, hw⟩ | ⟨-, e, w, -, rfl, hw⟩
  · exact ⟨st, 0, rfl, fun _ => rfl, fun hok => absurd (hok ▸ ha) admission_ne_ok⟩
  · exact ⟨.ok, v, congrArg (· ++ _) hw, fun hok => absurd rfl hok, fun _ => rule_okValue ha hr⟩
  · exact ⟨errorStatus e, 0, congrArg (· ++ _) hw, fun _ => rfl, fun hok => absurd hok (errorStatus_ne_ok e)⟩

theorem takeCommand_response {w : Word} {s u : State} (hu : takeCommand w s = .next u) : ∃ st v,
    u.responses = s.responses ++ [responseWord st v] ∧ (st ≠ .ok → v = 0) ∧
    (st = .ok → ∃ i, decode w = .ok i ∧ OkValue i s v) := by
  cases hd : decode w with
  | ok i =>
    rw [takeCommand_of_decode hd] at hu
    obtain ⟨st, v, hr, hzero, hok⟩ := exec_response hu
    exact ⟨st, v, hr, hzero, fun h => ⟨i, rfl, hok h⟩⟩
  | error e =>
    rw [takeCommand_illegal ⟨e, hd⟩] at hu
    cases hu
    exact ⟨.illegalCommand, 0, rfl, fun _ => rfl, nofun⟩

/-- Settles O12: the response is a refusal, an error or the value of the rule, and only a decoding command and REMB have a
value other than 0. -/
theorem oneResponseWord : Obligations.OneResponseWord := by
  intro w s u hu
  obtain ⟨st, v, hr, hzero, hok⟩ := takeCommand_response hu
  refine ⟨_, hr, responseWord_reserved st v, ?_, fun hst => ?_, fun hst => ?_⟩
  · rw [responseWord_status]; exact statusCode_le st
  · rw [responseWord_status] at hst
    rw [responseWord_value, hzero fun h => hst (statusCode_eq_zero_iff.2 h)]
  · rw [responseWord_status] at hst
    obtain ⟨i, hd, hv⟩ := hok (statusCode_eq_zero_iff.1 hst)
    refine ⟨i, hd, ?_⟩
    rw [responseWord_value]
    cases i <;> exact hv

/-! ### A step of the host (R80, R289) -/

theorem step_of_host {s : State} {m : HostMove} {rest : List HostMove} (h : s.host = m :: rest) :
    step s = hostMove m { s with host := rest } := by
  unfold step nextMove; rw [h]

/-- Settles O8: the host's next move is a word, and the word decodes. -/
theorem stepRunsDecodedCommand : Obligations.StepRunsDecodedCommand :=
  fun _ _ _ _ hhost hw => (step_of_host hhost).trans (takeCommand_of_decode hw _)

/-- Whether the host sees OK is the status of the last response. -/
theorem lastResponseOk_append {u : State} {l : List Word} {st : Status} {v : BitVec 3}
    (h : u.responses = l ++ [responseWord st v]) : lastResponseOk u = decide (st = .ok) := by
  unfold lastResponseOk
  rw [h, List.getLast?_concat]
  dsimp only
  rw [responseWord_status]
  cases st <;> rfl

/-- The step that issues the first word of a sequence (R80). -/
theorem step_of_sequence {s u : State} {w : Word} {ws : List Word} {rest : List HostMove}
    (hhost : s.host = .sequence (w :: ws) :: rest) (hu : takeCommand w { s with host := rest } = .next u) :
    step s = .next (if lastResponseOk u then { u with host := .sequence ws :: rest } else u) := by
  have hrest : u.host = rest := (take_frame hu).2.2.2.2
  rw [step_of_host hhost]
  unfold hostMove issueSequence
  dsimp only
  rw [hu]
  dsimp only
  rw [hrest]

theorem step_of_sequence_ok {s u : State} {w : Word} {ws : List Word} {rest : List HostMove} {v : BitVec 3}
    (hhost : s.host = .sequence (w :: ws) :: rest) (hu : takeCommand w { s with host := rest } = .next u)
    (hr : u.responses = s.responses ++ [responseWord .ok v]) : step s = .next { u with host := .sequence ws :: rest } := by
  rw [step_of_sequence hhost hu, lastResponseOk_append hr]; rfl

theorem step_of_sequence_refused {s u : State} {w : Word} {ws : List Word} {rest : List HostMove} {st : Status}
    {v : BitVec 3} (hhost : s.host = .sequence (w :: ws) :: rest) (hu : takeCommand w { s with host := rest } = .next u)
    (hst : st ≠ .ok) (hr : u.responses = s.responses ++ [responseWord st v]) : step s = .next u := by
  rw [step_of_sequence hhost hu, lastResponseOk_append hr, decide_eq_false hst]; rfl

/-- Settles O9: the response decides whether the rest of the sequence waits; the expansions are the encoder's words. -/
theorem sequencesStopAtRefusal : Obligations.SequencesStopAtRefusal :=
  ⟨fun _ _ hhost => step_of_host hhost,
    fun _ _ _ _ _ hhost hu => ⟨fun _ => step_of_sequence_ok hhost hu, fun _ _ => step_of_sequence_refused hhost hu⟩,
    rfl, fun _ => ⟨rfl, rfl, rfl⟩⟩

/-- A step that issues the word of a command which is admitted and whose rule ends (R80, R240). -/
theorem step_of_encoded {s u : State} {i : Instr} {ws : List Word} {rest : List HostMove} {v : BitVec 3}
    (hhost : s.host = .sequence (encode i :: ws) :: rest) (ha : admission i { s with host := rest } = none)
    (hrule : rule i { s with host := rest } = .done v u) :
    step s = .next { respond .ok v u with host := .sequence ws :: rest } := by
  have hframe := (rule_frame ha).1 _ _ hrule
  refine step_of_sequence_ok hhost ((takeCommand_of_decode (decode_encode i) _).trans (exec_of_done ha hrule)) (v := v) ?_
  exact congrArg (· ++ _) hframe.responses

theorem rule_chstr {z : Bit} {sid : BitVec 16} {s : State} (h : sid.toNat < s.sm.length) :
    rule (.chstr z sid) s = .done 0 { s with
      cur := some sid, sm := if z = 1 then s.sm.set sid.toNat [] else s.sm, mode := .idle } := by
  unfold rule
  dsimp only
  rw [changeStream_done h, bind_done]

/-- Settles O54: CHSTR.Z installs the buffer, whatever the mode; then a stream is installed, so RSTENC is admitted; RESET
always is. -/
theorem openencBringsUp : Obligations.OpenencBringsUp := by
  intro s sid rest hhost hsid
  refine ⟨_, _, _, step_of_encoded (i := .chstr 1 sid) hhost (admitted_chstr.2 hsid) (rule_chstr hsid),
    step_of_encoded (i := .rstenc) rfl ((admitted_restart (.inl rfl)).2 ?_) rfl,
    step_of_encoded (i := .reset) rfl (admitted_reset _) rfl, ?_⟩
  · exact Option.some_ne_none sid
  · have hresponses : s.responses ++ [responseWord .ok 0] ++ [responseWord .ok 0] ++ [responseWord .ok 0] =
        s.responses ++ [0, 0, 0] := by
      rw [List.append_assoc, List.append_assoc]; rfl
    have hctx : (s.ctx.map fun _ => (⟨0, 0⟩ : Context)) = List.replicate s.ctx.length ⟨0, 0⟩ := List.map_const' ..
    rw [← hresponses, ← hctx]
    rfl

end Sys2Proof.Machine

/-! ## Coding a symbol narrows the interval (R100, R131, R202) -/

namespace Sys2Proof.Machine

/-! ### The rules of the coding commands, by the entry of the context -/

theorem rule_encctx {s : State} {c : BitVec 16} {e : Context} (h : s.ctx[c.toNat]? = some e) (x : Bit) :
    rule (.encctx x c) s =
      (encStep (stateProb e.state) e.mps x (some c.toNat) s).bind fun _ w => .done 0 w := by
  unfold rule contextIndex
  dsimp only
  rw [(contextAt_of_some h).2]

theorem rule_decctx {s : State} {c : BitVec 16} {e : Context} (h : s.ctx[c.toNat]? = some e) :
    rule (.decctx c) s =
      (decStep (stateProb e.state) e.mps (some c.toNat) s).bind fun x w => .done (bitValue x) w := by
  unfold rule contextIndex
  dsimp only
  rw [(contextAt_of_some h).2]

/-- An admitted command that leaves the block out of IDLE met no error (R245). -/
theorem exec_done_of_mode {i : Instr} {s u : State} (ha : admission i s = none) (hu : exec i s = .next u)
    (hmode : u.mode ≠ .idle) : ∃ v w, rule i s = .done v w ∧ u = respond .ok v w := by
  rcases exec_next hu with ⟨st, hst, -⟩ | ⟨-, v, w, hw, rfl⟩ | ⟨-, e, w, -, rfl⟩
  · rw [ha] at hst; cases hst
  · exact ⟨v, w, hw, rfl⟩
  · exact absurd rfl hmode

/-! ### The interval -/

/-- `u` has the interval of `s` cut down to the sub-interval of `x` (R100 c), in the coordinates of the message. -/
def NarrowedTo (p : BitVec 16) (mps x : Bit) (s u : State) : Prop :=
  (takesUpper s.A p mps x = true → intervalLow u = intervalLow s + p.toNat * intervalUnit s ∧
    u.A.toNat * intervalUnit u = (s.A.toNat - p.toNat) * intervalUnit s) ∧
  (takesUpper s.A p mps x = false → intervalLow u = intervalLow s ∧
    u.A.toNat * intervalUnit u = p.toNat * intervalUnit s)

/-- The update narrows the interval, and the renormalization keeps it whatever it writes out. -/
theorem encStep_narrowedTo {p : BitVec 16} {mps x : Bit} {cx : Option Nat} {s u : State} (hs : EncodeInv s)
    (hb : installed s ≠ none) (hp1 : 1 ≤ p.toNat) (hp2 : p.toNat ≤ 0x7FFF) (h : encStep p mps x cx s = .done () u) :
    NarrowedTo p mps x s u := by
  obtain ⟨b, hb⟩ := Option.ne_none_iff_exists'.1 hb
  have hn := encUpdate_law hp2 mps x cx s
  rcases encStep_cases (mps := mps) (x := x) (cx := cx) hs hp1 hp2 hb with
      ⟨w, e, hw, -, hrun, -, -⟩ | ⟨w, hw, -⟩ | ⟨hw, -⟩ <;> rw [h] at hw <;> cases hw
  obtain ⟨hlow, hwidth⟩ := hrun.interval (by rw [hn.position]; exact hs.position)
    (by rw [hn.position]; exact hs.appended b hb) (hn.installed.trans hb)
  unfold NarrowedTo
  rw [hlow, hwidth]
  exact hn.interval hs hp2

theorem encStep_concluded_narrowedTo {p : BitVec 16} {mps x : Bit} {cx : Option Nat} {s w : State} {v : BitVec 3}
    (hs : EncodeInv s) (hb : installed s ≠ none) (hp1 : 1 ≤ p.toNat) (hp2 : p.toNat ≤ 0x7FFF)
    (h : ((encStep p mps x cx s).bind fun _ s1 => .done 0 s1) = .done v w) : NarrowedTo p mps x s (respond .ok v w) := by
  obtain ⟨⟨⟩, u, hu, hw⟩ := bind_eq_done.1 h
  cases hw
  have hnarrowed : NarrowedTo p mps x s w := encStep_narrowedTo hs hb hp1 hp2 hu
  exact hnarrowed

/-- Settles O22: a command that leaves the block encoding ran its step to the end; the step's update narrows the interval,
and the renormalization, with its transfers, carries and stuffing, keeps it. -/
theorem intervalNarrows : Obligations.IntervalNarrows := by
  intro s u hmode hs hb hu
  have hbusy : u.mode ≠ .idle := by rw [hu]; decide
  refine ⟨fun x g p hp1 hp2 hexec => ?_, fun x c e p he hp hexec => ?_⟩
  · obtain ⟨v, w, hw, rfl⟩ := exec_done_of_mode (admitted_encprb.2 ⟨hmode, hp1, hp2⟩) hexec hbusy
    exact encStep_concluded_narrowedTo hs hb hp1 hp2 hw
  · subst hp
    obtain ⟨v, w, hw, rfl⟩ := exec_done_of_mode (admitted_encctx.2 ⟨hmode, (contextAt_of_some he).1⟩) hexec hbusy
    rw [rule_encctx he] at hw
    exact encStep_concluded_narrowedTo hs hb (stateProb_legal _).1 (stateProb_legal _).2 hw

end Sys2Proof.Machine

/-! ## A message decodes to its symbols (R109, R204 T3) -/

namespace Sys2Proof.Machine

/-- The interval a message starts with (R171): from 0 to the weight of the phantom byte. -/
theorem startEncoding_interval (s : State) : intervalLow (startEncoding s) = 0 ∧
    (startEncoding s).A.toNat * intervalUnit (startEncoding s) = 2 ^ 8 := by
  have hfirst : (startEncoding s).L < 0 := by rw [startEncoding_L]; decide
  have hpending : pendingValue (startEncoding s) = 0 := by
    simp [pendingValue]
  refine ⟨?_, ?_⟩
  · rw [intervalLow_eq, hpending, messageBytes_first hfirst]; simp [codeValue]
  · rw [intervalUnit_width, pendingWeight_first hfirst]
    unfold widthValue
    rw [startEncoding_A, startEncoding_t, show (0x8000 : BitVec 16).toNat = 0x8000 from rfl,
      show (12 : BitVec 4).toNat = 12 from rfl]
    norm_num

/-- RSTENC on an empty stream begins a message. -/
theorem Message.start {s : State} (h : installed s = some []) : Message (startEncoding s) where
  mode := rfl
  inv := startEncoding_encodeInv s
  clean := noMarker_first rfl
  stream := ⟨[], h, rfl⟩

/-- Giving a response changes nothing a message speaks of. -/
theorem Message.answer {s : State} (h : Message s) (st : Status) (v : BitVec 3) : Message (respond st v s) :=
  ⟨h.mode, h.inv.congr rfl rfl rfl rfl rfl rfl, h.clean.congr rfl rfl rfl rfl rfl rfl, h.stream⟩

/-- RSTDEC on the finished stream, from the contexts the encoder started with, stands where RSTENC stood. -/
theorem rstdec_together {G : Buffer} {s d : State} (hd : installed d = some G) (hctx : d.ctx = s.ctx) (hm : MarkerFree G)
    (hlw : G.length ≤ positionMax d.lw) (hS : paddedValue G ≤ 2 ^ 8) :
    ∃ v, exec .rstdec d = .next v ∧ v.responses = d.responses ++ [responseWord .ok 0] ∧ v.mode = .dec ∧ v.lw = d.lw ∧
      Together G (startEncoding s) v := by
  obtain ⟨v, hv, hmirrors, hA, hx, hmode, hw, hresponses, hbegun⟩ := Mirrors.start hd hm hlw hS
  obtain ⟨h, hcur, -⟩ := installed_eq_some.1 hd
  have hadmitted : admission .rstdec d = none := (admitted_restart (.inr rfl)).2 (by rw [hcur]; exact Option.some_ne_none h)
  have hrule : rule .rstdec d = .done 0 v := by unfold rule; dsimp only; rw [hv, bind_done]
  refine ⟨_, exec_of_done hadmitted hrule, congrArg (· ++ _) hresponses, hmode, hw, ?_⟩
  exact (Together.start (s := startEncoding s) rfl rfl rfl rfl rfl hmirrors hA (hx.trans hctx) hbegun).answer _ _

/-- Settles O58: RSTENC and RSTDEC start encoder and decoder together, since the final bytes lie in the first interval;
then the symbols are coded and read one by one. -/
theorem roundTrip : Obligations.RoundTrip := by
  intro s d msg i hi hs G henc hd hctx hlw
  obtain ⟨u, hu, hresponses, hG⟩ := encodeMessage_eq_some.1 henc
  obtain ⟨w, hw, hwr, hrest, hrestResponses⟩ :=
    execAll_cons (l := msg.map Symbol.encoding ++ [i]) hu (by rw [List.length_append, List.length_map]; exact hresponses)
  obtain ⟨-, w, hstart, rfl, -⟩ := exec_ok (v := 0) hw hwr
  cases hstart
  obtain ⟨hm, F, -, hsound, hdecode⟩ :=
    ((Message.start hs).answer .ok 0).round hi msg hrest (by simpa using hrestResponses) hG
  have hS : paddedValue G ≤ 2 ^ 8 := by
    have hhigh : paddedValue G ≤ intervalLow (startEncoding s) + _ * intervalUnit (startEncoding s) := hsound.high
    rw [(startEncoding_interval s).1, zero_add] at hhigh
    exact hhigh.trans_eq (startEncoding_interval s).2
  obtain ⟨v, hv, hvr, hmode, hvw, htogether⟩ := rstdec_together hd hctx hm hlw hS
  obtain ⟨z, hz, hzr⟩ := hdecode v hmode (by rw [hvw]; exact hlw)
    (htogether.congr (u := respond .ok 0 (startEncoding s)) rfl rfl rfl rfl rfl rfl rfl)
  refine decodeMessage_eq_some.2 ⟨z, ?_, ?_⟩
  · unfold execAll; rw [hv]; exact hz
  · rw [hzr, hvr, List.append_assoc, List.singleton_append, List.map_map]; rfl

end Sys2Proof.Machine

/-! ## The exchange helper, and the decoder's paths as the encoder's (R101, R103) -/

namespace Sys2Proof.Machine

/-! ### The exchange helper (R101) -/

/-- Where `A - p` is below p, renormalization is due, p being at most half of `0x10000`. -/
theorem renormDue_of_lt {A p : BitVec 16} (hp : p.toNat ≤ 0x7FFF) (h : ¬ p ≤ A) : renormDue A = true := by
  rw [renormDue_iff]; rw [BitVec.le_def] at h; omega

theorem renormDue_prob {p : BitVec 16} (hp : p.toNat ≤ 0x7FFF) : renormDue p = true := by
  rw [renormDue_iff]; omega

/-- The helper's three answers by the sub-interval: A and C are the sub-interval's, and renormalization is due but for an
MPS that leaves A large. -/
theorem exchange_eq {A p : BitVec 16} (hp : p.toNat ≤ 0x7FFF) (C : Word) (mps x : Bit) :
    exchange A C p (decide (x = mps)) =
      (if takesUpper A p mps x then A - p else p, if takesUpper A p mps x then C + probWide p else C,
        decide (x = mps → renormDue (A - p) = true)) := by
  unfold exchange takesUpper
  by_cases hx : x = mps <;> by_cases hle : p ≤ A - p
  · by_cases hd : renormDue (A - p) = true <;> simp [hx, hle, hd, exchangeDue_iff, Bool.eq_false_iff]
  · simp [hx, hle, renormDue_of_lt hp hle, (exchangeDue_iff (A - p) p).2 hle]
  · simp [hx, hle, exchangeDue_iff]
  · simp [hx, hle, (exchangeDue_iff (A - p) p).2 hle]

/-- The update leaves renormalization due just where the helper says so. -/
theorem Narrowed.renormDue_eq {p : BitVec 16} {mps x : Bit} {cx : Option Nat} {s u : State} (h : Narrowed p mps x cx s u)
    (hp : p.toNat ≤ 0x7FFF) : renormDue u.A = decide (x = mps → renormDue (s.A - p) = true) := by
  cases ht : takesUpper s.A p mps x with
  | true =>
    rw [(h.upper ht).1]
    by_cases hx : x = mps
    · simp [hx]
    · have hle : ¬ p ≤ s.A - p := by simpa [takesUpper, hx] using ht
      simp [hx, renormDue_of_lt hp hle]
  | false =>
    rw [(h.lower ht).1, renormDue_prob hp]
    by_cases hx : x = mps
    · have hle : ¬ p ≤ s.A - p := by simpa [takesUpper, hx] using ht
      simp [renormDue_of_lt hp hle]
    · simp [hx]

/-- Settles O30: both are told by which sub-interval the symbol takes and, for the transition, by whether it is the MPS. -/
theorem exchangeHelperAgrees : Obligations.ExchangeHelperAgrees := by
  intro s p mps x cx hp
  have hn := encUpdate_law hp mps x cx s
  have hside : (encUpdate p mps x cx s).A = (if takesUpper s.A p mps x then s.A - p else p) ∧
      (encUpdate p mps x cx s).C = if takesUpper s.A p mps x then s.C + probWide p else s.C := by
    cases ht : takesUpper s.A p mps x with
    | true => exact hn.upper ht
    | false => exact hn.lower ht
  rw [exchange_eq hp]
  refine ⟨hside.1, hside.2, hn.renormDue_eq hp, ?_⟩
  rw [hn.ctx]
  by_cases hx : x = mps <;> simp [hx]

/-! ### The decoder mirrors the encoder (R103) -/

/-- The symbol the decoder reads takes the upper sub-interval just where the window reaches p. -/
theorem takesUpper_symbolRead (A p : BitVec 16) (mps : Bit) (C : Word) :
    takesUpper A p mps (symbolRead A p mps C) = windowReaches C p := by
  unfold symbolRead takesUpper
  generalize windowReaches C p = w
  generalize decide (p ≤ A - p) = q
  revert mps w q; decide

theorem mpsTransition_ctx_congr (cx : Option Nat) {s u : State} (h : s.ctx = u.ctx) :
    (mpsTransition cx s).ctx = (mpsTransition cx u).ctx := by
  cases cx with
  | none => exact h
  | some c => exact congrArg (List.modify · c Context.afterMps) h

theorem lpsTransition_ctx_congr (cx : Option Nat) {s u : State} (h : s.ctx = u.ctx) :
    (lpsTransition cx s).ctx = (lpsTransition cx u).ctx := by
  cases cx with
  | none => exact h
  | some c => exact congrArg (List.modify · c Context.afterLps) h

/-- Settles O29: the symbol read takes the sub-interval the window lies in, and both sides adapt the context by the symbol
and A alone. -/
theorem decoderMirrorsEncoder : Obligations.DecoderMirrorsEncoder := by
  intro e d p mps cx hp hA hctx
  have hd := decUpdate_law hp mps cx d
  have he := encUpdate_law hp mps (decUpdate p mps cx d).1 cx e
  have hside : takesUpper e.A p mps (decUpdate p mps cx d).1 = windowReaches d.C p := by
    rw [hA, hd.symbol, takesUpper_symbolRead]
  refine ⟨?_, ?_, fun hw => ?_, fun hw => ?_⟩
  · cases hw : windowReaches d.C p with
    | true => rw [(he.upper (hside.trans hw)).1, (hd.reached hw).1, hA]
    | false => rw [(he.lower (hside.trans hw)).1, (hd.below hw).1]
  · rw [he.ctx, hd.ctx, hA, mpsTransition_ctx_congr cx hctx, lpsTransition_ctx_congr cx hctx, hctx]
  · exact ⟨(he.upper (hside.trans hw)).2, (hd.reached hw).2⟩
  · exact ⟨(he.lower (hside.trans hw)).2, (hd.below hw).2⟩

end Sys2Proof.Machine

/-! ## The whole state after a symbol: no transfer, no fill, one fill (R100, R102, R103, R104) -/

namespace Sys2Proof.Machine

/-! ### The contexts after a symbol -/

/-- The contexts after the symbol `x` (R152, R153): the MPS transition only when A falls below `0x8000`. -/
def adaptedContexts (p : BitVec 16) (mps x : Bit) (cx : Option Nat) (s : State) : List Context :=
  if x = mps then (if renormDue (s.A - p) then (mpsTransition cx s).ctx else s.ctx) else (lpsTransition cx s).ctx

/-- Without a context nothing adapts (R108). -/
theorem adaptedContexts_none (p : BitVec 16) (mps x : Bit) (s : State) : adaptedContexts p mps x none s = s.ctx := by
  unfold adaptedContexts
  rw [mpsTransition_none, lpsTransition_none, ite_self, ite_self]

theorem adaptedContexts_some {s : State} {n : Nat} {e : Context} (h : s.ctx[n]? = some e) (p : BitVec 16) (x : Bit) :
    adaptedContexts p e.mps x (some n) s = s.ctx.set n (e.adapted s.A p x) :=
  transition_adapted h s.A p x

/-! ### The updates before renormalization, as whole states -/

/-- A and C of the sub-interval that `x` takes (R100 c). -/
structure SubInterval (p : BitVec 16) (mps x : Bit) (s : State) (A : BitVec 16) (C : Word) : Prop where
  upper : takesUpper s.A p mps x = true → A = s.A - p ∧ C = s.C + probWide p
  lower : takesUpper s.A p mps x = false → A = p ∧ C = s.C

theorem SubInterval.of_upper {p : BitVec 16} {mps x : Bit} {s : State} (h : takesUpper s.A p mps x = true) :
    SubInterval p mps x s (s.A - p) (s.C + probWide p) :=
  ⟨fun _ => ⟨rfl, rfl⟩, fun h' => by rw [h] at h'; cases h'⟩

theorem SubInterval.of_lower {p : BitVec 16} {mps x : Bit} {s : State} (h : takesUpper s.A p mps x = false) :
    SubInterval p mps x s p s.C :=
  ⟨fun h' => (by rw [h] at h'; cases h'), fun _ => ⟨rfl, rfl⟩⟩

theorem encUpdate_sm (p : BitVec 16) (mps x : Bit) (cx : Option Nat) (s : State) : (encUpdate p mps x cx s).sm = s.sm := by
  unfold encUpdate
  dsimp only
  split
  · split
    · rw [mpsTransition_sm]; split <;> rfl
    · rfl
  · rw [lpsTransition_sm]; split <;> rfl

theorem encUpdate_eq {p : BitVec 16} (hp : p.toNat ≤ 0x7FFF) {mps x : Bit} {cx : Option Nat} {s : State} {A : BitVec 16}
    {C : Word} (h : SubInterval p mps x s A C) :
    encUpdate p mps x cx s = { s with A := A, C := C, ctx := adaptedContexts p mps x cx s } := by
  have hn := encUpdate_law hp mps x cx s
  have hf := hn.frame
  have hAC : (encUpdate p mps x cx s).A = A ∧ (encUpdate p mps x cx s).C = C := by
    cases ht : takesUpper s.A p mps x with
    | true => rw [(h.upper ht).1, (h.upper ht).2]; exact hn.upper ht
    | false => rw [(h.lower ht).1, (h.lower ht).2]; exact hn.lower ht
  unfold adaptedContexts
  rw [← hn.ctx, ← hAC.1, ← hAC.2, ← hn.count, ← hn.tr, ← hn.position, ← hf.mode, ← hf.cur, ← hf.cap, ← hf.lw,
    ← hf.responses, ← hf.host, ← encUpdate_sm p mps x cx s]

/-- A and C of the sub-interval the code window lies in (R103). -/
structure WindowInterval (p : BitVec 16) (s : State) (A : BitVec 16) (C : Word) : Prop where
  reached : windowReaches s.C p = true → A = s.A - p ∧ C = s.C - (probWide p <<< 8)
  below : windowReaches s.C p = false → A = p ∧ C = s.C

theorem WindowInterval.of_reached {p : BitVec 16} {s : State} (h : windowReaches s.C p = true) :
    WindowInterval p s (s.A - p) (s.C - (probWide p <<< 8)) :=
  ⟨fun _ => ⟨rfl, rfl⟩, fun h' => by rw [h] at h'; cases h'⟩

theorem WindowInterval.of_below {p : BitVec 16} {s : State} (h : windowReaches s.C p = false) : WindowInterval p s p s.C :=
  ⟨fun h' => (by rw [h] at h'; cases h'), fun _ => ⟨rfl, rfl⟩⟩

theorem decUpdate_eq {p : BitVec 16} (hp : p.toNat ≤ 0x7FFF) {mps : Bit} {cx : Option Nat} {s : State} {A : BitVec 16}
    {C : Word} (h : WindowInterval p s A C) :
    decUpdate p mps cx s = (symbolRead s.A p mps s.C,
      { s with A := A, C := C, ctx := adaptedContexts p mps (symbolRead s.A p mps s.C) cx s }) := by
  have hc := decUpdate_law hp mps cx s
  have hf := hc.frame
  have hAC : (decUpdate p mps cx s).2.A = A ∧ (decUpdate p mps cx s).2.C = C := by
    cases hw : windowReaches s.C p with
    | true => rw [(h.reached hw).1, (h.reached hw).2]; exact hc.reached hw
    | false => rw [(h.below hw).1, (h.below hw).2]; exact hc.below hw
  refine Prod.ext hc.symbol ?_
  dsimp only
  rw [← hc.symbol]
  unfold adaptedContexts
  rw [← hc.ctx, ← hAC.1, ← hAC.2, ← hc.count, ← hc.tr, ← hc.position, ← hf.mode, ← hf.cur, ← hf.sm, ← hf.cap, ← hf.lw,
    ← hf.responses, ← hf.host]

/-! ### The loops where no transfer, no fill or one fill is met -/

/-- No A needs more than fifteen shifts (R288). -/
theorem shifts_le {a k : Nat} (hlow : 0x8000 ≤ a * 2 ^ k) (hhigh : a * 2 ^ k < 0x10000) : k ≤ 15 := by
  by_contra hk
  have hpow : 2 ^ 16 ≤ 2 ^ k := Nat.pow_le_pow_right (by omega) (by omega)
  have ha : 1 ≤ a := Nat.pos_of_ne_zero fun h => by rw [h, Nat.zero_mul] at hlow; omega
  have := Nat.mul_le_mul ha hpow
  omega

theorem renormEnc_end {fuel : Nat} {s : State} (h : 0x8000 ≤ s.A.toNat) : renormEnc (fuel + 1) s = .done () s := by
  unfold renormEnc; rw [if_neg]; rw [renormDue_iff]; omega

theorem renormEnc_no_transfer {s : State} {k : Nat} (hk : k < s.t.toNat) (hlow : 0x8000 ≤ s.A.toNat * 2 ^ k)
    (hhigh : s.A.toNat * 2 ^ k < 0x10000) : renormEnc renormFuel s = .done () (shiftBy k s) := by
  have hk15 := shifts_le hlow hhigh
  have hfuel : renormFuel = 15 - k + 1 + k := by unfold renormFuel; omega
  rw [hfuel, renormEnc_shiftBy _ _ _ hk hhigh, renormEnc_end (by rw [shiftBy_width hhigh]; exact hlow)]

theorem renormDec_no_fill {s : State} {k : Nat} (hk : k ≤ s.t.toNat) (hlow : 0x8000 ≤ s.A.toNat * 2 ^ k)
    (hhigh : s.A.toNat * 2 ^ k < 0x10000) : renormDec renormFuel s = .done () (shiftBy k s) := by
  have hk15 := shifts_le hlow hhigh
  have hfuel : renormFuel = 15 - k + 1 + k := by unfold renormFuel; omega
  rw [hfuel, renormDec_shiftBy _ _ _ hk hhigh, renormDec_end (by rw [shiftBy_width hhigh]; exact hlow)]

/-- A fill reads neither A, t nor the contexts, and sets t itself (R133). -/
theorem fillLsb_done_with {s f : State} (h : fillLsb s = .done () f) (A : BitVec 16) (t : BitVec 4) (x : List Context) :
    fillLsb { s with A := A, t := t, ctx := x } = .done () { f with A := A, ctx := x } := by
  have hf := ((fillLsb_reads s).1 _ _ h).frame
  rcases fillLsb_ignores A s.mode x s.responses s with ⟨v, hv, hsame⟩ | ⟨e, v, hv, -⟩ | ⟨r, hv, -⟩ <;>
    rw [h] at hv <;> cases hv
  exact Eq.trans hsame (by rw [← hf.mode, ← hf.responses])

theorem fillLsb_width {s f : State} (h : fillLsb s = .done () f) : f.A = s.A := by
  have hsame := h.symm.trans (fillLsb_done_with h s.A s.t s.ctx)
  injection hsame with _ hf
  rw [hf]

/-- The loop with one fill (R104): t shifts, the fill, and the `j` shifts its count covers. -/
theorem renormDec_one_fill {s f : State} {j : Nat} (hj : 1 ≤ j) (hjf : j ≤ f.t.toNat)
    (hlow : 0x8000 ≤ s.A.toNat * 2 ^ (s.t.toNat + j)) (hhigh : s.A.toNat * 2 ^ (s.t.toNat + j) < 0x10000)
    (hfill : fillLsb (shiftBy s.t.toNat s) = .done () f) : renormDec renormFuel s = .done () (shiftBy j f) := by
  obtain ⟨i, rfl⟩ : ∃ i, j = i + 1 := ⟨j - 1, by omega⟩
  have hbound := shifts_le hlow hhigh
  have hfuel : renormFuel = 15 - s.t.toNat - (i + 1) + 1 + i + 1 + s.t.toNat := by unfold renormFuel; omega
  rw [Nat.pow_add, ← Nat.mul_assoc] at hlow hhigh
  have hfirst : s.A.toNat * 2 ^ s.t.toNat < 0x10000 := lt_of_le_of_lt (Nat.le_mul_of_pos_right _ (by positivity)) hhigh
  have hA : f.A.toNat = s.A.toNat * 2 ^ s.t.toNat := by rw [fillLsb_width hfill, shiftBy_width hfirst]
  have hsmall : s.A.toNat * 2 ^ s.t.toNat < 0x8000 := half_lt hhigh
  have hempty : (shiftBy s.t.toNat s).t = 0 := BitVec.eq_of_toNat_eq (by rw [shiftBy_count (le_refl _), Nat.sub_self]; rfl)
  have hcount := (toNat_pow_half (show 1 ≤ f.t.toNat by omega)).1
  have hdouble : (shiftOnce f).A.toNat * 2 ^ i = f.A.toNat * 2 ^ (i + 1) := by
    rw [shiftOnce_width (by rw [hA]; exact hsmall), Nat.pow_succ]; ring
  rw [← hA, ← hdouble] at hlow hhigh
  rw [hfuel, renormDec_shiftBy _ _ _ (le_refl _) hfirst,
    renormDec_fill (by rw [shiftBy_width hfirst]; exact hsmall) hempty, hfill, bind_done,
    renormDec_shiftBy _ i _ (by show i ≤ (f.t - 1).toNat; omega) hhigh,
    renormDec_end (by rw [shiftBy_width hhigh]; exact hlow), shiftBy_succ]

/-! ### The steps -/

theorem encStep_no_transfer {p : BitVec 16} (hp : p.toNat ≤ 0x7FFF) {mps x : Bit} {cx : Option Nat} {s : State}
    {A : BitVec 16} {C : Word} {k : Nat} (h : SubInterval p mps x s A C) (hk : k < s.t.toNat)
    (hlow : 0x8000 ≤ A.toNat * 2 ^ k) (hhigh : A.toNat * 2 ^ k < 0x10000) :
    encStep p mps x cx s = .done () { s with
      A := A <<< k, C := C <<< k, t := s.t - BitVec.ofNat 4 k, ctx := adaptedContexts p mps x cx s } := by
  unfold encStep
  rw [encUpdate_eq hp h]
  exact renormEnc_no_transfer hk hlow hhigh

theorem decStep_of_renormDec {p : BitVec 16} (hp : p.toNat ≤ 0x7FFF) {mps : Bit} {cx : Option Nat} {s u : State}
    {A : BitVec 16} {C : Word} (h : WindowInterval p s A C)
    (hu : renormDec renormFuel { s with
      A := A, C := C, ctx := adaptedContexts p mps (symbolRead s.A p mps s.C) cx s } = .done () u) :
    decStep p mps cx s = .done (symbolRead s.A p mps s.C) u := by
  unfold decStep
  rw [decUpdate_eq hp h, hu, bind_done]

theorem decStep_no_fill {p : BitVec 16} (hp : p.toNat ≤ 0x7FFF) {mps : Bit} {cx : Option Nat} {s : State}
    {A : BitVec 16} {C : Word} {k : Nat} (h : WindowInterval p s A C) (hk : k ≤ s.t.toNat)
    (hlow : 0x8000 ≤ A.toNat * 2 ^ k) (hhigh : A.toNat * 2 ^ k < 0x10000) :
    decStep p mps cx s = .done (symbolRead s.A p mps s.C) { s with
      A := A <<< k, C := C <<< k, t := s.t - BitVec.ofNat 4 k,
      ctx := adaptedContexts p mps (symbolRead s.A p mps s.C) cx s } :=
  decStep_of_renormDec hp h (renormDec_no_fill hk hlow hhigh)

theorem decStep_one_fill {p : BitVec 16} (hp : p.toNat ≤ 0x7FFF) {mps : Bit} {cx : Option Nat} {s f : State}
    {A : BitVec 16} {C : Word} {k : Nat} (h : WindowInterval p s A C) (hk : s.t.toNat < k) (hkf : k ≤ s.t.toNat + f.t.toNat)
    (hlow : 0x8000 ≤ A.toNat * 2 ^ k) (hhigh : A.toNat * 2 ^ k < 0x10000)
    (hfill : fillLsb { s with C := C <<< s.t.toNat } = .done () f) :
    decStep p mps cx s = .done (symbolRead s.A p mps s.C) { f with
      A := A <<< k, C := f.C <<< (k - s.t.toNat), t := f.t - BitVec.ofNat 4 (k - s.t.toNat),
      ctx := adaptedContexts p mps (symbolRead s.A p mps s.C) cx s } := by
  obtain ⟨j, rfl⟩ : ∃ j, k = s.t.toNat + j := ⟨k - s.t.toNat, by omega⟩
  have hloop := renormDec_one_fill (s := { s with
      A := A, C := C, ctx := adaptedContexts p mps (symbolRead s.A p mps s.C) cx s })
    (f := { f with A := A <<< s.t.toNat, ctx := adaptedContexts p mps (symbolRead s.A p mps s.C) cx s })
    (j := j) (by omega) (show j ≤ f.t.toNat by omega) hlow hhigh (fillLsb_done_with hfill _ _ _)
  rw [decStep_of_renormDec hp h hloop, Nat.add_sub_cancel_left, BitVec.shiftLeft_add]
  rfl

/-! ### The commands -/

theorem exec_encprb_of_done {x g : Bit} {p : BitVec 16} {s u : State} (hmode : s.mode = .enc) (hp1 : 1 ≤ p.toNat)
    (hp2 : p.toNat ≤ 0x7FFF) (h : encStep p g x none s = .done () u) : exec (.encprb x g p) s = .next (respond .ok 0 u) :=
  exec_of_done (admitted_encprb.2 ⟨hmode, hp1, hp2⟩) (by unfold rule; dsimp only; rw [h, bind_done])

theorem exec_encctx_of_done {x : Bit} {c : BitVec 16} {e : Context} {s u : State} (hmode : s.mode = .enc)
    (he : s.ctx[c.toNat]? = some e) (h : encStep (stateProb e.state) e.mps x (some c.toNat) s = .done () u) :
    exec (.encctx x c) s = .next (respond .ok 0 u) :=
  exec_of_done (admitted_encctx.2 ⟨hmode, (contextAt_of_some he).1⟩) (by rw [rule_encctx he, h, bind_done])

theorem exec_decprb_of_done {g x : Bit} {p : BitVec 16} {s u : State} (hmode : s.mode = .dec) (hp1 : 1 ≤ p.toNat)
    (hp2 : p.toNat ≤ 0x7FFF) (h : decStep p g none s = .done x u) :
    exec (.decprb g p) s = .next (respond .ok (bitValue x) u) :=
  exec_of_done (admitted_decprb.2 ⟨hmode, hp1, hp2⟩) (by unfold rule; dsimp only; rw [h, bind_done])

theorem exec_decctx_of_done {x : Bit} {c : BitVec 16} {e : Context} {s u : State} (hmode : s.mode = .dec)
    (he : s.ctx[c.toNat]? = some e) (h : decStep (stateProb e.state) e.mps (some c.toNat) s = .done x u) :
    exec (.decctx c) s = .next (respond .ok (bitValue x) u) :=
  exec_of_done (admitted_decctx.2 ⟨hmode, (contextAt_of_some he).1⟩) (by rw [rule_decctx he, h, bind_done])

section NoTransfer
variable {s : State} {x : Bit} {p A : BitVec 16} {C : Word} {k : Nat}

theorem encprb_no_transfer {g : Bit} (hmode : s.mode = .enc) (hp1 : 1 ≤ p.toNat) (hp2 : p.toNat ≤ 0x7FFF)
    (h : SubInterval p g x s A C) (hk : k < s.t.toNat) (hlow : 0x8000 ≤ A.toNat * 2 ^ k)
    (hhigh : A.toNat * 2 ^ k < 0x10000) :
    exec (.encprb x g p) s = .next { s with
      A := A <<< k, C := C <<< k, t := s.t - BitVec.ofNat 4 k, responses := s.responses ++ [0] } := by
  rw [exec_encprb_of_done hmode hp1 hp2 (encStep_no_transfer hp2 h hk hlow hhigh), adaptedContexts_none]
  rfl

theorem encctx_no_transfer {c : BitVec 16} {e : Context} (hmode : s.mode = .enc) (he : s.ctx[c.toNat]? = some e)
    (h : SubInterval (stateProb e.state) e.mps x s A C) (hk : k < s.t.toNat) (hlow : 0x8000 ≤ A.toNat * 2 ^ k)
    (hhigh : A.toNat * 2 ^ k < 0x10000) :
    exec (.encctx x c) s = .next { s with
      A := A <<< k, C := C <<< k, t := s.t - BitVec.ofNat 4 k,
      ctx := s.ctx.set c.toNat (e.adapted s.A (stateProb e.state) x), responses := s.responses ++ [0] } := by
  rw [exec_encctx_of_done hmode he (encStep_no_transfer (stateProb_legal _).2 h hk hlow hhigh), adaptedContexts_some he]
  rfl

end NoTransfer

/-- Settles O19: the update is the sub-interval's, and below t shifts the loop only shifts. -/
theorem encodeWithoutTransfer : Obligations.EncodeWithoutTransfer := by
  intro s x k hmode _ hk
  refine ⟨fun g p hp1 hp2 => ⟨fun h => ?_, fun h => ?_⟩, fun c e p he hp => ?_⟩
  · exact encprb_no_transfer hmode hp1 hp2 (.of_upper h) hk
  · exact encprb_no_transfer hmode hp1 hp2 (.of_lower h) hk
  · subst hp
    exact ⟨fun h => encctx_no_transfer hmode he (.of_upper h) hk, fun h => encctx_no_transfer hmode he (.of_lower h) hk⟩

section Decoding
variable {s : State} {p A : BitVec 16} {C : Word} {k : Nat}

theorem decprb_no_fill {g : Bit} (hmode : s.mode = .dec) (hp1 : 1 ≤ p.toNat) (hp2 : p.toNat ≤ 0x7FFF)
    (h : WindowInterval p s A C) (hk : k ≤ s.t.toNat) (hlow : 0x8000 ≤ A.toNat * 2 ^ k)
    (hhigh : A.toNat * 2 ^ k < 0x10000) :
    exec (.decprb g p) s = .next { s with
      A := A <<< k, C := C <<< k, t := s.t - BitVec.ofNat 4 k,
      responses := s.responses ++ [responseWord .ok ((symbolRead s.A p g s.C).setWidth 3)] } := by
  rw [exec_decprb_of_done hmode hp1 hp2 (decStep_no_fill hp2 h hk hlow hhigh), adaptedContexts_none]
  rfl

theorem decctx_no_fill {c : BitVec 16} {e : Context} (hmode : s.mode = .dec) (he : s.ctx[c.toNat]? = some e)
    (h : WindowInterval (stateProb e.state) s A C) (hk : k ≤ s.t.toNat) (hlow : 0x8000 ≤ A.toNat * 2 ^ k)
    (hhigh : A.toNat * 2 ^ k < 0x10000) :
    exec (.decctx c) s = .next { s with
      A := A <<< k, C := C <<< k, t := s.t - BitVec.ofNat 4 k,
      ctx := s.ctx.set c.toNat (e.adapted s.A (stateProb e.state) (symbolRead s.A (stateProb e.state) e.mps s.C)),
      responses := s.responses ++ [responseWord .ok ((symbolRead s.A (stateProb e.state) e.mps s.C).setWidth 3)] } := by
  rw [exec_decctx_of_done hmode he (decStep_no_fill (stateProb_legal _).2 h hk hlow hhigh), adaptedContexts_some he]
  rfl

theorem decprb_one_fill {g : Bit} {f : State} (hmode : s.mode = .dec) (hp1 : 1 ≤ p.toNat) (hp2 : p.toNat ≤ 0x7FFF)
    (h : WindowInterval p s A C) (hk : s.t.toNat < k) (hkf : k ≤ s.t.toNat + f.t.toNat)
    (hlow : 0x8000 ≤ A.toNat * 2 ^ k) (hhigh : A.toNat * 2 ^ k < 0x10000)
    (hfill : fillLsb { s with C := C <<< s.t.toNat } = .done () f) :
    exec (.decprb g p) s = .next { f with
      A := A <<< k, C := f.C <<< (k - s.t.toNat), t := f.t - BitVec.ofNat 4 (k - s.t.toNat),
      responses := s.responses ++ [responseWord .ok ((symbolRead s.A p g s.C).setWidth 3)] } := by
  have hf := (fillLsb_reads _).1 _ _ hfill
  have hctx : f.ctx = s.ctx := hf.ctx
  have hresponses : f.responses = s.responses := hf.frame.responses
  rw [exec_decprb_of_done hmode hp1 hp2 (decStep_one_fill hp2 h hk hkf hlow hhigh hfill), adaptedContexts_none, ← hctx,
    ← hresponses]
  rfl

theorem decctx_one_fill {c : BitVec 16} {e : Context} {f : State} (hmode : s.mode = .dec) (he : s.ctx[c.toNat]? = some e)
    (h : WindowInterval (stateProb e.state) s A C) (hk : s.t.toNat < k) (hkf : k ≤ s.t.toNat + f.t.toNat)
    (hlow : 0x8000 ≤ A.toNat * 2 ^ k) (hhigh : A.toNat * 2 ^ k < 0x10000)
    (hfill : fillLsb { s with C := C <<< s.t.toNat } = .done () f) :
    exec (.decctx c) s = .next { f with
      A := A <<< k, C := f.C <<< (k - s.t.toNat), t := f.t - BitVec.ofNat 4 (k - s.t.toNat),
      ctx := s.ctx.set c.toNat (e.adapted s.A (stateProb e.state) (symbolRead s.A (stateProb e.state) e.mps s.C)),
      responses := s.responses ++ [responseWord .ok ((symbolRead s.A (stateProb e.state) e.mps s.C).setWidth 3)] } := by
  have hresponses : f.responses = s.responses := ((fillLsb_reads _).1 _ _ hfill).frame.responses
  rw [exec_decctx_of_done hmode he (decStep_one_fill (stateProb_legal _).2 h hk hkf hlow hhigh hfill),
    adaptedContexts_some he, ← hresponses]
  rfl

end Decoding

/-- Settles O25: the update is the sub-interval's that the window lies in, and up to t shifts the loop only shifts. -/
theorem decodeWithoutFill : Obligations.DecodeWithoutFill := by
  intro s k hmode _ hk
  refine ⟨fun g p hp1 hp2 => ⟨fun h => ?_, fun h => ?_⟩, fun c e p he hp => ?_⟩
  · exact decprb_no_fill hmode hp1 hp2 (.of_reached h) hk
  · exact decprb_no_fill hmode hp1 hp2 (.of_below h) hk
  · subst hp
    exact ⟨fun h => decctx_no_fill hmode he (.of_reached h) hk, fun h => decctx_no_fill hmode he (.of_below h) hk⟩

/-- Settles O59: after t shifts the loop comes to the fill, and the count it leaves covers the shifts still owed. -/
theorem decodeWithOneFill : Obligations.DecodeWithOneFill := by
  intro s f k hmode _ hk hkf
  refine ⟨fun g p hp1 hp2 => ⟨fun h => ?_, fun h => ?_⟩, fun c e p he hp => ?_⟩
  · exact decprb_one_fill hmode hp1 hp2 (.of_reached h) hk hkf
  · exact decprb_one_fill hmode hp1 hp2 (.of_below h) hk hkf
  · subst hp
    exact ⟨fun h => decctx_one_fill hmode he (.of_reached h) hk hkf, fun h => decctx_one_fill hmode he (.of_below h) hk hkf⟩

end Sys2Proof.Machine

/-! ## The encoder writes no marker (R132) -/

namespace Sys2Proof.Machine

/-! ### Kept while the block encodes -/

/-- Coding a symbol writes no marker and leaves none pending. -/
theorem encStep_noMarker {p : BitVec 16} {mps x : Bit} {cx : Option Nat} {s u : State} {b : Buffer} (hs : EncodeInv s)
    (hb : installed s = some b) (hm : NoMarker s) (hp1 : 1 ≤ p.toNat) (hp2 : p.toNat ≤ 0x7FFF)
    (h : encStep p mps x cx s = .done () u) : NoMarker u := by
  rcases encStep_cases (mps := mps) (x := x) (cx := cx) hs hp1 hp2 hb with
      ⟨w, e, hw, -, hrun, -, -⟩ | ⟨w, hw, -⟩ | ⟨hw, -⟩ <;> rw [h] at hw <;> cases hw
  exact run_marker hp2 hs hb hm hrun

/-- A rule that leaves the block encoding codes a symbol, restarts the message, or touches nothing of it; the other rules
end in DEC or IDLE, or are not admitted in mode ENC. -/
theorem rule_noMarker {i : Instr} {s w : State} {v : BitVec 3} {b : Buffer} (hmode : s.mode = .enc) (hs : EncodeInv s)
    (hb : installed s = some b) (hm : NoMarker s) (ha : admission i s = none) (h : rule i s = .done v w)
    (hw : w.mode = .enc) : NoMarker w := by
  cases i with
  | reset => cases h; exact hm.congr rfl rfl rfl rfl rfl rfl
  | rstenc => cases h; exact noMarker_first rfl
  | remb => cases h; exact hm
  | encctx x c =>
    obtain ⟨⟨⟩, u, hu, h⟩ := bind_eq_done.1 h
    cases h
    exact encStep_noMarker hs hb hm (stateProb_legal _).1 (stateProb_legal _).2 hu
  | encprb x g p =>
    obtain ⟨-, hp1, hp2⟩ := admitted_encprb.1 ha
    obtain ⟨⟨⟩, u, hu, h⟩ := bind_eq_done.1 h
    cases h
    exact encStep_noMarker hs hb hm hp1 hp2 hu
  | rstdec =>
    obtain ⟨⟨⟩, u, hu, h⟩ := bind_eq_done.1 h
    cases h
    have hdec : w.mode = .dec := ((startDecoding_reads s).1 _ _ hu).1.mode
    rw [hdec] at hw; cases hw
  | decctx c => rw [(admitted_decctx.1 ha).1] at hmode; cases hmode
  | decprb g p => rw [(admitted_decprb.1 ha).1] at hmode; cases hmode
  | terme => obtain ⟨⟨⟩, u, -, h⟩ := bind_eq_done.1 h; cases h; cases hw
  | termo => obtain ⟨⟨⟩, u, -, h⟩ := bind_eq_done.1 h; cases h; cases hw
  | chstr z sid => rw [rule_chstr (admitted_chstr.1 ha)] at h; cases h; cases hw

/-- Settles O42: at the start the message is empty. A command that leaves the block encoding was refused and changed
nothing, or met no error, and then its rule adds to the message only what a run of the coder finishes. -/
theorem encoderWritesNoMarker : Obligations.EncoderWritesNoMarker := by
  refine ⟨fun s u _ _ hfirst => noMarker_first hfirst, fun i s u hinv hmode hm hu hmodeu => ?_⟩
  obtain ⟨b, hb⟩ := inv_installed hinv (by rw [hmode]; decide)
  rcases exec_next hu with ⟨st, -, rfl⟩ | ⟨ha, v, w, hw, rfl⟩ | ⟨-, e, w, -, rfl⟩
  · exact hm.congr rfl rfl rfl rfl rfl rfl
  · exact (rule_noMarker hmode (hinv.encode hmode) hb hm ha hw hmodeu).congr rfl rfl rfl rfl rfl rfl
  · cases hmodeu

/-! ### After a termination -/

/-- A termination that ends leaves the old stream and a flush of the interval, cut to some length (R200, R201). -/
theorem termination_stream {i : Instr} {s w : State} {v : BitVec 3} {b : Buffer} (hi : i = .terme ∨ i = .termo)
    (hs : EncodeInv s) (hb : installed s = some b) (h : rule i s = .done v w) :
    ∃ (u : State) (d : Buffer) (n : Nat), Flushed s u b d (easyBound s.t.toNat) ∧ installed w = some ((b ++ d).take n) := by
  rcases hi with rfl | rfl <;> obtain ⟨⟨⟩, y, hy, h⟩ := bind_eq_done.1 h <;> cases h
  · rcases easyFlush_cases hs hb with ⟨u, d, hu, hf⟩ | ⟨u, hu, -⟩ | ⟨hu, -⟩ <;> rw [hy] at hu <;> cases hu
    exact ⟨y, d, _, hf, by rw [List.take_length]; exact hf.stream⟩
  · rcases easyFlush_cases hs hb with ⟨u, d, hu, hf⟩ | ⟨u, hu, -⟩ | ⟨hu, -⟩
    · obtain ⟨n, hn, -⟩ := optimalFlush_tail hb hu hf.stream (by simp)
      rw [hy] at hn; cases hn
      exact ⟨u, d, n, hf, installed_setInstalled hf.stream _⟩
    · rw [optimalFlush_raised hb hu] at hy; cases hy
    · rw [optimalFlush_refused hb hu] at hy; cases hy

/-- Settles O43: what is kept of the message and its flush begins the two together, and these hold no marker. -/
theorem terminatedMessageHoldsNoMarker : Obligations.TerminatedMessageHoldsNoMarker := by
  intro i s u b c hi hinv hmode hm hu hresponses hb hc
  have hs := hinv.encode hmode
  obtain ⟨-, w, hw, rfl, -⟩ := exec_ok (v := 0) hu hresponses
  obtain ⟨y, d, n, hf, hstream⟩ := termination_stream hi hs hb hw
  obtain ⟨-, -, hfree, -⟩ := hf.point hs hm
  obtain rfl : (b ++ d).take n = c := Option.some.inj (hstream.symm.trans hc)
  rw [List.drop_take, List.drop_append_of_le_length (Nat.sub_le _ _), ← messageBytes_some hb]
  exact MarkerFree.of_append (by rw [List.take_append_drop]; exact hfree)

end Sys2Proof.Machine

/-! ## Transfer and fill, case by case (R131, R133) -/

namespace Sys2Proof.Machine

/-! ### `transfer_byte` (R131) -/

theorem propagateCarry_eq {s : State} {T : Byte} {C : Word}
    (hcarry : 0x08000000 ≤ s.C → T = s.Tr + 1 ∧ C = s.C &&& 0x07FFFFFF) (hclear : s.C < 0x08000000 → T = s.Tr ∧ C = s.C) :
    propagateCarry s = { s with Tr := T, C := C } := by
  unfold propagateCarry carrySet
  by_cases hC : maskCarry ≤ s.C
  · obtain ⟨rfl, rfl⟩ := hcarry hC
    rw [if_pos (decide_eq_true hC)]; rfl
  · obtain ⟨rfl, rfl⟩ := hclear (BitVec.not_le.1 hC)
    rw [if_neg (by simpa using hC)]

/-- A pending byte that is no `0xFF` takes the carry step. -/
theorem afterCarry_eq {s : State} (hT : s.Tr ≠ 0xFF) : afterCarry s = propagateCarry s := by
  unfold afterCarry
  by_cases hC : 0x08000000 ≤ s.C
  · rw [if_pos ⟨hT, hC⟩, propagateCarry_eq (fun _ => ⟨rfl, rfl⟩) (fun h => absurd hC (BitVec.not_le.2 h))]
  · rw [if_neg (fun h => hC h.2), propagateCarry_eq (fun h => absurd h hC) (fun _ => ⟨rfl, rfl⟩)]

/-- The first branch: a pending `0xFF` goes out, and the carry stays in C. -/
theorem transferByte_of_ones {s s1 : State} (hT : s.Tr = 0xFF) (h : memAppend 0xFF s = .done () s1)
    (hL : s1.L < positionMax s1.lw) : transferByte s = .done () (reloadStuffed (bumpPosition s1)) := by
  unfold transferByte
  rw [if_pos hT, hT, h, bind_done, advancePosition_of_lt hL, bind_done]

/-- The second branch: the carry step, the byte unless it is the phantom, and the reload that the byte asks for. -/
theorem transferByte_of_data {s s1 : State} (hT : s.Tr ≠ 0xFF) (h : emitUnlessFirst (propagateCarry s) = .done () s1)
    (hL : s1.L < positionMax s1.lw) : transferByte s =
      .done () (if s1.Tr = 0xFF then reloadStuffed (bumpPosition s1) else reloadNormal (bumpPosition s1)) := by
  unfold transferByte
  rw [if_neg hT, h, bind_done, advancePosition_of_lt hL, bind_done, bumpPosition_Tr]

theorem emitUnlessFirst_phantom {s : State} (h : s.L < 0) : emitUnlessFirst s = .done () s := by
  unfold emitUnlessFirst; rw [if_neg (by omega)]

theorem emitUnlessFirst_some {s : State} {b : Buffer} (hb : installed s = some b) (hroom : bufferFull s.cap b.length = false)
    (h : 0 ≤ s.L) : emitUnlessFirst s = .done () (setInstalled (b ++ [s.Tr]) s) := by
  unfold emitUnlessFirst; rw [if_pos h, memAppend_some hb, if_neg (by simp [hroom])]

/-- The store does not depend on the registers. -/
theorem setInstalled_registers (c : Buffer) (s : State) (T : Byte) (C : Word) :
    setInstalled c { s with Tr := T, C := C } = { setInstalled c s with Tr := T, C := C } := by
  unfold setInstalled; dsimp only; split <;> rfl

/-- Settles O31: the branch is decided by the pending byte and by the byte after the carry step, the failure by the
append. -/
theorem transferByteCases : Obligations.TransferByteCases := by
  intro s b T C hb hL hcarry hclear
  have hp := propagateCarry_eq hcarry hclear
  have hemit : bufferFull s.cap b.length = false → 0 ≤ s.L →
      emitUnlessFirst (propagateCarry s) = .done () { setInstalled (b ++ [T]) s with Tr := T, C := C } := fun hroom h0 => by
    rw [hp, emitUnlessFirst_some (s := { s with Tr := T, C := C }) hb hroom h0, setInstalled_registers]
  refine ⟨fun hroom hT => ?_, fun hroom hT h0 hT1 => ?_, fun hroom hT h0 hT1 => ?_, fun hT h0 hT1 => ?_,
    fun hfull hT => ?_, fun hfull hT h0 => ?_⟩
  · rw [transferByte_of_ones hT (by rw [memAppend_some hb, if_neg (by simp [hroom])]) (by simpa using hL)]
    simp [reloadStuffed, bumpPosition, maskClearMsbs]
  · rw [transferByte_of_data hT (hemit hroom h0) (by simpa using hL), if_pos hT1, hT1]
    simp [reloadStuffed, bumpPosition, maskClearMsbs]
  · rw [transferByte_of_data hT (hemit hroom h0) (by simpa using hL), if_neg hT1]
    simp [reloadNormal, bumpPosition, maskClearPart]
  · rw [transferByte_of_data hT (s1 := { s with Tr := T, C := C }) (by rw [hp]; exact emitUnlessFirst_phantom h0) hL, if_neg hT1]
    rfl
  · rw [transferByte_full hb hfull (.inl hT), afterCarry, if_neg (fun h => h.1 hT)]
  · rw [transferByte_full hb hfull (.inr h0), afterCarry_eq hT, hp]

/-! ### `fill_lsb` (R133) -/

/-- The model's own refusal (log entry 8). -/
theorem fillLsb_outside {s : State} {b : Buffer} (hb : installed s = some b) (h : s.L < 0 ∨ (b.length : Int) < s.L) :
    fillLsb s = .refused .positionOutsideStream := by
  unfold fillLsb
  rw [streamLen_some (s := startFill s) hb, bind_done, if_pos (by rw [startFill_L]; exact h)]

/-- The byte after a `0xFF` carries seven new bits. -/
theorem acceptByte_after_ones {s : State} (h : s.Tr = 0xFF) (v : Byte) : acceptByte v s = { s with t := 7, Tr := v } := by
  unfold acceptByte; rw [if_pos h]

theorem acceptByte_after_data {s : State} (h : s.Tr ≠ 0xFF) (v : Byte) : acceptByte v s = { s with Tr := v } := by
  unfold acceptByte; rw [if_neg h]

/-- Settles O32: the end, the marker and the data byte each by its lemma; after a `0xFF` the data byte goes in one place
higher. -/
theorem fillLsbCases : Obligations.FillLsbCases := by
  intro s b hb
  refine ⟨fun hend => fillLsb_end hb hend, fun n v hn hv => ?_, fun h => fillLsb_outside hb (.inr h)⟩
  obtain ⟨hlt, rfl⟩ := List.getElem?_eq_some_iff.1 hv
  refine ⟨fun hT hmark => fillLsb_marker hb hn hlt hT hmark, fun hT hle hL => ?_, fun hT hL => ?_⟩
  · rw [fillLsb_data hb hn hlt (fun h => BitVec.not_lt.2 hle h.2) hL, acceptByte_after_ones (s := startFill s) hT]
    rfl
  · rw [fillLsb_data hb hn hlt (fun h => hT h.1) hL, acceptByte_after_data (s := startFill s) hT]
    simp [addByte, bumpPosition, startFill, byteWide]

end Sys2Proof.Machine

/-! ## Contexts: what every command makes of them, and the tables they walk (R150 to R156, R108) -/

namespace Sys2Proof.Machine

/-! ### A coding command adapts the entry of its context and no other -/

/-- A response touches no context, nor does the change to IDLE: what holds of the contexts after a refusal and after the
rule, however it ends, holds after the command (R180, R245). -/
theorem exec_contexts {P : List Context → Prop} {i : Instr} {s u : State} (hu : exec i s = .next u)
    (hrefused : ∀ st, admission i s = some st → P s.ctx)
    (hrule : admission i s = none → (rule i s).ends fun w => P w.ctx) : P u.ctx := by
  rcases exec_next hu with ⟨st, hst, rfl⟩ | ⟨ha, v, w, hw, rfl⟩ | ⟨ha, e, w, hw, rfl⟩
  · exact hrefused st hst
  · exact (hrule ha).1 v w hw
  · exact (hrule ha).2 e w hw

/-- The same of a command that is admitted. -/
theorem exec_admitted_contexts {P : List Context → Prop} {i : Instr} {s u : State} (ha : admission i s = none)
    (hu : exec i s = .next u) (hrule : (rule i s).ends fun w => P w.ctx) : P u.ctx :=
  exec_contexts hu (fun st hst => by rw [ha] at hst; cases hst) fun _ => hrule

/-- The transition runs before renormalization, which touches no context even where it raises (R100, R154, R245). -/
theorem encStep_contexts {p : BitVec 16} (hp : p.toNat ≤ 0x7FFF) (mps x : Bit) (cx : Option Nat) (s : State) :
    (encStep p mps x cx s).ends fun u => u.ctx = adaptedContexts p mps x cx s :=
  (encStep_frame hp mps x cx s).mono fun _ hu => hu.2.trans (encUpdate_law hp mps x cx s).ctx

theorem decStep_contexts {p : BitVec 16} (hp : p.toNat ≤ 0x7FFF) (mps : Bit) (cx : Option Nat) (s : State) :
    (decStep p mps cx s).ends fun u => u.ctx = adaptedContexts p mps (symbolRead s.A p mps s.C) cx s := by
  have hlaw := decUpdate_law hp mps cx s
  refine (decStep_frame hp mps cx s).mono fun u ⟨_, _, hctx⟩ => ?_
  rw [hctx, hlaw.ctx, hlaw.symbol]
  rfl

/-- Settles O23: the step adapts the contexts before its renormalization, so they are the same however that ends; without a
context there is nothing to adapt, and a refusal changes nothing. -/
theorem contextsAdapt : Obligations.ContextsAdapt := by
  refine ⟨fun s u x c e hmode he hu => ?_, fun s u c e hmode he hu => ?_, fun s u x g p hu => ?_, fun s u g p hu => ?_⟩
  · refine exec_admitted_contexts (P := (· = _)) (admitted_encctx.2 ⟨hmode, (contextAt_of_some he).1⟩) hu ?_
    rw [rule_encctx he, ← adaptedContexts_some he]
    exact bind_ends_pure (encStep_contexts (stateProb_legal _).2 _ _ _ s) fun _ _ hu => Micro.ends_done hu
  · refine exec_admitted_contexts (P := (· = _)) (admitted_decctx.2 ⟨hmode, (contextAt_of_some he).1⟩) hu ?_
    rw [rule_decctx he, ← adaptedContexts_some he]
    exact bind_ends_pure (decStep_contexts (stateProb_legal _).2 _ _ s) fun _ _ hu => Micro.ends_done hu
  · refine exec_contexts (P := (· = _)) hu (fun _ _ => rfl) fun ha => ?_
    rw [← adaptedContexts_none p g x s]
    exact bind_ends_pure (encStep_contexts (admitted_encprb.1 ha).2.2 _ _ _ s) fun _ _ hu => Micro.ends_done hu
  · refine exec_contexts (P := (· = _)) hu (fun _ _ => rfl) fun ha => ?_
    rw [← adaptedContexts_none p g (symbolRead s.A p g s.C) s]
    exact bind_ends_pure (decStep_contexts (admitted_decprb.1 ha).2.2 _ _ s) fun _ _ hu => Micro.ends_done hu

/-! ### No command puts a context in state 46 (R156 d) -/

/-- No context is in state 46. -/
def Avoids46 (l : List Context) : Prop := ∀ e ∈ l, e.state ≠ 46

theorem encStep_avoids46 {p : BitVec 16} (hp : p.toNat ≤ 0x7FFF) (mps x : Bit) (cx : Option Nat) {s : State}
    (h : Avoids46 s.ctx) : (encStep p mps x cx s).ends fun u => Avoids46 u.ctx :=
  (encStep_frame hp mps x cx s).mono fun _ ⟨_, hctx⟩ => by rw [hctx]; exact encUpdate_ne_46 hp h

theorem decStep_avoids46 {p : BitVec 16} (hp : p.toNat ≤ 0x7FFF) (mps : Bit) (cx : Option Nat) {s : State}
    (h : Avoids46 s.ctx) : (decStep p mps cx s).ends fun u => Avoids46 u.ctx :=
  (decStep_frame hp mps cx s).mono fun _ ⟨_, _, hctx⟩ => by rw [hctx]; exact decUpdate_ne_46 hp h

/-- RSTDEC touches no context, whether its fills end or raise (R172). -/
theorem startDecoding_contexts (s : State) : (startDecoding s).ends fun u => u.ctx = s.ctx :=
  ⟨fun a u hu => ((startDecoding_reads s).1 a u hu).2, fun e u hu => ((startDecoding_reads s).2 e u hu).2⟩

/-- The rule of a command clears the contexts, adapts one entry, or touches none. -/
theorem rule_avoids46 {i : Instr} {s : State} (ha : admission i s = none) (h : Avoids46 s.ctx) :
    (rule i s).ends fun u => Avoids46 u.ctx := by
  cases i with
  | reset =>
    refine Micro.ends_done fun e he => ?_
    obtain ⟨-, -, rfl⟩ := List.mem_map.1 he
    decide
  | rstenc => exact Micro.ends_done h
  | rstdec =>
    exact bind_ends_pure ((startDecoding_contexts s).mono fun _ hu => by rw [hu]; exact h) fun _ _ hu => Micro.ends_done hu
  | encctx x c => exact bind_ends_pure (encStep_avoids46 (stateProb_legal _).2 _ _ _ h) fun _ _ hu => Micro.ends_done hu
  | decctx c => exact bind_ends_pure (decStep_avoids46 (stateProb_legal _).2 _ _ h) fun _ _ hu => Micro.ends_done hu
  | encprb x g p =>
    exact bind_ends_pure (encStep_avoids46 (admitted_encprb.1 ha).2.2 _ _ _ h) fun _ _ hu => Micro.ends_done hu
  | decprb g p => exact bind_ends_pure (decStep_avoids46 (admitted_decprb.1 ha).2.2 _ _ h) fun _ _ hu => Micro.ends_done hu
  | terme =>
    exact bind_ends_pure ((easyFlush_frame s).mono fun _ hu => by rw [hu.ctx]; exact h) fun _ _ hu => Micro.ends_done hu
  | termo =>
    exact bind_ends_pure ((optimalFlush_frame s).mono fun _ hu => by rw [hu.ctx]; exact h) fun _ _ hu => Micro.ends_done hu
  | remb => exact Micro.ends_done h
  | chstr z sid => rw [rule_chstr (admitted_chstr.1 ha)]; exact Micro.ends_done h

/-! ### The graph of the two transitions (R156 b to e) -/

/-- The state a context in state `i` is in after these transitions, `true` for the MPS (R152, R153). -/
def walk (i : Fin 47) (path : List Bool) : Fin 47 :=
  path.foldl (fun i m => if m then stateTransMps i else stateTransLps i) i

theorem walk_ne_46 (path : List Bool) : ∀ {i : Fin 47}, i ≠ 46 → walk i path ≠ 46 := by
  induction path with
  | nil => exact id
  | cons m path ih =>
    intro i hi
    cases m with
    | true => exact ih (transMps_ne_46 i hi)
    | false => exact ih (transLps_ne_46 i hi)

/-- A way from state 0: by MPS transitions alone to 1..5 and on to 38..45, from 1 by an LPS to 6 and on to 13, from 7 by an
LPS to 14 and on to 37. -/
def pathTo (i : Fin 47) : List Bool :=
  if i ≤ 5 then List.replicate i true
  else if i ≤ 13 then [true, false] ++ List.replicate (i - 6) true
  else if i ≤ 37 then [true, false, true, false] ++ List.replicate (i - 14) true
  else List.replicate (i - 32) true

theorem walk_pathTo : ∀ i : Fin 47, i ≠ 46 → walk 0 (pathTo i) = i := by decide

theorem stateSwitch_eq_one_iff : ∀ i, stateSwitch i = 1 ↔ i = 0 ∨ i = 6 ∨ i = 14 := by decide

theorem stateProb_of_switch : ∀ i, stateSwitch i = 1 → stateProb i = 0x5601 := by decide

theorem stateTransMps_eq_self_iff : ∀ i, stateTransMps i = i ↔ i = 45 ∨ i = 46 := by decide

theorem stateTransLps_eq_self_iff : ∀ i, stateTransLps i = i ↔ i = 6 ∨ i = 14 ∨ i = 46 := by decide

theorem mps_run_from_0 :
    (List.range 15).map (fun n => stateTransMps^[n] 0) = [0, 1, 2, 3, 4, 5, 38, 39, 40, 41, 42, 43, 44, 45, 45] := by
  decide

/-- Settles O33: the tables are read off; no transition leads into 46 from outside, so neither a walk from 0 nor a command
comes there, and to every other state there is a path. -/
theorem tablesAreClosed : Obligations.TablesAreClosed :=
  ⟨stateSwitch_eq_one_iff, stateProb_of_switch, stateTransMps_eq_self_iff, stateTransLps_eq_self_iff, by decide,
    fun path => walk_ne_46 path (by decide), fun i hi => ⟨pathTo i, walk_pathTo i hi⟩, mps_run_from_0,
    fun _ _ _ h hu => exec_contexts (P := Avoids46) hu (fun _ _ => h) fun ha => rule_avoids46 ha h⟩

end Sys2Proof.Machine

/-! ## The plain commands, and the mode after a command (R170, R171, R177, R178, R181) -/

namespace Sys2Proof.Machine

/-! ### RESET, RSTENC, REMB and CHSTR -/

/-- The cleared contexts are as many as there were (R157). -/
theorem clearContexts_eq (s : State) : clearContexts s = { s with ctx := List.replicate s.ctx.length ⟨0, 0⟩ } := by
  unfold clearContexts; rw [List.map_const']

/-- Settles O14: RESET is admitted always, and its rule only clears. -/
theorem resetClearsContexts : Obligations.ResetClearsContexts := by
  intro s
  rw [exec_of_done (v := 0) (admitted_reset s) rfl, clearContexts_eq]
  rfl

/-- A restart without a stream is refused (R180, R243). -/
theorem exec_restart_refused {i : Instr} {s : State} (hi : i = .rstenc ∨ i = .rstdec) (h : s.cur = none) :
    exec i s = .next (answerOnly 0x70000000 s) := by
  have hstream : streamAdmits i s = false := by rcases hi with rfl | rfl <;> exact congrArg Option.isSome h
  have hmode : modeAdmits i s = true := by rcases hi with rfl | rfl <;> rfl
  exact exec_refused_by (refused_by_stream hmode hstream)

/-- Settles O15: RSTENC needs a stream only, and its rule sets the start values. -/
theorem rstencStartsMessage : Obligations.RstencStartsMessage :=
  fun _ => ⟨fun h => exec_of_done (v := 0) ((admitted_restart (.inl rfl)).2 h) rfl, exec_restart_refused (.inl rfl)⟩

/-- The response of REMB (R177). -/
theorem responseWord_remainingBytes (t : BitVec 4) :
    responseWord .ok (remainingBytes t) = if 27 - t.toNat ≤ 22 then 4 else 5 := by
  unfold remainingBytes; split <;> rfl

theorem exec_remb {s : State} (h : s.mode = .enc) :
    exec .remb s = .next (answerOnly (if 27 - s.t.toNat ≤ 22 then 4 else 5) s) := by
  rw [exec_of_done ((admitted_enc (.inr (.inr rfl))).2 h) rfl, ← responseWord_remainingBytes]
  rfl

/-- Settles O17: `27 - t` is at most 22 exactly from t = 5 on. -/
theorem rembAnswers : Obligations.RembAnswers := by
  refine fun s => ⟨fun h => ⟨exec_remb h, fun hlow _ => ?_, fun _ hhigh => ?_⟩, fun h => ?_⟩
  · rw [exec_remb h, if_pos (by omega)]
  · rw [exec_remb h, if_neg (by omega)]
  · exact exec_refused_by (refused_by_mode rfl h)

/-- Settles O18: CHSTR needs a handle of the store only; the buffer is emptied with z = 1 only. -/
theorem chstrInstalls : Obligations.ChstrInstalls := by
  refine fun s sid => ⟨fun h => ⟨?_, ?_⟩, fun h z => ?_⟩
  · exact exec_of_done (admitted_chstr.2 h) (rule_chstr h)
  · exact exec_of_done (admitted_chstr.2 h) (rule_chstr h)
  · have hstream : streamAdmits (.chstr z sid) s = false := decide_eq_false (Nat.not_lt.2 h)
    exact exec_refused_by (refused_by_stream rfl hstream)

/-! ### The mode (R181) -/

/-- The mode in which an OK response leaves the block (R181). -/
def modeAfter (i : Instr) (s : State) : Mode :=
  match i with
  | .rstenc => .enc
  | .rstdec => .dec
  | .chstr _ _ | .terme | .termo => .idle
  | .reset | .encctx _ _ | .decctx _ | .encprb _ _ _ | .decprb _ _ | .remb => s.mode

theorem encStep_mode {p : BitVec 16} (hp : p.toNat ≤ 0x7FFF) {mps x : Bit} {cx : Option Nat} {s u : State}
    (h : encStep p mps x cx s = .done () u) : u.mode = s.mode :=
  ((encStep_frame hp mps x cx s).1 _ _ h).1.frame.mode

theorem decStep_mode {p : BitVec 16} (hp : p.toNat ≤ 0x7FFF) {mps x : Bit} {cx : Option Nat} {s u : State}
    (h : decStep p mps cx s = .done x u) : u.mode = s.mode :=
  ((decStep_frame hp mps cx s).1 _ _ h).1.mode

/-- A rule that ends has set the mode of its command, or kept the mode. -/
theorem rule_mode {i : Instr} {s w : State} {v : BitVec 3} (ha : admission i s = none) (h : rule i s = .done v w) :
    w.mode = modeAfter i s := by
  cases i with
  | reset => cases h; rfl
  | rstenc => cases h; rfl
  | remb => cases h; rfl
  | rstdec =>
    obtain ⟨⟨⟩, u, hu, h⟩ := bind_eq_done.1 h
    cases h; exact ((startDecoding_reads s).1 _ _ hu).1.mode
  | encctx x c =>
    obtain ⟨⟨⟩, u, hu, h⟩ := bind_eq_done.1 h
    cases h; exact encStep_mode (stateProb_legal _).2 hu
  | decctx c =>
    obtain ⟨y, u, hu, h⟩ := bind_eq_done.1 h
    cases h; exact decStep_mode (stateProb_legal _).2 hu
  | encprb x g p =>
    obtain ⟨⟨⟩, u, hu, h⟩ := bind_eq_done.1 h
    cases h; exact encStep_mode (admitted_encprb.1 ha).2.2 hu
  | decprb g p =>
    obtain ⟨y, u, hu, h⟩ := bind_eq_done.1 h
    cases h; exact decStep_mode (admitted_decprb.1 ha).2.2 hu
  | terme => obtain ⟨⟨⟩, u, -, h⟩ := bind_eq_done.1 h; cases h; rfl
  | termo => obtain ⟨⟨⟩, u, -, h⟩ := bind_eq_done.1 h; cases h; rfl
  | chstr z sid => rw [rule_chstr (admitted_chstr.1 ha)] at h; cases h; rfl

/-- A command is refused with none of the statuses of an execution error (R240, R243). -/
theorem admission_ne_error {i : Instr} {s : State} {st : Status} (ha : admission i s = some st) :
    st ≠ .invalidMarker ∧ st ≠ .streamIO := by
  rcases adm_cases ha with rfl | rfl | rfl | rfl <;> decide

/-- Settles O13: the three ways a command can end have disjoint statuses; a refusal only answers, a rule that ends has set
the mode, and an error leads to IDLE. -/
theorem modeTransitions : Obligations.ModeTransitions := by
  intro i s u hu
  rcases exec_status hu with ⟨st, ha, rfl⟩ | ⟨ha, v, w, hr, rfl, hw⟩ | ⟨-, e, w, -, rfl, hw⟩
  · obtain ⟨hmarker, hio⟩ := admission_ne_error ha
    exact ⟨st, 0, rfl, fun hok => absurd (hok ▸ ha) admission_ne_ok, fun h => (h.elim hmarker hio).elim, fun _ => rfl⟩
  · have hmode := rule_mode ha hr
    exact ⟨.ok, v, congrArg (· ++ _) hw, fun _ => hmode, nofun, nofun⟩
  · refine ⟨errorStatus e, 0, congrArg (· ++ _) hw, fun hok => absurd hok (errorStatus_ne_ok e), fun _ => rfl, fun h => ?_⟩
    cases e <;> simp [errorStatus] at h

end Sys2Proof.Machine

/-! ## RSTDEC by the first two bytes (R172) -/

namespace Sys2Proof.Machine

/-! ### The two fills of the pre-load -/

theorem startDecoding_of_fills {s u v : State} (hu : fillLsb (clearForDecoding s) = .done () u)
    (hv : fillLsb (shiftByCount u) = .done () v) : startDecoding s = .done () (finishPreload v) := by
  unfold startDecoding; rw [hu, bind_done, hv, bind_done]

theorem startDecoding_of_marker {s u v : State} (hu : fillLsb (clearForDecoding s) = .done () u)
    (hv : fillLsb (shiftByCount u) = .raised .invalidMarker v) : startDecoding s = .raised .invalidMarker v := by
  unfold startDecoding; rw [hu, bind_done, hv, bind_raised]

theorem exec_rstdec_of_done {s u : State} (hcur : s.cur ≠ none) (h : startDecoding s = .done () u) :
    exec .rstdec s = .next (respond .ok 0 u) :=
  exec_of_done ((admitted_restart (.inr rfl)).2 hcur) (by unfold rule; dsimp only; rw [h, bind_done])

theorem exec_rstdec_of_raised {s u : State} {e : ExecError} (hcur : s.cur ≠ none) (h : startDecoding s = .raised e u) :
    exec .rstdec s = .next (takeError e u) :=
  exec_of_raised ((admitted_restart (.inr rfl)).2 hcur) (by unfold rule; dsimp only; rw [h, bind_raised])

/-- At the start of the second fill: the first gave the byte `v`, and eight shifts are made (R172). -/
def firstFilled (v T : Byte) (L : Int) (s : State) : State := { s with t := 8, Tr := T, L := L, C := v.setWidth 32 <<< 8 }

/-- An empty stream gives ones (R133 corner a). -/
theorem fillLsb_first_ones {s : State} (hb : installed s = some []) :
    fillLsb (clearForDecoding s) = .done () { s with t := 8, Tr := 0, L := 0, C := (0xFF : Byte).setWidth 32 } := by
  rw [(fillLsbCases (clearForDecoding s) [] hb).1 (by simp)]
  simp [clearForDecoding]

/-- The first byte follows no `0xFF`, so it is data whatever it is. -/
theorem fillLsb_first_byte {s : State} {b : Buffer} {b0 : Byte} (hb : installed s = some b) (h0 : b[0]? = some b0)
    (hlw : 0 < positionMax s.lw) :
    fillLsb (clearForDecoding s) = .done () { s with t := 8, Tr := b0, L := 1, C := b0.setWidth 32 } := by
  obtain ⟨-, -, hdata⟩ := (fillLsbCases (clearForDecoding s) b hb).2.1 0 b0 rfl h0
  rw [hdata (by simp) hlw]
  simp [clearForDecoding]

theorem startDecoding_empty {s : State} (hb : installed s = some []) : startDecoding s = .done () { s with
    A := 0x8000, C := 0x007FFF80, t := 1, Tr := 0, L := 0, mode := .dec } := by
  have hend := (fillLsbCases (firstFilled 0xFF 0 0 s) [] hb).1 rfl
  rw [startDecoding_of_fills (fillLsb_first_ones hb) hend]
  simp [finishPreload, firstFilled]

section SecondByte
variable {s : State} {b : Buffer} {b0 b1 : Byte} (hb : installed s = some b) (h0 : b[0]? = some b0)
  (hlw : 2 ≤ positionMax s.lw)
include hb h0 hlw

theorem startDecoding_one_byte (h1 : b.length = 1) : startDecoding s = .done () { s with
    A := 0x8000, C := ((b0.setWidth 32 <<< 8) + 0xFF) <<< 7, t := 1, Tr := b0, L := 1, mode := .dec } := by
  have hend := (fillLsbCases (firstFilled b0 b0 1 s) b hb).1 (by rw [h1]; rfl)
  rw [startDecoding_of_fills (fillLsb_first_byte hb h0 (by omega)) hend]
  simp [finishPreload, firstFilled]

theorem startDecoding_two_bytes (h1 : b[1]? = some b1) (hT : b0 ≠ 0xFF) : startDecoding s = .done () { s with
    A := 0x8000, C := ((b0.setWidth 32 <<< 8) + b1.setWidth 32) <<< 7, t := 1, Tr := b1, L := 2, mode := .dec } := by
  obtain ⟨-, -, hdata⟩ := (fillLsbCases (firstFilled b0 b0 1 s) b hb).2.1 1 b1 rfl h1
  rw [startDecoding_of_fills (fillLsb_first_byte hb h0 (by omega)) (hdata hT hlw)]
  simp [finishPreload, firstFilled]

theorem startDecoding_after_ones (h1 : b[1]? = some b1) (hT : b0 = 0xFF) (hle : b1 ≤ 0x8F) :
    startDecoding s = .done () { s with
      A := 0x8000, C := (0xFF00 + (b1.setWidth 32 <<< 1)) <<< 7, t := 0, Tr := b1, L := 2, mode := .dec } := by
  obtain ⟨-, hstuffed, -⟩ := (fillLsbCases (firstFilled b0 b0 1 s) b hb).2.1 1 b1 rfl h1
  rw [startDecoding_of_fills (fillLsb_first_byte hb h0 (by omega)) (hstuffed hT hle hlw), hT]
  simp [finishPreload, firstFilled]

theorem startDecoding_marker (h1 : b[1]? = some b1) (hT : b0 = 0xFF) (hlt : 0x8F < b1) :
    startDecoding s = .raised .invalidMarker { s with C := 0x0000FFFF, t := 8, Tr := 0xFF, L := 1 } := by
  obtain ⟨hmarker, -, -⟩ := (fillLsbCases (firstFilled b0 b0 1 s) b hb).2.1 1 b1 rfl h1
  rw [startDecoding_of_marker (fillLsb_first_byte hb h0 (by omega)) (hmarker hT hlt), hT]
  simp [firstFilled]

end SecondByte

/-- Settles O16: a fill at the end pads with ones, and the second fill alone can follow a `0xFF`. -/
theorem rstdecByFirstBytes : Obligations.RstdecByFirstBytes := by
  intro s b hb hlw
  have hcur : s.cur ≠ none := by
    obtain ⟨h, hc, -⟩ := installed_eq_some.1 hb
    rw [hc]; exact Option.some_ne_none h
  refine ⟨fun h => ?_, fun b0 h => ?_, fun b0 b1 rest h hT => ?_, fun b1 rest h hle => ?_, fun b1 rest h hlt => ?_⟩ <;>
    subst h
  · exact exec_rstdec_of_done hcur (startDecoding_empty hb)
  · exact exec_rstdec_of_done hcur (startDecoding_one_byte hb rfl hlw rfl)
  · exact exec_rstdec_of_done hcur (startDecoding_two_bytes hb rfl hlw rfl hT)
  · exact exec_rstdec_of_done hcur (startDecoding_after_ones hb rfl hlw rfl rfl hle)
  · exact exec_rstdec_of_raised hcur (startDecoding_marker hb rfl hlw rfl rfl hlt)

end Sys2Proof.Machine

/-! ## A symbol is coded and answered OK (R100, R103, R173 to R176) -/

namespace Sys2Proof.Machine

/-! ### Encoding -/

/-- A step of the encoder with room for three bytes and in L ends: no step finishes more than three (R102). -/
theorem encStep_completes {p : BitVec 16} {s : State} {b : Buffer} (mps x : Bit) (cx : Option Nat) (hs : EncodeInv s)
    (hp1 : 1 ≤ p.toNat) (hp2 : p.toNat ≤ 0x7FFF) (hb : installed s = some b) (hroom : RoomFor 3 s)
    (hpos : PositionRoom 3 s) :
    ∃ (u : State) (e : Buffer), encStep p mps x cx s = .done () u ∧ StreamFrame s u ∧ installed u = some (b ++ e) ∧
      e.length ≤ 3 ∧ EncodeInv u := by
  have hn := encUpdate_law hp2 mps x cx s
  have hbound := transferBound_le hs.countLow
  rcases encStep_cases (mps := mps) (x := x) (cx := cx) hs hp1 hp2 hb with
    ⟨u, e, hu, he, hrun, hcoding, hwidth⟩ | ⟨u, -, habort⟩ | ⟨-, hover⟩
  · refine ⟨u, _, hu, hn.frame.trans hrun.frame, hrun.stream, ?_, hrun.inv hs hn hb hcoding hwidth⟩
    split
    · rw [List.length_drop]; omega
    · omega
  · obtain ⟨d, hd, -, c, hc, hfull⟩ := habort.stream
    obtain ⟨b', hb', hcap⟩ := hroom
    cases hb.symm.trans hb'
    have := hcap c (hn.frame.cap.symm.trans hc)
    rw [List.length_append] at hfull
    omega
  · unfold PositionRoom at hpos
    omega

/-- No invariant speaks of the responses given. -/
theorem EncodeInv.respond {s : State} (h : EncodeInv s) (st : Status) (v : BitVec 3) :
    EncodeInv (Machine.respond st v s) := h.congr rfl rfl rfl rfl rfl rfl

/-- Settles O21: the legal probabilities are what the step asks for. -/
theorem encprbCompletes : Obligations.EncprbCompletes := by
  intro s x g p b hmode hp1 hp2 hs hb hroom hpos
  obtain ⟨u, e, hu, hf, hstream, hlen, hinv⟩ := encStep_completes g x none hs hp1 hp2 hb hroom hpos
  exact ⟨_, e, exec_encprb_of_done hmode hp1 hp2 hu, congrArg (· ++ _) hf.responses, hf.mode.trans hmode, hstream, hlen,
    hinv.respond _ _⟩

/-- Settles O20: the context is in range, and the probabilities of the table are legal. -/
theorem encctxCompletes : Obligations.EncctxCompletes := by
  intro s x c b hmode hc hs hb hroom hpos
  have hp := stateProb_legal s.ctx[c.toNat].state
  obtain ⟨u, e, hu, hf, hstream, hlen, hinv⟩ :=
    encStep_completes s.ctx[c.toNat].mps x (some c.toNat) hs hp.1 hp.2 hb hroom hpos
  exact ⟨_, e, exec_encctx_of_done hmode (List.getElem?_eq_getElem hc) hu, congrArg (· ++ _) hf.responses,
    hf.mode.trans hmode, hstream, hlen, hinv.respond _ _⟩

/-! ### Decoding -/

/-- A step of the decoder with no marker ahead and room in L ends with the symbol of R103. -/
theorem decStep_completes {p : BitVec 16} {s : State} {b : Buffer} (mps : Bit) (cx : Option Nat) (hs : DecodeInv s)
    (hp1 : 1 ≤ p.toNat) (hp2 : p.toNat ≤ 0x7FFF) (hb : installed s = some b) (hlw : b.length ≤ positionMax s.lw)
    (hclean : CleanAhead s) :
    ∃ (u : State) (j : Nat), decStep p mps cx s = .done (symbolRead s.A p mps s.C) u ∧ ReadFrame s u ∧ DecodeInv u ∧
      Decoded p b j s u := by
  rcases decStep_cases (mps := mps) (cx := cx) hs hp1 hp2 hb with
    ⟨u, hu, hread, hwidth, hf, -, -⟩ | ⟨-, -, -, -, -, -, hmarker⟩ | ⟨-, hover⟩
  · obtain ⟨j, hj⟩ := decStep_decoded hs hp2 hb hu
    rw [(decUpdate_law hp2 mps cx s).symbol] at hu
    have hhigh : ∀ c, installed u = some c → u.L ≤ c.length := fun c hc => by
      cases hread.stream.symm.trans hc; exact hread.positionHigh
    exact ⟨u, j, hu, hf, ⟨hwidth, hread.count, hread.positionLow, hhigh⟩, hj⟩
  · exact absurd hclean hmarker
  · omega

theorem DecodeInv.respond {s : State} (h : DecodeInv s) (st : Status) (v : BitVec 3) :
    DecodeInv (Machine.respond st v s) := h.congr rfl rfl rfl rfl

theorem Decoded.respond {p : BitVec 16} {b : Buffer} {j : Nat} {s u : State} (h : Decoded p b j s u) (st : Status)
    (v : BitVec 3) : Decoded p b j s (Machine.respond st v u) := ⟨h.width, h.window, h.bits⟩

/-- Settles O27: the legal probabilities are what the step asks for. -/
theorem decprbCompletes : Obligations.DecprbCompletes := by
  intro s g p b hmode hp1 hp2 hs hb hlw hclean
  obtain ⟨u, j, hu, hf, hinv, hdecoded⟩ := decStep_completes g none hs hp1 hp2 hb hlw hclean
  exact ⟨_, j, exec_decprb_of_done hmode hp1 hp2 hu, congrArg (· ++ _) hf.responses, hf.mode.trans hmode, hf.sm,
    hinv.respond _ _, hdecoded.respond _ _⟩

/-- Settles O26: the probabilities of the table are legal. -/
theorem decctxCompletes : Obligations.DecctxCompletes := by
  intro s c e b hmode he hs hb hlw hclean
  have hp := stateProb_legal e.state
  obtain ⟨u, j, hu, hf, hinv, hdecoded⟩ := decStep_completes e.mps (some c.toNat) hs hp.1 hp.2 hb hlw hclean
  exact ⟨_, j, exec_decctx_of_done hmode he hu, congrArg (· ++ _) hf.responses, hf.mode.trans hmode, hf.sm,
    hinv.respond _ _, hdecoded.respond _ _⟩

end Sys2Proof.Machine

/-! ## What the coding commands and the terminations leave alone (R179, R62, R63) -/

namespace Sys2Proof.Machine

/-- What is kept in the state itself and by the rule, however it ends, is kept before the response, and the change to IDLE
that an error makes, are applied (R180, R240, R245). -/
theorem exec_of_ends {P : State → Prop} {i : Instr} {s u : State} (hu : exec i s = .next u) (hs : P s)
    (hrule : admission i s = none → (rule i s).ends P) :
    ∃ w st v, P w ∧ (u = respond st v w ∨ u = respond st v (toIdle w)) := by
  rcases exec_next hu with ⟨st, -, rfl⟩ | ⟨ha, v, w, hw, rfl⟩ | ⟨ha, e, w, hw, rfl⟩
  · exact ⟨s, st, 0, hs, .inl rfl⟩
  · exact ⟨w, .ok, v, (hrule ha).1 _ _ hw, .inl rfl⟩
  · exact ⟨w, errorStatus e, 0, (hrule ha).2 _ _ hw, .inr rfl⟩

/-- The context a command adapts, if any (R173, R174). -/
def adaptedContext (i : Instr) : Option Nat :=
  match i with
  | .encctx _ c | .decctx c => some c.toNat
  | .reset | .rstenc | .rstdec | .encprb _ _ _ | .decprb _ _ | .terme | .termo | .remb | .chstr _ _ => none

/-- A symbol adapts the entry of its context and no other (R155). -/
theorem adaptedContexts_of_ne {n : Nat} {cx : Option Nat} (h : cx ≠ some n) (p : BitVec 16) (mps x : Bit) (s : State) :
    (adaptedContexts p mps x cx s)[n]? = s.ctx[n]? := by
  cases cx with
  | none => rw [adaptedContexts_none]
  | some c =>
    have hne : c ≠ n := fun hc => h (congrArg some hc)
    unfold adaptedContexts mpsTransition lpsTransition
    dsimp only
    split
    · split
      · exact List.getElem?_modify_ne _ _ hne
      · rfl
    · exact List.getElem?_modify_ne _ _ hne

/-! ### ENCCTX and ENCPRB -/

/-- What an encode command whose context is `cx` leaves alone (R179). -/
structure EncodeKeeps (cx : Option Nat) (s u : State) : Prop where
  coded : CodedFrame s u
  contexts : ∀ n, cx ≠ some n → u.ctx[n]? = s.ctx[n]?

theorem EncodeKeeps.refl (cx : Option Nat) (s : State) : EncodeKeeps cx s s :=
  ⟨⟨.refl s, le_refl _, fun b hb => ⟨[], by rw [List.append_nil]; exact hb⟩⟩, fun _ _ => rfl⟩

theorem encStep_keeps {p : BitVec 16} (hp : p.toNat ≤ 0x7FFF) (mps x : Bit) (cx : Option Nat) (s : State) :
    (encStep p mps x cx s).ends (EncodeKeeps cx s) := by
  have hkeeps : ∀ u, CodedFrame s u ∧ u.ctx = (encUpdate p mps x cx s).ctx → EncodeKeeps cx s u := fun u ⟨hf, hctx⟩ =>
    ⟨hf, fun n hn => by rw [hctx, (encUpdate_law hp mps x cx s).ctx]; exact adaptedContexts_of_ne hn p mps x s⟩
  exact (encStep_frame hp mps x cx s).mono hkeeps

theorem rule_encode_keeps {i : Instr} {s : State} (hi : (∃ x c, i = .encctx x c) ∨ ∃ x g p, i = .encprb x g p)
    (ha : admission i s = none) : (rule i s).ends (EncodeKeeps (adaptedContext i) s) := by
  rcases hi with ⟨x, c, rfl⟩ | ⟨x, g, p, rfl⟩
  · exact bind_ends_pure (encStep_keeps (stateProb_legal _).2 _ _ _ s) fun _ _ hu => Micro.ends_done hu
  · exact bind_ends_pure (encStep_keeps (admitted_encprb.1 ha).2.2 _ _ _ s) fun _ _ hu => Micro.ends_done hu

/-- Settles O24: the step appends to the installed buffer and adapts one context, also where it raises. -/
theorem encodeFrame : Obligations.EncodeFrame := by
  intro s u i b hi hb hu
  obtain ⟨w, st, v, ⟨⟨hf, -, hstream⟩, hctx⟩, hu⟩ := exec_of_ends hu (.refl (adaptedContext i) s) (rule_encode_keeps hi)
  obtain ⟨e, he⟩ := hstream b hb
  have hcontexts : ∀ n, (∀ x c, i = .encctx x c → n ≠ c.toNat) → w.ctx[n]? = s.ctx[n]? := fun n hn => hctx n fun hc => by
    rcases hi with ⟨x, c, rfl⟩ | ⟨x, g, p, rfl⟩
    · exact hn x c rfl (Option.some.inj hc).symm
    · cases hc
  have hbytes : ∀ sid off, ¬ (isInstalled sid s = true ∧ b.length ≤ off) → readByte w sid off = readByte s sid off :=
    fun _ _ h => readByte_append hf hb he h
  rcases hu with rfl | rfl
  · exact ⟨hf.cur, hf.cap, hf.lw, hf.host, .inl hf.mode, hcontexts, ⟨e, he⟩, hbytes⟩
  · exact ⟨hf.cur, hf.cap, hf.lw, hf.host, .inr rfl, hcontexts, ⟨e, he⟩, hbytes⟩

/-! ### RSTDEC, DECCTX and DECPRB -/

/-- What a decode command leaves alone: only RSTDEC sets the mode, and it to DEC (R179). -/
structure DecodeKeeps (i : Instr) (s u : State) : Prop where
  read : ∃ m, ReadFrame { s with mode := m } u ∧ (m = s.mode ∨ i = .rstdec ∧ m = .dec)
  contexts : ∀ n, adaptedContext i ≠ some n → u.ctx[n]? = s.ctx[n]?

theorem DecodeKeeps.of_readFrame {i : Instr} {s u : State} (h : ReadFrame s u)
    (hctx : ∀ n, adaptedContext i ≠ some n → u.ctx[n]? = s.ctx[n]?) : DecodeKeeps i s u := ⟨⟨s.mode, h, .inl rfl⟩, hctx⟩

theorem startDecoding_keeps (s : State) : (startDecoding s).ends (DecodeKeeps .rstdec s) := by
  obtain ⟨hdone, hraised⟩ := startDecoding_reads s
  refine ⟨fun a u hu => ?_, fun e u hu => ?_⟩
  · obtain ⟨hf, hctx⟩ := hdone a u hu
    exact ⟨⟨.dec, hf, .inr ⟨rfl, rfl⟩⟩, fun n _ => by rw [hctx]⟩
  · obtain ⟨hf, hctx⟩ := hraised e u hu
    exact .of_readFrame hf fun n _ => by rw [hctx]

theorem decStep_keeps {i : Instr} {p : BitVec 16} (hp : p.toNat ≤ 0x7FFF) (mps : Bit) (s : State) :
    (decStep p mps (adaptedContext i) s).ends (DecodeKeeps i s) := by
  have hkeeps : ∀ u, ReadFrame s u ∧ s.L ≤ u.L ∧ u.ctx = (decUpdate p mps (adaptedContext i) s).2.ctx →
      DecodeKeeps i s u := fun u ⟨hf, _, hctx⟩ =>
    .of_readFrame hf fun n hn => by
      rw [hctx, (decUpdate_law hp mps _ s).ctx]; exact adaptedContexts_of_ne hn p mps _ s
  exact (decStep_frame hp mps _ s).mono hkeeps

theorem rule_decode_keeps {i : Instr} {s : State} (hi : i = .rstdec ∨ (∃ c, i = .decctx c) ∨ ∃ g p, i = .decprb g p)
    (ha : admission i s = none) : (rule i s).ends (DecodeKeeps i s) := by
  rcases hi with rfl | ⟨c, rfl⟩ | ⟨g, p, rfl⟩
  · exact bind_ends_pure (startDecoding_keeps s) fun _ _ hu => Micro.ends_done hu
  · exact bind_ends_pure (decStep_keeps (i := .decctx c) (stateProb_legal _).2 _ s) fun _ _ hu => Micro.ends_done hu
  · exact bind_ends_pure (decStep_keeps (i := .decprb g p) (admitted_decprb.1 ha).2.2 _ s) fun _ _ hu => Micro.ends_done hu

/-- Settles O28: a fill writes no byte, and the step adapts one context, also where it raises. -/
theorem decodeFrame : Obligations.DecodeFrame := by
  intro s u i hi hu
  have hs : DecodeKeeps i s s := .of_readFrame (.refl s) fun _ _ => rfl
  obtain ⟨w, st, v, ⟨⟨m, hf, hm⟩, hctx⟩, hu⟩ := exec_of_ends hu hs (rule_decode_keeps hi)
  have hcontexts : ∀ n, (∀ c, i = .decctx c → n ≠ c.toNat) → w.ctx[n]? = s.ctx[n]? := fun n hn => hctx n fun hc => by
    rcases hi with rfl | ⟨c, rfl⟩ | ⟨g, p, rfl⟩
    · cases hc
    · exact hn c rfl (Option.some.inj hc).symm
    · cases hc
  have hmode : w.mode = s.mode ∨ w.mode = .idle ∨ i = .rstdec ∧ w.mode = .dec :=
    hm.elim (fun h => .inl (hf.mode.trans h)) fun ⟨h, hdec⟩ => .inr (.inr ⟨h, hf.mode.trans hdec⟩)
  have hbytes : ∀ sid off, readByte w sid off = readByte s sid off := readByte_congr hf.sm
  rcases hu with rfl | rfl
  · exact ⟨hf.cur, hf.cap, hf.lw, hf.host, hmode, hcontexts, hbytes, hf.sm⟩
  · exact ⟨hf.cur, hf.cap, hf.lw, hf.host, .inr (.inl rfl), hcontexts, hbytes, hf.sm⟩

/-! ### TERME and TERMO -/

/-- What the rule keeps, and the response and the change to IDLE do not touch, the command keeps. -/
theorem exec_keeps {P : State → Prop} (hrespond : ∀ w st v, P w → P (respond st v w)) (hidle : ∀ w, P w → P (toIdle w))
    {i : Instr} {s u : State} (hu : exec i s = .next u) (hs : P s) (hrule : admission i s = none → (rule i s).ends P) :
    P u := by
  obtain ⟨w, st, v, hw, rfl | rfl⟩ := exec_of_ends hu hs hrule
  · exact hrespond w st v hw
  · exact hrespond _ st v (hidle w hw)

section Termination
variable {i : Instr} {s u : State} (hi : i = .terme ∨ i = .termo) (hu : exec i s = .next u)
include hi hu

theorem termination_width : u.A = s.A := by
  refine exec_keeps (P := fun w => w.A = s.A) (fun _ _ _ => id) (fun _ => id) hu rfl fun _ => ?_
  rcases hi with rfl | rfl
  · exact bind_ends_pure (easyFlush_width s) fun _ _ h => Micro.ends_done h
  · exact bind_ends_pure (optimalFlush_width s) fun _ _ h => Micro.ends_done h

theorem termination_contexts : u.ctx = s.ctx := by
  refine exec_keeps (P := fun w => w.ctx = s.ctx) (fun _ _ _ => id) (fun _ => id) hu rfl fun _ => ?_
  rcases hi with rfl | rfl
  · exact bind_ends_pure ((easyFlush_frame s).mono fun _ h => h.ctx) fun _ _ h => Micro.ends_done h
  · exact bind_ends_pure ((optimalFlush_frame s).mono fun _ h => h.ctx) fun _ _ h => Micro.ends_done h

theorem termination_handle : u.cur = s.cur := by
  by_contra hcur
  obtain ⟨z, sid, rfl, -⟩ := (handleAndPositionMove i s u hu).1 hcur
  rcases hi with hi | hi <;> cases hi

end Termination

/-- An easy flush drops a byte only where it has appended one, so the stream as it was stays (R200). -/
theorem easyFlush_extends {s : State} {b : Buffer} (hs : EncodeInv s) (hb : installed s = some b) :
    (easyFlush s).ends fun u => ∃ d, installed u = some (b ++ d) := by
  rcases easyFlush_cases hs hb with ⟨u, d, hu, hf⟩ | ⟨u, hu, ha⟩ | ⟨hu, -⟩ <;> rw [hu]
  · exact Micro.ends_done ⟨d, hf.stream⟩
  · obtain ⟨d, -, hstream, -⟩ := ha.stream
    exact Micro.ends_raised ⟨d, hstream⟩
  · exact Micro.ends_refused

theorem terme_extends {s u : State} {b : Buffer} (hinv : BlockInv s) (hb : installed s = some b)
    (hu : exec .terme s = .next u) : ∃ d, installed u = some (b ++ d) := by
  refine exec_keeps (P := fun w => ∃ d, installed w = some (b ++ d)) (fun _ _ _ => id) (fun _ => id) hu
    ⟨[], by rw [List.append_nil]; exact hb⟩ fun ha => ?_
  have hs := hinv.encode ((admitted_enc (.inl rfl)).1 ha)
  exact bind_ends_pure (easyFlush_extends hs hb) fun _ _ h => Micro.ends_done h

/-- No command changes CAP, LW or the host's moves (R8, R289). -/
theorem exec_cap_lw_host {i : Instr} {s u : State} (hu : exec i s = .next u) :
    u.cap = s.cap ∧ u.lw = s.lw ∧ u.host = s.host := by
  obtain ⟨w, st, v, hf, rfl | rfl⟩ := exec_frame hu <;> exact ⟨hf.cap, hf.lw, hf.host⟩

/-- Reading the installed buffer (R30, R50). -/
theorem readByte_installed {s : State} {b : Buffer} {sid : Nat} (hb : installed s = some b) (h : isInstalled sid s = true)
    (off : Nat) : readByte s sid off = b[off]? := by
  obtain ⟨hd, hcur, hsm⟩ := installed_eq_some.1 hb
  obtain rfl : hd.toNat = sid := by unfold isInstalled at h; simpa [hcur] using h
  unfold readByte
  rw [hsm, Option.bind_some]

/-- A command that keeps the handle extends or cuts short the installed buffer (R63). -/
theorem installed_extended_or_cut {i : Instr} {s u : State} {b : Buffer} (hu : exec i s = .next u) (hcur : u.cur = s.cur)
    (hb : installed s = some b) : ∃ c, installed u = some c ∧ (b <+: c ∨ c <+: b) := by
  obtain ⟨hd, hhd, hsm⟩ := installed_eq_some.1 hb
  obtain ⟨c, hc, hprefix⟩ := noByteIsRewritten i s u _ b hu hsm
  exact ⟨c, installed_eq_some.2 ⟨hd, hcur.trans hhd, hc⟩, hprefix⟩

/-- Of two lists one of which begins the other, both have the same element where both have one. -/
theorem getElem?_of_prefix_or {b e : Buffer} {n : Nat} {v : Byte} (h : b <+: e ∨ e <+: b) (hn : n < b.length)
    (hv : e[n]? = some v) : b[n]? = some v := by
  rcases h with ⟨d, rfl⟩ | ⟨d, rfl⟩
  · rwa [List.getElem?_append_left hn] at hv
  · rwa [List.getElem?_append_left (List.getElem?_eq_some_iff.1 hv).1]

/-- Settles O37: no flush touches A or the contexts, and none reaches another buffer; TERME only appends, and what TERMO
leaves begins the old stream or is begun by it. -/
theorem terminationFrame : Obligations.TerminationFrame := by
  intro s u i b hi hinv hb hu
  have hcur := termination_handle hi hu
  have hinstalled := isInstalled_congr hcur
  obtain ⟨hcap, hlw, hhost⟩ := exec_cap_lw_host hu
  have hnotChstr : ∀ h, i ≠ .chstr 1 h := fun h hc => by rcases hi with hi | hi <;> rw [hi] at hc <;> cases hc
  refine ⟨termination_width hi hu, termination_contexts hi hu, hcur, hcap, hlw, hhost, fun sid off hfree => ?_,
    fun hterme sid off hsid hoff => ?_, fun sid off v hsid hoff hv => ?_⟩
  · have hsm := onlyInstalledBufferChanges i s u sid hu hfree fun h hc => absurd hc (hnotChstr h)
    unfold readByte
    rw [hsm]
  · subst hterme
    obtain ⟨d, hd⟩ := terme_extends hinv hb hu
    rw [readByte_installed hd ((hinstalled sid).trans hsid), readByte_installed hb hsid, List.getElem?_append_left hoff]
  · obtain ⟨c, hc, hprefix⟩ := installed_extended_or_cut hu hcur hb
    rw [readByte_installed hc ((hinstalled sid).trans hsid)] at hv
    rw [readByte_installed hb hsid]
    exact getElem?_of_prefix_or hprefix hoff hv

end Sys2Proof.Machine

/-! ## The two terminations (R200 to R204) -/

namespace Sys2Proof.Machine

/-! ### The rule of a termination and its command -/

theorem exec_terme_of_done {s w : State} (hmode : s.mode = .enc) (h : easyFlush s = .done () w) :
    exec .terme s = .next (respond .ok 0 (toIdle w)) :=
  exec_of_done ((admitted_enc (.inl rfl)).2 hmode) (by unfold rule; dsimp only; rw [h, bind_done])

theorem exec_termo_of_done {s w : State} (hmode : s.mode = .enc) (h : optimalFlush s = .done () w) :
    exec .termo s = .next (respond .ok 0 (toIdle w)) :=
  exec_of_done ((admitted_enc (.inr (.inl rfl))).2 hmode) (by unfold rule; dsimp only; rw [h, bind_done])

/-- TERME answers OK only where its flush ends. -/
theorem easyFlush_of_exec_terme {s v : State} (h : exec .terme s = .next v) (hok : v.responses = s.responses ++ [0]) :
    ∃ w, easyFlush s = .done () w ∧ v = respond .ok 0 (toIdle w) := by
  obtain ⟨-, w, hw, rfl, -⟩ := exec_ok (v := 0) h hok
  obtain ⟨⟨⟩, x, hx, hxw⟩ := bind_eq_done.1 hw
  cases hxw
  exact ⟨x, hx, rfl⟩

/-! ### An easy flush ends where there is room (R61, R200) -/

theorem RoomFor.mono {j k : Nat} {s : State} (h : RoomFor k s) (hjk : j ≤ k) : RoomFor j s := by
  obtain ⟨b, hb, hcap⟩ := h
  exact ⟨b, hb, fun c hc => by have := hcap c hc; omega⟩

theorem PositionRoom.mono {j k : Nat} {s : State} (h : PositionRoom k s) (hjk : j ≤ k) : PositionRoom j s := by
  unfold PositionRoom at h ⊢; omega

/-- An easy flush needs no more room, in the stream and in L, than it has transfers. -/
theorem easyFlush_completes {s : State} {b : Buffer} (hs : EncodeInv s) (hb : installed s = some b)
    (hroom : RoomFor (easyBound s.t.toNat) s) (hpos : PositionRoom (easyBound s.t.toNat) s) :
    ∃ (w : State) (d : Buffer), easyFlush s = .done () w ∧ Flushed s w b d (easyBound s.t.toNat) := by
  rcases easyFlush_cases hs hb with ⟨w, d, hw, hf⟩ | ⟨w, -, habort⟩ | ⟨-, hover⟩
  · exact ⟨w, d, hw, hf⟩
  · obtain ⟨e, he, -, c, hc, hfull⟩ := habort.stream
    obtain ⟨b', hb', hcap⟩ := hroom
    cases hb.symm.trans hb'
    have := hcap c hc
    rw [List.length_append] at hfull
    omega
  · unfold PositionRoom at hpos
    omega

/-- Settles O34: the flush ends after three transfers at most, and what it appends is a point of the interval. -/
theorem termeCompletes : Obligations.TermeCompletes := by
  intro s b hmode hs hb hroom hpos
  have hbound := easyBound_le hs.countLow
  obtain ⟨w, d, hw, hf⟩ := easyFlush_completes hs hb (hroom.mono hbound) (hpos.mono hbound)
  have hhigh : w.L ≤ s.L + 3 := hf.positionHigh.trans (by omega)
  refine ⟨_, d, exec_terme_of_done hmode hw, congrArg (· ++ _) hf.frame.responses, rfl, hf.stream, hf.short.trans hbound,
    hf.positionLow, hhigh, hf.count, fun hm => ?_⟩
  obtain ⟨hlow, hin, -⟩ := hf.point hs hm
  exact ⟨hlow, hin⟩

/-- Settles O35: the flush is TERME's; what follows it only reads and cuts. -/
theorem termoKeepsPrefixOfTerme : Obligations.TermoKeepsPrefixOfTerme := by
  intro s b hmode hs hb hroom hpos
  have hbound := easyBound_le hs.countLow
  obtain ⟨w, d, hw, hf⟩ := easyFlush_completes hs hb (hroom.mono hbound) (hpos.mono hbound)
  obtain ⟨k, n, hmin, hk, htrim, hn, hcut, hfewest, hwhole⟩ := optimalFlush_point hb hw hf (hf.short.trans hbound) hs
  have hframe := hf.frame.trans (StreamFrame.setInstalled ((b ++ d).take n) w)
  exact ⟨_, w, d, k, n, hw, exec_terme_of_done hmode hw, hf.stream, hmin, hk, htrim, hn, exec_termo_of_done hmode hcut, rfl,
    congrArg (· ++ _) hframe.responses, rfl, hfewest, hwhole⟩

/-! ### What TERMO leaves of TERME's stream (R203, R204) -/

/-- `d` is what an optimal termination may leave where an easy one leaves `c`: a prefix that does not end with `FF 7F`, nor
with a `0xFF` but where another `0xFF` followed. -/
structure Trimmed (c d : Buffer) : Prop where
  kept : d <+: c
  pair : ¬ [0xFF, 0x7F] <:+ d
  ones : ∀ a : Buffer, d = a ++ [0xFF] → ∃ rest, c = a ++ 0xFF :: 0xFF :: rest

/-- The last two bytes as `post_trim` tests them. -/
theorem trimmed_append {d r : Buffer}
    (hpair : ¬ (2 ≤ d.length ∧ (d ++ r)[d.length - 2]? = some 0xFF ∧ (d ++ r)[d.length - 1]? = some 0x7F))
    (hones : 1 ≤ d.length → (d ++ r)[d.length - 1]? = some 0xFF → (d ++ r)[d.length]? = some 0xFF) :
    Trimmed (d ++ r) d where
  kept := List.prefix_append d r
  pair := by
    rintro ⟨a, rfl⟩
    exact hpair (by simp)
  ones := by
    rintro a rfl
    have hr := hones (by simp) (by simp)
    rw [List.getElem?_append_right (le_refl _), Nat.sub_self] at hr
    cases r with
    | nil => cases hr
    | cons v rest => cases hr; exact ⟨rest, by simp⟩

/-- In a stream without markers no `0xFF` follows a `0xFF`, so the trim leaves none at the end. -/
theorem Trimmed.last_ne {c d : Buffer} (h : Trimmed c d) (hc : MarkerFree c) : d.getLast? ≠ some 0xFF := by
  intro hlast
  obtain ⟨a, ha⟩ := List.getLast?_eq_some_iff.1 hlast
  obtain ⟨rest, rfl⟩ := h.ones a ha
  have hlow : (0xFF : Byte) ≤ 0x8F := hc a.length 0xFF (by simp) (by simp)
  exact absurd hlow (by decide)

/-- An optimal flush leaves what the trim leaves of the easy one's stream. -/
theorem optimalFlush_trimmed {s w : State} {b c : Buffer} (hb : installed s = some b) (hw : easyFlush s = .done () w)
    (hc : installed w = some c) (hbc : b.length ≤ c.length) :
    ∃ d, optimalFlush s = .done () (setInstalled d w) ∧ Trimmed c d := by
  obtain ⟨k, hk, hle, hpair, hones⟩ := optimalFlush_tail hb hw hc hbc
  refine ⟨_, hk, ?_⟩
  have hlen : (c.take k).length = k := List.length_take_of_le hle
  have htrim := trimmed_append (d := c.take k) (r := c.drop k)
  rw [List.take_append_drop, hlen] at htrim
  exact htrim hpair hones

/-- A buffer is installed after a flush only where one was before it. -/
theorem StreamFrame.installed_before {s u : State} {c : Buffer} (h : StreamFrame s u) (hc : installed u = some c) :
    ∃ b, installed s = some b := by
  obtain ⟨hd, hcur, hsm⟩ := installed_eq_some.1 hc
  have hlt := (List.getElem?_eq_some_iff.1 hsm).1
  rw [h.smLength] at hlt
  exact ⟨_, installed_eq_some.2 ⟨hd, h.cur.symm.trans hcur, List.getElem?_eq_getElem hlt⟩⟩

/-- TERMO leaves what the trim leaves of TERME's stream. -/
theorem termo_trims_terme {s u v : State} {c d : Buffer} (hmode : s.mode = .enc) (hs : EncodeInv s)
    (hu : exec .termo s = .next u) (hv : exec .terme s = .next v) (hok : v.responses = s.responses ++ [0])
    (hd : installed u = some d) (hc : installed v = some c) : Trimmed c d := by
  obtain ⟨w, hw, rfl⟩ := easyFlush_of_exec_terme hv hok
  have hcw : installed w = some c := hc
  obtain ⟨b, hb⟩ := ((easyFlush_frame s).1 _ _ hw).frame.installed_before hcw
  have hbc : b.length ≤ c.length := by
    obtain ⟨e, he⟩ := (easyFlush_extends hs hb).1 _ _ hw
    cases hcw.symm.trans he
    simp
  obtain ⟨d', hd', htrim⟩ := optimalFlush_trimmed hb hw hcw hbc
  rw [exec_termo_of_done hmode hd'] at hu
  cases hu
  cases (installed_setInstalled hcw d').symm.trans hd
  exact htrim

/-- TERME leaves no marker in a stream that the message begins. -/
theorem terme_markerFree {s v : State} {b c : Buffer} (hs : EncodeInv s) (hm : NoMarker s)
    (hv : exec .terme s = .next v) (hok : v.responses = s.responses ++ [0]) (hb : installed s = some b)
    (hL : b.length = s.L.toNat) (hc : installed v = some c) : MarkerFree c := by
  obtain ⟨w, hw, rfl⟩ := easyFlush_of_exec_terme hv hok
  rcases easyFlush_cases hs hb with ⟨x, d, hx, hf⟩ | ⟨x, hx, -⟩ | ⟨hx, -⟩ <;> rw [hw] at hx <;> cases hx
  cases hf.stream.symm.trans hc
  obtain ⟨-, -, hfree, -⟩ := hf.point hs hm
  rwa [messageBytes_whole hb hL] at hfree

/-- Settles O36: TERMO's stream is a trimmed prefix of TERME's, and that holds no marker where the message begins it. -/
theorem termoTrims : Obligations.TermoTrims := by
  intro s u v c d hmode hs hu hv hok hd hc
  have htrim := termo_trims_terme hmode hs hu hv hok hd hc
  refine ⟨fun d' c' hd' hc' => ?_, fun ⟨a, ha⟩ => htrim.pair ⟨a, ha.symm⟩, htrim.ones, fun b hm hb hL d' hd' => ?_⟩
  · obtain ⟨u', hu', -, hd'⟩ := terminatedStream_eq_some.1 hd'
    obtain ⟨v', hv', hok', hc'⟩ := terminatedStream_eq_some.1 hc'
    exact (termo_trims_terme hmode hs hu' hv' hok' hd' hc').kept.length_le
  · obtain ⟨u', hu', -, hd'⟩ := terminatedStream_eq_some.1 hd'
    have htrim' := termo_trims_terme hmode hs hu' hv hok hd' hc
    exact ⟨htrim'.last_ne (terme_markerFree hs hm hv hok hb hL hc), htrim'.pair⟩

end Sys2Proof.Machine

/-! ## The host's probability helpers (R230, R231, R232) -/

namespace Sys2Proof.Machine

/-! ### What each branch of the helpers computes -/

/-- R230 where 0 is at least as likely as 1: the probability of the symbol 1, clamped, in units. -/
theorem prob0ToMq_of_half_le {p : Rat} (h : 1 / 2 ≤ p) : prob0ToMq p = ⌊(1 - min p (9999 / 10000)) * mqScale⌋ := if_pos h

/-- R230 where 1 is likelier: the probability of the symbol 0, clamped, in units, and negated. -/
theorem prob0ToMq_of_lt_half {p : Rat} (h : p < 1 / 2) : prob0ToMq p = -⌊max p (1 / 10000) * mqScale⌋ :=
  if_neg (not_le.2 h)

theorem mqScale_eq : mqScale = 131072 / 3 := by unfold mqScale; norm_num

theorem mqToProb0_of_pos {q : Int} (h : 0 < q) : mqToProb0 q = 1 - 3 * q / 131072 := by
  unfold mqToProb0; rw [if_pos h]; norm_num

theorem mqToProb0_of_nonpos {q : Int} (h : q ≤ 0) : mqToProb0 q = -(3 * q / 131072) := by
  unfold mqToProb0; rw [if_neg (not_lt.2 h)]; norm_num

/-! ### The clamp and the range of `prob0_to_mq` -/

theorem prob0ToMq_of_clamp_le {p : Rat} (h : 9999 / 10000 ≤ p) : prob0ToMq p = 4 := by
  rw [prob0ToMq_of_half_le (by linarith), min_eq_right h, mqScale_eq]; norm_num

theorem prob0ToMq_of_le_clamp {p : Rat} (h : p ≤ 1 / 10000) : prob0ToMq p = -4 := by
  rw [prob0ToMq_of_lt_half (by linarith), max_eq_right h, mqScale_eq]; norm_num

/-- Settles O55: the two clamp rows, and the rows between them by computation. -/
theorem prob0ToMqValues : Obligations.Prob0ToMqValues := by
  refine ⟨?_, ?_, ?_, ?_, fun p => prob0ToMq_of_clamp_le, fun p => prob0ToMq_of_le_clamp, ?_⟩
  · rw [prob0ToMq_of_lt_half (by norm_num), mqScale_eq]; norm_num
  all_goals rw [prob0ToMq_of_half_le (by norm_num), mqScale_eq]; norm_num

/-- The clamped probability of the rarer symbol, in units: one ten-thousandth is 4.37 units, one half 21845.33. -/
theorem floor_scaled_range {r : Rat} (hlow : 1 / 10000 ≤ r) (hhigh : r ≤ 1 / 2) :
    4 ≤ ⌊r * mqScale⌋ ∧ ⌊r * mqScale⌋ ≤ 21845 := by
  rw [mqScale_eq, Int.le_floor, ← Int.lt_add_one_iff, Int.floor_lt]
  push_cast
  constructor <;> linarith

theorem prob0ToMq_range_of_half_le {p : Rat} (h : 1 / 2 ≤ p) : 4 ≤ prob0ToMq p ∧ prob0ToMq p ≤ 21845 := by
  rw [prob0ToMq_of_half_le h]
  have hlow : 1 / 2 ≤ min p (9999 / 10000) := le_min h (by norm_num)
  have hhigh : min p (9999 / 10000) ≤ 9999 / 10000 := min_le_right _ _
  exact floor_scaled_range (by linarith) (by linarith)

theorem prob0ToMq_range_of_lt_half {p : Rat} (h : p < 1 / 2) : -21845 ≤ prob0ToMq p ∧ prob0ToMq p ≤ -4 := by
  rw [prob0ToMq_of_lt_half h]
  have hrange := floor_scaled_range (le_max_right p (1 / 10000)) (max_le h.le (by norm_num))
  omega

theorem natAbs_prob0ToMq_range (p : Rat) : 4 ≤ (prob0ToMq p).natAbs ∧ (prob0ToMq p).natAbs ≤ 21845 := by
  rcases le_or_gt (1 / 2) p with h | h
  · have := prob0ToMq_range_of_half_le h; omega
  · have := prob0ToMq_range_of_lt_half h; omega

/-- Settles O56: the clamp keeps the magnitude from 4 to 21845, and these are legal. -/
theorem prob0ToMqRange : Obligations.Prob0ToMqRange := by
  refine ⟨fun p => prob0ToMq_range_of_half_le, fun p => prob0ToMq_range_of_lt_half, fun p => legal_prob.2 ?_⟩
  have hrange := natAbs_prob0ToMq_range p
  rw [magnitudeOf_toNat (by omega)]; omega

/-! ### There and back -/

/-- The floor takes less than one unit off the probability of the rarer symbol. -/
theorem floor_scaled_back (r : Rat) : 3 * ⌊r * mqScale⌋ / 131072 ≤ r ∧ r - 3 / 131072 < 3 * ⌊r * mqScale⌋ / 131072 := by
  have hle := Int.floor_le (r * mqScale)
  have hlt := Int.lt_floor_add_one (r * mqScale)
  generalize (⌊r * mqScale⌋ : Rat) = n at hle hlt ⊢
  rw [mqScale_eq] at hle hlt
  constructor <;> linarith

theorem mqToProb0_prob0ToMq_of_half_le {p : Rat} (h : 1 / 2 ≤ p) (hclamp : p ≤ 9999 / 10000) :
    p ≤ mqToProb0 (prob0ToMq p) ∧ mqToProb0 (prob0ToMq p) < p + 3 / 131072 := by
  have hpos : 0 < prob0ToMq p := by have := prob0ToMq_range_of_half_le h; omega
  rw [mqToProb0_of_pos hpos, prob0ToMq_of_half_le h, min_eq_left hclamp]
  obtain ⟨hle, hlt⟩ := floor_scaled_back (1 - p)
  constructor <;> linarith

theorem mqToProb0_prob0ToMq_of_lt_half {p : Rat} (hclamp : 1 / 10000 ≤ p) (h : p < 1 / 2) :
    p - 3 / 131072 < mqToProb0 (prob0ToMq p) ∧ mqToProb0 (prob0ToMq p) ≤ p := by
  have hneg : prob0ToMq p ≤ 0 := by have := prob0ToMq_range_of_lt_half h; omega
  rw [mqToProb0_of_nonpos hneg, prob0ToMq_of_lt_half h, max_eq_left hclamp]
  obtain ⟨hle, hlt⟩ := floor_scaled_back p
  push_cast
  constructor <;> linarith

/-- Settles O57: both branches, the values by computation, and the way back on each side of one half. -/
theorem mqToProb0UndoesFloor : Obligations.MqToProb0UndoesFloor := by
  refine ⟨fun q => mqToProb0_of_pos, fun q => mqToProb0_of_nonpos, ?_, ?_, ?_, fun p => mqToProb0_prob0ToMq_of_half_le,
    fun p => mqToProb0_prob0ToMq_of_lt_half⟩
  · rw [mqToProb0_of_pos (by norm_num)]; norm_num
  · rw [mqToProb0_of_nonpos (by norm_num)]; norm_num
  · rw [mqToProb0_of_pos (by norm_num)]; norm_num

/-! ### Any evaluation within one unit (R232) -/

theorem exactEvaluation_legal : LegalEvaluation exactEvaluation where
  sign _ := rfl
  above _ := Nat.le_succ _
  below _ := Nat.le_succ _
  back q := by
    show |mqToProb0 q - mqToProb0 q| ≤ 3 / 131072
    rw [sub_self, abs_zero]; norm_num

/-- One unit off the exact value leaves every operand between 3 and 21846. -/
theorem LegalEvaluation.natAbs_range {e : Config.HostEvaluation} (h : LegalEvaluation e) (p : Rat) :
    3 ≤ (e.prob0ToMq p).natAbs ∧ (e.prob0ToMq p).natAbs ≤ 21846 := by
  have hexact := natAbs_prob0ToMq_range p
  have habove := h.above p
  have hbelow := h.below p
  omega

/-- The symbol a host means by a bit and its probability to be 0 (R230, R73). -/
def Symbol.ofProb0 (e : Config.HostEvaluation) (m : Bit × Rat) : Symbol :=
  .probability m.1 (signOf (e.prob0ToMq m.2)) (magnitudeOf (e.prob0ToMq m.2))

theorem Symbol.encoding_ofProb0 (e : Config.HostEvaluation) :
    Symbol.encoding ∘ Symbol.ofProb0 e = fun m => encodeProb0 e m.1 m.2 := rfl

theorem Symbol.decoding_ofProb0 (e : Config.HostEvaluation) :
    Symbol.decoding ∘ Symbol.ofProb0 e = fun m => decodeProb0 e m.2 := rfl

theorem Symbol.bit_ofProb0 (e : Config.HostEvaluation) : Symbol.bit ∘ Symbol.ofProb0 e = Prod.fst := rfl

/-- Whatever the evaluation, a message of probabilities decodes to its bits: it is a message of `roundTrip`. -/
theorem prob0_message_decodes (e : Config.HostEvaluation) {s u d : State} {msg : List (Bit × Rat)} {i : Instr} {c : Buffer}
    (hi : i = .terme ∨ i = .termo) (hs : installed s = some [])
    (hu : execAll (.rstenc :: msg.map (fun m => encodeProb0 e m.1 m.2) ++ [i]) s = some u)
    (hok : u.responses = s.responses ++ List.replicate (msg.length + 2) 0) (hc : installed u = some c)
    (hd : installed d = some c) (hctx : d.ctx = s.ctx) (hlw : c.length ≤ positionMax d.lw) :
    ∃ v : State, execAll (.rstdec :: msg.map fun m => decodeProb0 e m.2) d = some v ∧
      v.responses = d.responses ++ 0 :: msg.map fun m => responseWord .ok (m.1.setWidth 3) := by
  have hencoded : encodeMessage i (msg.map (Symbol.ofProb0 e)) s = some c := by
    refine encodeMessage_eq_some.2 ⟨u, ?_, ?_, hc⟩
    · rw [List.map_map, Symbol.encoding_ofProb0]; exact hu
    · rw [List.length_map]; exact hok
  have hdecoded := roundTrip s d (msg.map (Symbol.ofProb0 e)) i hi hs c hencoded hd hctx hlw
  rw [List.map_map, Symbol.bit_ofProb0] at hdecoded
  obtain ⟨v, hv, hresponses⟩ := decodeMessage_eq_some.1 hdecoded
  rw [List.map_map, Symbol.decoding_ofProb0] at hv
  rw [List.map_map] at hresponses
  exact ⟨v, hv, hresponses⟩

/-- Settles O60: within one unit the operands stay legal, and the bits come back since both sides use one evaluation. -/
theorem hostEvaluationIsOpen : Obligations.HostEvaluationIsOpen := by
  refine ⟨exactEvaluation_legal, fun e he => ⟨fun x p => ⟨signOf (e.prob0ToMq p), magnitudeOf (e.prob0ToMq p), rfl, rfl, ?_⟩,
    fun s u d msg i c => prob0_message_decodes e⟩⟩
  obtain ⟨hlow, hhigh⟩ := he.natAbs_range p
  have hsmall : (e.prob0ToMq p).natAbs ≤ 0xFFFF := by omega
  obtain ⟨hsigned, -, -⟩ := probabilitySignAndMagnitude.1 _ hsmall
  rw [magnitudeOf_toNat hsmall]
  exact ⟨by omega, by omega, hsigned⟩

end Sys2Proof.Machine

/-! ## Refusals (R243, R244) -/

namespace Sys2Proof.Machine

/-- In the wrong mode a command only answers `BadSequence` (R180, R243). -/
theorem exec_badSequence {i : Instr} {m : Mode} {s : State} (hi : modeNeeded i = some m) (h : s.mode ≠ m) :
    exec i s = .next (answerOnly 0x40000000 s) :=
  exec_refused_by (refused_by_mode hi h)

/-- Once the mode and the stream have passed, an operand out of range is only answered with its status (R180, R243). -/
theorem exec_operand_refused {i : Instr} {m : Mode} {s : State} {st : Status} (hi : modeNeeded i = some m)
    (hmode : s.mode = m) (hstream : streamAdmits i s = true) (h : operandRefusal i s = some st) :
    exec i s = .next (refuseWith st s) :=
  exec_refused_by (refused_by_operand (modeAdmits_of hi hmode) hstream h)

/-- A probability that is 0 or above `0x7FFF` is not legal (R175, R105). -/
theorem probLegal_ne_true {p : BitVec 16} (h : p.toNat = 0 ∨ 0x7FFF < p.toNat) : ¬ probLegal p = true := by
  rw [legal_prob]; omega

/-- Settles O11: each condition of R243 fails the check of its own step, the checks before it having passed. -/
theorem refusalsChangeNothing : Obligations.RefusalsChangeNothing := by
  refine fun s => ⟨fun w hw => takeCommand_illegal hw s, fun hmode => ?_, fun hmode => ?_, fun hcur => ?_,
    fun z sid h => (chstrInstalls s sid).2 h z, fun x c hmode hc => ?_, fun c hmode hc => ?_, fun x g p hmode hp => ?_,
    fun g p hmode hp => ?_⟩
  · exact ⟨fun _ _ => exec_badSequence rfl hmode, fun _ _ _ => exec_badSequence rfl hmode, exec_badSequence rfl hmode,
      exec_badSequence rfl hmode, exec_badSequence rfl hmode⟩
  · exact ⟨fun _ => exec_badSequence rfl hmode, fun _ _ => exec_badSequence rfl hmode⟩
  · exact ⟨exec_restart_refused (.inl rfl) hcur, exec_restart_refused (.inr rfl) hcur⟩
  · exact exec_operand_refused (i := .encctx x c) rfl hmode rfl (if_neg (Nat.not_lt.2 hc))
  · exact exec_operand_refused (i := .decctx c) rfl hmode rfl (if_neg (Nat.not_lt.2 hc))
  · exact exec_operand_refused (i := .encprb x g p) rfl hmode rfl (if_neg (probLegal_ne_true hp))
  · exact exec_operand_refused (i := .decprb g p) rfl hmode rfl (if_neg (probLegal_ne_true hp))

end Sys2Proof.Machine

/-! ## The execution errors (R240, R241, R242, R245) -/

namespace Sys2Proof.Machine

/-! ### A coding command whose step raises -/

theorem exec_encprb_of_raised {x g : Bit} {p : BitVec 16} {e : ExecError} {s u : State} (hmode : s.mode = .enc)
    (hp1 : 1 ≤ p.toNat) (hp2 : p.toNat ≤ 0x7FFF) (h : encStep p g x none s = .raised e u) :
    exec (.encprb x g p) s = .next (takeError e u) :=
  exec_of_raised (admitted_encprb.2 ⟨hmode, hp1, hp2⟩) (by unfold rule; dsimp only; rw [h, bind_raised])

theorem exec_encctx_of_raised {x : Bit} {c : BitVec 16} {k : Context} {e : ExecError} {s u : State} (hmode : s.mode = .enc)
    (hk : s.ctx[c.toNat]? = some k) (h : encStep (stateProb k.state) k.mps x (some c.toNat) s = .raised e u) :
    exec (.encctx x c) s = .next (takeError e u) :=
  exec_of_raised (admitted_encctx.2 ⟨hmode, (contextAt_of_some hk).1⟩) (by rw [rule_encctx hk, h, bind_raised])

theorem exec_decprb_of_raised {g : Bit} {p : BitVec 16} {e : ExecError} {s u : State} (hmode : s.mode = .dec)
    (hp1 : 1 ≤ p.toNat) (hp2 : p.toNat ≤ 0x7FFF) (h : decStep p g none s = .raised e u) :
    exec (.decprb g p) s = .next (takeError e u) :=
  exec_of_raised (admitted_decprb.2 ⟨hmode, hp1, hp2⟩) (by unfold rule; dsimp only; rw [h, bind_raised])

theorem exec_decctx_of_raised {c : BitVec 16} {k : Context} {e : ExecError} {s u : State} (hmode : s.mode = .dec)
    (hk : s.ctx[c.toNat]? = some k) (h : decStep (stateProb k.state) k.mps (some c.toNat) s = .raised e u) :
    exec (.decctx c) s = .next (takeError e u) :=
  exec_of_raised (admitted_decctx.2 ⟨hmode, (contextAt_of_some hk).1⟩) (by rw [rule_decctx hk, h, bind_raised])

/-- Taking an error, written out (R245). -/
theorem takeError_eq (e : ExecError) (s : State) :
    takeError e s = { s with mode := .idle, responses := s.responses ++ [responseWord (errorStatus e) 0] } := rfl

/-! ### t shifts -/

theorem shiftOnce_shiftBy (k : Nat) (s : State) : shiftOnce (shiftBy k s) = shiftBy (k + 1) s := by
  have hA : s.A <<< k <<< 1 = s.A <<< (k + 1) := (BitVec.shiftLeft_add s.A k 1).symm
  have hC : s.C <<< k <<< 1 = s.C <<< (k + 1) := (BitVec.shiftLeft_add s.C k 1).symm
  have ht : s.t - BitVec.ofNat 4 k - 1 = s.t - BitVec.ofNat 4 (k + 1) := by rw [BitVec.ofNat_add, BitVec.sub_sub]; rfl
  unfold shiftBy shiftOnce
  dsimp only
  rw [hA, hC, ht]

/-- As many shifts as t counts bring it to 0. -/
theorem shiftBy_all (s : State) :
    shiftBy s.t.toNat s = { s with A := s.A <<< s.t.toNat, C := s.C <<< s.t.toNat, t := 0 } := by
  unfold shiftBy
  rw [BitVec.ofNat_toNat, BitVec.setWidth_eq, BitVec.sub_self]
  rfl

/-! ### `InvalidMarker` -/

/-- Where t shifts leave A below `0x8000` the decoder's loop comes to a fill, and fails as that fill does (R104). -/
theorem renormDec_fill_raised {s u : State} {e : ExecError} (hA : s.A.toNat * 2 ^ s.t.toNat < 0x8000)
    (hfill : fillLsb (shiftBy s.t.toNat s) = .raised e u) : renormDec renormFuel s = .raised e u := by
  have hcount := s.t.isLt
  have hfuel : renormFuel = 15 - s.t.toNat + 1 + s.t.toNat := by unfold renormFuel; omega
  have hwide : s.A.toNat * 2 ^ s.t.toNat < 0x10000 := by omega
  have hempty : (shiftBy s.t.toNat s).t = 0 := by rw [shiftBy_all]
  rw [hfuel, renormDec_shiftBy _ _ _ (le_refl _) hwide, renormDec_fill (by rw [shiftBy_width hwide]; exact hA) hempty,
    hfill, bind_raised]

theorem decStep_of_renormDec_raised {p : BitVec 16} (hp : p.toNat ≤ 0x7FFF) {mps : Bit} {cx : Option Nat} {s u : State}
    {A : BitVec 16} {C : Word} {e : ExecError} (h : WindowInterval p s A C)
    (hu : renormDec renormFuel { s with
      A := A, C := C, ctx := adaptedContexts p mps (symbolRead s.A p mps s.C) cx s } = .raised e u) :
    decStep p mps cx s = .raised e u := by
  unfold decStep
  rw [decUpdate_eq hp h, hu, bind_raised]

/-- A decoder step that comes to its first fill at a marker: t shifts are made, ones go into C, and nothing is read (R103,
R104, R133 corner b). -/
theorem decStep_marker {s : State} {b : Buffer} {n : Nat} {v : Byte} {p A : BitVec 16} {C : Word}
    (hb : installed s = some b) (hn : s.L = n) (hv : b[n]? = some v) (hmark : 0x8F < v) (hT : s.Tr = 0xFF)
    (hp : p.toNat ≤ 0x7FFF) (mps : Bit) (cx : Option Nat) (h : WindowInterval p s A C)
    (hA : A.toNat * 2 ^ s.t.toNat < 0x8000) :
    decStep p mps cx s = .raised .invalidMarker { s with
      A := A <<< s.t.toNat, C := (C <<< s.t.toNat) + 0xFF, t := 8,
      ctx := adaptedContexts p mps (symbolRead s.A p mps s.C) cx s } := by
  obtain ⟨hlt, rfl⟩ := List.getElem?_eq_some_iff.1 hv
  exact decStep_of_renormDec_raised hp h (renormDec_fill_raised hA (fillLsb_marker hb hn hlt hT hmark))

/-- Where `InvalidMarker` is answered the rule stopped at a marker (R241). -/
theorem exec_invalidMarker {i : Instr} {s u : State} (hinv : BlockInv s) (hu : exec i s = .next u)
    (hr : u.responses = s.responses ++ [0x10000000]) :
    (i = .rstdec ∨ (∃ c, i = .decctx c) ∨ ∃ g p, i = .decprb g p) ∧ u.mode = .idle ∧
      ∃ b, installed u = some b ∧ AtMarker u b := by
  obtain ⟨ha, e, w, hw, rfl, he⟩ := raised_of (st := .invalidMarker) hu hr (.inl rfl)
  rcases rule_raises hinv ha hw with ⟨rfl, hi, b, hb, hmark⟩ | ⟨rfl, -, -⟩
  · exact ⟨hi, rfl, b, hb, ⟨hmark.count, hmark.tr, hmark.marker⟩⟩
  · cases he

/-- Settles O48: an error response comes from the rule, and only the fill of a decoding rule raises this one; conversely the
first fill is met after t shifts and finds the marker. -/
theorem invalidMarkerCondition : Obligations.InvalidMarkerCondition := by
  refine ⟨fun i s u hinv hu hr => ?_, fun s b n v hmode _ hb hn hv hmark hT => ⟨?_, ?_⟩⟩
  · obtain ⟨hi, hidle, b, hb, hcount, htr, n, v, hL, hv, hmark⟩ := exec_invalidMarker hinv hu hr
    exact ⟨hi, hidle, hcount, htr, b, n, v, hb, hL, hv, hmark⟩
  · intro g p A C hp1 hp2 hreached hbelow hA
    rw [exec_decprb_of_raised hmode hp1 hp2 (decStep_marker hb hn hv hmark hT hp2 g none ⟨hreached, hbelow⟩ hA),
      adaptedContexts_none]
    rfl
  · rintro c e _ A C he rfl hreached hbelow hA
    rw [exec_decctx_of_raised hmode he
      (decStep_marker hb hn hv hmark hT (stateProb_legal _).2 e.mps (some c.toNat) ⟨hreached, hbelow⟩ hA),
      adaptedContexts_some he]
    rfl

/-! ### `StreamIO` -/

/-- The carry step reads and writes Tr and C only (R131). -/
theorem afterCarry_with (s : State) (A : BitVec 16) (t : BitVec 4) (x : List Context) :
    afterCarry { s with A := A, t := t, ctx := x } = { afterCarry s with A := A, t := t, ctx := x } := by
  unfold afterCarry; dsimp only; split <;> rfl

theorem bufferFull_of_cap {cap : Option Nat} {n : Nat} (h : cap = some n) : bufferFull cap n = true := by
  rw [h]; exact decide_eq_true (le_refl n)

section Full
variable {s : State} {b : Buffer}

/-- Where the shift that brings t to 0 is due, the encoder's loop comes to a transfer, and fails where that cannot append
(R102, R131). -/
theorem renormEnc_full (hb : installed s = some b) (hcap : s.cap = some b.length) (happend : s.Tr = 0xFF ∨ 0 ≤ s.L)
    (ht : 1 ≤ s.t.toNat) (hA : s.A.toNat * 2 ^ (s.t.toNat - 1) < 0x8000) :
    renormEnc renormFuel s =
      .raised .streamIO (afterCarry { s with A := s.A <<< s.t.toNat, C := s.C <<< s.t.toNat, t := 0 }) := by
  have hcount := s.t.isLt
  have hfuel : renormFuel = 16 - s.t.toNat + 1 + (s.t.toNat - 1) := by unfold renormFuel; omega
  have hwide : s.A.toNat * 2 ^ (s.t.toNat - 1) < 0x10000 := by omega
  have hlast : shiftOnce (shiftBy (s.t.toNat - 1) s) = shiftBy s.t.toNat s := by
    rw [shiftOnce_shiftBy, Nat.sub_add_cancel ht]
  have hempty : (shiftOnce (shiftBy (s.t.toNat - 1) s)).t = 0 := by rw [hlast, shiftBy_all]
  rw [hfuel, renormEnc_shiftBy _ _ _ (by omega) hwide, renormEnc_transfer (by rw [shiftBy_width hwide]; exact hA) hempty,
    hlast, transferByte_full (s := shiftBy s.t.toNat s) hb (bufferFull_of_cap hcap) happend, bind_raised, shiftBy_all]

/-- An encoder step whose first transfer cannot append: t shifts and the carry step are made (R100, R102, R131, R245). -/
theorem encStep_full (hb : installed s = some b) (hcap : s.cap = some b.length) (happend : s.Tr = 0xFF ∨ 0 ≤ s.L)
    {p A : BitVec 16} {C : Word} (hp : p.toNat ≤ 0x7FFF) {mps x : Bit} (cx : Option Nat)
    (h : SubInterval p mps x s A C) (ht : 1 ≤ s.t.toNat) (hA : A.toNat * 2 ^ (s.t.toNat - 1) < 0x8000) :
    encStep p mps x cx s = .raised .streamIO { afterCarry { s with C := C <<< s.t.toNat } with
      A := A <<< s.t.toNat, t := 0, ctx := adaptedContexts p mps x cx s } := by
  unfold encStep
  rw [encUpdate_eq hp h]
  exact (renormEnc_full (s := { s with A := A, C := C, ctx := adaptedContexts p mps x cx s }) hb hcap happend ht hA).trans
    (congrArg _ (afterCarry_with { s with C := C <<< s.t.toNat } _ _ _))

/-- Both terminations begin with the same flush, so in a full buffer they fail alike (R200, R201). -/
theorem termination_rule_full (hb : installed s = some b) (hcap : s.cap = some b.length)
    (happend : s.Tr = 0xFF ∨ 0 ≤ s.L) {i : Instr} (hi : i = .terme ∨ i = .termo) :
    rule i s = .raised .streamIO (afterCarry (shiftByCount s)) := by
  have hflush := easyFlush_full hb (bufferFull_of_cap hcap) happend
  rcases hi with rfl | rfl <;> unfold rule <;> dsimp only
  · rw [hflush, bind_raised]
  · rw [optimalFlush_raised hb hflush, bind_raised]

end Full

/-- Where `StreamIO` is answered the rule met a buffer at its capacity; a store in its form holds none beyond it (R242,
R50). -/
theorem exec_streamIO {i : Instr} {s u : State} (hinv : BlockInv s) (hu : exec i s = .next u)
    (hr : u.responses = s.responses ++ [0x20000000]) :
    ((∃ x c, i = .encctx x c) ∨ (∃ x g p, i = .encprb x g p) ∨ i = .terme ∨ i = .termo) ∧ u.mode = .idle ∧
      ∃ (k : Nat) (b : Buffer), s.cap = some k ∧ installed u = some b ∧ b.length = k := by
  have hstore := (exec_inv hinv hu).store
  obtain ⟨hcapu, -, -⟩ := exec_cap_lw_host hu
  obtain ⟨ha, e, w, hw, rfl, he⟩ := raised_of (st := .streamIO) hu hr (.inr rfl)
  rcases rule_raises hinv ha hw with ⟨rfl, -, -⟩ | ⟨rfl, hi, k, b, hcap, hb, hfull⟩
  · cases he
  · have hb' : installed (takeError .streamIO w) = some b := hb
    have hwithin := memory_wf_installed hstore hb'
    rw [hcapu, hcap] at hwithin
    exact ⟨hi, rfl, k, b, hcap, hb', le_antisymm (of_decide_eq_true hwithin) hfull⟩

/-- Settles O49: an error response comes from the rule, and only the append of an encoding rule raises this one; conversely
the first transfer is met after t shifts, or at once by a flush, and cannot append. -/
theorem streamIOCondition : Obligations.StreamIOCondition := by
  refine ⟨fun i s u => exec_streamIO, fun s b hmode hb hcap happend => ⟨?_, ?_, fun i hi => ?_⟩⟩
  · intro x g p A C hp1 hp2 _ ht hupper hlower hA
    rw [exec_encprb_of_raised hmode hp1 hp2 (encStep_full hb hcap happend hp2 none ⟨hupper, hlower⟩ ht hA),
      adaptedContexts_none]
    simp only [takeError_eq, afterCarry_responses, afterCarry_ctx]
    rfl
  · rintro x c e _ A C he rfl _ ht hupper hlower hA
    rw [exec_encctx_of_raised hmode he
      (encStep_full hb hcap happend (stateProb_legal _).2 (some c.toNat) ⟨hupper, hlower⟩ ht hA),
      adaptedContexts_some he]
    simp only [takeError_eq, afterCarry_responses]
    rfl
  · have hadmitted : admission i s = none := (admitted_enc (hi.imp_right .inl)).2 hmode
    rw [exec_of_raised hadmitted (termination_rule_full hb hcap happend hi), takeError_eq, afterCarry_responses]
    rfl

end Sys2Proof.Machine

/-! ## The block always answers (R288, R102, R105) -/

namespace Sys2Proof.Machine

/-- A command word gets its response, but where L has no room for three more (93 U17, log entry 7). -/
theorem takeCommand_answers {s : State} (h : BlockInv s) (w : Word) :
    (∃ u, takeCommand w s = .next u) ∨ ∃ b, installed s = some b ∧ takeCommand w s = .refused .positionOverflow ∧
      positionMax s.lw < b.length + 3 := by
  cases hw : decode w with
  | ok i => rw [takeCommand_of_decode hw]; exact exec_answers h
  | error e => exact .inl ⟨_, takeCommand_illegal ⟨e, hw⟩ s⟩

theorem takeCommand_ne_fault {s : State} (h : BlockInv s) (w : Word) (f : Fault) : takeCommand w s ≠ .fault f := by
  rcases takeCommand_answers h w with ⟨u, hu⟩ | ⟨-, -, hu, -⟩ <;> rw [hu] <;> nofun

theorem issueSequence_ne_fault {s : State} (h : BlockInv s) (ws : List Word) (f : Fault) :
    issueSequence ws s ≠ .fault f := by
  cases ws with
  | nil => nofun
  | cons w rest =>
    unfold issueSequence
    dsimp only
    split
    case h_2 g hg => exact absurd hg (takeCommand_ne_fault h w g)
    all_goals nofun

/-- A host move on a buffer can be refused, but the block does not take part in it (R289). -/
theorem onFreeBuffer_ne_fault {sid : Nat} {s : State} {k : Buffer → Host.Outcome State Fault Refusal} {f : Fault}
    (hk : ∀ b, k b ≠ .fault f) : onFreeBuffer sid s k ≠ .fault f := by
  unfold onFreeBuffer
  split
  · nofun
  · split
    · nofun
    · exact hk _

theorem hostEdit_ne_fault (sid : Nat) (e : BufferEdit) (s : State) (f : Fault) : hostEdit sid e s ≠ .fault f := by
  refine onFreeBuffer_ne_fault fun b => ?_
  split
  · nofun
  · split <;> nofun

theorem hostMove_ne_fault {s : State} (h : BlockInv s) (m : HostMove) (f : Fault) : hostMove m s ≠ .fault f := by
  cases m with
  | issue w => exact takeCommand_ne_fault h w f
  | sequence ws => exact issueSequence_ne_fault h ws f
  | read sid => exact onFreeBuffer_ne_fault fun _ => nofun
  | edit sid e => exact hostEdit_ne_fault sid e s f

theorem step_ne_fault {s : State} (h : BlockInv s) (f : Fault) : step s ≠ .fault f := by
  cases hhost : s.host with
  | nil => unfold step nextMove; rw [hhost]; nofun
  | cons m rest => rw [step_of_host hhost]; exact hostMove_ne_fault (inv_host h) m f

/-- Settles O41: the rules of the commands stick nowhere and lack meaning only where L is out of room; the host's moves on
buffers reach no rule. -/
theorem blockAlwaysAnswers : Obligations.BlockAlwaysAnswers := by
  refine fun s h => ⟨step_ne_fault h, fun hroom w => ?_⟩
  rcases takeCommand_answers h w with hanswer | ⟨b, hb, -, hover⟩
  · exact hanswer
  · exact absurd (hroom b hb) (Int.not_le.2 hover)

end Sys2Proof.Machine

/-! ## What REMB answers is enough for a termination (R280) -/

namespace Sys2Proof.Machine

theorem eq_remainingBytes_of_exec_remb {s : State} {r : BitVec 3} (hmode : s.mode = .enc)
    (h : exec .remb s = .next (answerOnly (responseWord .ok r) s)) : r = remainingBytes s.t := by
  rw [exec_of_done ((admitted_enc (.inr (.inr rfl))).2 hmode) rfl] at h
  have hresponses : s.responses ++ [responseWord .ok (remainingBytes s.t)] = s.responses ++ [responseWord .ok r] :=
    congrArg State.responses (Host.Outcome.next.inj h)
  obtain ⟨-, hr⟩ := responses_append_injective hresponses
  exact hr.symm

/-- REMB answers two more than the transfers of an easy flush: from t = 5 on these are two at most (R177, R200). -/
theorem easyBound_add_two_le {t : BitVec 4} (h : 1 ≤ t.toNat) : easyBound t.toNat + 2 ≤ (remainingBytes t).toNat := by
  unfold remainingBytes
  split
  · exact Nat.add_le_add_right (easyBound_le_two (by omega)) 2
  · exact Nat.add_le_add_right (easyBound_le h) 2

theorem three_le_remainingBytes (t : BitVec 4) : 3 ≤ (remainingBytes t).toNat := by
  rcases remainingBytes_eq t with h | h <;> rw [h] <;> decide

/-- Settles O38: an easy flush needs as many bytes as it has transfers, and TERMO needs no more than its easy flush. -/
theorem rembReservesEnough : Obligations.RembReservesEnough := by
  intro s b r hmode hs hpos hb hremb hroom
  obtain rfl := eq_remainingBytes_of_exec_remb hmode hremb
  have hbound := easyBound_add_two_le hs.countLow
  have hcount := easyBound_le hs.countLow
  constructor
  · obtain ⟨w, d, hw, hf⟩ := easyFlush_completes hs hb (hroom.mono (by omega)) (hpos.mono hcount)
    have hshort := hf.short
    exact ⟨_, d, exec_terme_of_done hmode hw, congrArg (· ++ _) hf.frame.responses, hf.stream, by omega⟩
  · obtain ⟨u, -, -, -, -, -, -, -, -, -, -, -, hu, -, hok, -⟩ :=
      termoKeepsPrefixOfTerme s b hmode hs hb (hroom.mono (three_le_remainingBytes _)) hpos
    exact ⟨u, hu, hok⟩

end Sys2Proof.Machine

/-! ## A restart reads no register of the finished message (R273, R274) -/

namespace Sys2Proof.Machine

/-- Two states that may differ in the registers, the mode, the contexts and the responses, and in nothing else. -/
structure SameStore (s u : State) : Prop where
  cur : u.cur = s.cur
  sm : u.sm = s.sm
  cap : u.cap = s.cap
  lw : u.lw = s.lw
  host : u.host = s.host

theorem SameStore.eq_update {s u : State} (h : SameStore s u) : u = { s with
    A := u.A, C := u.C, t := u.t, Tr := u.Tr, L := u.L, mode := u.mode, ctx := u.ctx, responses := u.responses } := by
  rw [← h.cur, ← h.sm, ← h.cap, ← h.lw, ← h.host]

/-- What RSTDEC makes of two states with the same store: it answers alike, or has no meaning for either. The contexts and
the responses are each state's own, and A too where it meets an error (R172, R245). -/
inductive RestartedAlike (s u : State) : Prop where
  | decoding (v : State) (hmode : v.mode = .dec) (hctx : v.ctx = s.ctx) (hresponses : v.responses = s.responses)
      (hs : exec .rstdec s = .next (respond .ok 0 v))
      (hu : exec .rstdec u = .next (respond .ok 0 { v with ctx := u.ctx, responses := u.responses }))
  | error (e : ExecError) (v : State) (hctx : v.ctx = s.ctx) (hresponses : v.responses = s.responses)
      (hs : exec .rstdec s = .next (takeError e v))
      (hu : exec .rstdec u = .next (takeError e { v with
        A := u.A, mode := u.mode, ctx := u.ctx, responses := u.responses }))
  | refused (r : Refusal) (hs : exec .rstdec s = .refused r) (hu : exec .rstdec u = .refused r)

theorem exec_rstdec_of_refused {s : State} {r : Refusal} (hcur : s.cur ≠ none) (h : startDecoding s = .refused r) :
    exec .rstdec s = .refused r := by
  rw [exec_eq, guarded_admitted ((admitted_restart (.inr rfl)).2 hcur), rule, h]; rfl

theorem SameStore.restartedAlike {s u : State} (h : SameStore s u) (hcur : s.cur ≠ none) : RestartedAlike s u := by
  have hcur' : u.cur ≠ none := h.cur ▸ hcur
  obtain ⟨hdone, hraised⟩ := startDecoding_reads s
  rcases startDecoding_ignores u.A u.C u.t u.Tr u.L u.mode u.ctx u.responses s with
    ⟨v, hs, hu⟩ | ⟨e, v, hs, hu⟩ | ⟨r, hs, hu⟩ <;> rw [← h.eq_update] at hu
  · obtain ⟨hf, hctx⟩ := hdone _ _ hs
    exact .decoding v hf.mode hctx hf.responses (exec_rstdec_of_done hcur hs) (exec_rstdec_of_done hcur' hu)
  · obtain ⟨hf, hctx⟩ := hraised _ _ hs
    exact .error e v hctx hf.responses (exec_rstdec_of_raised hcur hs) (exec_rstdec_of_raised hcur' hu)
  · exact .refused r (exec_rstdec_of_refused hcur hs) (exec_rstdec_of_refused hcur' hu)

theorem exec_rstenc {s : State} (h : s.cur ≠ none) : exec .rstenc s = .next (respond .ok 0 (startEncoding s)) :=
  exec_of_done ((admitted_restart (.inl rfl)).2 h) rfl

/-- RSTENC sets all five registers and the mode (R171). -/
theorem SameStore.exec_rstenc_eq {s u : State} (h : SameStore s u) (hcur : s.cur ≠ none) (hctx : u.ctx = s.ctx)
    (hresponses : u.responses = s.responses) : exec .rstenc u = exec .rstenc s := by
  have hstart : startEncoding u = startEncoding s := by
    unfold startEncoding; rw [h.cur, h.sm, h.cap, h.lw, h.host, hctx, hresponses]
  rw [exec_rstenc hcur, exec_rstenc (h.cur ▸ hcur), hstart]

/-- Settles O52: neither restart keeps anything of the five registers and the mode, but for A where RSTDEC meets an error. -/
theorem restartForgetsThePast : Obligations.RestartForgetsThePast := by
  intro s A C t T L m hcur
  have hsame : SameStore s { s with A := A, C := C, t := t, Tr := T, L := L, mode := m } := ⟨rfl, rfl, rfl, rfl, rfl⟩
  refine ⟨hsame.exec_rstenc_eq hcur rfl rfl, ?_⟩
  cases hsame.restartedAlike hcur with
  | decoding v hmode hctx hresponses hs hu =>
    rw [hs, hu, ← hctx, ← hresponses]
    exact ⟨fun _ hv _ => hv, fun u hv hne => by cases hv; exact absurd hmode hne⟩
  | error e v hctx hresponses hs hu =>
    rw [hs, hu, ← hctx, ← hresponses]
    refine ⟨fun u hv hdec => ?_, fun u hv _ => ?_⟩ <;> cases hv
    · cases hdec
    · rfl
  | refused r hs hu => rw [hs]; exact ⟨nofun, nofun⟩

theorem exec_reset (s : State) : exec .reset s = .next (respond .ok 0 (clearContexts s)) :=
  exec_of_done (admitted_reset s) rfl

theorem rstenc_reset_commute {s a b c d : State} (hcur : s.cur ≠ none) (ha : exec .reset s = .next a)
    (hb : exec .rstenc a = .next b) (hc : exec .rstenc s = .next c) (hd : exec .reset c = .next d) : b = d := by
  rw [exec_reset] at ha hd
  cases ha
  rw [exec_rstenc (s := respond .ok 0 (clearContexts s)) hcur] at hb
  rw [exec_rstenc hcur] at hc
  cases hb; cases hc; cases hd
  rfl

theorem rstdec_reset_commute {s a b c d : State} (hcur : s.cur ≠ none) (ha : exec .reset s = .next a)
    (hb : exec .rstdec a = .next b) (hc : exec .rstdec s = .next c) (hd : exec .reset c = .next d)
    (hmode : b.mode ≠ .idle) : b = d := by
  rw [exec_reset] at ha hd
  cases ha
  have hsame : SameStore s (respond .ok 0 (clearContexts s)) := ⟨rfl, rfl, rfl, rfl, rfl⟩
  cases hsame.restartedAlike hcur with
  | decoding v _ hctx hresponses hs hu =>
    rw [hu] at hb; rw [hs] at hc
    cases hb; cases hc; cases hd
    simp only [respond, clearContexts, hctx, hresponses]
  | error e v _ _ _ hu => rw [hu] at hb; cases hb; exact absurd rfl hmode
  | refused r _ hu => rw [hu] at hb; cases hb

/-- Settles O53: RESET writes the contexts only, and a restart neither reads nor writes them. -/
theorem resetAndRestartCommute : Obligations.ResetAndRestartCommute := by
  rintro s a b c d i (rfl | rfl) hcur ha hb hc hd hmode
  · exact rstenc_reset_commute hcur ha hb hc hd
  · exact rstdec_reset_commute hcur ha hb hc hd hmode

end Sys2Proof.Machine

/-! ## The host's own moves on the store (R277, R289) -/

namespace Sys2Proof.Machine

theorem onFreeBuffer_of_free {sid : Nat} {s : State} {b : Buffer} (hfree : isInstalled sid s = false)
    (hb : s.sm[sid]? = some b) (k : Buffer → Host.Outcome State Fault Refusal) : onFreeBuffer sid s k = k b := by
  unfold onFreeBuffer; rw [hfree, hb]; rfl

theorem onFreeBuffer_of_installed {sid : Nat} {s : State} (h : isInstalled sid s = true)
    (k : Buffer → Host.Outcome State Fault Refusal) : onFreeBuffer sid s k = .refused .hostMoveOnInstalledBuffer := by
  unfold onFreeBuffer; rw [if_pos h]

theorem hostEdit_of_free {sid : Nat} {e : BufferEdit} {s : State} {b c : Buffer} (hfree : isInstalled sid s = false)
    (hb : s.sm[sid]? = some b) (hc : editBuffer e b = some c) (hcap : withinCapacity s.cap c.length = true) :
    hostEdit sid e s = .next { s with sm := s.sm.set sid c } := by
  unfold hostEdit
  rw [onFreeBuffer_of_free hfree hb, hc]
  exact if_pos hcap

/-- Settles O10: a move on a buffer first looks whether it is installed, and an edit then replaces that buffer alone. -/
theorem hostTouchesOnlyFreeBuffers : Obligations.HostTouchesOnlyFreeBuffers := by
  refine ⟨fun s rest sid e b c hhost hfree hb hc hcap => ?_, fun s rest sid b hhost hfree hb => ?_,
    fun s u rest sid e hhost hu => ?_, fun s rest sid hinstalled hhost => ?_⟩
  · exact (step_of_host hhost).trans (hostEdit_of_free hfree hb hc hcap)
  · exact (step_of_host hhost).trans (onFreeBuffer_of_free hfree hb _)
  · rw [step_of_host hhost] at hu
    obtain ⟨hfree, -, c, -, -, -, rfl⟩ := hostEdit_next hu
    exact ⟨hfree, c, rfl⟩
  · rcases hhost with hhost | ⟨e, hhost⟩ <;> exact (step_of_host hhost).trans (onFreeBuffer_of_installed hinstalled _)

end Sys2Proof.Machine

/-! ## Power-on (R270, R272) -/

namespace Sys2Proof.Machine

theorem params_legal_iff {p : Config.Params} : p.legal = true ↔
    p.contexts ≤ 65536 ∧ 1 ≤ p.buffers ∧ p.buffers ≤ 65536 ∧ 2 ≤ p.positionWidth := by
  unfold Config.Params.legal; simp [and_assoc]

/-- After power-on the block is IDLE without a stream, every context is in state 0, and L is in its range. -/
theorem powerOn_inv {p : Config.Params} {sm : Memory} (hp : p.legal = true) (hsm : Memory.wf p.capacity sm = true) :
    BlockInv (State.powerOn p sm) := by
  obtain ⟨hcontexts, -, -, hwidth⟩ := params_legal_iff.1 hp
  have hmax : 1 ≤ positionMax p.positionWidth := one_le_positionMax hwidth
  exact {
    contexts := List.length_replicate.trans_le hcontexts
    width := hwidth
    store := hsm
    handle := nofun
    stream := fun h => absurd rfl h
    positionLow := show -positionMax p.positionWidth - 1 ≤ 0 by omega
    positionHigh := show 0 ≤ positionMax p.positionWidth by omega
    adapting := fun e he => by cases List.eq_of_mem_replicate he; decide
    encode := nofun
    decode := nofun }

/-- Settles O39: the reset state is one of the states after power-on. -/
theorem invAfterPowerOn : Obligations.InvAfterPowerOn :=
  ⟨fun _ _ hp _ hsm => powerOn_inv hp hsm, powerOn_inv (by decide) reset_memory_wf⟩

theorem modeNeeded_ne_idle (i : Instr) : modeNeeded i ≠ some .idle := by cases i <;> nofun

/-- In mode IDLE a command that needs a mode only answers `BadSequence` (R180, R243). -/
theorem exec_idle_badSequence {i : Instr} {s : State} (hidle : s.mode = .idle) (hi : modeNeeded i ≠ none) :
    exec i s = .next (answerOnly 0x40000000 s) := by
  obtain ⟨m, hm⟩ := Option.ne_none_iff_exists'.1 hi
  exact exec_badSequence hm fun h => modeNeeded_ne_idle i (hm.trans (congrArg some (h.symm.trans hidle)))

/-- Settles O51: the commands but RESET, the restarts and CHSTR need a mode, and the restarts a stream. -/
theorem powerOnState : Obligations.PowerOnState := by
  refine fun p sm => ⟨rfl, rfl, rfl, rfl, rfl, fun i hreset hrstenc hrstdec hchstr => ?_, fun i hi => ?_⟩
  · refine exec_idle_badSequence rfl ?_
    cases i with
    | reset => exact absurd rfl hreset
    | rstenc => exact absurd rfl hrstenc
    | rstdec => exact absurd rfl hrstdec
    | chstr z sid => exact absurd rfl (hchstr z sid)
    | encctx | decctx | encprb | decprb | terme | termo | remb => exact Option.some_ne_none _
  · exact exec_restart_refused hi rfl

end Sys2Proof.Machine
